-- ==== Sys2Proof/Word.lean ====
section
/-! DEFINITION. The machine's word types. Every register, buffer word, descriptor word and operand is 32 bits
wide (spec R21, R80); a host-memory cell is one byte (R40). -/

namespace Sys2Proof

/-- A register, a buffer word, a descriptor word, a result (R21, R30, R35, R80). -/
abbrev Word := BitVec 32

/-- A byte of host memory or of the transfer buffer (R40, R63). -/
abbrev Byte := BitVec 8

end Sys2Proof
end

