-- ==== Sys2Proof/Config.lean ====
section
/-! DEFINITION. What an implementation fixes at build time (the record `Cfg` of R6, with its two presets), the
agents and the schedule's entries (R7), and the FREE VALUES: opaque constants with no body, one for each kind of
draw the spec names (R10 `draw`), so that no proof can know a drawn value. -/

namespace Sys2Proof

/-- PRE_W, the width of CLKDIV_PRE: 4 or 13 (R6). -/
inductive PreWidth where
  | four
  | thirteen
  deriving DecidableEq, Repr, Inhabited

/-- WO_MISO_POLICY: what a write-only transfer does to MISO_DLEN (R6, R27). -/
inductive MisoPolicy where
  | omit
  | zero
  deriving DecidableEq, Repr, Inhabited

/-- A bit order, most or least significant bit first (R13, R23). -/
inductive BitOrder where
  | msbFirst
  | lsbFirst
  deriving DecidableEq, Repr, Inhabited

/-- LINK: where received bits come from (R6, R120). -/
inductive LinkKind where
  | external
  | loopback
  deriving DecidableEq, Repr, Inhabited

/-- The implementation parameters of R6. The presets below give the values; `finChanges` is FIN_CHANGES, `callers`
the number of elements of CALLERS, `base` the addresses BASE[i], 32-bit words (DESIGN CHOICE, log entry 22). Plain data: the record is a field of the state that no step writes. -/
structure Cfg where
  nInst : Nat
  preW : PreWidth
  hasCommit : Bool
  woMiso : MisoPolicy
  hasClkGate : Bool
  clkGateStart : Word
  dlenW : Nat
  swapOn : BitOrder
  link : LinkKind
  minCfgL : Nat
  fin0 : Word
  base : List Word
  callers : Nat
  finChanges : List Word
  engineLive : Bool
  deriving DecidableEq, Repr, Inhabited

/-- The REF preset of R6, used by every test vector of the spec. -/
def Cfg.ref : Cfg where
  nInst := 4
  preW := .thirteen
  hasCommit := false
  woMiso := .zero
  hasClkGate := false
  clkGateStart := 0
  dlenW := 24
  swapOn := .lsbFirst
  link := .loopback
  minCfgL := 32
  fin0 := 80000000
  base := [0x10000000, 0x10001000, 0x10002000, 0x10003000]
  callers := 2
  finChanges := []
  engineLive := true

/-- The REF-N preset of R6, the newer-variant behaviours. -/
def Cfg.refN : Cfg :=
  { Cfg.ref with
    preW := .four
    hasCommit := true
    woMiso := .omit
    hasClkGate := true
    clkGateStart := 7 }

/-- An agent of R7: a host caller (by its place in CALLERS), the engine of an instance, or the notifier. The far
end of the bus has no step and is no agent here. -/
inductive Agent where
  | caller (c : Nat)
  | engine (i : Fin 4)
  | notifier
  deriving DecidableEq, Repr, Inhabited

/-- One entry of the schedule: which agent moves, for how many consecutive micro-steps at most (`burst`), whether
the engine an agent polls completes at once when the poll would hold (`prompt`: the schedule then has that engine's
step there), and which of the instances still to be visited the notifier takes next (`pick`). With `burst` = 1 and
`prompt` = false one step of the machine is one micro-step of one agent (R5, R70). Log entry 1. -/
structure Turn where
  agent : Agent
  burst : Nat
  prompt : Bool
  pick : Nat
  deriving DecidableEq, Repr, Inhabited

/-- FREE VALUE: the turn taken when the schedule lists none, the interleaving R70 leaves open. Log entry 1. -/
opaque Config.freeTurn : Nat → Turn

/-- FREE VALUE: a drawn word, read from W[k] while a transaction is in flight (R110, I7). Log entry 2. -/
opaque Config.freeWord : Nat → Word

/-- FREE VALUE: 512 drawn bits, the buffer bits a transaction does not set and the bits a far end sends (R119,
R120, I3, I10). Log entry 2. -/
opaque Config.freeBits : Nat → BitVec 512

/-- FREE VALUE: what W[k] of instance i holds at power-on, drawn once and then held (R46, I6). Log entry 3. -/
opaque Config.powerOnWord : Fin 4 → Fin 16 → Word

/-- FREE VALUE: what the six words of ACT[i] hold at power-on, drawn once and then held (R46, I6), in the order
CLOCK, CTRL, USER, PIN, MOSI_DLEN, MISO_DLEN. Log entry 3. -/
opaque Config.powerOnAct : Fin 4 → Fin 6 → Word

end Sys2Proof
end

