-- ==== Sys2Proof/Syntax.lean ====
section
/-! DEFINITION. The operations of the SMT as syntax: one constructor per row of spec/opcode_table.json (R83), the
command descriptor they are read from (R80) and the names under which a descriptor is rejected (R84). -/

namespace Sys2Proof

/-- A command descriptor: four words D0 D1 D2 D3, never another length (R80, R88). -/
structure Desc where
  d0 : Word
  d1 : Word
  d2 : Word
  d3 : Word
  deriving DecidableEq, Repr, Inhabited

/-- The fields of the header word D0 (R80): OPC [7:0], INST [9:8], NL [10], NULLH [11], reserved [15:12],
IMM16 [31:16]. -/
structure Header where
  opc : BitVec 8
  inst : Fin 4
  nl : Bool
  nullh : Bool
  rsv : BitVec 4
  imm : BitVec 16
  deriving DecidableEq, Repr

/-- A handle operand: the instance INST, and NULLH = 1 for the null handle (R80, R274). -/
structure Handle where
  inst : Fin 4
  null : Bool
  deriving DecidableEq, Repr

/-- Every operation, one constructor per opcode-table row. ARG words keep their 32 bits as the descriptor has them;
`Instr.wellFormed` says which bits must be 0 (R84(f)). MODE is 0..3 and ORDER a bit order (R82). -/
inductive Instr where
  | regRd (i : Fin 4) (off : BitVec 16)
  | regWr (i : Fin 4) (off : BitVec 16) (v : Word)
  | regPoll (i : Fin 4) (off : BitVec 16) (mask : Word)
  | guardAcq (i : Fin 4)
  | guardRel (i : Fin 4)
  | xferNl (i : Fin 4) (nbits : BitVec 16) (fd : Word)
  | start (idx : BitVec 8) (mode : Fin 4) (order : BitOrder) (clk : Word)
  | stop (h : Handle)
  | setClock (h : Handle) (clk : Word)
  | getClock (h : Handle)
  | setMode (h : Handle) (mode : Fin 4)
  | getMode (h : Handle)
  | setOrder (h : Handle) (order : BitOrder)
  | getOrder (h : Handle)
  | csEnable (h : Handle) (mask : BitVec 16)
  | csDisable (h : Handle) (mask : BitVec 16)
  | write (h : Handle) (count : BitVec 16) (ptr : Word)
  | writeNl (h : Handle) (count : BitVec 16) (ptr : Word)
  | transfer (h : Handle) (count : BitVec 16) (ptr : Word)
  | transferNl (h : Handle) (count : BitVec 16) (ptr : Word)
  | writeByte (h : Handle) (v : Word)
  | writeByteNl (h : Handle) (v : Word)
  | transferByte (h : Handle) (v : Word)
  | transferByteNl (h : Handle) (v : Word)
  | writeWord (h : Handle) (v : Word)
  | writeWordNl (h : Handle) (v : Word)
  | transferWord (h : Handle) (v : Word)
  | transferWordNl (h : Handle) (v : Word)
  | writeLong (h : Handle) (v : Word)
  | writeLongNl (h : Handle) (v : Word)
  | transferLong (h : Handle) (v : Word)
  | transferLongNl (h : Handle) (v : Word)
  | transferBytes (h : Handle) (size inp outp : Word)
  | transferBytesNl (h : Handle) (size inp outp : Word)
  | transferBits (h : Handle) (nbits : BitVec 16) (data : Word)
  | transferBitsNl (h : Handle) (nbits : BitVec 16) (data : Word)
  | writePixels (h : Handle) (size ptr : Word)
  | writePixelsNl (h : Handle) (size ptr : Word)
  | freqToDiv (target : Word)
  | divToFreq (clk : Word)
  | beginTxn (h : Handle) (clk : Word) (mode : Fin 4) (order : BitOrder)
  | endTxn (h : Handle)
  | clkBefore (i : Fin 4) (old new : Word)
  | clkAfter (i : Fin 4) (old new : Word)
  deriving DecidableEq, Repr

/-- Why a descriptor is ILLEGAL: the clauses (a) to (f) of R84 by name. Clause (g), the kind of agent, is checked by
the meanings of CLK_BEFORE and CLK_AFTER. -/
inductive Reject where
  | opcode      -- (a) OPC is unassigned
  | noLock      -- (b) NL has a value the row does not admit
  | reserved    -- (c) D0[15:12] is not 0
  | inst        -- (d) INST is not 0 on a row whose INST is 0
  | nullHandle  -- (d) NULLH is 1 on a row whose NULLH is 0
  | imm16       -- (e) an IMM16 bit the row marks 0 is 1
  | argument    -- (f) an ARG word, or a bit of ARG1, that must be 0 is not
  deriving DecidableEq, Repr

/-- What the decoder answers: the operation, or ILLEGAL with the clause that rejects it (R84). -/
inductive Decoded where
  | ok (i : Instr)
  | illegal (r : Reject)
  deriving DecidableEq, Repr

end Sys2Proof
end

