-- ==== Sys2Proof/WellFormed.lean ====
section
/-! DEFINITION. Which operations a descriptor can stand for: the bits of ARG1 that a row marks "= 0" are 0 (R83,
R84(f)). Every other operand field of `Instr` has exactly the width of its descriptor field. -/

namespace Sys2Proof

/-- The bits of ARG1 that are not in `keep` are 0 (R84(f)). -/
def argFits (keep v : Word) : Bool := v &&& ~~~keep == 0

/-- An operation whose ARG1 has no bit set that its row marks "= 0": bytes have [31:8] = 0, words [31:16] = 0, the
FD word of XFER_NL [31:1] = 0 (R83). -/
def Instr.wellFormed : Instr → Bool
  | .xferNl _ _ fd => argFits 0x00000001 fd
  | .writeByte _ v | .writeByteNl _ v | .transferByte _ v | .transferByteNl _ v => argFits 0x000000FF v
  | .writeWord _ v | .writeWordNl _ v | .transferWord _ v | .transferWordNl _ v => argFits 0x0000FFFF v
  | .regRd .. | .regWr .. | .regPoll .. | .guardAcq .. | .guardRel .. | .start .. | .stop .. | .setClock ..
  | .getClock .. | .setMode .. | .getMode .. | .setOrder .. | .getOrder .. | .csEnable .. | .csDisable ..
  | .write .. | .writeNl .. | .transfer .. | .transferNl .. | .writeLong .. | .writeLongNl .. | .transferLong ..
  | .transferLongNl .. | .transferBytes .. | .transferBytesNl .. | .transferBits .. | .transferBitsNl ..
  | .writePixels .. | .writePixelsNl .. | .freqToDiv .. | .divToFreq .. | .beginTxn .. | .endTxn ..
  | .clkBefore .. | .clkAfter .. => true

end Sys2Proof
end

