-- ==== Sys2Proof/Decode.lean ====
section
/-! DEFINITION. The decoder, total on every 128-bit descriptor (R84), its opcode map (R83), and the encoder written
from the same tables (R80 to R83). -/

namespace Sys2Proof

/-- The fields of D0 (R80). -/
def Header.unpack (d0 : Word) : Header where
  opc := d0.extractLsb' 0 8
  inst := (d0.extractLsb' 8 2).toFin
  nl := d0.getLsbD 10
  nullh := d0.getLsbD 11
  rsv := d0.extractLsb' 12 4
  imm := d0.extractLsb' 16 16

/-- D0 from its fields (R80). -/
def Header.pack (h : Header) : Word :=
  (h.imm ++ h.rsv ++ BitVec.ofBool h.nullh ++ BitVec.ofBool h.nl ++ BitVec.ofNat 2 h.inst.val ++ h.opc : BitVec 32)

/-- MODE = IMM16[9:8] (R82). -/
def immMode (imm : BitVec 16) : Fin 4 := (imm.extractLsb' 8 2).toFin

/-- ORDER = IMM16[10]: 0 = MSBFIRST, 1 = LSBFIRST (R82). -/
def immOrder (imm : BitVec 16) : BitOrder := if imm.getLsbD 10 then .lsbFirst else .msbFirst

/-- IDX = IMM16[7:0] (R82). -/
def immIdx (imm : BitVec 16) : BitVec 8 := imm.extractLsb' 0 8

/-- IMM16 of a MODE and an ORDER field over IMM16[7:0] (R82). -/
def packImm (order : BitOrder) (mode : Fin 4) (low : BitVec 8) : BitVec 16 :=
  (0#5 ++ BitVec.ofBool (order == .lsbFirst) ++ BitVec.ofNat 2 mode.val ++ low : BitVec 16)

/-- The handle of a header (R80). -/
def Header.handle (h : Header) : Handle := ⟨h.inst, h.nullh⟩

/-- What an opcode-map row admits (R83): which NL values, whether INST is used, whether NULLH may be 1, and which
bits of IMM16 and of the ARG words may be 1. -/
structure RowForm where
  nl0 : Bool := true
  nl1 : Bool := false
  instUsed : Bool := true
  nullOk : Bool := true
  imm : BitVec 16 := 0
  arg1 : Word := 0
  arg2 : Word := 0
  arg3 : Word := 0
  deriving DecidableEq, Repr

/-- The first clause (b), (d), (e), (f) of R84 that a descriptor breaks on a row. -/
def RowForm.refuses (r : RowForm) (h : Header) (a1 a2 a3 : Word) : Option Reject :=
  if (if h.nl then !r.nl1 else !r.nl0) then some .noLock
  else if !r.instUsed && h.inst != 0 then some .inst
  else if !r.nullOk && h.nullh then some .nullHandle
  else if h.imm &&& ~~~r.imm != 0 then some .imm16
  else if !(argFits r.arg1 a1 && argFits r.arg2 a2 && argFits r.arg3 a3) then some .argument
  else none

/-- An opcode-map entry: what the row admits, and the operation the fields stand for. -/
abbrev RowEntry := RowForm × (Header → Word → Word → Word → Instr)

/-- A raw row: it takes an instance, not a handle, so NULLH must be 0 (R83, R274). -/
def rawRow (imm : BitVec 16) (arg1 arg2 : Word) (f : Header → Word → Word → Word → Instr) : Option RowEntry :=
  some (⟨true, false, true, false, imm, arg1, arg2, 0⟩, f)

/-- A handle row in one form, NL = 0 (R83). -/
def handleRow (imm : BitVec 16) (arg1 : Word) (f : Header → Word → Word → Word → Instr) : Option RowEntry :=
  some (⟨true, false, true, true, imm, arg1, 0, 0⟩, f)

/-- A row with a locked and a no-lock form, NL = 0 and NL = 1 (R83). -/
def dualRow (imm : BitVec 16) (arg1 arg2 arg3 : Word) (locked nolock : Header → Word → Word → Word → Instr) :
    Option RowEntry :=
  some (⟨true, true, true, true, imm, arg1, arg2, arg3⟩,
    fun h a1 a2 a3 => if h.nl then nolock h a1 a2 a3 else locked h a1 a2 a3)

/-- A calculator row: no instance, no handle (R83). -/
def calcRow (f : Header → Word → Word → Word → Instr) : Option RowEntry :=
  some (⟨true, false, false, false, 0, 0xFFFFFFFF, 0, 0⟩, f)

/-- The opcode map of R83; none for an unassigned OPC (R87). -/
def opcodeMap (opc : BitVec 8) : Option RowEntry :=
  match opc.toNat with
  | 0x01 => rawRow 0xFFFF 0 0 fun h _ _ _ => .regRd h.inst h.imm
  | 0x02 => rawRow 0xFFFF 0xFFFFFFFF 0 fun h a1 _ _ => .regWr h.inst h.imm a1
  | 0x03 => rawRow 0xFFFF 0xFFFFFFFF 0 fun h a1 _ _ => .regPoll h.inst h.imm a1
  | 0x04 => rawRow 0 0 0 fun h _ _ _ => .guardAcq h.inst
  | 0x05 => rawRow 0 0 0 fun h _ _ _ => .guardRel h.inst
  | 0x08 => some (⟨false, true, true, false, 0xFFFF, 0x00000001, 0, 0⟩, fun h a1 _ _ => .xferNl h.inst h.imm a1)
  | 0x10 => some (⟨true, false, false, false, 0x07FF, 0xFFFFFFFF, 0, 0⟩,
      fun h a1 _ _ => .start (immIdx h.imm) (immMode h.imm) (immOrder h.imm) a1)
  | 0x11 => handleRow 0 0 fun h _ _ _ => .stop h.handle
  | 0x20 => handleRow 0 0xFFFFFFFF fun h a1 _ _ => .setClock h.handle a1
  | 0x21 => handleRow 0 0 fun h _ _ _ => .getClock h.handle
  | 0x22 => handleRow 0x0300 0 fun h _ _ _ => .setMode h.handle (immMode h.imm)
  | 0x23 => handleRow 0 0 fun h _ _ _ => .getMode h.handle
  | 0x24 => handleRow 0x0400 0 fun h _ _ _ => .setOrder h.handle (immOrder h.imm)
  | 0x25 => handleRow 0 0 fun h _ _ _ => .getOrder h.handle
  | 0x26 => handleRow 0xFFFF 0 fun h _ _ _ => .csEnable h.handle h.imm
  | 0x27 => handleRow 0xFFFF 0 fun h _ _ _ => .csDisable h.handle h.imm
  | 0x30 => dualRow 0xFFFF 0 0xFFFFFFFF 0
      (fun h _ a2 _ => .write h.handle h.imm a2) (fun h _ a2 _ => .writeNl h.handle h.imm a2)
  | 0x31 => dualRow 0xFFFF 0 0xFFFFFFFF 0
      (fun h _ a2 _ => .transfer h.handle h.imm a2) (fun h _ a2 _ => .transferNl h.handle h.imm a2)
  | 0x32 => dualRow 0 0x000000FF 0 0
      (fun h a1 _ _ => .writeByte h.handle a1) (fun h a1 _ _ => .writeByteNl h.handle a1)
  | 0x33 => dualRow 0 0x000000FF 0 0
      (fun h a1 _ _ => .transferByte h.handle a1) (fun h a1 _ _ => .transferByteNl h.handle a1)
  | 0x34 => dualRow 0 0x0000FFFF 0 0
      (fun h a1 _ _ => .writeWord h.handle a1) (fun h a1 _ _ => .writeWordNl h.handle a1)
  | 0x35 => dualRow 0 0x0000FFFF 0 0
      (fun h a1 _ _ => .transferWord h.handle a1) (fun h a1 _ _ => .transferWordNl h.handle a1)
  | 0x36 => dualRow 0 0xFFFFFFFF 0 0
      (fun h a1 _ _ => .writeLong h.handle a1) (fun h a1 _ _ => .writeLongNl h.handle a1)
  | 0x37 => dualRow 0 0xFFFFFFFF 0 0
      (fun h a1 _ _ => .transferLong h.handle a1) (fun h a1 _ _ => .transferLongNl h.handle a1)
  | 0x38 => dualRow 0 0xFFFFFFFF 0xFFFFFFFF 0xFFFFFFFF
      (fun h a1 a2 a3 => .transferBytes h.handle a1 a2 a3) (fun h a1 a2 a3 => .transferBytesNl h.handle a1 a2 a3)
  | 0x39 => dualRow 0xFFFF 0xFFFFFFFF 0 0
      (fun h a1 _ _ => .transferBits h.handle h.imm a1) (fun h a1 _ _ => .transferBitsNl h.handle h.imm a1)
  | 0x3A => dualRow 0 0xFFFFFFFF 0xFFFFFFFF 0
      (fun h a1 a2 _ => .writePixels h.handle a1 a2) (fun h a1 a2 _ => .writePixelsNl h.handle a1 a2)
  | 0x40 => calcRow fun _ a1 _ _ => .freqToDiv a1
  | 0x41 => calcRow fun _ a1 _ _ => .divToFreq a1
  | 0x50 => handleRow 0x0700 0xFFFFFFFF fun h a1 _ _ => .beginTxn h.handle a1 (immMode h.imm) (immOrder h.imm)
  | 0x51 => handleRow 0 0 fun h _ _ _ => .endTxn h.handle
  | 0x60 => rawRow 0 0xFFFFFFFF 0xFFFFFFFF fun h a1 a2 _ => .clkBefore h.inst a1 a2
  | 0x61 => rawRow 0 0xFFFFFFFF 0xFFFFFFFF fun h a1 a2 _ => .clkAfter h.inst a1 a2
  | _ => none

/-- Decode the fields of a descriptor (R84): reserved bits first, then the opcode map, then the row's own clauses. -/
def decodeFields (h : Header) (a1 a2 a3 : Word) : Decoded :=
  if h.rsv != 0 then .illegal .reserved
  else
    match opcodeMap h.opc with
    | none => .illegal .opcode
    | some (form, build) =>
      match form.refuses h a1 a2 a3 with
      | some r => .illegal r
      | none => .ok (build h a1 a2 a3)

/-- The decoder: it reads nothing but the descriptor (R84). -/
def decode (d : Desc) : Decoded := decodeFields (Header.unpack d.d0) d.d1 d.d2 d.d3

/-- A header on an instance with NULLH = 0 and NL = 0 (R80). -/
def rawHeader (opc : BitVec 8) (i : Fin 4) (imm : BitVec 16) : Header := ⟨opc, i, false, false, 0, imm⟩

/-- A header on a handle, with the NL bit (R80). -/
def handleHeader (opc : BitVec 8) (nl : Bool) (h : Handle) (imm : BitVec 16) : Header :=
  ⟨opc, h.inst, nl, h.null, 0, imm⟩

/-- The header and the three ARG words of an operation (R80 to R83). -/
def encodeFields : Instr → Header × Word × Word × Word
  | .regRd i off => (rawHeader 0x01 i off, 0, 0, 0)
  | .regWr i off v => (rawHeader 0x02 i off, v, 0, 0)
  | .regPoll i off mask => (rawHeader 0x03 i off, mask, 0, 0)
  | .guardAcq i => (rawHeader 0x04 i 0, 0, 0, 0)
  | .guardRel i => (rawHeader 0x05 i 0, 0, 0, 0)
  | .xferNl i nbits fd => (⟨0x08, i, true, false, 0, nbits⟩, fd, 0, 0)
  | .start idx mode order clk => (rawHeader 0x10 0 (packImm order mode idx), clk, 0, 0)
  | .stop h => (handleHeader 0x11 false h 0, 0, 0, 0)
  | .setClock h clk => (handleHeader 0x20 false h 0, clk, 0, 0)
  | .getClock h => (handleHeader 0x21 false h 0, 0, 0, 0)
  | .setMode h mode => (handleHeader 0x22 false h (packImm .msbFirst mode 0), 0, 0, 0)
  | .getMode h => (handleHeader 0x23 false h 0, 0, 0, 0)
  | .setOrder h order => (handleHeader 0x24 false h (packImm order 0 0), 0, 0, 0)
  | .getOrder h => (handleHeader 0x25 false h 0, 0, 0, 0)
  | .csEnable h mask => (handleHeader 0x26 false h mask, 0, 0, 0)
  | .csDisable h mask => (handleHeader 0x27 false h mask, 0, 0, 0)
  | .write h count ptr => (handleHeader 0x30 false h count, 0, ptr, 0)
  | .writeNl h count ptr => (handleHeader 0x30 true h count, 0, ptr, 0)
  | .transfer h count ptr => (handleHeader 0x31 false h count, 0, ptr, 0)
  | .transferNl h count ptr => (handleHeader 0x31 true h count, 0, ptr, 0)
  | .writeByte h v => (handleHeader 0x32 false h 0, v, 0, 0)
  | .writeByteNl h v => (handleHeader 0x32 true h 0, v, 0, 0)
  | .transferByte h v => (handleHeader 0x33 false h 0, v, 0, 0)
  | .transferByteNl h v => (handleHeader 0x33 true h 0, v, 0, 0)
  | .writeWord h v => (handleHeader 0x34 false h 0, v, 0, 0)
  | .writeWordNl h v => (handleHeader 0x34 true h 0, v, 0, 0)
  | .transferWord h v => (handleHeader 0x35 false h 0, v, 0, 0)
  | .transferWordNl h v => (handleHeader 0x35 true h 0, v, 0, 0)
  | .writeLong h v => (handleHeader 0x36 false h 0, v, 0, 0)
  | .writeLongNl h v => (handleHeader 0x36 true h 0, v, 0, 0)
  | .transferLong h v => (handleHeader 0x37 false h 0, v, 0, 0)
  | .transferLongNl h v => (handleHeader 0x37 true h 0, v, 0, 0)
  | .transferBytes h size inp outp => (handleHeader 0x38 false h 0, size, inp, outp)
  | .transferBytesNl h size inp outp => (handleHeader 0x38 true h 0, size, inp, outp)
  | .transferBits h nbits data => (handleHeader 0x39 false h nbits, data, 0, 0)
  | .transferBitsNl h nbits data => (handleHeader 0x39 true h nbits, data, 0, 0)
  | .writePixels h size ptr => (handleHeader 0x3A false h 0, size, ptr, 0)
  | .writePixelsNl h size ptr => (handleHeader 0x3A true h 0, size, ptr, 0)
  | .freqToDiv target => (rawHeader 0x40 0 0, target, 0, 0)
  | .divToFreq clk => (rawHeader 0x41 0 0, clk, 0, 0)
  | .beginTxn h clk mode order => (handleHeader 0x50 false h (packImm order mode 0), clk, 0, 0)
  | .endTxn h => (handleHeader 0x51 false h 0, 0, 0, 0)
  | .clkBefore i old new => (rawHeader 0x60 i 0, old, new, 0)
  | .clkAfter i old new => (rawHeader 0x61 i 0, old, new, 0)

/-- The descriptor of an operation (R80 to R83). -/
def encode (i : Instr) : Desc :=
  match encodeFields i with
  | (h, a1, a2, a3) => ⟨h.pack, a1, a2, a3⟩

/-- The descriptor whose bits are w, D0 its bits 31..0 and each later word's bits counting on; bits at and above
nbits are 0. -/
def Desc.ofTableWord (nbits w : Nat) : Desc :=
  let v := w % 2 ^ nbits
  ⟨BitVec.ofNat 32 v, BitVec.ofNat 32 (v / 2 ^ 32), BitVec.ofNat 32 (v / 2 ^ 64), BitVec.ofNat 32 (v / 2 ^ 96)⟩

/-- What the decoder reads from an instruction whose bits are w, numbered as spec/opcode_table.json numbers them. -/
def decodeTableWord (nbits w : Nat) : Option Instr :=
  match decode (Desc.ofTableWord nbits w) with
  | .ok i => some i
  | .illegal _ => none

end Sys2Proof
end

