-- ==== Sys2Proof/Machine/State.lean ====
section
/-! DEFINITION. The state of the SMT as plain data (spec 10_state.md): the register blocks, the engines and guards of
the four instances, the callers, the notifier, host memory, the fault list and the bus log; the model's own schedule
and draw counter; the reasons a step can stop; and the state at power-on (R46, R300). -/

namespace Sys2Proof.Machine

/-- Reasons the MACHINE stops. A fault of the spec (R273) is none of these: it stops one agent, is recorded in
`State.faults`, and the machine goes on. -/
inductive Fault where
  /-- Raised by a meaning when the agent whose turn it is runs no descriptors: an engine, or a caller number outside
  CALLERS. `step` never calls a meaning for such an agent. Safe: the machine stops where the spec has no step. -/
  | noContext
  deriving DecidableEq, Repr

/-- Reasons the model gives a step no meaning. -/
inductive Refusal where
  /-- Raised by an arm of `exec` for an instruction with no meaning yet; no arm does. Safe. -/
  | notModelled (mnemonic : String)
  /-- Raised by `step` for a parameter record that breaks R6's ranges or whose register blocks overlap: the model
  refuses such a configuration (R69). Safe. -/
  | badConfiguration
  deriving DecidableEq, Repr

/-- The engine phase of an instance (R31). -/
inductive Phase where
  | idle
  | commit
  | busy
  deriving DecidableEq, Repr

/-- The registers of a block (R21). -/
inductive Reg where
  | cmd
  | clock
  | ctrl
  | user
  | pin
  | mosiDlen
  | misoDlen
  | clkGate
  | w (k : Fin 16)
  deriving DecidableEq, Repr

/-- The status codes of R270. -/
inductive Status where
  | ok
  | invalidInstance
  | invalidArgument
  | unsupportedConfiguration
  deriving DecidableEq, Repr

/-- The faults of R277, each with the information it records. -/
inductive FaultCause where
  | illegalOp (d0 : Word)
  | unmapped (i : Fin 4) (off : Option (BitVec 16))
  | misaligned (value : Nat)
  | busyWrite (i : Fin 4) (r : Reg)
  | cmdConflict (value : Word)
  | unguarded (i : Fin 4)
  | notStarted (i : Fin 4)
  | dlenOverflow (i : Fin 4) (mosiDlen : Word)
  | notOwner (i : Fin 4)
  deriving DecidableEq, Repr

/-- A fault record (R38, R273); `pc` is none for an engine. -/
structure FaultRecord where
  cause : FaultCause
  agent : Agent
  pc : Option Nat
  deriving DecidableEq, Repr

/-- The six configuration registers that a commit copies (R32). -/
structure RegCfg where
  clock : Word
  ctrl : Word
  user : Word
  pin : Word
  mosiDlen : Word
  misoDlen : Word
  deriving DecidableEq, Repr

/-- A wire event (R39), one per completed transaction. -/
structure WireEvent where
  inst : Fin 4
  fin : Word
  conf : RegCfg
  csDis : BitVec 3
  tx : List Bool
  rx : List Bool
  deriving DecidableEq, Repr

/-- One instance: its register block (R21 to R30; CMD stores nothing, it is read from `phase`), the active
configuration (R32, used when HAS_COMMIT), the engine phase (R31), the guard (R33) and the lifecycle flags (R34). -/
structure Bus where
  conf : RegCfg
  clkGate : Word
  w : Vector Word 16
  act : RegCfg
  phase : Phase
  guardExists : Bool
  owner : Option Agent
  started : Bool
  registered : Bool
  deriving DecidableEq, Repr

/-- The local variable a register read goes to. -/
inductive Local where
  | x
  | y
  deriving DecidableEq, Repr

/-- The micro-steps of R10 as data, each on the instance of its task. `x` and `y` are the operation's local variables
(R35). The last two are loop headers of 43_chunking.md, no micro-steps: they unfold to one chunk and the rest. -/
inductive UOp where
  | wr (r : Reg) (v : Word)                  -- R(i, r) <- v
  | wrX (r : Reg)                            -- R(i, r) <- x
  | wrScalar (n : Nat)                       -- R(i, W[0]) <- (swapcond(y.WR_BIT_ORDER) ? swapN(x, n) : x)
  | wrPix (k : Fin 16)                       -- R(i, W[k]) <- (swapcond(y.WR_BIT_ORDER) ? pix(x) : x)
  | rmw (r : Reg) (clear set : Word)         -- R(i, r) <- (R(i, r) & ~clear) | set
  | rd (r : Reg) (dst : Local)               -- dst <- R(i, r)
  | poll (r : Reg) (mask : Word)             -- hold until (R(i, r) & mask) = 0
  | memRd4 (a : Nat)                         -- x <- MemRead(a, 4)
  | memRd1 (a j : Nat)                       -- byte j of x <- MemRead(a, 1); j = 0 clears the other bytes
  | memWr4 (a : Nat)                         -- MemWrite(a, 4, x)
  | memWr1 (a j : Nat)                       -- MemWrite(a, 1, byte j of x)
  | createGuard                              -- if not guard_exists[i]: guard_exists[i] <- true; owner[i] <- none
  | acquire                                  -- acquire(i)
  | release                                  -- release(i)
  | setRegistered (b : Bool)                 -- registered[i] <- b
  | setStarted (b : Bool)                    -- started[i] <- b
  | solve (target : Word)                    -- x <- solve(fin, target)
  | freq (clk : Word)                        -- x <- freq(fin, clk & wmask(CLOCK))
  | retune (old new : Word)                  -- if freq(old, x) ≠ 0: R(i, CLOCK) <- solve(new, freq(old, x))
  | bytes (inp outp off size : Nat)          -- the loop of TRANSFER_BYTES from byte off on
  | pixels (ptr off size : Nat)              -- the loop of WRITE_PIXELS from byte off on
  deriving DecidableEq, Repr

/-- What an operation returns in RES, from its local variables. -/
inductive Ret where
  | const (v : Word)                         -- v
  | low (mask : Word)                        -- x & mask
  | scalar (n : Nat) (mask : Word)           -- (swapcond(y.RD_BIT_ORDER) ? swapN(x, n) : x) & mask
  | mode                                     -- modeof(x.CK_IDLE_EDGE, y.CK_OUT_EDGE)
  deriving DecidableEq, Repr

/-- An operation in progress, `ustate` of R35: its instance, the micro-steps still to run, its local variables, and
what it will return. -/
structure Task where
  inst : Fin 4
  ops : List UOp
  x : Word
  y : Word
  ret : Ret
  deriving DecidableEq, Repr

/-- The sequencing state of an agent that runs descriptors (R35, R36). -/
structure Ctx where
  pc : Nat
  res : Word
  sts : Status
  task : Option Task
  deriving DecidableEq, Repr

/-- A host caller: its program text and its sequencing state (R35). -/
structure Caller where
  prog : List Desc
  ctx : Ctx
  deriving DecidableEq, Repr

/-- The change the notifier has in progress (R42); `done` is the set S, with no repeats. -/
structure Pending where
  old : Word
  new : Word
  done : List (Fin 4)
  deriving DecidableEq, Repr

/-- Where the notifier stands in the protocol of R251. -/
inductive NotifierPhase where
  | idle                                     -- between changes
  | snapped (old new : Word) (regset : List (Fin 4))  -- REGSET read, `pending` not yet written
  | before (todo : List (Fin 4))             -- CLK_BEFORE still to run on these; the first is running if one is
  | marking (i : Fin 4) (todo : List (Fin 4))  -- CLK_BEFORE of i has completed, i not yet in S
  | after (todo : List (Fin 4))              -- fin changed, CLK_AFTER still to run on these
  deriving DecidableEq, Repr

/-- The notifier (R7(c), R35, R42, R251); `applied` counts the entries of FIN_CHANGES already applied. -/
structure Notifier where
  ctx : Ctx
  phase : NotifierPhase
  pending : Option Pending
  applied : Nat
  deriving DecidableEq, Repr

/-- The state of the machine. `cfg`, the callers' `prog` and the addresses `hm` lists are parameters of the run that no
step changes (R6, R35, R61). `turn`, `sched` and `ticks` are the model's own schedule (log entry 1), `draws` its
counter of drawn values (log entry 2). -/
structure State where
  cfg : Cfg
  fin : Word
  bus : Vector Bus 4
  callers : List Caller
  notifier : Notifier
  hm : List Host.Cell
  faults : List FaultRecord
  wire : List WireEvent
  turn : Turn
  sched : List Turn
  ticks : Nat
  draws : Nat
  deriving DecidableEq, Repr

/-- How an operation begins, once its checks are made: it ends at once with a result, ends at once with a status
(R270), raises a fault (R273), or has micro-steps to run. -/
inductive Opening where
  | ret (v : Word)
  | status (st : Status)
  | trap (c : FaultCause)
  | task (t : Task)
  deriving DecidableEq, Repr

/-- What one micro-step does: it is taken and leaves a state and local variables, it holds (R112, R114, R61), or it
raises a fault (R273). A hold carries the state because each test of a poll is a read micro-step, which may draw. -/
inductive Effect where
  | done (s : State) (x y : Word)
  | hold (s : State)
  | trap (c : FaultCause)
  deriving DecidableEq, Repr

/-- What an agent's turn is about to do. -/
inductive Fetched where
  | nothing                       -- the agent has no step, or does not exist
  | engine (i : Fin 4)            -- a step of the engine of i
  | protocol (s : State)          -- a micro-step of the notifier's own protocol, which leaves s
  | illegal (d : Desc) (s : State)  -- a descriptor the decoder rejects
  | instr (i : Instr) (s : State)   -- an operation to begin or to go on with
  deriving DecidableEq, Repr

/-- Sixteen buffer words. -/
def words16 (f : Fin 16 → Word) : Vector Word 16 :=
  #v[f 0, f 1, f 2, f 3, f 4, f 5, f 6, f 7, f 8, f 9, f 10, f 11, f 12, f 13, f 14, f 15]

/-- The configuration registers at power-on and after STOP: all 0 (R43, R46). -/
def RegCfg.zero : RegCfg := ⟨0, 0, 0, 0, 0, 0⟩

/-- An instance at power-on (R46): CFG registers 0, the buffer and the active configuration drawn, nothing in
flight, no guard, not started. -/
def Bus.powerOn (i : Fin 4) : Bus where
  conf := RegCfg.zero
  clkGate := 0
  w := words16 (Config.powerOnWord i)
  act := ⟨Config.powerOnAct i 0, Config.powerOnAct i 1, Config.powerOnAct i 2, Config.powerOnAct i 3,
    Config.powerOnAct i 4, Config.powerOnAct i 5⟩
  phase := .idle
  guardExists := false
  owner := none
  started := false
  registered := false

/-- The sequencing state at power-on (R46): pc 0, RES 0, STS OK, no operation begun. -/
def Ctx.powerOn : Ctx := ⟨0, 0, .ok, none⟩

/-- The state at power-on under the launch premises of R304: the parameter record, the callers' programs (in the
order of CALLERS; none listed is the empty program), the launch memory, and a schedule. -/
def State.powerOn (cfg : Cfg) (progs : List (List Desc)) (hm : List Host.Cell) (sched : List Turn) : State where
  cfg := cfg
  fin := cfg.fin0
  bus := #v[Bus.powerOn 0, Bus.powerOn 1, Bus.powerOn 2, Bus.powerOn 3]
  callers := (List.range cfg.callers).map fun c => ⟨progs.getD c [], Ctx.powerOn⟩
  notifier := ⟨Ctx.powerOn, .idle, none, 0⟩
  hm := hm
  faults := []
  wire := []
  turn := ⟨.caller 0, 0, false, 0⟩
  sched := sched
  ticks := 0
  draws := 0

/-- The machine right after power-on (R46, R300), the only reset there is (R301): the REF parameters, no program
loaded, no launch memory, no schedule listed. -/
def State.reset : State := State.powerOn Cfg.ref [] [] []

end Sys2Proof.Machine
end

