-- ==== Sys2Proof/Machine/Flags.lean ====
section
/-! DEFINITION. The flags of the machine: CMD.USR and CMD.UPDATE, derived from the engine phase (R29, R31, R37); the
bit-order, duplex, mode and chip-select fields software reads and writes (R22 to R25); the status and fault code
numbers (R270, R277). -/

namespace Sys2Proof.Machine

/-- The read value of CMD: UPDATE (bit 1) is 1 exactly in COMMIT, USR (bit 0) exactly in BUSY (R31). -/
def cmdValue : Phase → Word
  | .idle => 0
  | .busy => 1
  | .commit => 2

/-- CMD.USR of a written value (R29). -/
def cmdUsr (v : Word) : Bool := v.getLsbD 0

/-- CMD.UPDATE of a written value; without HAS_COMMIT bit 1 is reserved and ignored (R29, R111). -/
def cmdUpdate (cfg : Cfg) (v : Word) : Bool := cfg.hasCommit && v.getLsbD 1

/-- A bit-order bit: 0 = MSB first, 1 = LSB first (R23). -/
def orderOfBit (b : Bool) : BitOrder := if b then .lsbFirst else .msbFirst

/-- CTRL.WR_BIT_ORDER (R23). -/
def wrOrder (ctrl : Word) : BitOrder := orderOfBit (ctrl.getLsbD 0)

/-- CTRL.RD_BIT_ORDER (R23). -/
def rdOrder (ctrl : Word) : BitOrder := orderOfBit (ctrl.getLsbD 1)

/-- USER.DOUTDIN (R24). -/
def doutdin (user : Word) : Bool := user.getLsbD 0

/-- USER.CK_OUT_EDGE (R24). -/
def ckOutEdge (user : Word) : Bool := user.getLsbD 1

/-- PIN.CK_IDLE_EDGE (R25). -/
def ckIdleEdge (pin : Word) : Bool := pin.getLsbD 0

/-- PIN.CS_DIS (R25). -/
def csDis (pin : Word) : BitVec 3 := pin.extractLsb' 1 3

/-- The number of a status (R270). -/
def statusCode : Status → Nat
  | .ok => 0
  | .invalidInstance => 1
  | .invalidArgument => 2
  | .unsupportedConfiguration => 3

/-- The number of a fault (R277). -/
def faultCode : FaultCause → Nat
  | .illegalOp _ => 1
  | .unmapped .. => 2
  | .misaligned _ => 3
  | .busyWrite .. => 4
  | .cmdConflict _ => 5
  | .unguarded _ => 6
  | .notStarted _ => 7
  | .dlenOverflow .. => 8
  | .notOwner _ => 9

end Sys2Proof.Machine
end

