-- ==== Sys2Proof/Machine/Operands.lean ====
section
/-! DEFINITION. Operand assembly: the data-mode table (R248), CLOCK words (R22, R86), the byte permutations and
when they apply (R173, R174), the wire order and the packing of the buffer (R30, R63, R64). -/

namespace Sys2Proof.Machine

/-- The data-mode table: (CK_IDLE_EDGE, CK_OUT_EDGE) of a mode (R248). -/
def modeBits (m : Fin 4) : Bool × Bool :=
  match m with
  | 0 => (false, false)
  | 1 => (false, true)
  | 2 => (true, true)
  | 3 => (true, false)

/-- The inverse of the data-mode table (R248). -/
def modeOf (idle out : Bool) : Word :=
  match idle, out with
  | false, false => 0
  | false, true => 1
  | true, true => 2
  | true, false => 3

/-- The two bit-order bits of CTRL for one order (R236). -/
def orderBits : BitOrder → Word
  | .msbFirst => 0x0
  | .lsbFirst => 0x3

/-- A one-bit field value at bit k. -/
def bitAt (k : Nat) (b : Bool) : Word := if b then 1#32 <<< k else 0

/-- PRE_W in bits (R6). -/
def preBits : PreWidth → Nat
  | .four => 4
  | .thirteen => 13

/-- PRE_MAX = 2^PRE_W − 1 (R6). -/
def preMax (p : PreWidth) : Nat := 2 ^ preBits p - 1

/-- A CLOCK word from its fields (R86). -/
def clockword (pre n h l eq : Nat) : Word :=
  BitVec.ofNat 32 (eq * 2 ^ 31 + pre * 2 ^ 18 + n * 2 ^ 12 + h * 2 ^ 6 + l)

/-- CLOCK.CLKCNT_L (R22). -/
def clkcntL (w : Word) : Nat := (w.extractLsb' 0 6).toNat

/-- CLOCK.CLKCNT_H (R22). -/
def clkcntH (w : Word) : Nat := (w.extractLsb' 6 6).toNat

/-- CLOCK.CLKCNT_N (R22). -/
def clkcntN (w : Word) : Nat := (w.extractLsb' 12 6).toNat

/-- CLOCK.CLKDIV_PRE, bits [17+PRE_W:18] (R22). -/
def clkdivPre (p : PreWidth) (w : Word) : Nat := (w.extractLsb' 18 (preBits p)).toNat

/-- CLOCK.CLK_EQU_SYSCLK (R22). -/
def clkEquSysclk (w : Word) : Bool := w.getLsbD 31

/-- b_k = v[8k+7:8k] (R173). -/
def byteAt (v : Word) (k : Nat) : Byte := v.extractLsb' (8 * k) 8

/-- Four bytes as a word, the first the most significant (`++` of R8). -/
def ofBytes (a b c d : Byte) : Word := (a ++ b ++ c ++ d : BitVec 32)

/-- swap16: the low two bytes reversed, the rest 0 (R173). -/
def swap16 (v : Word) : Word := ofBytes 0 0 (byteAt v 0) (byteAt v 1)

/-- swap24: the low three bytes reversed, the rest 0 (R173). -/
def swap24 (v : Word) : Word := ofBytes 0 (byteAt v 0) (byteAt v 1) (byteAt v 2)

/-- swap32: all four bytes reversed (R173). -/
def swap32 (v : Word) : Word := ofBytes (byteAt v 0) (byteAt v 1) (byteAt v 2) (byteAt v 3)

/-- pix: the two bytes inside each 16-bit half swapped, never unified with swap32 (R173, R175). -/
def pix (v : Word) : Word := ofBytes (byteAt v 2) (byteAt v 3) (byteAt v 0) (byteAt v 1)

/-- swapN(v, n), n = 1..4 bytes (R173); swapN(v, 1) keeps the low byte. -/
def swapN (v : Word) (n : Nat) : Word :=
  match n with
  | 1 => ofBytes 0 0 0 (byteAt v 0)
  | 2 => swap16 v
  | 3 => swap24 v
  | _ => swap32 v

/-- When values are permuted: under the bit order SWAP_ON names (R174). -/
def swapcond (cfg : Cfg) (o : BitOrder) : Bool := o == cfg.swapOn

/-- pos(k, o): the buffer bit that wire position k stands for (R64). -/
def wirePos (k : Nat) (o : BitOrder) : Nat :=
  8 * (k / 8) + (match o with
    | .msbFirst => 7 - k % 8
    | .lsbFirst => k % 8)

/-- bufbit(b) = W[b/32][b mod 32] (R64); false past the buffer's 512 bits, which no rule reads. -/
def bufBit (w : Vector Word 16) (b : Nat) : Bool :=
  if h : b / 32 < 16 then (w[b / 32]'h).getLsbD (b % 32) else false

/-- The number whose bits 0..n−1 are given. -/
def natOfBits (f : Nat → Bool) : Nat → Nat
  | 0 => 0
  | n + 1 => natOfBits f n + if f n then 2 ^ n else 0

/-- The buffer whose 512 bits are given: W[k][j] is bit 32k + j (R64, R119). -/
def bufOfBits (f : Nat → Bool) : Vector Word 16 :=
  words16 fun k => BitVec.ofNat 32 (natOfBits (fun j => f (32 * k.val + j)) 32)

/-- x with its byte j set to b; j = 0 starts a new word, the other bytes 0 (R210, R215: x <- x + byte·2^(8j)). -/
def addByte (x : Word) (b : Byte) (j : Nat) : Word :=
  (if j = 0 then 0 else x) + (b.setWidth 32 <<< (8 * j))

/-- n ones: the mask 2^n − 1 (R188). -/
def lowMask (n : Nat) : Word := BitVec.ofNat 32 (2 ^ n - 1)

end Sys2Proof.Machine
end

