-- ==== Sys2Proof/Machine/Regs.lean ====
section
/-! DEFINITION. The register model: the map of a block (R21), the writable-bit masks (R113), reading and writing one
register (R110, R111), the configuration a transaction uses (R117), and which parameter records the model accepts
(R6, R69). Every read and write of a register goes through `readReg` and `writeReg`. -/

namespace Sys2Proof.Machine

/-- The register at a byte offset; none where the block is unmapped (R21). -/
def regAt (cfg : Cfg) (off : Nat) : Option Reg :=
  match off with
  | 0x00 => some .cmd
  | 0x04 => some .clock
  | 0x08 => some .ctrl
  | 0x0C => some .user
  | 0x10 => some .pin
  | 0x14 => some .mosiDlen
  | 0x18 => some .misoDlen
  | 0x1C => if cfg.hasClkGate then some .clkGate else none
  | off =>
    if h : 0x40 ≤ off ∧ off < 0x80 ∧ off % 4 = 0 then some (.w ⟨(off - 0x40) / 4, by omega⟩) else none

/-- The byte address of a register offset of instance i: BASE[i] + offset (R76, R86). -/
def regAddress (cfg : Cfg) (i : Fin 4) (off : Nat) : Nat := (cfg.base.getD i.val 0).toNat + off

/-- The writable-bit masks of R113 (CMD stores nothing). -/
def wmask (cfg : Cfg) : Reg → Word
  | .cmd => 0
  | .clock =>
    match cfg.preW with
    | .thirteen => 0xFFFFFFFF
    | .four => 0x803FFFFF
  | .ctrl => 0x00000003
  | .user => 0x00000003
  | .pin => 0x0000000F
  | .mosiDlen => lowMask cfg.dlenW
  | .misoDlen => lowMask cfg.dlenW
  | .clkGate => 0xFFFFFFFF
  | .w _ => 0xFFFFFFFF

/-- Instance i. -/
def State.getBus (s : State) (i : Fin 4) : Bus := s.bus[i.val]'i.isLt

/-- Instance i changed by f. -/
def State.updBus (s : State) (i : Fin 4) (f : Bus → Bus) : State :=
  { s with bus := s.bus.set i.val (f (s.getBus i)) i.isLt }

/-- n values drawn (R10 `draw`). -/
def State.addDraws (s : State) (n : Nat) : State := { s with draws := s.draws + n }

/-- stored(i, NAME): what the register holds (R110). -/
def Bus.stored (b : Bus) : Reg → Word
  | .cmd => cmdValue b.phase
  | .clock => b.conf.clock
  | .ctrl => b.conf.ctrl
  | .user => b.conf.user
  | .pin => b.conf.pin
  | .mosiDlen => b.conf.mosiDlen
  | .misoDlen => b.conf.misoDlen
  | .clkGate => b.clkGate
  | .w k => b.w[k.val]'k.isLt

/-- stored(i, NAME) <- v; CMD stores nothing (R111). -/
def Bus.store (b : Bus) (r : Reg) (v : Word) : Bus :=
  match r with
  | .cmd => b
  | .clock => { b with conf := { b.conf with clock := v } }
  | .ctrl => { b with conf := { b.conf with ctrl := v } }
  | .user => { b with conf := { b.conf with user := v } }
  | .pin => { b with conf := { b.conf with pin := v } }
  | .mosiDlen => { b with conf := { b.conf with mosiDlen := v } }
  | .misoDlen => { b with conf := { b.conf with misoDlen := v } }
  | .clkGate => { b with clkGate := v }
  | .w k => { b with w := b.w.set k.val v k.isLt }

/-- The read value of a register that is not a draw: CMD from the phase, else stored & wmask (R110). -/
def Bus.view (b : Bus) (cfg : Cfg) (r : Reg) : Word :=
  match r with
  | .cmd => cmdValue b.phase
  | r => b.stored r &&& wmask cfg r

/-- readReg (R110): W[k] while a transaction is in flight is a draw; no read changes a register (R68). -/
def readReg (i : Fin 4) (r : Reg) (s : State) : Word × State :=
  match r, (s.getBus i).phase with
  | .w _, .busy => (Config.freeWord s.draws, s.addDraws 1)
  | r, _ => ((s.getBus i).view s.cfg r, s)

/-- The write of R111: BUSY_WRITE while a commit or a transaction is in flight, CMD_CONFLICT for USR and UPDATE
together; a write of CMD starts a transaction or a commit or does nothing; any other write stores the writable bits. -/
def writeReg (i : Fin 4) (r : Reg) (v x y : Word) (s : State) : Effect :=
  if (s.getBus i).phase ≠ .idle then .trap (.busyWrite i r)
  else
    match r with
    | .cmd =>
      if cmdUsr v && cmdUpdate s.cfg v then .trap (.cmdConflict v)
      else if cmdUsr v then .done (s.updBus i fun b => { b with phase := .busy }) x y
      else if cmdUpdate s.cfg v then .done (s.updBus i fun b => { b with phase := .commit }) x y
      else .done s x y
    | r => .done (s.updBus i fun b => b.store r (v &&& wmask s.cfg r)) x y

/-- A configuration as its registers read: reserved bits 0 (R110, R113). -/
def RegCfg.masked (c : RegCfg) (cfg : Cfg) : RegCfg where
  clock := c.clock &&& wmask cfg .clock
  ctrl := c.ctrl &&& wmask cfg .ctrl
  user := c.user &&& wmask cfg .user
  pin := c.pin &&& wmask cfg .pin
  mosiDlen := c.mosiDlen &&& wmask cfg .mosiDlen
  misoDlen := c.misoDlen &&& wmask cfg .misoDlen

/-- C(i), the configuration a transaction uses: ACT when HAS_COMMIT, else the live registers (R117, R32), its reserved
bits 0. DESIGN CHOICE for the ACT drawn at power-on, which R46 calls a draw and gives no reserved bits: masked here, so
that n, the wire event and DLEN_OVERFLOW's record read it as registers read (log entry 23). Every ACT that a commit
has written has them 0 already. -/
def Bus.txnCfg (b : Bus) (cfg : Cfg) : RegCfg := (if cfg.hasCommit then b.act else b.conf).masked cfg

/-- The configuration register set CFG of R43, in its order there. -/
def cfgRegs (cfg : Cfg) : List Reg :=
  [.clock, .ctrl, .user, .pin, .mosiDlen, .misoDlen] ++ if cfg.hasClkGate then [.clkGate] else []

/-- Two register blocks of 0x80 bytes do not overlap (R21, R69). DESIGN CHOICE: R6, R21 and R69 do not say whether a
block may run past 2^32; it may here, and it does not wrap round to address 0 (log entry 22). -/
def blocksApart (a b : Word) : Bool := a.toNat + 0x80 ≤ b.toNat || b.toNat + 0x80 ≤ a.toNat

/-- No two of these blocks overlap (R69). -/
def allApart : List Word → Bool
  | [] => true
  | a :: rest => rest.all (blocksApart a) && allApart rest

/-- The parameter records the model accepts: R6's ranges, a base for each instance, and no two blocks overlapping
(R69). DESIGN CHOICE: a base is any 32-bit word, aligned or not, and a block that runs past 2^32 is accepted (log
entry 22). -/
def cfgOk (cfg : Cfg) : Bool :=
  decide (1 ≤ cfg.nInst ∧ cfg.nInst ≤ 4) && decide (9 ≤ cfg.dlenW ∧ cfg.dlenW ≤ 24) &&
  (cfg.minCfgL == 0 || cfg.minCfgL == 32) && cfg.fin0 != 0 && cfg.finChanges.all (· != 0) &&
  cfg.base.length == cfg.nInst && allApart cfg.base

end Sys2Proof.Machine
end

