-- ==== Sys2Proof/Machine/Engine.lean ====
section
/-! DEFINITION. The engine agent of an instance (R117): the commit step (R118) and the transaction-completion step
(R119), with the received bits of R120. -/

namespace Sys2Proof.Machine

/-- An agent that has recorded a fault has no step for the rest of the run (R273). -/
def State.stopped (s : State) (a : Agent) : Bool := s.faults.any fun f => f.agent == a

/-- wire.append (R39, R119). -/
def State.addWire (s : State) (e : WireEvent) : State := { s with wire := s.wire ++ [e] }

/-- Record a fault of an agent; nothing else changes (R273). -/
def State.record (s : State) (c : FaultCause) (a : Agent) (pc : Option Nat) : State :=
  { s with faults := s.faults ++ [⟨c, a, pc⟩] }

/-- The engine of i has a step: a commit or a transaction is in flight and the engine has not faulted (R117). -/
def State.engineReady (s : State) (i : Fin 4) : Bool :=
  (s.getBus i).phase != .idle && !s.stopped (.engine i)

/-- Received bit k (R120): the transmitted bit under LOOPBACK, a draw under EXTERNAL. -/
def rxBit (link : LinkKind) (tx : Nat → Bool) (far : BitVec 512) (k : Nat) : Bool :=
  match link with
  | .loopback => tx k
  | .external => far.getLsbD k

/-- The buffer after a transaction of n bits (R119): received bit k lands at its read-order position when the length
matches and DOUTDIN is set; every other bit is the draw `nb`. (`wirePos` is its own inverse, so the wire position of
buffer bit b is wirePos b.) -/
def bufAfter (c : RegCfg) (n : Nat) (rx : Nat → Bool) (nb : BitVec 512) : Vector Word 16 :=
  bufOfBits fun b =>
    if doutdin c.user && decide (c.misoDlen.toNat + 1 = n) && decide (wirePos b (rdOrder c.ctrl) < n)
    then rx (wirePos b (rdOrder c.ctrl)) else nb.getLsbD b

/-- The commit step (R118). -/
def commitStep (i : Fin 4) (s : State) : State :=
  s.updBus i fun b => { b with act := b.conf, phase := .idle }

/-- The transaction-completion step (R119), one atomic step. -/
def completeStep (i : Fin 4) (s : State) : State :=
  let c := (s.getBus i).txnCfg s.cfg
  let n := c.mosiDlen.toNat + 1
  if 512 < n then s.record (.dlenOverflow i c.mosiDlen) (.engine i) none
  else
    let tx := fun k => bufBit (s.getBus i).w (wirePos k (wrOrder c.ctrl))
    let rx := rxBit s.cfg.link tx (Config.freeBits (s.draws + 1))
    ((s.updBus i fun b => { b with w := bufAfter c n rx (Config.freeBits s.draws), phase := .idle }).addWire
      ⟨i, s.fin, c, csDis c.pin, (List.range n).map tx, (List.range n).map rx⟩).addDraws 2

/-- The step of the engine of i; an engine with no step leaves the state (R117). -/
def engineStep (i : Fin 4) (s : State) : State :=
  if s.engineReady i then
    match (s.getBus i).phase with
    | .idle => s
    | .commit => commitStep i s
    | .busy => completeStep i s
  else s

end Sys2Proof.Machine
end

