-- ==== Sys2Proof/Machine/Memory.lean ====
section
/-! DEFINITION. Host memory HM (R40, R61, R62): a partial map from 32-bit byte addresses to bytes, kept as a list of
cells in one canonical form, addresses strictly rising. An address the list does not hold is outside the launch
memory: it reads as nothing, and a write to it does not happen. -/

namespace Sys2Proof.Machine

/-- The byte at address a, none outside the launch memory or past the 32-bit addresses (R61). -/
def memByte (hm : List Host.Cell) (a : Nat) : Option Byte :=
  match hm with
  | [] => none
  | (b, v) :: rest => if a = b ∧ a < 2 ^ 32 then some v else memByte rest a

/-- Store a byte at an address the launch memory holds (R61); elsewhere the memory is unchanged. -/
def memSet (hm : List Host.Cell) (a : Nat) (v : Byte) : List Host.Cell :=
  match hm with
  | [] => []
  | (b, u) :: rest => if a = b then (b, v) :: rest else (b, u) :: memSet rest a v

/-- MemRead(a, 4), little-endian; none if any of the bytes is outside the launch memory (R61, R62). -/
def memRead4 (hm : List Host.Cell) (a : Nat) : Option Word :=
  match memByte hm a, memByte hm (a + 1), memByte hm (a + 2), memByte hm (a + 3) with
  | some b0, some b1, some b2, some b3 => some (ofBytes b3 b2 b1 b0)
  | _, _, _, _ => none

/-- MemWrite(a, 1, v); none if the byte is outside the launch memory (R61). -/
def memWrite1 (hm : List Host.Cell) (a : Nat) (v : Byte) : Option (List Host.Cell) :=
  match memByte hm a with
  | some _ => some (memSet hm a v)
  | none => none

/-- MemWrite(a, 4, v), little-endian, one access: none, and nothing written, if any of the bytes is outside the
launch memory (R61, R62, R67). -/
def memWrite4 (hm : List Host.Cell) (a : Nat) (v : Word) : Option (List Host.Cell) :=
  match memRead4 hm a with
  | some _ =>
    some (memSet (memSet (memSet (memSet hm a (byteAt v 0)) (a + 1) (byteAt v 1)) (a + 2) (byteAt v 2))
      (a + 3) (byteAt v 3))
  | none => none

/-- Addresses strictly above `lo`, strictly rising, and all 32-bit. -/
def risingAbove : Option Nat → List Host.Cell → Bool
  | _, [] => true
  | lo, (a, _) :: rest =>
    (match lo with
      | none => true
      | some l => decide (l < a)) && decide (a < 2 ^ 32) && risingAbove (some a) rest

/-- The canonical form of host memory: addresses strictly rising and below 2^32. No entry equals what an unlisted
address reads as, since an unlisted address reads as nothing. -/
def Memory.wf (hm : List Host.Cell) : Bool := risingAbove none hm

end Sys2Proof.Machine
end

