-- ==== Sys2Proof/Machine/Solver.lean ====
section
/-! DEFINITION. The clock-divider calculator (41_clock_divider.md): the frequency decoder `freq` (R141), the two fixed
configurations (R142) and the two-stage integer divider solver `solve` (R143 to R145). It holds no state (R140). -/

namespace Sys2Proof.Machine

/-- freq(fin, w), the achieved bus frequency of a CLOCK word (R141). -/
def freqOf (p : PreWidth) (fin : Nat) (w : Word) : Nat :=
  if clkEquSysclk w then fin else fin / ((clkdivPre p w + 1) * (clkcntN w + 1))

/-- BYPASS (R142). -/
def bypassWord : Word := clockword 0 0 0 0 1

/-- MINCFG, the clamped minimum-frequency configuration (R142). -/
def minCfgWord (cfg : Cfg) : Word := clockword (preMax cfg.preW) 63 0 cfg.minCfgL 0

/-- minFreq(fin) = fin / ((PRE_MAX+1) · 64) (R142). -/
def minFreq (p : PreWidth) (fin : Nat) : Nat := fin / ((preMax p + 1) * 64)

/-- |a − b| (R9). -/
def absDiff (a b : Nat) : Nat := (a - b) + (b - a)

/-- The search state of R143: `best`, its frequency, and whether an exact match ended the inner loop. -/
structure Search where
  best : Word
  bestF : Nat
  exact : Bool
  deriving DecidableEq, Repr

/-- The estimate of R143, clamped to the field: (fin/(n+1))/t − 1 + v, below 0 to 0 and above PRE_MAX to PRE_MAX. -/
def probePre (p : PreWidth) (fin t n : Nat) (v : Int) : Nat :=
  min (((fin / (n + 1) / t : Nat) : Int) - 1 + v).toNat (preMax p)

/-- One probe of the inner loop (R143); after an exact match the loop has ended. -/
def probe (p : PreWidth) (fin t n : Nat) (b : Search) (v : Int) : Search :=
  if b.exact then b
  else
    let pre := probePre p fin t n v
    let cand := clockword pre n 0 ((n + 1) / 2) 0
    let f := fin / ((pre + 1) * (n + 1))
    if f = t then ⟨cand, b.bestF, true⟩
    else if f < t ∧ absDiff t f < absDiff t b.bestF then ⟨cand, f, false⟩
    else b

/-- The four neighbouring values probed, in order (R143). -/
def probeSteps : List Int := [-1, 0, 1, 2]

/-- The outer loop of R143 over the given CLKCNT_N values, ended by an exact match. -/
def search (p : PreWidth) (fin t : Nat) : List Nat → Search → Search
  | [], b => b
  | n :: ns, b =>
    let b' := probeSteps.foldl (probe p fin t n) b
    if b'.exact then b' else search p fin t ns b'

/-- solve(fin, t) for t ≥ 1 (R143); t = 0 is rejected before the solver is asked (R146, R250). -/
def solveWord (cfg : Cfg) (fin t : Nat) : Word :=
  if fin ≤ t then bypassWord
  else if t < minFreq cfg.preW fin then minCfgWord cfg
  else (search cfg.preW fin t (List.range' 1 63) ⟨0, 0, false⟩).best

end Sys2Proof.Machine
end

