-- ==== Sys2Proof/Machine/Ops.lean ====
section
/-! DEFINITION. The shared operations: the running agent and its sequencing state, raising a fault (R273: the
machine's one exception; R276 gives it no handler and no return), ending an operation (R36, R270), one micro-step
(R10), running micro-steps (R5), the transaction sequence `xfer` (R170) and the prologues of the operations (R172,
R274, R275). -/

namespace Sys2Proof.Machine

/-- `self`, the agent whose turn it is (R11). -/
def State.cur (s : State) : Agent := s.turn.agent

/-- The sequencing state of the running agent; none for an engine or an agent that does not exist (R35). -/
def State.ctx? (s : State) : Option Ctx :=
  match s.turn.agent with
  | .caller c => s.callers[c]?.map Caller.ctx
  | .notifier => some s.notifier.ctx
  | .engine _ => none

/-- The sequencing state of the running agent changed by f. -/
def State.updCtx (f : Ctx → Ctx) (s : State) : State :=
  match s.turn.agent with
  | .caller c => { s with callers := s.callers.modify c fun k => { k with ctx := f k.ctx } }
  | .notifier => { s with notifier := { s.notifier with ctx := f s.notifier.ctx } }
  | .engine _ => s

/-- TAKING AN EXCEPTION: `raise Fault(F)` by the running agent (R273): the record (F, agent, pc) is appended; pc, the
guard it holds and the effects of earlier micro-steps stay; the agent has no further step (`State.stopped`). There is no
handler and no return from a fault (R276). -/
def State.raise (c : FaultCause) (s : State) : State := s.record c s.cur (s.ctx?.map Ctx.pc)

/-- The operation ends (R36, R270): RES and STS are written, pc advances by 1, no operation is in progress. -/
def State.finish (st : Status) (v : Word) (s : State) : State :=
  s.updCtx fun c => { pc := c.pc + 1, res := v, sts := st, task := none }

/-- The position inside the operation, kept between the agent's steps (R35). -/
def State.save (t : Task) (s : State) : State := s.updCtx fun c => { c with task := some t }

/-- A local variable set by a read. -/
def setLocal (dst : Local) (v x y : Word) (s : State) : Effect :=
  match dst with
  | .x => .done s v y
  | .y => .done s x v

/-- Host memory after a write (R61). -/
def State.setHm (s : State) (hm : List Host.Cell) : State := { s with hm := hm }

/-- acquire(i) (R114): NOT_STARTED if the guard was never created; a hold while any agent owns it, the running agent
included (then for ever); else the running agent becomes the owner, atomically with the test. -/
def acquireGuard (i : Fin 4) (x y : Word) (s : State) : Effect :=
  if !(s.getBus i).guardExists then .trap (.notStarted i)
  else
    match (s.getBus i).owner with
    | some _ => .hold s
    | none => .done (s.updBus i fun b => { b with owner := some s.cur }) x y

/-- release(i) (R115): NOT_OWNER if the running agent does not hold the guard. -/
def releaseGuard (i : Fin 4) (x y : Word) (s : State) : Effect :=
  if (s.getBus i).owner = some s.cur then .done (s.updBus i fun b => { b with owner := none }) x y
  else .trap (.notOwner i)

/-- One micro-step of an operation on instance i with local variables x and y (R10). Loop headers are unfolded before
they are reached (`settle`). -/
def perform (op : UOp) (i : Fin 4) (x y : Word) (s : State) : Effect :=
  match op with
  | .wr r v => writeReg i r v x y s
  | .wrX r => writeReg i r x x y s
  | .wrScalar n => writeReg i (.w 0) (if swapcond s.cfg (wrOrder y) then swapN x n else x) x y s
  | .wrPix k => writeReg i (.w k) (if swapcond s.cfg (wrOrder y) then pix x else x) x y s
  | .rmw r clear set => writeReg i r (((s.getBus i).view s.cfg r &&& ~~~clear) ||| set) x y s
  | .rd r dst => setLocal dst (readReg i r s).1 x y (readReg i r s).2
  | .poll r mask =>
    if (readReg i r s).1 &&& mask = 0 then .done (readReg i r s).2 x y else .hold (readReg i r s).2
  | .memRd4 a =>
    match memRead4 s.hm a with
    | some v => .done s v y
    | none => .hold s
  | .memRd1 a j =>
    match memByte s.hm a with
    | some b => .done s (addByte x b j) y
    | none => .hold s
  | .memWr4 a =>
    match memWrite4 s.hm a x with
    | some hm => .done (s.setHm hm) x y
    | none => .hold s
  | .memWr1 a j =>
    match memWrite1 s.hm a (byteAt x j) with
    | some hm => .done (s.setHm hm) x y
    | none => .hold s
  | .createGuard =>
    if (s.getBus i).guardExists then .done s x y
    else .done (s.updBus i fun b => { b with guardExists := true, owner := none }) x y
  | .acquire => acquireGuard i x y s
  | .release => releaseGuard i x y s
  | .setRegistered b => .done (s.updBus i fun u => { u with registered := b }) x y
  | .setStarted b => .done (s.updBus i fun u => { u with started := b }) x y
  | .solve t => .done s (solveWord s.cfg s.fin.toNat t.toNat) y
  | .freq w => .done s (BitVec.ofNat 32 (freqOf s.cfg.preW s.fin.toNat (w &&& wmask s.cfg .clock))) y
  | .retune old new =>
    if freqOf s.cfg.preW old.toNat x = 0 then .done s x y
    else writeReg i .clock (solveWord s.cfg new.toNat (freqOf s.cfg.preW old.toNat x)) x y s
  | .bytes .. => .done s x y
  | .pixels .. => .done s x y

/-- xfer(i, nbits, fd) as micro-steps (R170): the lengths, the commit handshake when HAS_COMMIT, then the trigger,
each awaited (R171). -/
def xferOps (cfg : Cfg) (nbits : Nat) (fd : Bool) : List UOp :=
  [.wr .mosiDlen (BitVec.ofNat 32 (nbits - 1))] ++
  (if fd then [.wr .misoDlen (BitVec.ofNat 32 (nbits - 1))]
    else match cfg.woMiso with
      | .zero => [.wr .misoDlen 0]
      | .omit => []) ++
  (if cfg.hasCommit then [.wr .cmd 2, .poll .cmd 2] else []) ++
  [.wr .cmd 1, .poll .cmd 1]

/-- Bytes 4w .. 4w+3 of a chunk of len bytes that are valid (R212): the j with 4w + j < len. -/
def validBytes (len w : Nat) : List Nat := (List.range 4).filter fun j => decide (4 * w + j < len)

/-- The buffer words a chunk of len bytes occupies (R212). -/
def chunkWords (len : Nat) : List Nat := List.range ((len + 3) / 4)

/-- The word of 0xFF bytes a null input stands for, padded with 0x00 (R210). -/
def onesWord (len w : Nat) : Word := (validBytes len w).foldl (fun x j => addByte x 0xFF j) 0

/-- Loading one chunk word from host memory, byte by byte, into x (R210, R215). -/
def loadBytes (ptr len w : Nat) : List UOp := (validBytes len w).map fun j => .memRd1 (ptr + 4 * w + j) j

/-- One chunk of TRANSFER_BYTES (R210, R212): load, transact full duplex, copy the valid bytes out. -/
def bytesChunk (cfg : Cfg) (inp outp off len : Nat) : List UOp :=
  ((chunkWords len).flatMap fun w =>
    if inp = 0 then [.wr (.w (Fin.ofNat 16 w)) (onesWord len w)]
    else loadBytes (inp + off) len w ++ [.wrX (.w (Fin.ofNat 16 w))]) ++
  xferOps cfg (8 * len) true ++
  (if outp = 0 then []
    else (chunkWords len).flatMap fun w =>
      .rd (.w (Fin.ofNat 16 w)) .x :: (validBytes len w).map fun j => .memWr1 (outp + off + 4 * w + j) j)

/-- One chunk of WRITE_PIXELS (R215): load, permute, transact write-only. -/
def pixelsChunk (cfg : Cfg) (ptr off len : Nat) : List UOp :=
  ((chunkWords len).flatMap fun w => loadBytes (ptr + off) len w ++ [.wrPix (Fin.ofNat 16 w)]) ++
  xferOps cfg (8 * len) false

/-- Unfold a loop header at the front of a micro-step list: nothing past the end, else the next chunk (at most 64
bytes) and the loop from there on (R210, R212, R215). Takes no micro-step. -/
def settle (cfg : Cfg) (ops : List UOp) : List UOp :=
  match ops with
  | .bytes inp outp off size :: rest =>
    if off < size then
      bytesChunk cfg inp outp off (min 64 (size - off)) ++ .bytes inp outp (off + min 64 (size - off)) size :: rest
    else rest
  | .pixels ptr off size :: rest =>
    if off < size then
      pixelsChunk cfg ptr off (min 64 (size - off)) ++ .pixels ptr (off + min 64 (size - off)) size :: rest
    else rest
  | ops => ops

/-- The value an operation returns, from its local variables. -/
def retValue (cfg : Cfg) (ret : Ret) (x y : Word) : Word :=
  match ret with
  | .const v => v
  | .low mask => x &&& mask
  | .scalar n mask => (if swapcond cfg (rdOrder y) then swapN x n else x) &&& mask
  | .mode => modeOf (ckIdleEdge x) (ckOutEdge y)

/-- The test of a poll, whose hold a prompt engine lifts. -/
def UOp.isPoll : UOp → Bool
  | .poll .. => true
  | _ => false

/-- Run at most n micro-steps of an operation in progress (R5). With none left to run the operation ends, in the
micro-step that ran the last (R36, R112). A held micro-step keeps the position; in a prompt turn a poll's hold lets
the engine of the instance take its step, which counts as one of the n. A fault stops the agent (R273). -/
def runOps (n : Nat) (t : Task) (s : State) : State :=
  match n with
  | 0 =>
    match settle s.cfg t.ops with
    | [] => s.finish .ok (retValue s.cfg t.ret t.x t.y)
    | _ :: _ => s.save t
  | n + 1 =>
    match settle s.cfg t.ops with
    | [] => s.finish .ok (retValue s.cfg t.ret t.x t.y)
    | op :: rest =>
      match perform op t.inst t.x t.y s with
      | .done s' x y => runOps n { t with ops := rest, x := x, y := y } s'
      | .hold s' =>
        if op.isPoll && s'.turn.prompt && s'.engineReady t.inst then runOps n t (engineStep t.inst s') else s'.save t
      | .trap c => (s.save t).raise c

/-- The running agent's turn on an operation: an operation in progress goes on; else the operation begins as `o` says,
which is one micro-step, and its micro-steps follow. An agent that has faulted has no step (R273); a turn of no
micro-steps does nothing. -/
def operate (s : State) (o : Opening) : Host.Outcome State Fault Refusal :=
  match s.ctx? with
  | none => .fault .noContext
  | some c =>
    if s.stopped s.cur then .next s
    else
      match s.turn.burst with
      | 0 => .next s
      | n + 1 =>
        match c.task with
        | some t => .next (runOps (n + 1) t s)
        | none =>
          match o with
          | .ret v => .next (s.finish .ok v)
          | .status st => .next (s.finish st 0)
          | .trap f => .next (s.raise f)
          | .task t => .next (runOps n t s)

/-- An operation with micro-steps on instance i, local x preset. -/
def taskOf (i : Fin 4) (ops : List UOp) (x : Word) (ret : Ret) : Opening := .task ⟨i, ops, x, 0, ret⟩

/-- A raw operation: UNMAPPED on an instance that does not exist (R85, R274, R275 step 3). `off` is the register
offset the fault records, for the operations that have one. -/
def rawOpening (s : State) (i : Fin 4) (off : Option (BitVec 16)) (k : Opening) : Opening :=
  if s.cfg.nInst ≤ i.val then .trap (.unmapped i off) else k

/-- A register operation: UNMAPPED instance, then MISALIGNED, then UNMAPPED offset (R110, R275 step 5). -/
def regOpening (s : State) (i : Fin 4) (off : BitVec 16) (k : Reg → Opening) : Opening :=
  rawOpening s i (some off) <|
    if off.toNat % 4 ≠ 0 then .trap (.misaligned off.toNat)
    else
      match regAt s.cfg off.toNat with
      | none => .trap (.unmapped i (some off))
      | some r => k r

/-- The handle prologue (R172, R274, R275 steps 2 to 4): the null handle is a no-op returning 0, an instance that does
not exist gives INVALID_INSTANCE, an instance that is not started raises NOT_STARTED. -/
def handleOpening (s : State) (h : Handle) (k : Opening) : Opening :=
  if h.null then .ret 0
  else if s.cfg.nInst ≤ h.inst.val then .status .invalidInstance
  else if !(s.getBus h.inst).started then .trap (.notStarted h.inst)
  else k

/-- An argument check that raises INVALID_ARGUMENT (R85, R275 step 5). -/
def argCheck (bad : Bool) (k : Opening) : Opening := if bad then .status .invalidArgument else k

/-- A word-pointer check that raises MISALIGNED (R66, R85). -/
def alignCheck (p : Word) (k : Opening) : Opening := if p.toNat % 4 ≠ 0 then .trap (.misaligned p.toNat) else k

/-- The no-lock check: UNGUARDED unless the running agent holds the guard (R116). -/
def guardCheck (s : State) (i : Fin 4) (k : Opening) : Opening :=
  if (s.getBus i).owner = some s.cur then k else .trap (.unguarded i)

/-- A locked form: the guard taken before the body and given back after it (R90, R172). -/
def locked (body : List UOp) : List UOp := .acquire :: body ++ [.release]

/-- The guard part of a handle operation (R172): the NL form checks ownership and runs the body, the locked form
takes the guard around it. -/
def guardedTask (s : State) (nl : Bool) (i : Fin 4) (body : List UOp) (x : Word) (ret : Ret) : Opening :=
  if nl then guardCheck s i (taskOf i body x ret) else taskOf i (locked body) x ret

/-- setmode(i, m) (R234): two read-modify-write micro-steps. -/
def setModeOps (m : Fin 4) : List UOp :=
  [.rmw .pin 1 (bitAt 0 (modeBits m).1), .rmw .user 2 (bitAt 1 (modeBits m).2)]

/-- setorder(i, o) (R236): one read-modify-write micro-step. -/
def setOrderOps (o : BitOrder) : List UOp := [.rmw .ctrl 3 (orderBits o)]

end Sys2Proof.Machine
end

