-- ==== Sys2Proof/Machine/Agents.lean ====
section
/-! DEFINITION. Whose turn it is and what that agent does with it (R7, R70): taking the next entry of the schedule, a
caller's current descriptor (R35, R36), the notifier's protocol (R251), and placing a descriptor where the next turn
runs it. -/

namespace Sys2Proof.Machine

/-- Take the next entry of the schedule; with none listed the turn is a free value (R70). -/
def State.takeTurn (s : State) : State :=
  match s.sched with
  | t :: ts => { s with turn := t, sched := ts }
  | [] => { s with turn := Config.freeTurn s.ticks, ticks := s.ticks + 1 }

/-- The descriptor of a caller at its pc; none past the end of its program (R36). -/
def Caller.current (k : Caller) : Option Desc := k.prog[k.ctx.pc]?

/-- The instances registered now, REGSET of R251, among the instances that exist. -/
def State.regset (s : State) : List (Fin 4) :=
  (List.finRange 4).filter fun i => decide (i.val < s.cfg.nInst) && (s.getBus i).registered

/-- The element at place k (counted round) brought to the front: the notifier's choice of the next instance (R251). -/
def bringToFront (k : Nat) (l : List (Fin 4)) : List (Fin 4) :=
  match l[k % l.length]? with
  | some i => i :: l.eraseIdx (k % l.length)
  | none => l

/-- S ∪ {i} (R251). -/
def addOnce (l : List (Fin 4)) (i : Fin 4) : List (Fin 4) := if l.contains i then l else l ++ [i]

/-- The notifier moved to another place of its protocol. -/
def State.atPhase (s : State) (p : NotifierPhase) : State := { s with notifier := { s.notifier with phase := p } }

/-- fin <- new (R251). -/
def State.setFin (s : State) (v : Word) : State := { s with fin := v }

/-- A descriptor, decoded for the agent whose turn it is (R84). -/
def fetchDesc (d : Desc) (s : State) : Fetched :=
  match decode d with
  | .ok i => .instr i s
  | .illegal _ => .illegal d s

/-- The order the notifier visits instances in: while a callback runs its instance stays first, else the turn's
`pick` chooses (R251). -/
def visitOrder (s : State) (todo : List (Fin 4)) : List (Fin 4) :=
  if s.notifier.ctx.task.isSome then todo else bringToFront s.turn.pick todo

/-- The notifier's turn (R251): one micro-step of its protocol, or the callback it is at. -/
def fetchNotifier (s : State) : Fetched :=
  match s.notifier.phase, s.notifier.pending with
  | .idle, _ =>
    match s.cfg.finChanges[s.notifier.applied]? with
    | none => .nothing
    | some new => .protocol (s.atPhase (.snapped s.fin new s.regset))
  | .snapped old new regset, _ =>
    .protocol { s with notifier := { s.notifier with phase := .before regset, pending := some ⟨old, new, []⟩ } }
  | .before todo, some p =>
    match visitOrder s todo with
    | [] => .protocol ((s.setFin p.new).atPhase (.after p.done))
    | i :: rest => fetchDesc (encode (.clkBefore i p.old p.new)) (s.atPhase (.before (i :: rest)))
  | .marking i todo, some p =>
    .protocol { s with
      notifier := { s.notifier with phase := .before todo, pending := some { p with done := addOnce p.done i } } }
  | .after todo, some p =>
    match visitOrder s todo with
    | [] =>
      .protocol { s with
        notifier := { s.notifier with phase := .idle, pending := none, applied := s.notifier.applied + 1 } }
    | i :: rest => fetchDesc (encode (.clkAfter i p.old p.new)) (s.atPhase (.after (i :: rest)))
  | _, none => .nothing

/-- What the agent whose turn it is does (R7, R36, R117, R251). A turn of no micro-steps gives a protocol or an engine
nothing either, and the notifier has no step once it has faulted (R273). -/
def fetch (s : State) : Fetched :=
  match s.turn.agent with
  | .engine i => if s.turn.burst = 0 then .nothing else .engine i
  | .caller c =>
    match s.callers[c]? with
    | none => .nothing
    | some k =>
      match k.current with
      | none => .nothing
      | some d => fetchDesc d s
  | .notifier => if s.turn.burst = 0 || s.stopped .notifier then .nothing else fetchNotifier s

/-- After a callback's micro-steps: when it has completed (the notifier's pc has moved from `pc`), the protocol moves
past it (R251). -/
def afterCallback (pc : Nat) (s : State) : State :=
  if s.notifier.ctx.pc ≠ pc then
    match s.notifier.phase with
    | .before (i :: rest) => s.atPhase (.marking i rest)
    | .after (_ :: rest) => s.atPhase (.after rest)
    | _ => s
  else s

/-- `afterCallback` on a step's outcome. -/
def afterOp (pc : Nat) (o : Host.Outcome State Fault Refusal) : Host.Outcome State Fault Refusal :=
  match o with
  | .next s => .next (afterCallback pc s)
  | .fault r => .fault r
  | .refused r => .refused r

/-- The turn that runs a placed descriptor to its end: many micro-steps, the polled engine prompt. -/
def placedTurn (a : Agent) : Turn := ⟨a, 1024, true, 0⟩

/-- A program with a descriptor at place pc. -/
def placeAt (prog : List Desc) (pc : Nat) (d : Desc) : List Desc :=
  prog.take pc ++ List.replicate (pc - prog.length) ⟨0, 0, 0, 0⟩ ++ d :: prog.drop (pc + 1)

/-- Caller 0 with a descriptor at its pc and no operation in progress; a caller is made if there is none. -/
def placeInCallers (cs : List Caller) (d : Desc) : List Caller :=
  match cs with
  | [] => [⟨[d], Ctx.powerOn⟩]
  | k :: ks => ⟨placeAt k.prog k.ctx.pc d, { k.ctx with task := none }⟩ :: ks

/-- The records of an agent's faults taken away, so that it has a step. -/
def State.unstop (s : State) (a : Agent) : State :=
  { s with faults := s.faults.filter fun f => !(f.agent == a) }

/-- Descriptor d placed where the next step runs it: in caller 0's program at its pc, or, for a callback, as the one
the notifier's protocol is at, with old and new fin from the descriptor. -/
def State.place (s : State) (d : Desc) : State :=
  match decode d with
  | .ok (.clkBefore i old new) =>
    { s.unstop .notifier with
      sched := placedTurn .notifier :: s.sched
      notifier := { s.notifier with
        ctx := { s.notifier.ctx with task := none }, phase := .before [i], pending := some ⟨old, new, []⟩ } }
  | .ok (.clkAfter i old new) =>
    { s.unstop .notifier with
      sched := placedTurn .notifier :: s.sched
      notifier := { s.notifier with
        ctx := { s.notifier.ctx with task := none }, phase := .after [i], pending := some ⟨old, new, []⟩ } }
  | _ =>
    { s.unstop (.caller 0) with
      sched := placedTurn (.caller 0) :: s.sched
      callers := placeInCallers s.callers d }

end Sys2Proof.Machine
end

