-- ==== Sys2Proof/Machine/Calculator.lean ====
section
/-! DEFINITION. The operations of the clock-divider calculator: FREQ_TO_DIV (R146) and DIV_TO_FREQ (R147). They name no
instance; their tasks carry instance 0, which no micro-step of theirs reads. -/

namespace Sys2Proof.Machine

/-- FREQ_TO_DIV (R146): a target of 0 gives INVALID_ARGUMENT; the solver reads the fin in force at its micro-step. -/
def execFreqToDiv (target : Word) (s : State) : Host.Outcome State Fault Refusal :=
  operate s (argCheck (target == 0) (taskOf 0 [.solve target] 0 (.low 0xFFFFFFFF)))

/-- DIV_TO_FREQ (R147). -/
def execDivToFreq (clk : Word) (s : State) : Host.Outcome State Fault Refusal :=
  operate s (taskOf 0 [.freq clk] 0 (.low 0xFFFFFFFF))

end Sys2Proof.Machine
end

