-- ==== Sys2Proof/Machine/Chunking.lean ====
section
/-! DEFINITION. The chunked operations (43_chunking.md): TRANSFER_BYTES (R210) and WRITE_PIXELS (R215, R216), each
locked and no-lock; the locked form holds the guard across all chunks. -/

namespace Sys2Proof.Machine

/-- The opening of TRANSFER_BYTES and TRANSFER_BYTES_NL (R210). -/
def bytesOpening (nl : Bool) (h : Handle) (size inp outp : Word) (s : State) : Opening :=
  handleOpening s h <| guardedTask s nl h.inst [.bytes inp.toNat outp.toNat 0 size.toNat] 0 (.const 0)

/-- The opening of WRITE_PIXELS and WRITE_PIXELS_NL (R215): CTRL is read once per call. -/
def pixelsOpening (nl : Bool) (h : Handle) (size p : Word) (s : State) : Opening :=
  handleOpening s h <| argCheck (p == 0) <| guardedTask s nl h.inst
    [.rd .ctrl .y, .pixels p.toNat 0 size.toNat] 0 (.const 0)

/-- TRANSFER_BYTES (R210). -/
def execTransferBytes (h : Handle) (size inp outp : Word) (s : State) : Host.Outcome State Fault Refusal :=
  operate s (bytesOpening false h size inp outp s)

/-- TRANSFER_BYTES_NL (R210). -/
def execTransferBytesNl (h : Handle) (size inp outp : Word) (s : State) : Host.Outcome State Fault Refusal :=
  operate s (bytesOpening true h size inp outp s)

/-- WRITE_PIXELS (R215). -/
def execWritePixels (h : Handle) (size p : Word) (s : State) : Host.Outcome State Fault Refusal :=
  operate s (pixelsOpening false h size p s)

/-- WRITE_PIXELS_NL (R215). -/
def execWritePixelsNl (h : Handle) (size p : Word) (s : State) : Host.Outcome State Fault Refusal :=
  operate s (pixelsOpening true h size p s)

end Sys2Proof.Machine
end

