-- ==== Sys2Proof/Machine/ClockChange.lean ====
section
/-! DEFINITION. The clock-change callbacks CLK_BEFORE (R249) and CLK_AFTER (R250). Only the notifier runs them: run by
another agent their descriptor is ILLEGAL (R84(g), R281). -/

namespace Sys2Proof.Machine

/-- ILLEGAL_OP, with D0 of the descriptor, unless the notifier runs the operation (R84(g)). -/
def notifierOnly (s : State) (i : Instr) (k : Opening) : Opening :=
  if s.cur = .notifier then k else .trap (.illegalOp (encode i).d0)

/-- CLK_BEFORE (R249): the guard is taken, a transaction in flight is awaited, and the guard stays held. -/
def execClkBefore (i : Fin 4) (old new : Word) (s : State) : Host.Outcome State Fault Refusal :=
  operate s <| notifierOnly s (.clkBefore i old new) <| rawOpening s i none <|
    taskOf i [.acquire, .poll .cmd 1] 0 (.const 0)

/-- The ownership check of CLK_AFTER: NOT_OWNER (R250, R275 step 6). -/
def ownerCheck (s : State) (i : Fin 4) (k : Opening) : Opening :=
  if (s.getBus i).owner = some s.cur then k else .trap (.notOwner i)

/-- CLK_AFTER (R250): the divider recomputed from the previous achieved frequency, then the guard released. -/
def execClkAfter (i : Fin 4) (old new : Word) (s : State) : Host.Outcome State Fault Refusal :=
  operate s <| notifierOnly s (.clkAfter i old new) <| rawOpening s i none <| ownerCheck s i <|
    taskOf i [.rd .clock .x, .retune old new, .release] 0 (.const 0)

end Sys2Proof.Machine
end

