-- ==== Sys2Proof/Machine/Lifecycle.lean ====
section
/-! DEFINITION. The lifecycle and configuration operations (44_lifecycle.md sections 1 to 4): START, STOP, the setters
and getters, the chip-select enables and the transaction bracket. -/

namespace Sys2Proof.Machine

/-- The micro-steps of START past its index check (R230). -/
def startOps (cfg : Cfg) (mode : Fin 4) (order : BitOrder) (clk : Word) : List UOp :=
  [.createGuard] ++
  locked ((cfgRegs cfg).map (fun r => .wr r 0) ++ (List.finRange 16).map (fun k => .wr (.w k) 0) ++
    [.rmw .user 1 1] ++ if cfg.hasClkGate then [.wr .clkGate cfg.clkGateStart] else []) ++
  locked (setModeOps mode) ++ locked (setOrderOps order) ++ locked [.wr .clock clk] ++
  [.setRegistered true, .setStarted true]

/-- START (R230). -/
def execStart (idx : BitVec 8) (mode : Fin 4) (order : BitOrder) (clk : Word) (s : State) :
    Host.Outcome State Fault Refusal :=
  operate s <|
    if s.cfg.nInst ≤ idx.toNat then .status .invalidInstance
    else taskOf (Fin.ofNat 4 idx.toNat) (startOps s.cfg mode order clk) 0 (.const (idx.setWidth 32))

/-- The micro-steps of STOP (R231). -/
def stopOps (cfg : Cfg) : List UOp :=
  [.setRegistered false] ++ locked ((cfgRegs cfg).map fun r => .wr r 0) ++ [.setStarted false]

/-- STOP (R231). -/
def execStop (h : Handle) (s : State) : Host.Outcome State Fault Refusal :=
  operate s (handleOpening s h (taskOf h.inst (stopOps s.cfg) 0 (.const 0)))

/-- SET_CLOCK (R232). -/
def execSetClock (h : Handle) (clk : Word) (s : State) : Host.Outcome State Fault Refusal :=
  operate s (handleOpening s h (taskOf h.inst (locked [.wr .clock clk]) 0 (.const 0)))

/-- GET_CLOCK (R233): no guard. -/
def execGetClock (h : Handle) (s : State) : Host.Outcome State Fault Refusal :=
  operate s (handleOpening s h (taskOf h.inst [.rd .clock .x] 0 (.low 0xFFFFFFFF)))

/-- SET_MODE (R234). -/
def execSetMode (h : Handle) (mode : Fin 4) (s : State) : Host.Outcome State Fault Refusal :=
  operate s (handleOpening s h (taskOf h.inst (locked (setModeOps mode)) 0 (.const 0)))

/-- GET_MODE (R235): two reads, no guard. -/
def execGetMode (h : Handle) (s : State) : Host.Outcome State Fault Refusal :=
  operate s (handleOpening s h (taskOf h.inst [.rd .pin .x, .rd .user .y] 0 .mode))

/-- SET_ORDER (R236). -/
def execSetOrder (h : Handle) (order : BitOrder) (s : State) : Host.Outcome State Fault Refusal :=
  operate s (handleOpening s h (taskOf h.inst (locked (setOrderOps order)) 0 (.const 0)))

/-- GET_ORDER (R237): WR_BIT_ORDER, no guard. -/
def execGetOrder (h : Handle) (s : State) : Host.Outcome State Fault Refusal :=
  operate s (handleOpening s h (taskOf h.inst [.rd .ctrl .x] 0 (.low 1)))

/-- The CSMASK check: a bit above bit 2 gives INVALID_ARGUMENT (R238). -/
def csCheck (mask : BitVec 16) (k : Opening) : Opening := argCheck (mask &&& 0xFFF8 != 0) k

/-- A mask over PIN.CS_DIS[3:1] (R25, R238). -/
def csBits (mask : BitVec 16) : Word := (mask.setWidth 32 &&& 7) <<< 1

/-- CS_ENABLE (R238): CS_DIS <- CS_DIS & ~mask. -/
def execCsEnable (h : Handle) (mask : BitVec 16) (s : State) : Host.Outcome State Fault Refusal :=
  operate s (handleOpening s h (csCheck mask (taskOf h.inst (locked [.rmw .pin (csBits mask) 0]) 0 (.const 0))))

/-- CS_DISABLE (R239): CS_DIS <- CS_DIS | mask. -/
def execCsDisable (h : Handle) (mask : BitVec 16) (s : State) : Host.Outcome State Fault Refusal :=
  operate s (handleOpening s h (csCheck mask (taskOf h.inst (locked [.rmw .pin 0 (csBits mask)]) 0 (.const 0))))

/-- The micro-steps of BEGIN_TXN (R240): the guard stays held. -/
def beginOps (cfg : Cfg) (clk : Word) (mode : Fin 4) (order : BitOrder) : List UOp :=
  [.acquire, .wr .clock clk] ++ setModeOps mode ++ setOrderOps order ++
  if cfg.hasCommit then [.wr .cmd 2, .poll .cmd 2] else []

/-- BEGIN_TXN (R240). -/
def execBeginTxn (h : Handle) (clk : Word) (mode : Fin 4) (order : BitOrder) (s : State) :
    Host.Outcome State Fault Refusal :=
  operate s (handleOpening s h (taskOf h.inst (beginOps s.cfg clk mode order) 0 (.const 0)))

/-- END_TXN (R241). -/
def execEndTxn (h : Handle) (s : State) : Host.Outcome State Fault Refusal :=
  operate s (handleOpening s h (taskOf h.inst [.release] 0 (.const 0)))

end Sys2Proof.Machine
end

