-- ==== Sys2Proof/Machine/RegisterOps.lean ====
section
/-! DEFINITION. The register-level and guard operations: REG_RD, REG_WR, REG_POLL (R110 to R112), GUARD_ACQ and
GUARD_REL (R114, R115). -/

namespace Sys2Proof.Machine

/-- REG_RD (R110). -/
def execRegRd (i : Fin 4) (off : BitVec 16) (s : State) : Host.Outcome State Fault Refusal :=
  operate s (regOpening s i off fun r => taskOf i [.rd r .x] 0 (.low 0xFFFFFFFF))

/-- REG_WR (R111). -/
def execRegWr (i : Fin 4) (off : BitVec 16) (v : Word) (s : State) : Host.Outcome State Fault Refusal :=
  operate s (regOpening s i off fun r => taskOf i [.wr r v] 0 (.const 0))

/-- REG_POLL (R112). -/
def execRegPoll (i : Fin 4) (off : BitVec 16) (mask : Word) (s : State) : Host.Outcome State Fault Refusal :=
  operate s (regOpening s i off fun r => taskOf i [.poll r mask] 0 (.const 0))

/-- GUARD_ACQ (R114). -/
def execGuardAcq (i : Fin 4) (s : State) : Host.Outcome State Fault Refusal :=
  operate s (rawOpening s i none (taskOf i [.acquire] 0 (.const 0)))

/-- GUARD_REL (R115). -/
def execGuardRel (i : Fin 4) (s : State) : Host.Outcome State Fault Refusal :=
  operate s (rawOpening s i none (taskOf i [.release] 0 (.const 0)))

end Sys2Proof.Machine
end

