-- ==== Sys2Proof/Machine/Transfer.lean ====
section
/-! DEFINITION. One hardware transaction and the operations built on one (42_transfer_engine.md): XFER_NL, the word
arrays, the scalars and TRANSFER_BITS, each locked and no-lock. -/

namespace Sys2Proof.Machine

/-- XFER_NL (R170): UNMAPPED, then the NBITS check, then UNGUARDED. -/
def execXferNl (i : Fin 4) (nbits : BitVec 16) (fd : Word) (s : State) : Host.Outcome State Fault Refusal :=
  operate s <| rawOpening s i none <| argCheck (nbits.toNat < 1 || 512 < nbits.toNat) <|
    guardCheck s i (taskOf i (xferOps s.cfg nbits.toNat (fd.getLsbD 0)) 0 (.const 0))

/-- The checks of WRITE and TRANSFER (R180): COUNT, then a null pointer, then alignment. -/
def wordsChecks (count : BitVec 16) (p : Word) (k : Opening) : Opening :=
  argCheck (count.toNat < 1 || 16 < count.toNat) <| argCheck (p == 0) <| alignCheck p k

/-- Loading c words from p into the buffer (R180). -/
def loadWords (c p : Nat) : List UOp :=
  (List.range c).flatMap fun k => [.memRd4 (p + 4 * k), .wrX (.w (Fin.ofNat 16 k))]

/-- Storing c buffer words to p (R181). -/
def storeWords (c p : Nat) : List UOp :=
  (List.range c).flatMap fun k => [.rd (.w (Fin.ofNat 16 k)) .x, .memWr4 (p + 4 * k)]

/-- The opening of WRITE and WRITE_NL (R180). -/
def writeOpening (nl : Bool) (h : Handle) (count : BitVec 16) (p : Word) (s : State) : Opening :=
  handleOpening s h <| wordsChecks count p <| guardedTask s nl h.inst
    (loadWords count.toNat p.toNat ++ xferOps s.cfg (32 * count.toNat) false) 0 (.const 0)

/-- The opening of TRANSFER and TRANSFER_NL (R181). -/
def transferOpening (nl : Bool) (h : Handle) (count : BitVec 16) (p : Word) (s : State) : Opening :=
  handleOpening s h <| wordsChecks count p <| guardedTask s nl h.inst
    (loadWords count.toNat p.toNat ++ xferOps s.cfg (32 * count.toNat) true ++ storeWords count.toNat p.toNat)
    0 (.const 0)

/-- WRITE (R180). -/
def execWrite (h : Handle) (count : BitVec 16) (p : Word) (s : State) : Host.Outcome State Fault Refusal :=
  operate s (writeOpening false h count p s)

/-- WRITE_NL (R180). -/
def execWriteNl (h : Handle) (count : BitVec 16) (p : Word) (s : State) : Host.Outcome State Fault Refusal :=
  operate s (writeOpening true h count p s)

/-- TRANSFER (R181). -/
def execTransfer (h : Handle) (count : BitVec 16) (p : Word) (s : State) : Host.Outcome State Fault Refusal :=
  operate s (transferOpening false h count p s)

/-- TRANSFER_NL (R181). -/
def execTransferNl (h : Handle) (count : BitVec 16) (p : Word) (s : State) : Host.Outcome State Fault Refusal :=
  operate s (transferOpening true h count p s)

/-- A byte operation (R182, R183): the byte loaded as it is, 8 bits. -/
def byteOpening (nl fd : Bool) (h : Handle) (v : Word) (s : State) : Opening :=
  handleOpening s h <| guardedTask s nl h.inst
    (.wr (.w 0) (v &&& 0xFF) :: xferOps s.cfg 8 fd ++ if fd then [.rd (.w 0) .x] else [])
    0 (if fd then .low 0xFF else .const 0)

/-- A scalar of n bytes, b bits of it sent (R184 to R188): CTRL read, the value permuted when WR_BIT_ORDER asks for it,
loaded and sent; for a full-duplex form W[0] and then CTRL read back, and the result un-permuted when RD_BIT_ORDER
asks for it. -/
def scalarOps (cfg : Cfg) (n b : Nat) (fd : Bool) : List UOp :=
  [.rd .ctrl .y, .wrScalar n] ++ xferOps cfg b fd ++ if fd then [.rd (.w 0) .x, .rd .ctrl .y] else []

/-- A word or long operation (R184 to R187), n bytes. -/
def scalarOpening (nl fd : Bool) (n : Nat) (h : Handle) (v : Word) (s : State) : Opening :=
  handleOpening s h <| guardedTask s nl h.inst (scalarOps s.cfg n (8 * n) fd) (v &&& lowMask (8 * n))
    (if fd then .scalar n (lowMask (8 * n)) else .const 0)

/-- The opening of TRANSFER_BITS and TRANSFER_BITS_NL (R188). -/
def bitsOpening (nl : Bool) (h : Handle) (nbits : BitVec 16) (data : Word) (s : State) : Opening :=
  handleOpening s h <| argCheck (nbits.toNat == 0 || 32 < nbits.toNat) <| guardedTask s nl h.inst
    (scalarOps s.cfg ((nbits.toNat + 7) / 8) nbits.toNat true) (data &&& lowMask nbits.toNat)
    (.scalar ((nbits.toNat + 7) / 8) (lowMask nbits.toNat))

/-- WRITE_BYTE (R182). -/
def execWriteByte (h : Handle) (v : Word) (s : State) : Host.Outcome State Fault Refusal :=
  operate s (byteOpening false false h v s)

/-- WRITE_BYTE_NL (R182). -/
def execWriteByteNl (h : Handle) (v : Word) (s : State) : Host.Outcome State Fault Refusal :=
  operate s (byteOpening true false h v s)

/-- TRANSFER_BYTE (R183). -/
def execTransferByte (h : Handle) (v : Word) (s : State) : Host.Outcome State Fault Refusal :=
  operate s (byteOpening false true h v s)

/-- TRANSFER_BYTE_NL (R183). -/
def execTransferByteNl (h : Handle) (v : Word) (s : State) : Host.Outcome State Fault Refusal :=
  operate s (byteOpening true true h v s)

/-- WRITE_WORD (R184). -/
def execWriteWord (h : Handle) (v : Word) (s : State) : Host.Outcome State Fault Refusal :=
  operate s (scalarOpening false false 2 h v s)

/-- WRITE_WORD_NL (R184). -/
def execWriteWordNl (h : Handle) (v : Word) (s : State) : Host.Outcome State Fault Refusal :=
  operate s (scalarOpening true false 2 h v s)

/-- TRANSFER_WORD (R185). -/
def execTransferWord (h : Handle) (v : Word) (s : State) : Host.Outcome State Fault Refusal :=
  operate s (scalarOpening false true 2 h v s)

/-- TRANSFER_WORD_NL (R185). -/
def execTransferWordNl (h : Handle) (v : Word) (s : State) : Host.Outcome State Fault Refusal :=
  operate s (scalarOpening true true 2 h v s)

/-- WRITE_LONG (R186). -/
def execWriteLong (h : Handle) (v : Word) (s : State) : Host.Outcome State Fault Refusal :=
  operate s (scalarOpening false false 4 h v s)

/-- WRITE_LONG_NL (R186). -/
def execWriteLongNl (h : Handle) (v : Word) (s : State) : Host.Outcome State Fault Refusal :=
  operate s (scalarOpening true false 4 h v s)

/-- TRANSFER_LONG (R187). -/
def execTransferLong (h : Handle) (v : Word) (s : State) : Host.Outcome State Fault Refusal :=
  operate s (scalarOpening false true 4 h v s)

/-- TRANSFER_LONG_NL (R187). -/
def execTransferLongNl (h : Handle) (v : Word) (s : State) : Host.Outcome State Fault Refusal :=
  operate s (scalarOpening true true 4 h v s)

/-- TRANSFER_BITS (R188). -/
def execTransferBits (h : Handle) (nbits : BitVec 16) (data : Word) (s : State) : Host.Outcome State Fault Refusal :=
  operate s (bitsOpening false h nbits data s)

/-- TRANSFER_BITS_NL (R188). -/
def execTransferBitsNl (h : Handle) (nbits : BitVec 16) (data : Word) (s : State) :
    Host.Outcome State Fault Refusal :=
  operate s (bitsOpening true h nbits data s)

end Sys2Proof.Machine
end

