-- ==== Sys2Proof/Machine/Dispatch.lean ====
section
/-! DEFINITION. The meaning of every operation for the agent whose turn it is: one arm per constructor of `Instr`. -/

namespace Sys2Proof.Machine

def exec (i : Instr) (s : State) : Host.Outcome State Fault Refusal :=
  match i with
  | .regRd n off => Sys2Proof.Machine.execRegRd n off s
  | .regWr n off v => Sys2Proof.Machine.execRegWr n off v s
  | .regPoll n off mask => Sys2Proof.Machine.execRegPoll n off mask s
  | .guardAcq n => Sys2Proof.Machine.execGuardAcq n s
  | .guardRel n => Sys2Proof.Machine.execGuardRel n s
  | .xferNl n nbits fd => Sys2Proof.Machine.execXferNl n nbits fd s
  | .start idx mode order clk => Sys2Proof.Machine.execStart idx mode order clk s
  | .stop h => Sys2Proof.Machine.execStop h s
  | .setClock h clk => Sys2Proof.Machine.execSetClock h clk s
  | .getClock h => Sys2Proof.Machine.execGetClock h s
  | .setMode h mode => Sys2Proof.Machine.execSetMode h mode s
  | .getMode h => Sys2Proof.Machine.execGetMode h s
  | .setOrder h order => Sys2Proof.Machine.execSetOrder h order s
  | .getOrder h => Sys2Proof.Machine.execGetOrder h s
  | .csEnable h mask => Sys2Proof.Machine.execCsEnable h mask s
  | .csDisable h mask => Sys2Proof.Machine.execCsDisable h mask s
  | .write h count ptr => Sys2Proof.Machine.execWrite h count ptr s
  | .writeNl h count ptr => Sys2Proof.Machine.execWriteNl h count ptr s
  | .transfer h count ptr => Sys2Proof.Machine.execTransfer h count ptr s
  | .transferNl h count ptr => Sys2Proof.Machine.execTransferNl h count ptr s
  | .writeByte h v => Sys2Proof.Machine.execWriteByte h v s
  | .writeByteNl h v => Sys2Proof.Machine.execWriteByteNl h v s
  | .transferByte h v => Sys2Proof.Machine.execTransferByte h v s
  | .transferByteNl h v => Sys2Proof.Machine.execTransferByteNl h v s
  | .writeWord h v => Sys2Proof.Machine.execWriteWord h v s
  | .writeWordNl h v => Sys2Proof.Machine.execWriteWordNl h v s
  | .transferWord h v => Sys2Proof.Machine.execTransferWord h v s
  | .transferWordNl h v => Sys2Proof.Machine.execTransferWordNl h v s
  | .writeLong h v => Sys2Proof.Machine.execWriteLong h v s
  | .writeLongNl h v => Sys2Proof.Machine.execWriteLongNl h v s
  | .transferLong h v => Sys2Proof.Machine.execTransferLong h v s
  | .transferLongNl h v => Sys2Proof.Machine.execTransferLongNl h v s
  | .transferBytes h size inp outp => Sys2Proof.Machine.execTransferBytes h size inp outp s
  | .transferBytesNl h size inp outp => Sys2Proof.Machine.execTransferBytesNl h size inp outp s
  | .transferBits h nbits data => Sys2Proof.Machine.execTransferBits h nbits data s
  | .transferBitsNl h nbits data => Sys2Proof.Machine.execTransferBitsNl h nbits data s
  | .writePixels h size ptr => Sys2Proof.Machine.execWritePixels h size ptr s
  | .writePixelsNl h size ptr => Sys2Proof.Machine.execWritePixelsNl h size ptr s
  | .freqToDiv target => Sys2Proof.Machine.execFreqToDiv target s
  | .divToFreq clk => Sys2Proof.Machine.execDivToFreq clk s
  | .beginTxn h clk mode order => Sys2Proof.Machine.execBeginTxn h clk mode order s
  | .endTxn h => Sys2Proof.Machine.execEndTxn h s
  | .clkBefore n old new => Sys2Proof.Machine.execClkBefore n old new s
  | .clkAfter n old new => Sys2Proof.Machine.execClkAfter n old new s

end Sys2Proof.Machine
end

