-- ==== Sys2Proof/Machine/Step.lean ====
section
/-! DEFINITION. One step of the machine: one turn of one agent, in the total order of R70. -/

namespace Sys2Proof.Machine

/-- What a turn does. An agent with no step leaves the state (R112, R273); an illegal descriptor raises ILLEGAL_OP with
D0 (R84); a callback that completes moves the notifier's protocol on (R251). -/
def runTurn (s : State) : Host.Outcome State Fault Refusal :=
  match fetch s with
  | .nothing => .next s
  | .engine i => .next (engineStep i s)
  | .protocol s' => .next s'
  | .illegal d s' => operate s' (.trap (.illegalOp d.d0))
  | .instr i s' =>
    match s'.turn.agent with
    | .notifier => afterOp s'.notifier.ctx.pc (exec i s')
    | .caller _ => exec i s'
    | .engine _ => exec i s'

/-- One step: the model refuses a parameter record it does not accept (R69); else the next turn is taken. -/
def step (s : State) : Host.Outcome State Fault Refusal :=
  if cfgOk s.cfg then runTurn s.takeTurn else .refused .badConfiguration

/-- s with the instruction whose bits are w (bits at and above nbits 0) placed where the next step runs it. -/
def State.withFetchWord (s : State) (nbits w : Nat) : State := s.place (Desc.ofTableWord nbits w)

end Sys2Proof.Machine
end

