-- ==== Sys2Proof/Safety.lean ====
section
/-! DEFINITION. The terms the statements use: when a turn has room for an operation, what a handle or a guard must be
for it to run, what one transaction leaves, what an operation leaves unchanged, and when a run has ended (R320). -/

namespace Sys2Proof.Machine

/-! ### The running agent -/

/-- The agent whose turn it is runs descriptors, is between operations, has not faulted, and its turn has room for n
micro-steps, the opening checks and the polled engine's steps among them. -/
structure Ready (n : Nat) (s : State) : Prop where
  between : ∃ c, s.ctx? = some c ∧ c.task = none
  runs : s.stopped s.cur = false
  room : n ≤ s.turn.burst

/-- The schedule has the step of the engine of i wherever the running agent's poll holds, and that engine has not
faulted (R117, R321). -/
structure EngineServes (i : Fin 4) (s : State) : Prop where
  prompt : s.turn.prompt = true
  runs : s.stopped (.engine i) = false

/-- A handle of a started instance: not null, in range, started (R172, R274). -/
structure Usable (h : Handle) (s : State) : Prop where
  handle : h.null = false
  inRange : h.inst.val < s.cfg.nInst
  started : (s.getBus h.inst).started = true

/-- The guard of i was created and nobody holds it (R33, R114). -/
structure GuardFree (i : Fin 4) (s : State) : Prop where
  created : (s.getBus i).guardExists = true
  free : (s.getBus i).owner = none

/-- The running agent holds the guard of i (R33, R116). -/
def GuardMine (i : Fin 4) (s : State) : Prop := (s.getBus i).owner = some s.cur

/-- What the guard of i must be for a form to run: held for a no-lock form (nl), free for a locked one (R172). -/
def Admits (nl : Bool) (i : Fin 4) (s : State) : Prop := if nl then GuardMine i s else GuardFree i s

/-- No commit and no transaction of i is in flight (R31). -/
def Quiet (i : Fin 4) (s : State) : Prop := (s.getBus i).phase = .idle

/-- The running agent is inside the operation t and its turn has room for a micro-step. -/
structure Inside (t : Task) (s : State) : Prop where
  within : ∃ c, s.ctx? = some c ∧ c.task = some t
  runs : s.stopped s.cur = false
  room : 1 ≤ s.turn.burst

/-- t is s after the running agent raised fault c (R273): the record is appended, and of its place only the position
inside the operation may have moved. -/
def Trapped (c : FaultCause) (s t : State) : Prop :=
  ∃ o, t = (s.updCtx fun k => { k with task := o }).raise c

/-! ### One transaction -/

/-- Instance i as `xfer(i, nbits, fd)` leaves it at its trigger (R170): the lengths written, the commit done when the
variant has it (R118), the transaction in flight. -/
def Bus.triggered (cfg : Cfg) (nbits : Nat) (fd : Bool) (b : Bus) : Bus :=
  let len := BitVec.ofNat 32 (nbits - 1)
  let conf := { b.conf with
    mosiDlen := len
    misoDlen := if fd then len else match cfg.woMiso with
      | .zero => 0
      | .omit => b.conf.misoDlen }
  { b with conf := conf, act := if cfg.hasCommit then conf else b.act, phase := .busy }

/-- The state after `xfer(i, nbits, fd)` (R170): the transaction triggered, then completed by the engine (R119). -/
def State.transacted (i : Fin 4) (nbits : Nat) (fd : Bool) (s : State) : State :=
  completeStep i (s.updBus i fun b => b.triggered s.cfg nbits fd)

/-- The bits a transaction of configuration c sends from buffer w, n of them in wire order (R64, R119). -/
def sentBits (c : RegCfg) (n : Nat) (w : Vector Word 16) : List Bool :=
  (List.range n).map fun k => bufBit w (wirePos k (wrOrder c.ctrl))

/-- What the round-trip laws assume of instance i (R189, R211): received bits are the sent ones, full duplex is
enabled, and both phases use one bit order. -/
structure LoopsBack (i : Fin 4) (s : State) : Prop where
  link : s.cfg.link = .loopback
  duplex : doutdin (s.getBus i).conf.user = true
  order : wrOrder (s.getBus i).conf.ctrl = rdOrder (s.getBus i).conf.ctrl

/-! ### Host memory -/

/-- n bytes from address a on are in the launch memory (R61). -/
def Mapped (hm : List Host.Cell) (a n : Nat) : Prop := ∀ j < n, (memByte hm (a + j)).isSome

/-- The buffer with its first c words loaded from host memory at p, four bytes each (R180). -/
def loadedFrom (hm : List Host.Cell) (p c : Nat) (w : Vector Word 16) : Vector Word 16 :=
  words16 fun k => if k.val < c then (memRead4 hm (p + 4 * k.val)).getD 0 else w[k.val]'k.isLt

/-- Word w of a chunk of len bytes whose bytes are f: the valid bytes little-endian, the padding 0 (R210, R212). -/
def bytesWord (f : Nat → Byte) (len w : Nat) : Word :=
  let b := fun j => if 4 * w + j < len then f (4 * w + j) else 0
  ofBytes (b 3) (b 2) (b 1) (b 0)

/-- The bits of a transaction of len bytes, in wire order o, are those of the given bytes (R63, R64). -/
def CarriesBytes (o : BitOrder) (len : Nat) (byte : Nat → Byte) (bits : List Bool) : Prop :=
  bits.length = 8 * len ∧ ∀ k < 8 * len, bits[k]? = some ((byte (k / 8)).getLsbD (wirePos k o % 8))

/-- The bytes of host memory from a on. -/
def memBytes (hm : List Host.Cell) (a : Nat) (b : Nat) : Byte := (memByte hm (a + b)).getD 0

/-- Operation i, begun in s, gets to t and no further: its next micro-step is the access op of host memory, some byte of
which is outside the launch memory, and wherever its agent has its turn again it is stuck there for good (R61). (No step
changes which addresses the launch memory has.) -/
def StuckAt (i : Instr) (op : UOp) (s t : State) : Prop :=
  ∃ o : Task, (settle t.cfg o.ops).head? = some op ∧ exec i s = .next (t.save o) ∧
    ∀ u, Inside o u → u.cfg = s.cfg → u.hm.map Prod.fst = s.hm.map Prod.fst → exec i u = .next (u.save o)

/-- What the chunks of a request of size bytes leave of the machine, the bus log and host memory apart (R210, R215): of
instance i the lengths of the last chunk, its commit when the variant has one, the buffer, nothing in flight, and every
other register, the guard and the lifecycle flags as before; every other instance, the agents and the faults as before. -/
structure ChunksLeave (i : Fin 4) (size : Nat) (fd : Bool) (s t : State) : Prop where
  noChunk : size = 0 → t.getBus i = s.getBus i
  chunks : size ≠ 0 → ∃ w, t.getBus i =
    { (s.getBus i).triggered s.cfg (8 * (size - 64 * ((size - 1) / 64))) fd with w := w, phase := .idle }
  others : ∀ j, j ≠ i → t.getBus j = s.getBus j
  kept : t.cfg = s.cfg ∧ t.fin = s.fin ∧ t.callers = s.callers ∧ t.notifier = s.notifier ∧ t.faults = s.faults

/-! ### The operations by what they take (R83, R172, R247) -/

/-- The handle of a handle operation; none for the raw operations, START and the calculator (R172). -/
def handleOf : Instr → Option Handle
  | .stop h | .setClock h _ | .getClock h | .setMode h _ | .getMode h | .setOrder h _ | .getOrder h | .csEnable h _
  | .csDisable h _ | .write h _ _ | .writeNl h _ _ | .transfer h _ _ | .transferNl h _ _ | .writeByte h _
  | .writeByteNl h _ | .transferByte h _ | .transferByteNl h _ | .writeWord h _ | .writeWordNl h _ | .transferWord h _
  | .transferWordNl h _ | .writeLong h _ | .writeLongNl h _ | .transferLong h _ | .transferLongNl h _
  | .transferBytes h _ _ _ | .transferBytesNl h _ _ _ | .transferBits h _ _ | .transferBitsNl h _ _
  | .writePixels h _ _ | .writePixelsNl h _ _ | .beginTxn h _ _ _ | .endTxn h => some h
  | .regRd .. | .regWr .. | .regPoll .. | .guardAcq .. | .guardRel .. | .xferNl .. | .start .. | .freqToDiv ..
  | .divToFreq .. | .clkBefore .. | .clkAfter .. => none

/-- A no-lock handle form, which needs the guard held (R116). -/
def isNoLock : Instr → Bool
  | .writeNl .. | .transferNl .. | .writeByteNl .. | .transferByteNl .. | .writeWordNl .. | .transferWordNl ..
  | .writeLongNl .. | .transferLongNl .. | .transferBytesNl .. | .transferBitsNl .. | .writePixelsNl .. => true
  | .regRd .. | .regWr .. | .regPoll .. | .guardAcq .. | .guardRel .. | .xferNl .. | .start .. | .stop .. | .setClock ..
  | .getClock .. | .setMode .. | .getMode .. | .setOrder .. | .getOrder .. | .csEnable .. | .csDisable .. | .write ..
  | .transfer .. | .writeByte .. | .transferByte .. | .writeWord .. | .transferWord .. | .writeLong ..
  | .transferLong .. | .transferBytes .. | .transferBits .. | .writePixels .. | .freqToDiv .. | .divToFreq ..
  | .beginTxn .. | .endTxn .. | .clkBefore .. | .clkAfter .. => false

/-- A handle form that, its checks made, begins by taking the guard (R172, R247). -/
def isLocked : Instr → Bool
  | .setClock .. | .setMode .. | .setOrder .. | .csEnable .. | .csDisable .. | .write .. | .transfer .. | .writeByte ..
  | .transferByte .. | .writeWord .. | .transferWord .. | .writeLong .. | .transferLong .. | .transferBytes ..
  | .transferBits .. | .writePixels .. | .beginTxn .. => true
  | .regRd .. | .regWr .. | .regPoll .. | .guardAcq .. | .guardRel .. | .xferNl .. | .start .. | .stop ..
  | .getClock .. | .getMode .. | .getOrder .. | .writeNl .. | .transferNl .. | .writeByteNl .. | .transferByteNl ..
  | .writeWordNl .. | .transferWordNl .. | .writeLongNl .. | .transferLongNl .. | .transferBytesNl ..
  | .transferBitsNl .. | .writePixelsNl .. | .freqToDiv .. | .divToFreq .. | .endTxn .. | .clkBefore .. | .clkAfter .. =>
    false

/-- The operands pass the operation's own argument checks (R85). -/
def ArgsValid : Instr → Prop
  | .write _ count p | .writeNl _ count p | .transfer _ count p | .transferNl _ count p =>
    1 ≤ count.toNat ∧ count.toNat ≤ 16 ∧ p ≠ 0 ∧ p.toNat % 4 = 0
  | .transferBits _ nbits _ | .transferBitsNl _ nbits _ => 1 ≤ nbits.toNat ∧ nbits.toNat ≤ 32
  | .writePixels _ _ p | .writePixelsNl _ _ p => p ≠ 0
  | .csEnable _ mask | .csDisable _ mask => mask.toNat ≤ 7
  | .xferNl _ nbits _ => 1 ≤ nbits.toNat ∧ nbits.toNat ≤ 512
  | .freqToDiv t => t ≠ 0
  | _ => True

/-- The first register a handle form writes under its guard; none where it writes none (among them a TRANSFER_BYTES and a
WRITE_PIXELS of no bytes, R210) and for STOP, which clears `registered` before it. -/
def firstWrite : Instr → Option Reg
  | .setClock .. | .beginTxn .. => some .clock
  | .setMode .. | .csEnable .. | .csDisable .. => some .pin
  | .setOrder .. => some .ctrl
  | .writeByte .. | .writeByteNl .. | .transferByte .. | .transferByteNl .. | .writeWord .. | .writeWordNl ..
  | .transferWord .. | .transferWordNl .. | .writeLong .. | .writeLongNl .. | .transferLong .. | .transferLongNl ..
  | .transferBits .. | .transferBitsNl .. | .write .. | .writeNl .. | .transfer .. | .transferNl .. => some (.w 0)
  | .transferBytes _ size _ _ | .transferBytesNl _ size _ _ | .writePixels _ size _ | .writePixelsNl _ size _ =>
    if size = 0 then none else some (.w 0)
  | _ => none

/-- The bytes of host memory an operation reads before its first register write (R180, R181, R210, R215). -/
def firstLoads : Instr → Nat → Prop
  | .write _ _ p, a | .writeNl _ _ p, a | .transfer _ _ p, a | .transferNl _ _ p, a => p.toNat ≤ a ∧ a < p.toNat + 4
  | .transferBytes _ size inp _, a | .transferBytesNl _ size inp _, a =>
    inp ≠ 0 ∧ inp.toNat ≤ a ∧ a < inp.toNat + min 4 size.toNat
  | .writePixels _ size p, a | .writePixelsNl _ size p, a => p.toNat ≤ a ∧ a < p.toNat + min 4 size.toNat
  | _, _ => False

/-- How many micro-steps reach an operation's first register write, at most: its checks, its acquire, one read of CTRL or
one of a word of host memory, the write; four reads where host memory is read byte by byte. -/
def writeRoom : Instr → Nat
  | .transferBytes .. | .transferBytesNl .. => 7
  | .writePixels .. | .writePixelsNl .. => 8
  | _ => 4

/-! ### The opcode table (R83, R84) -/

/-- A row of the opcode table as spec/opcode_table.json gives it: `mask` and `value` over D0, and the bits of each ARG
word that may be 1. -/
structure TableRow where
  mask : Word
  value : Word
  arg1 : Word
  arg2 : Word
  arg3 : Word
  deriving DecidableEq, Repr

/-- The row of an operation. -/
def rowOf : Instr → TableRow
  | .regRd .. => ⟨0x0000FCFF, 0x00000001, 0, 0, 0⟩
  | .regWr .. => ⟨0x0000FCFF, 0x00000002, 0xFFFFFFFF, 0, 0⟩
  | .regPoll .. => ⟨0x0000FCFF, 0x00000003, 0xFFFFFFFF, 0, 0⟩
  | .guardAcq .. => ⟨0xFFFFFCFF, 0x00000004, 0, 0, 0⟩
  | .guardRel .. => ⟨0xFFFFFCFF, 0x00000005, 0, 0, 0⟩
  | .xferNl .. => ⟨0x0000FCFF, 0x00000408, 0x1, 0, 0⟩
  | .start .. => ⟨0xF800FFFF, 0x00000010, 0xFFFFFFFF, 0, 0⟩
  | .stop .. => ⟨0xFFFFF4FF, 0x00000011, 0, 0, 0⟩
  | .setClock .. => ⟨0xFFFFF4FF, 0x00000020, 0xFFFFFFFF, 0, 0⟩
  | .getClock .. => ⟨0xFFFFF4FF, 0x00000021, 0, 0, 0⟩
  | .setMode .. => ⟨0xFCFFF4FF, 0x00000022, 0, 0, 0⟩
  | .getMode .. => ⟨0xFFFFF4FF, 0x00000023, 0, 0, 0⟩
  | .setOrder .. => ⟨0xFBFFF4FF, 0x00000024, 0, 0, 0⟩
  | .getOrder .. => ⟨0xFFFFF4FF, 0x00000025, 0, 0, 0⟩
  | .csEnable .. => ⟨0x0000F4FF, 0x00000026, 0, 0, 0⟩
  | .csDisable .. => ⟨0x0000F4FF, 0x00000027, 0, 0, 0⟩
  | .write .. => ⟨0x0000F4FF, 0x00000030, 0, 0xFFFFFFFF, 0⟩
  | .writeNl .. => ⟨0x0000F4FF, 0x00000430, 0, 0xFFFFFFFF, 0⟩
  | .transfer .. => ⟨0x0000F4FF, 0x00000031, 0, 0xFFFFFFFF, 0⟩
  | .transferNl .. => ⟨0x0000F4FF, 0x00000431, 0, 0xFFFFFFFF, 0⟩
  | .writeByte .. => ⟨0xFFFFF4FF, 0x00000032, 0xFF, 0, 0⟩
  | .writeByteNl .. => ⟨0xFFFFF4FF, 0x00000432, 0xFF, 0, 0⟩
  | .transferByte .. => ⟨0xFFFFF4FF, 0x00000033, 0xFF, 0, 0⟩
  | .transferByteNl .. => ⟨0xFFFFF4FF, 0x00000433, 0xFF, 0, 0⟩
  | .writeWord .. => ⟨0xFFFFF4FF, 0x00000034, 0xFFFF, 0, 0⟩
  | .writeWordNl .. => ⟨0xFFFFF4FF, 0x00000434, 0xFFFF, 0, 0⟩
  | .transferWord .. => ⟨0xFFFFF4FF, 0x00000035, 0xFFFF, 0, 0⟩
  | .transferWordNl .. => ⟨0xFFFFF4FF, 0x00000435, 0xFFFF, 0, 0⟩
  | .writeLong .. => ⟨0xFFFFF4FF, 0x00000036, 0xFFFFFFFF, 0, 0⟩
  | .writeLongNl .. => ⟨0xFFFFF4FF, 0x00000436, 0xFFFFFFFF, 0, 0⟩
  | .transferLong .. => ⟨0xFFFFF4FF, 0x00000037, 0xFFFFFFFF, 0, 0⟩
  | .transferLongNl .. => ⟨0xFFFFF4FF, 0x00000437, 0xFFFFFFFF, 0, 0⟩
  | .transferBytes .. => ⟨0xFFFFF4FF, 0x00000038, 0xFFFFFFFF, 0xFFFFFFFF, 0xFFFFFFFF⟩
  | .transferBytesNl .. => ⟨0xFFFFF4FF, 0x00000438, 0xFFFFFFFF, 0xFFFFFFFF, 0xFFFFFFFF⟩
  | .transferBits .. => ⟨0x0000F4FF, 0x00000039, 0xFFFFFFFF, 0, 0⟩
  | .transferBitsNl .. => ⟨0x0000F4FF, 0x00000439, 0xFFFFFFFF, 0, 0⟩
  | .writePixels .. => ⟨0xFFFFF4FF, 0x0000003A, 0xFFFFFFFF, 0xFFFFFFFF, 0⟩
  | .writePixelsNl .. => ⟨0xFFFFF4FF, 0x0000043A, 0xFFFFFFFF, 0xFFFFFFFF, 0⟩
  | .freqToDiv .. => ⟨0xFFFFFFFF, 0x00000040, 0xFFFFFFFF, 0, 0⟩
  | .divToFreq .. => ⟨0xFFFFFFFF, 0x00000041, 0xFFFFFFFF, 0, 0⟩
  | .beginTxn .. => ⟨0xF8FFF4FF, 0x00000050, 0xFFFFFFFF, 0, 0⟩
  | .endTxn .. => ⟨0xFFFFF4FF, 0x00000051, 0, 0, 0⟩
  | .clkBefore .. => ⟨0xFFFFFCFF, 0x00000060, 0xFFFFFFFF, 0xFFFFFFFF, 0⟩
  | .clkAfter .. => ⟨0xFFFFFCFF, 0x00000061, 0xFFFFFFFF, 0xFFFFFFFF, 0⟩

/-- A descriptor fits a row: D0 under the mask, and no ARG bit that must be 0 (R84 (a) to (f)). -/
def TableRow.Fits (r : TableRow) (d : Desc) : Prop :=
  d.d0 &&& r.mask = r.value ∧ d.d1 &&& ~~~r.arg1 = 0 ∧ d.d2 &&& ~~~r.arg2 = 0 ∧ d.d3 &&& ~~~r.arg3 = 0

/-! ### What each operation may write: the access matrix of R44 -/

/-- The instance an operation works on: its INST, START's IDX (an IDX past the last instance works on none, R230: the low
bits stand for it here), and none for the calculator (R80, R83). -/
def instOf : Instr → Option (Fin 4)
  | .regRd i _ | .regWr i _ _ | .regPoll i _ _ | .guardAcq i | .guardRel i | .xferNl i _ _ | .clkBefore i _ _
  | .clkAfter i _ _ => some i
  | .start idx _ _ _ => some (Fin.ofNat 4 idx.toNat)
  | .freqToDiv _ | .divToFreq _ => none
  | .stop h | .setClock h _ | .getClock h | .setMode h _ | .getMode h | .setOrder h _ | .getOrder h | .csEnable h _
  | .csDisable h _ | .write h _ _ | .writeNl h _ _ | .transfer h _ _ | .transferNl h _ _ | .writeByte h _
  | .writeByteNl h _ | .transferByte h _ | .transferByteNl h _ | .writeWord h _ | .writeWordNl h _ | .transferWord h _
  | .transferWordNl h _ | .writeLong h _ | .writeLongNl h _ | .transferLong h _ | .transferLongNl h _
  | .transferBytes h _ _ _ | .transferBytesNl h _ _ _ | .transferBits h _ _ | .transferBitsNl h _ _
  | .writePixels h _ _ | .writePixelsNl h _ _ | .beginTxn h _ _ _ | .endTxn h => some h.inst

/-- The registers `xfer` writes (R170). -/
def xferWrites (r : Reg) : Prop := r = .mosiDlen ∨ r = .misoDlen ∨ r = .cmd

/-- Which registers of its instance an operation may write (R44): a row of the matrix read along the operation. -/
def mayWrite (cfg : Cfg) : Instr → Reg → Prop
  | .regWr _ off _, r => regAt cfg off.toNat = some r
  | .start .., r => r ∈ cfgRegs cfg ∨ ∃ k, r = .w k
  | .stop _, r => r ∈ cfgRegs cfg
  | .setClock .., r | .clkAfter .., r => r = .clock
  | .setMode .., r => r = .pin ∨ r = .user
  | .setOrder .., r => r = .ctrl
  | .csEnable .., r | .csDisable .., r => r = .pin
  | .beginTxn .., r => r = .clock ∨ r = .pin ∨ r = .user ∨ r = .ctrl ∨ r = .cmd
  | .xferNl .., r => xferWrites r
  | .write .., r | .writeNl .., r | .transfer .., r | .transferNl .., r | .writeByte .., r | .writeByteNl .., r
  | .transferByte .., r | .transferByteNl .., r | .writeWord .., r | .writeWordNl .., r | .transferWord .., r
  | .transferWordNl .., r | .writeLong .., r | .writeLongNl .., r | .transferLong .., r | .transferLongNl .., r
  | .transferBytes .., r | .transferBytesNl .., r | .transferBits .., r | .transferBitsNl .., r | .writePixels .., r
  | .writePixelsNl .., r => (∃ k, r = .w k) ∨ xferWrites r
  | .regRd .., _ | .regPoll .., _ | .guardAcq _, _ | .guardRel _, _ | .getClock _, _ | .getMode _, _ | .getOrder _, _
  | .freqToDiv _, _ | .divToFreq _, _ | .endTxn _, _ | .clkBefore .., _ => False

/-- Which bytes of host memory an operation may store to: TRANSFER its COUNT words from PTR (R181), TRANSFER_BYTES the
SIZE bytes from a non-null OUT (R210), no other operation any. -/
def mayStore : Instr → Nat → Prop
  | .transfer _ count p, a | .transferNl _ count p, a => p.toNat ≤ a ∧ a < p.toNat + 4 * count.toNat
  | .transferBytes _ size _ outp, a | .transferBytesNl _ size _ outp, a =>
    outp ≠ 0 ∧ outp.toNat ≤ a ∧ a < outp.toNat + size.toNat
  | _, _ => False

/-- START and STOP, which alone write `started` and `registered` (R44). -/
def setsLifecycle : Instr → Bool
  | .start .. | .stop _ => true
  | _ => false

/-- START, which alone creates the guard (R33, R246). -/
def createsGuard : Instr → Bool
  | .start .. => true
  | _ => false

/-- The operations that take the guard (R247). -/
def takesGuard : Instr → Bool
  | .guardAcq _ | .start .. | .stop _ | .clkBefore .. => true
  | i => isLocked i

/-- The operations that give the guard back (R247). -/
def freesGuard : Instr → Bool
  | .guardRel _ | .start .. | .stop _ | .endTxn _ | .clkAfter .. => true
  | .beginTxn .. => false
  | i => isLocked i

/-- A micro-step is one that operation i may have, on the instance it works on (R10, R44). -/
def UOp.within (cfg : Cfg) (i : Instr) : UOp → Prop
  | .wr r _ | .wrX r | .rmw r _ _ => mayWrite cfg i r
  | .wrScalar _ => mayWrite cfg i (.w 0)
  | .wrPix k => mayWrite cfg i (.w k)
  | .retune _ _ => mayWrite cfg i .clock
  | .memWr4 p => ∀ a, p ≤ a → a < p + 4 → mayStore i a
  | .memWr1 a _ => mayStore i a
  | .createGuard => createsGuard i = true
  | .acquire => takesGuard i = true
  | .release => freesGuard i = true
  | .setRegistered _ | .setStarted _ => setsLifecycle i = true
  | .poll _ _ => instOf i ≠ none
  | .bytes _ outp off size =>
    (∀ r, (∃ k, r = .w k) ∨ xferWrites r → mayWrite cfg i r) ∧ instOf i ≠ none ∧
      (outp ≠ 0 → ∀ a, outp + off ≤ a → a < outp + size → mayStore i a)
  | .pixels _ _ _ => (∀ r, (∃ k, r = .w k) ∨ xferWrites r → mayWrite cfg i r) ∧ instOf i ≠ none
  | .rd _ _ | .memRd4 _ | .memRd1 _ _ | .solve _ | .freq _ => True

/-- An operation in progress that is one of i: on i's instance, every micro-step left one that i may have. -/
structure Task.Of (cfg : Cfg) (i : Instr) (t : Task) : Prop where
  inst : ∀ j, instOf i = some j → t.inst = j
  ops : ∀ op ∈ t.ops, op.within cfg i

/-- The running agent, if it is inside an operation, is inside one of i. -/
def Resumes (i : Instr) (s : State) : Prop := ∀ c k, s.ctx? = some c → c.task = some k → k.Of s.cfg i

/-- What a turn on operation i leaves unchanged: everything but what the matrix of R44 lets i write, and, in a turn that
has the polled engine's steps, what the engine of i's instance writes (R118, R119). -/
structure Frame (i : Instr) (s t : State) : Prop where
  /-- No parameter, no input clock, no entry of the schedule (R6, R41). -/
  params : t.cfg = s.cfg ∧ t.fin = s.fin ∧ t.turn = s.turn ∧ t.sched = s.sched ∧ t.ticks = s.ticks
  /-- No other instance. -/
  others : ∀ j, instOf i ≠ some j → t.getBus j = s.getBus j
  /-- No register i does not write; the buffer also changes where a transaction completes (R119). -/
  registers : ∀ j r, r ≠ .cmd → ¬ mayWrite s.cfg i r → ((∃ k, r = .w k) → t.wire = s.wire) →
    (t.getBus j).stored r = (s.getBus j).stored r
  /-- CMD, which reads the engine phase (R31). -/
  command : ∀ j, ¬ mayWrite s.cfg i .cmd → s.turn.prompt = false → (t.getBus j).phase = (s.getBus j).phase
  /-- ACT, which only a commit step writes (R118). -/
  active : ∀ j, s.turn.prompt = false → (t.getBus j).act = (s.getBus j).act
  /-- The guard (R33). -/
  guardExists : ∀ j, createsGuard i = false → (t.getBus j).guardExists = (s.getBus j).guardExists
  owner : ∀ j, takesGuard i = false → freesGuard i = false → (t.getBus j).owner = (s.getBus j).owner
  /-- The lifecycle flags (R34). -/
  lifecycle : ∀ j, setsLifecycle i = false →
    (t.getBus j).started = (s.getBus j).started ∧ (t.getBus j).registered = (s.getBus j).registered
  /-- Every byte of host memory i does not store to. -/
  memory : ∀ a, ¬ mayStore i a → memByte t.hm a = memByte s.hm a
  /-- The bus log, which only grows, and only by an engine's steps (R39). -/
  wire : s.wire <+: t.wire ∧ (s.turn.prompt = false → t.wire = s.wire)
  /-- The fault list, which only grows, by faults of the running agent and of the polled engine (R273). -/
  faults : s.faults <+: t.faults ∧ ∀ f ∈ t.faults, f ∈ s.faults ∨ f.agent = s.cur ∨
    (s.turn.prompt = true ∧ ∃ j, instOf i = some j ∧ f.agent = .engine j)
  /-- Every other agent, and the notifier's place in its protocol (R35). -/
  agents : (∀ c, s.cur ≠ .caller c → t.callers[c]? = s.callers[c]?) ∧ (s.cur ≠ .notifier → t.notifier = s.notifier) ∧
    t.notifier.phase = s.notifier.phase ∧ t.notifier.pending = s.notifier.pending ∧
    t.notifier.applied = s.notifier.applied
  /-- The running agent: while the operation goes on or faults its pc, RES and STS stay; when it ends pc is one more
  (R36). -/
  place : ∀ c, s.ctx? = some c → ∃ k, t.ctx? = some k ∧
    (k.pc = c.pc ∧ k.res = c.res ∧ k.sts = c.sts ∨ k.pc = c.pc + 1 ∧ k.task = none)

/-! ### Turns and runs -/

/-- The operation the next turn begins or goes on with; none if the turn runs none. -/
def State.running (s : State) : Option Instr :=
  match fetch s.takeTurn with
  | .instr i _ => some i
  | .nothing | .engine _ | .protocol _ | .illegal _ _ => none

/-- The agent the next turn belongs to. -/
def State.mover (s : State) : Agent := s.takeTurn.turn.agent

/-- The next turn may have steps of the engine of j: it is that engine's, or it runs an operation on instance j with the
polled engine prompt. -/
def State.engineMoves (s : State) (j : Fin 4) : Prop :=
  s.mover = .engine j ∨ s.takeTurn.turn.prompt = true ∧ ∃ i, s.running = some i ∧ instOf i = some j

/-- The next turn with room for k micro-steps only: where the turn stands after k of its micro-steps (R70). -/
def State.afterMicroSteps (s : State) (k : Nat) : Host.Outcome State Fault Refusal :=
  let u := s.takeTurn
  runTurn { u with turn := { u.turn with burst := k } }

/-- The next turn has a step of the engine of j: one of its micro-steps takes that engine from having a step to having
none, which only a step of its own does (R117 to R119). -/
def State.engineTakes (s : State) (j : Fin 4) : Prop :=
  ∃ k < s.takeTurn.turn.burst, ∃ u v, s.afterMicroSteps k = .next u ∧ s.afterMicroSteps (k + 1) = .next v ∧
    u.engineReady j = true ∧ v.engineReady j = false

/-- n steps of the machine, all taken (R5, R70). -/
inductive Run : Nat → State → State → Prop
  | refl (s : State) : Run 0 s s
  | next {n : Nat} {s m t : State} (h : Run n s m) (hs : step m = .next t) : Run (n + 1) s t

/-- The run has ended (R320): every caller past its program, every entry of FIN_CHANGES applied and no change pending,
every phase IDLE, no fault recorded. -/
structure RunEnded (s : State) : Prop where
  callers : ∀ k ∈ s.callers, k.ctx.pc = k.prog.length
  notifier : s.notifier.applied = s.cfg.finChanges.length ∧ s.notifier.pending = none
  engines : ∀ j, (s.getBus j).phase = .idle
  faults : s.faults = []

/-! ### Fairness (R121, R321): the premises a claim that every run ends rests on -/

/-- Agent a has a step in s (R5, R112, R117): a turn of one micro-step of its own changes more than the drawn values. -/
def State.hasStep (s : State) (a : Agent) : Prop :=
  let u := { s with turn := ⟨a, 1, false, 0⟩ }
  ∃ t, runTurn u = .next t ∧ { t with draws := u.draws } ≠ u

/-- Agent a waits at, or is about to make, an acquire (R114). -/
def State.atAcquire (s : State) (a : Agent) : Prop :=
  ∃ c t, { s with turn := ⟨a, 1, false, 0⟩ }.ctx? = some c ∧ c.task = some t ∧ t.ops.head? = some .acquire

/-- The next turn is one of agent a, with room for a micro-step. -/
def State.moves (s : State) (a : Agent) : Prop := s.mover = a ∧ s.takeTurn.turn.burst ≠ 0

/-- An infinite run: every state is followed by its step (R70). -/
def IsRun (run : Nat → State) : Prop := ∀ n, step (run n) = .next (run (n + 1))

/-- Weak fairness of a: a step enabled continuously is eventually taken. -/
def WeaklyFair (run : Nat → State) (a : Agent) : Prop :=
  ∀ n, (∀ m, n ≤ m → (run m).hasStep a) → ∃ m, n ≤ m ∧ (run m).moves a

/-- Strong fairness of the acquires of a: one enabled infinitely often is eventually taken. -/
def AcquireFair (run : Nat → State) (a : Agent) : Prop :=
  ∀ n, (∀ k, n ≤ k → ∃ m, k ≤ m ∧ (run m).atAcquire a ∧ (run m).hasStep a) →
    ∃ m, n ≤ m ∧ (run m).hasStep a ∧ (run m).moves a

/-- Weak fairness of the engine of i (R121): with a step continuously, it eventually takes one, in a turn of its own or as
the polled engine of another agent's. -/
def EngineFair (run : Nat → State) (i : Fin 4) : Prop :=
  ∀ n, (∀ m, n ≤ m → (run m).hasStep (.engine i)) → ∃ m, n ≤ m ∧ (run m).engineTakes i

/-- The fairness assumptions of R321: the engines' under ENGINE_LIVE (R121), the callers' and the notifier's, and strong
fairness of every acquire. -/
structure Fair (run : Nat → State) : Prop where
  engines : (run 0).cfg.engineLive = true → ∀ i, EngineFair run i
  callers : ∀ c, WeaklyFair run (.caller c)
  notifier : WeaklyFair run .notifier
  acquires : ∀ a, AcquireFair run a

/-- One step of the notifier's protocol (R251), from its place, the pending change and fin to what follows. `news` is
the new value of the next change, `regset` the instances registered now. -/
inductive ProtocolStep (news : Option Word) (regset : List (Fin 4)) :
    Notifier → Word → Notifier → Word → Prop
  /-- old <- fin and REGSET read, in one micro-step. -/
  | snap (c : Ctx) (n : Nat) (fin new : Word) (h : news = some new) :
    ProtocolStep news regset ⟨c, .idle, none, n⟩ fin ⟨c, .snapped fin new regset, none, n⟩ fin
  /-- pending <- (old, new, {}). -/
  | opened (c : Ctx) (n : Nat) (fin old new : Word) (l : List (Fin 4)) :
    ProtocolStep news regset ⟨c, .snapped old new l, none, n⟩ fin ⟨c, .before l, some ⟨old, new, []⟩, n⟩ fin
  /-- CLK_BEFORE of one of the instances still to do goes on, or holds, or faults. -/
  | calling (c d : Ctx) (n : Nat) (fin : Word) (p : Pending) (l m : List (Fin 4)) (h : l.Perm m) (hd : d.pc = c.pc) :
    ProtocolStep news regset ⟨c, .before l, some p, n⟩ fin ⟨d, .before m, some p, n⟩ fin
  /-- CLK_BEFORE of an instance completes. -/
  | called (c d : Ctx) (n : Nat) (fin : Word) (p : Pending) (l m : List (Fin 4)) (i : Fin 4) (h : l.Perm (i :: m))
      (hd : d.pc = c.pc + 1) :
    ProtocolStep news regset ⟨c, .before l, some p, n⟩ fin ⟨d, .marking i m, some p, n⟩ fin
  /-- pending.S <- pending.S ∪ {i}. -/
  | marked (c : Ctx) (n : Nat) (fin : Word) (p : Pending) (i : Fin 4) (l : List (Fin 4)) :
    ProtocolStep news regset ⟨c, .marking i l, some p, n⟩ fin
      ⟨c, .before l, some { p with done := addOnce p.done i }, n⟩ fin
  /-- fin <- new, once CLK_BEFORE has completed on all of REGSET. -/
  | changed (c : Ctx) (n : Nat) (fin : Word) (p : Pending) :
    ProtocolStep news regset ⟨c, .before [], some p, n⟩ fin ⟨c, .after p.done, some p, n⟩ p.new
  /-- CLK_AFTER of one of the instances of S still to do goes on, or faults. -/
  | retuning (c d : Ctx) (n : Nat) (fin : Word) (p : Pending) (l m : List (Fin 4)) (h : l.Perm m) (hd : d.pc = c.pc) :
    ProtocolStep news regset ⟨c, .after l, some p, n⟩ fin ⟨d, .after m, some p, n⟩ fin
  /-- CLK_AFTER of an instance completes. -/
  | retuned (c d : Ctx) (n : Nat) (fin : Word) (p : Pending) (l m : List (Fin 4)) (i : Fin 4) (h : l.Perm (i :: m))
      (hd : d.pc = c.pc + 1) :
    ProtocolStep news regset ⟨c, .after l, some p, n⟩ fin ⟨d, .after m, some p, n⟩ fin
  /-- pending <- none, once CLK_AFTER has completed on all of S: the change is applied. -/
  | closed (c : Ctx) (n : Nat) (fin : Word) (p : Pending) :
    ProtocolStep news regset ⟨c, .after [], some p, n⟩ fin ⟨c, .idle, none, n + 1⟩ fin

/-! ### The invariant every step keeps -/

/-- An instance: reserved bits are stored as 0 (R113), a held guard exists (R33), a commit is in flight only on a
variant that has it (R29), and an engine that faulted is still BUSY (R119, R273). -/
structure Bus.Inv (cfg : Cfg) (engineStopped : Bool) (b : Bus) : Prop where
  reserved : ∀ r, r ≠ .cmd → b.stored r &&& ~~~wmask cfg r = 0
  owned : b.owner ≠ none → b.guardExists = true
  commits : b.phase = .commit → cfg.hasCommit = true
  stuck : engineStopped = true → b.phase = .busy

/-- A wire event (R39, R119): from 1 to 512 bits, as many as MOSI_DLEN says, as many received as sent, the CS_DIS of its
PIN, no reserved bit in its configuration, and under LOOPBACK the received bits are the sent ones. -/
structure WireEvent.Inv (cfg : Cfg) (e : WireEvent) : Prop where
  sent : e.tx.length = e.conf.mosiDlen.toNat + 1 ∧ e.tx.length ≤ 512
  received : e.rx.length = e.tx.length
  lines : e.csDis = Machine.csDis e.conf.pin
  reserved : e.conf.masked cfg = e.conf
  loops : cfg.link = .loopback → e.rx = e.tx
  clock : e.fin ≠ 0

/-- The notifier's place agrees with the pending change, with fin and with the entry of FIN_CHANGES it applies (R42,
R251), and the operation it is inside, if any, is the callback the protocol is at. -/
def NotifierInv (s : State) : Prop :=
  s.notifier.applied ≤ s.cfg.finChanges.length ∧
  match s.notifier.phase, s.notifier.pending with
  | .idle, p => p = none ∧ s.notifier.ctx.task = none
  | .snapped old new _, p =>
    p = none ∧ s.notifier.ctx.task = none ∧ old = s.fin ∧ s.cfg.finChanges[s.notifier.applied]? = some new
  | .before todo, some p =>
    p.old = s.fin ∧ s.cfg.finChanges[s.notifier.applied]? = some p.new ∧
      ∀ k, s.notifier.ctx.task = some k → ∃ i rest, todo = i :: rest ∧ k.Of s.cfg (.clkBefore i p.old p.new)
  | .marking _ _, some p =>
    p.old = s.fin ∧ s.cfg.finChanges[s.notifier.applied]? = some p.new ∧ s.notifier.ctx.task = none
  | .after todo, some p =>
    s.fin = p.new ∧ s.cfg.finChanges[s.notifier.applied]? = some p.new ∧
      ∀ k, s.notifier.ctx.task = some k → ∃ i rest, todo = i :: rest ∧ k.Of s.cfg (.clkAfter i p.old p.new)
  | _, none => False

/-- A caller is inside its program or at its end (R36), and the operation it is inside, if any, is its current
descriptor's (R35). -/
structure Caller.Inv (cfg : Cfg) (k : Caller) : Prop where
  inside : k.ctx.pc ≤ k.prog.length
  task : ∀ t, k.ctx.task = some t → ∃ d i, k.current = some d ∧ decode d = .ok i ∧ t.Of cfg i

/-- The invariant of the machine: host memory in its canonical form (R61), every instance, wire event, caller and the
notifier as above, fin never 0 (R41), and no agent in the fault list twice (R273). -/
structure State.Inv (s : State) : Prop where
  memory : Memory.wf s.hm = true
  buses : ∀ j, (s.getBus j).Inv s.cfg (s.stopped (.engine j))
  wire : ∀ e ∈ s.wire, e.Inv s.cfg
  callers : ∀ k ∈ s.callers, k.Inv s.cfg
  notifier : NotifierInv s
  clock : s.fin ≠ 0
  faults : (s.faults.map FaultRecord.agent).Nodup

end Sys2Proof.Machine
end

