-- ==== Sys2Proof/Certificates/Slice0/Obligations.lean ====
section
/-! DEFINITION. The statements for the provers, one definition each, in the order of OBLIGATIONS.json. Their terms are in
Safety.lean. Two of their hypotheses are about the model's own schedule (log entries 1 and 6): `Ready n s` says that the
running agent is between operations and that its turn has room for n micro-steps, and `EngineServes i s` that the turn has
the steps of the engine it polls. Both are premises of the completion statements only: no conclusion rests on them for
its values. -/

open Sys2Proof Sys2Proof.Machine

/-- R110. REG_RD answers the register's value, after its checks in their order; a read changes no register. -/
def Obligations.RegRdReadsOneRegister : Prop :=
  ∀ (i : Fin 4) (off : BitVec 16) (s : State), Ready 2 s →
    (s.cfg.nInst ≤ i.val → exec (.regRd i off) s = .next (s.raise (.unmapped i (some off)))) ∧
    (i.val < s.cfg.nInst → off.toNat % 4 ≠ 0 →
      exec (.regRd i off) s = .next (s.raise (.misaligned off.toNat))) ∧
    (i.val < s.cfg.nInst → off.toNat % 4 = 0 → regAt s.cfg off.toNat = none →
      exec (.regRd i off) s = .next (s.raise (.unmapped i (some off)))) ∧
    (i.val < s.cfg.nInst → off.toNat % 4 = 0 → regAt s.cfg off.toNat = some .cmd →
      exec (.regRd i off) s = .next (s.finish .ok
        (match (s.getBus i).phase with | .idle => 0 | .busy => 1 | .commit => 2))) ∧
    (∀ r, i.val < s.cfg.nInst → off.toNat % 4 = 0 → regAt s.cfg off.toNat = some r → r ≠ .cmd →
      ((s.getBus i).phase ≠ .busy ∨ ∀ k, r ≠ .w k) →
      exec (.regRd i off) s = .next (s.finish .ok ((s.getBus i).stored r &&& wmask s.cfg r))) ∧
    (∀ k, i.val < s.cfg.nInst → off.toNat % 4 = 0 → regAt s.cfg off.toNat = some (.w k) →
      (s.getBus i).phase = .busy →
      exec (.regRd i off) s = .next ((s.addDraws 1).finish .ok (Config.freeWord s.draws)))

/-- R111. REG_WR stores the writable bits of a register, starts a transaction or a commit through CMD, and faults while
one is in flight. -/
def Obligations.RegWrWritesOneRegister : Prop :=
  ∀ (i : Fin 4) (off : BitVec 16) (v : Word) (s : State), Ready 2 s →
    (s.cfg.nInst ≤ i.val → exec (.regWr i off v) s = .next (s.raise (.unmapped i (some off)))) ∧
    (i.val < s.cfg.nInst → off.toNat % 4 ≠ 0 →
      exec (.regWr i off v) s = .next (s.raise (.misaligned off.toNat))) ∧
    (i.val < s.cfg.nInst → off.toNat % 4 = 0 → regAt s.cfg off.toNat = none →
      exec (.regWr i off v) s = .next (s.raise (.unmapped i (some off)))) ∧
    (∀ r, i.val < s.cfg.nInst → off.toNat % 4 = 0 → regAt s.cfg off.toNat = some r → ¬ Quiet i s →
      ∃ t, exec (.regWr i off v) s = .next t ∧ Trapped (.busyWrite i r) s t) ∧
    (∀ r, i.val < s.cfg.nInst → off.toNat % 4 = 0 → regAt s.cfg off.toNat = some r → Quiet i s → r ≠ .cmd →
      exec (.regWr i off v) s = .next ((s.updBus i fun b => b.store r (v &&& wmask s.cfg r)).finish .ok 0)) ∧
    (i.val < s.cfg.nInst → off.toNat % 4 = 0 → regAt s.cfg off.toNat = some .cmd → Quiet i s →
      if v.getLsbD 0 ∧ s.cfg.hasCommit ∧ v.getLsbD 1 then
        ∃ t, exec (.regWr i off v) s = .next t ∧ Trapped (.cmdConflict v) s t
      else if v.getLsbD 0 then
        exec (.regWr i off v) s = .next ((s.updBus i fun b => { b with phase := .busy }).finish .ok 0)
      else if s.cfg.hasCommit ∧ v.getLsbD 1 then
        exec (.regWr i off v) s = .next ((s.updBus i fun b => { b with phase := .commit }).finish .ok 0)
      else exec (.regWr i off v) s = .next (s.finish .ok 0))

/-- R112. REG_POLL makes the checks of REG_RD, then holds until the masked bits read 0; each test is one read. A held
poll moves no pc and no register and ends when its test later succeeds. A polled engine with a step lifts the hold on
CMD: the completion of a transaction that of mask 1, a commit step that of mask 2. -/
def Obligations.RegPollHoldsUntilClear : Prop :=
  ∀ (i : Fin 4) (off : BitVec 16) (mask : Word) (s : State), Ready 4 s →
    (s.cfg.nInst ≤ i.val → exec (.regPoll i off mask) s = .next (s.raise (.unmapped i (some off)))) ∧
    (i.val < s.cfg.nInst → off.toNat % 4 ≠ 0 →
      exec (.regPoll i off mask) s = .next (s.raise (.misaligned off.toNat))) ∧
    (i.val < s.cfg.nInst → off.toNat % 4 = 0 → regAt s.cfg off.toNat = none →
      exec (.regPoll i off mask) s = .next (s.raise (.unmapped i (some off)))) ∧
    (∀ r, i.val < s.cfg.nInst → off.toNat % 4 = 0 → regAt s.cfg off.toNat = some r →
      (readReg i r s).1 &&& mask = 0 →
      exec (.regPoll i off mask) s = .next ((readReg i r s).2.finish .ok 0)) ∧
    (∀ r, i.val < s.cfg.nInst → off.toNat % 4 = 0 → regAt s.cfg off.toNat = some r →
      (readReg i r s).1 &&& mask ≠ 0 → (s.turn.prompt && s.engineReady i) = false →
      exec (.regPoll i off mask) s = .next ((readReg i r s).2.save ⟨i, [.poll r mask], 0, 0, .const 0⟩) ∧
      ∀ u, Inside ⟨i, [.poll r mask], 0, 0, .const 0⟩ u → (readReg i r u).1 &&& mask = 0 →
        exec (.regPoll i off mask) u = .next ((readReg i r u).2.finish .ok 0)) ∧
    (i.val < s.cfg.nInst → off.toNat = 0 → mask = 1 → (s.getBus i).phase = .busy → EngineServes i s →
      ((s.getBus i).txnCfg s.cfg).mosiDlen.toNat < 512 →
      exec (.regPoll i off mask) s = .next ((completeStep i s).finish .ok 0)) ∧
    (i.val < s.cfg.nInst → off.toNat = 0 → mask = 2 → (s.getBus i).phase = .commit → EngineServes i s →
      exec (.regPoll i off mask) s = .next ((commitStep i s).finish .ok 0))

/-- R114. GUARD_ACQ takes a free guard, holds while any agent owns it (the running agent included), and faults when the
guard was never created. That the UNMAPPED record has no OFF is the model's choice (log entry 13). -/
def Obligations.GuardAcqTakesTheGuard : Prop :=
  ∀ (i : Fin 4) (s : State), Ready 2 s →
    (s.cfg.nInst ≤ i.val → exec (.guardAcq i) s = .next (s.raise (.unmapped i none))) ∧
    (i.val < s.cfg.nInst → (s.getBus i).guardExists = false →
      ∃ t, exec (.guardAcq i) s = .next t ∧ Trapped (.notStarted i) s t) ∧
    (i.val < s.cfg.nInst → GuardFree i s →
      exec (.guardAcq i) s = .next ((s.updBus i fun b => { b with owner := some s.cur }).finish .ok 0)) ∧
    (∀ a, i.val < s.cfg.nInst → (s.getBus i).guardExists = true → (s.getBus i).owner = some a →
      exec (.guardAcq i) s = .next (s.save ⟨i, [.acquire], 0, 0, .const 0⟩) ∧
      ∀ u, Inside ⟨i, [.acquire], 0, 0, .const 0⟩ u → GuardFree i u →
        exec (.guardAcq i) u = .next ((u.updBus i fun b => { b with owner := some u.cur }).finish .ok 0))

/-- R115. GUARD_REL frees a guard its caller holds and faults otherwise. That the UNMAPPED record has no OFF is the model's
choice (log entry 13). -/
def Obligations.GuardRelFreesTheGuard : Prop :=
  ∀ (i : Fin 4) (s : State), Ready 2 s →
    (s.cfg.nInst ≤ i.val → exec (.guardRel i) s = .next (s.raise (.unmapped i none))) ∧
    (i.val < s.cfg.nInst → GuardMine i s →
      exec (.guardRel i) s = .next ((s.updBus i fun b => { b with owner := none }).finish .ok 0)) ∧
    (i.val < s.cfg.nInst → ¬ GuardMine i s →
      ∃ t, exec (.guardRel i) s = .next t ∧ Trapped (.notOwner i) s t)

/-- R117, R118. An engine has a step exactly in COMMIT and in BUSY, until it has faulted; the commit step copies the six
registers into ACT and returns to IDLE, and changes nothing else. -/
def Obligations.EngineCommitsTheRegisters : Prop :=
  ∀ (i : Fin 4) (s : State), s.turn.agent = .engine i → s.turn.burst ≠ 0 →
    (Quiet i s → runTurn s = .next s) ∧
    (s.stopped (.engine i) = true → runTurn s = .next s) ∧
    (s.stopped (.engine i) = false → (s.getBus i).phase = .commit →
      runTurn s = .next (s.updBus i fun b => { b with
        act := ⟨b.conf.clock, b.conf.ctrl, b.conf.user, b.conf.pin, b.conf.mosiDlen, b.conf.misoDlen⟩
        phase := .idle }))

/-- R119, R120. The completion step: DLEN_OVERFLOW past 512 bits; else the bits go out in wire order, the received bits
land at their read-order positions when the lengths match and DOUTDIN is set, every other buffer bit is free, and one
wire event is appended. That an ACT drawn at power-on is used with its reserved bits 0 is the model's choice (log
entry 23). -/
def Obligations.EngineCompletesATransaction : Prop :=
  ∀ (i : Fin 4) (s : State), s.turn.agent = .engine i → s.turn.burst ≠ 0 → s.stopped (.engine i) = false →
    (s.getBus i).phase = .busy →
    let c := (if s.cfg.hasCommit then (s.getBus i).act else (s.getBus i).conf).masked s.cfg
    let n := c.mosiDlen.toNat + 1
    let tx := fun k => bufBit (s.getBus i).w (wirePos k (wrOrder c.ctrl))
    let rx := fun k => match s.cfg.link with
      | .loopback => tx k
      | .external => (Config.freeBits (s.draws + 1)).getLsbD k
    let lands := doutdin c.user = true ∧ c.misoDlen.toNat + 1 = n
    (512 < n → runTurn s = .next (s.record (.dlenOverflow i c.mosiDlen) (.engine i) none)) ∧
    (n ≤ 512 → ∃ w, runTurn s = .next (((s.updBus i fun b => { b with w := w, phase := .idle }).addWire
          ⟨i, s.fin, c, csDis c.pin, (List.range n).map tx, (List.range n).map rx⟩).addDraws 2) ∧
        (lands → ∀ k < n, bufBit w (wirePos k (rdOrder c.ctrl)) = rx k) ∧
        (∀ b < 512, ¬ (lands ∧ ∃ k < n, b = wirePos k (rdOrder c.ctrl)) →
          bufBit w b = (Config.freeBits s.draws).getLsbD b))

/-- R170. XFER_NL: its checks in their order, then one transaction in a turn that gives the engine its steps. That the
UNMAPPED record has no OFF is the model's choice (log entry 13). -/
def Obligations.XferNlRunsOneTransaction : Prop :=
  ∀ (i : Fin 4) (nbits : BitVec 16) (fd : Word) (s : State), Ready 9 s →
    (s.cfg.nInst ≤ i.val → exec (.xferNl i nbits fd) s = .next (s.raise (.unmapped i none))) ∧
    (i.val < s.cfg.nInst → nbits.toNat < 1 ∨ 512 < nbits.toNat →
      exec (.xferNl i nbits fd) s = .next (s.finish .invalidArgument 0)) ∧
    (i.val < s.cfg.nInst → 1 ≤ nbits.toNat → nbits.toNat ≤ 512 → ¬ GuardMine i s →
      exec (.xferNl i nbits fd) s = .next (s.raise (.unguarded i))) ∧
    (i.val < s.cfg.nInst → 1 ≤ nbits.toNat → nbits.toNat ≤ 512 → GuardMine i s → ¬ Quiet i s →
      ∃ t, exec (.xferNl i nbits fd) s = .next t ∧ Trapped (.busyWrite i .mosiDlen) s t) ∧
    (i.val < s.cfg.nInst → 1 ≤ nbits.toNat → nbits.toNat ≤ 512 → GuardMine i s → Quiet i s → EngineServes i s →
      cfgOk s.cfg = true →
      exec (.xferNl i nbits fd) s = .next ((s.transacted i nbits.toNat (fd.getLsbD 0)).finish .ok 0))

/-- R170, R171, R310. Where the schedule does not have the engine's step, `xfer` holds: at the commit before the trigger
when the variant has the commit, else at the trigger, with the lengths written; the agent's place is kept. -/
def Obligations.XferWaitsForItsEngine : Prop :=
  ∀ (i : Fin 4) (nbits : BitVec 16) (fd : Word) (s : State), Ready 6 s → i.val < s.cfg.nInst → 1 ≤ nbits.toNat →
    nbits.toNat ≤ 512 → GuardMine i s → Quiet i s → cfgOk s.cfg = true → s.turn.prompt = false →
    (s.cfg.hasCommit = false → exec (.xferNl i nbits fd) s =
      .next ((s.updBus i fun b => { b with
          conf := (b.triggered s.cfg nbits.toNat (fd.getLsbD 0)).conf, phase := .busy }).save
        ⟨i, [.poll .cmd 1], 0, 0, .const 0⟩)) ∧
    (s.cfg.hasCommit = true → exec (.xferNl i nbits fd) s =
      .next ((s.updBus i fun b => { b with
          conf := (b.triggered s.cfg nbits.toNat (fd.getLsbD 0)).conf, phase := .commit }).save
        ⟨i, [.poll .cmd 2, .wr .cmd 1, .poll .cmd 1], 0, 0, .const 0⟩))

/-- R118, R119, R170, R26, R27. What one whole transaction leaves: the lengths, ACT, the phase, the bits on the wire, the
received bits in the buffer, and everything else of the machine as it was. -/
def Obligations.TransactionLeaves : Prop :=
  ∀ (i : Fin 4) (nbits : Nat) (fd : Bool) (s : State), cfgOk s.cfg = true → 1 ≤ nbits → nbits ≤ 512 →
    let t := s.transacted i nbits fd
    let b := s.getBus i
    let conf : RegCfg := { b.conf with
      mosiDlen := BitVec.ofNat 32 (nbits - 1)
      misoDlen := if fd then BitVec.ofNat 32 (nbits - 1)
        else if s.cfg.woMiso = .zero then 0 else b.conf.misoDlen }
    let c := conf.masked s.cfg
    ∃ w rx, t.getBus i = { b with
        conf := conf, act := if s.cfg.hasCommit then conf else b.act, w := w, phase := .idle } ∧
      t.wire = s.wire ++ [⟨i, s.fin, c, csDis c.pin, sentBits c nbits b.w, rx⟩] ∧ rx.length = nbits ∧
      (s.cfg.link = .loopback → rx = sentBits c nbits b.w) ∧
      (doutdin b.conf.user = true → c.misoDlen.toNat + 1 = nbits →
        ∀ k < nbits, rx[k]? = some (bufBit w (wirePos k (rdOrder b.conf.ctrl)))) ∧
      (∀ j, j ≠ i → t.getBus j = s.getBus j) ∧ (∀ a, memByte t.hm a = memByte s.hm a) ∧
      t.cfg = s.cfg ∧ t.fin = s.fin ∧ t.callers = s.callers ∧ t.notifier = s.notifier ∧ t.faults = s.faults

/-- R182, R184, R186. WRITE_BYTE, WRITE_WORD and WRITE_LONG, locked and no-lock: the value, permuted when the write order
asks for it (a byte never), is loaded into W[0] and sent write-only; RES 0. -/
def Obligations.ScalarWritesSendTheirValue : Prop :=
  ∀ (nl : Bool) (h : Handle) (v : Word) (s : State), Ready 16 s → Usable h s → Admits nl h.inst s → Quiet h.inst s →
    EngineServes h.inst s → cfgOk s.cfg = true →
    let swap := swapcond s.cfg (wrOrder (s.getBus h.inst).conf.ctrl)
    let sends := fun (x : Word) (nbits : Nat) => Host.Outcome.next
      (((s.updBus h.inst fun b => b.store (.w 0) x).transacted h.inst nbits false).finish .ok 0)
    exec (if nl then .writeByteNl h v else .writeByte h v) s = sends (v &&& 0xFF) 8 ∧
    exec (if nl then .writeWordNl h v else .writeWord h v) s = sends (if swap then swap16 v else v &&& 0xFFFF) 16 ∧
    exec (if nl then .writeLongNl h v else .writeLong h v) s = sends (if swap then swap32 v else v) 32

/-- R183, R185, R187. TRANSFER_BYTE, TRANSFER_WORD and TRANSFER_LONG, locked and no-lock: loaded and sent as the writes,
full duplex; RES is W[0] afterwards, cut to the width and un-permuted when the read order asks for it. -/
def Obligations.ScalarTransfersReturnTheReadback : Prop :=
  ∀ (nl : Bool) (h : Handle) (v : Word) (s : State), Ready 16 s → Usable h s → Admits nl h.inst s → Quiet h.inst s →
    EngineServes h.inst s → cfgOk s.cfg = true →
    let swap := swapcond s.cfg (wrOrder (s.getBus h.inst).conf.ctrl)
    let unswap := swapcond s.cfg (rdOrder (s.getBus h.inst).conf.ctrl)
    let after := fun (x : Word) (nbits : Nat) =>
      (s.updBus h.inst fun b => b.store (.w 0) x).transacted h.inst nbits true
    let w0 := fun (t : State) => (t.getBus h.inst).w[0]
    (let t := after (v &&& 0xFF) 8
     exec (if nl then .transferByteNl h v else .transferByte h v) s = .next (t.finish .ok (w0 t &&& 0xFF))) ∧
    (let t := after (if swap then swap16 v else v &&& 0xFFFF) 16
     exec (if nl then .transferWordNl h v else .transferWord h v) s =
       .next (t.finish .ok (if unswap then swap16 (w0 t) else w0 t &&& 0xFFFF))) ∧
    (let t := after (if swap then swap32 v else v) 32
     exec (if nl then .transferLongNl h v else .transferLong h v) s =
       .next (t.finish .ok (if unswap then swap32 (w0 t) else w0 t)))

/-- R188. TRANSFER_BITS, locked and no-lock: NBITS outside 1..32 is INVALID_ARGUMENT before the guard is looked at; else
the low NBITS bits, permuted over their bytes, go out full duplex and the result is un-permuted and masked. -/
def Obligations.TransferBitsMovesNbits : Prop :=
  ∀ (nl : Bool) (h : Handle) (nbits : BitVec 16) (data : Word) (s : State), Ready 16 s → Usable h s →
    (nbits.toNat = 0 ∨ 32 < nbits.toNat →
      exec (if nl then .transferBitsNl h nbits data else .transferBits h nbits data) s =
        .next (s.finish .invalidArgument 0)) ∧
    (1 ≤ nbits.toNat → nbits.toNat ≤ 32 → Admits nl h.inst s → Quiet h.inst s → EngineServes h.inst s →
      cfgOk s.cfg = true →
      let bytes := (nbits.toNat + 7) / 8
      let mask : Word := BitVec.ofNat 32 (2 ^ nbits.toNat - 1)
      let x := if swapcond s.cfg (wrOrder (s.getBus h.inst).conf.ctrl) then swapN (data &&& mask) bytes else data &&& mask
      let t := (s.updBus h.inst fun b => b.store (.w 0) x).transacted h.inst nbits.toNat true
      let r := (t.getBus h.inst).w[0]
      exec (if nl then .transferBitsNl h nbits data else .transferBits h nbits data) s = .next (t.finish .ok
        ((if swapcond s.cfg (rdOrder (s.getBus h.inst).conf.ctrl) then swapN r bytes else r) &&& mask)))

/-- R189. The scalar round trips: under LOOPBACK, full duplex, one bit order for both phases, under either order and
either SWAP_ON, the scalar transfers answer the value sent. -/
def Obligations.ScalarTransfersRoundTrip : Prop :=
  ∀ (nl : Bool) (h : Handle) (v : Word) (s : State), Ready 16 s → Usable h s → Admits nl h.inst s → Quiet h.inst s →
    EngineServes h.inst s → cfgOk s.cfg = true → LoopsBack h.inst s →
    let answers := fun (i : Instr) (r : Word) =>
      ∃ t c, exec i s = .next t ∧ s.ctx? = some c ∧ t.ctx? = some ⟨c.pc + 1, r, .ok, none⟩
    answers (if nl then .transferByteNl h v else .transferByte h v) (v &&& 0xFF) ∧
    answers (if nl then .transferWordNl h v else .transferWord h v) (v &&& 0xFFFF) ∧
    answers (if nl then .transferLongNl h v else .transferLong h v) v ∧
    ∀ b ∈ [8, 16, 24, 32], answers (if nl then .transferBitsNl h (BitVec.ofNat 16 b) v
      else .transferBits h (BitVec.ofNat 16 b) v) (v &&& BitVec.ofNat 32 (2 ^ b - 1))

/-- R180, R61. WRITE, locked and no-lock: COUNT, then the null pointer, then alignment are checked before the guard; then
the words are loaded as they are from host memory and sent write-only; at a word outside the launch memory the caller is
stuck for good, the words before it loaded and the guard held. -/
def Obligations.WriteSendsItsWords : Prop :=
  ∀ (nl : Bool) (h : Handle) (count : BitVec 16) (p : Word) (s : State), Ready 48 s → Usable h s →
    let i := if nl then Instr.writeNl h count p else Instr.write h count p
    let c := count.toNat
    (c < 1 ∨ 16 < c → exec i s = .next (s.finish .invalidArgument 0)) ∧
    (1 ≤ c → c ≤ 16 → p = 0 → exec i s = .next (s.finish .invalidArgument 0)) ∧
    (1 ≤ c → c ≤ 16 → p ≠ 0 → p.toNat % 4 ≠ 0 → exec i s = .next (s.raise (.misaligned p.toNat))) ∧
    (1 ≤ c → c ≤ 16 → p ≠ 0 → p.toNat % 4 = 0 → Admits nl h.inst s → memRead4 s.hm p.toNat = none →
      ∃ o, exec i s = .next ((s.updBus h.inst fun b => { b with owner := some s.cur }).save o)) ∧
    (1 ≤ c → c ≤ 16 → p ≠ 0 → p.toNat % 4 = 0 → Admits nl h.inst s → Quiet h.inst s → EngineServes h.inst s →
      cfgOk s.cfg = true → Mapped s.hm p.toNat (4 * c) →
      exec i s = .next (((s.updBus h.inst fun b => { b with w := loadedFrom s.hm p.toNat c b.w }).transacted
        h.inst (32 * c) false).finish .ok 0)) ∧
    (∀ k < c, c ≤ 16 → p ≠ 0 → p.toNat % 4 = 0 → Admits nl h.inst s → Quiet h.inst s → Mapped s.hm p.toNat (4 * k) →
      memRead4 s.hm (p.toNat + 4 * k) = none →
      StuckAt i (.memRd4 (p.toNat + 4 * k)) s (s.updBus h.inst fun b => { b with
        owner := some s.cur, w := loadedFrom s.hm p.toNat k b.w }))

/-- R181, R61. TRANSFER, locked and no-lock: the checks of WRITE, the words loaded and sent full duplex, then the first c
buffer words stored back over them, little-endian; no other byte of host memory changes. At a word outside the launch
memory the caller is stuck for good, as in WRITE. -/
def Obligations.TransferExchangesItsWords : Prop :=
  ∀ (nl : Bool) (h : Handle) (count : BitVec 16) (p : Word) (s : State), Ready 80 s → Usable h s →
    let i := if nl then Instr.transferNl h count p else Instr.transfer h count p
    let c := count.toNat
    (c < 1 ∨ 16 < c → exec i s = .next (s.finish .invalidArgument 0)) ∧
    (1 ≤ c → c ≤ 16 → p = 0 → exec i s = .next (s.finish .invalidArgument 0)) ∧
    (1 ≤ c → c ≤ 16 → p ≠ 0 → p.toNat % 4 ≠ 0 → exec i s = .next (s.raise (.misaligned p.toNat))) ∧
    (1 ≤ c → c ≤ 16 → p ≠ 0 → p.toNat % 4 = 0 → Admits nl h.inst s → Quiet h.inst s → EngineServes h.inst s →
      cfgOk s.cfg = true → Mapped s.hm p.toNat (4 * c) →
      let u := (s.updBus h.inst fun b => { b with w := loadedFrom s.hm p.toNat c b.w }).transacted h.inst (32 * c) true
      ∃ hm, exec i s = .next ((u.setHm hm).finish .ok 0) ∧
        (∀ k (hk : k < 16), k < c → ∀ j < 4,
          memByte hm (p.toNat + 4 * k + j) = some (byteAt ((u.getBus h.inst).w[k]'hk) j)) ∧
        (∀ a, a < p.toNat ∨ p.toNat + 4 * c ≤ a → memByte hm a = memByte s.hm a)) ∧
    (∀ k < c, c ≤ 16 → p ≠ 0 → p.toNat % 4 = 0 → Admits nl h.inst s → Quiet h.inst s → Mapped s.hm p.toNat (4 * k) →
      memRead4 s.hm (p.toNat + 4 * k) = none →
      StuckAt i (.memRd4 (p.toNat + 4 * k)) s (s.updBus h.inst fun b => { b with
        owner := some s.cur, w := loadedFrom s.hm p.toNat k b.w }))

/-- R181, R119, R64. Under LOOPBACK, full duplex and one bit order, TRANSFER answers a next state in which every byte of
host memory reads as before. -/
def Obligations.TransferLoopbackKeepsMemory : Prop :=
  ∀ (nl : Bool) (h : Handle) (count : BitVec 16) (p : Word) (s : State), Ready 80 s → Usable h s →
    1 ≤ count.toNat → count.toNat ≤ 16 → p ≠ 0 → p.toNat % 4 = 0 → Admits nl h.inst s → Quiet h.inst s →
    EngineServes h.inst s → cfgOk s.cfg = true → Mapped s.hm p.toNat (4 * count.toNat) → LoopsBack h.inst s →
    ∃ t, exec (if nl then Instr.transferNl h count p else Instr.transfer h count p) s = .next t ∧
      ∀ a, memByte t.hm a = memByte s.hm a

/-- R210, R211 (a), (c), (d), R61. TRANSFER_BYTES, locked and no-lock, any size: one full-duplex transaction of each
chunk's valid bytes, one wire event for each, 0xFF sent for a null input; the received bytes land at the output and no
other byte of host memory changes. The guard, the lifecycle flags and the other registers end as they were, nothing in
flight. At the first byte of the input or of the output outside the launch memory the caller is stuck for good: the
chunks before it done (for an output byte its own chunk sent too), the guard held. -/
def Obligations.TransferBytesMovesEveryChunk : Prop :=
  ∀ (nl : Bool) (h : Handle) (size inp outp : Word) (s : State), Ready (20 * size.toNat + 3) s → Usable h s →
    Admits nl h.inst s → Quiet h.inst s → EngineServes h.inst s → cfgOk s.cfg = true →
    let i := if nl then Instr.transferBytesNl h size inp outp else Instr.transferBytes h size inp outp
    let user := (s.getBus h.inst).conf.user
    let ctrl := (s.getBus h.inst).conf.ctrl
    ((inp ≠ 0 → Mapped s.hm inp.toNat size.toNat) → (outp ≠ 0 → Mapped s.hm outp.toNat size.toNat) →
      ∃ (t : State) (events : List WireEvent), exec i s = .next (t.finish .ok 0) ∧
        ChunksLeave h.inst size.toNat true s t ∧
        t.wire = s.wire ++ events ∧ events.length = (size.toNat + 63) / 64 ∧
        (∀ c e, events[c]? = some e →
          let len := min 64 (size.toNat - 64 * c)
          e.inst = h.inst ∧ e.fin = s.fin ∧ e.tx.length = 8 * len ∧
          e.conf.mosiDlen.toNat = 8 * len - 1 ∧ e.conf.misoDlen.toNat = 8 * len - 1 ∧
          (inp = 0 → ∀ b ∈ e.tx, b = true) ∧
          (inp ≠ 0 → outp = 0 ∨ inp = outp ∨ inp.toNat + size.toNat ≤ outp.toNat ∨ outp.toNat + size.toNat ≤ inp.toNat →
            CarriesBytes (wrOrder ctrl) len (memBytes s.hm (inp.toNat + 64 * c)) e.tx) ∧
          (s.cfg.link = .loopback → e.rx = e.tx) ∧
          (outp ≠ 0 → doutdin user = true →
            CarriesBytes (rdOrder ctrl) len (memBytes t.hm (outp.toNat + 64 * c)) e.rx)) ∧
        (∀ a, outp = 0 ∨ a < outp.toNat ∨ outp.toNat + size.toNat ≤ a → memByte t.hm a = memByte s.hm a)) ∧
    (∀ b < size.toNat, inp ≠ 0 → Mapped s.hm inp.toNat b → memByte s.hm (inp.toNat + b) = none →
      (outp ≠ 0 → Mapped s.hm outp.toNat (64 * (b / 64))) →
      ∃ (t : State) (events : List WireEvent), StuckAt i (.memRd1 (inp.toNat + b) (b % 4)) s t ∧
        t.wire = s.wire ++ events ∧ events.length = b / 64 ∧
        GuardMine h.inst t ∧ Quiet h.inst t) ∧
    (∀ b < size.toNat, outp ≠ 0 → Mapped s.hm outp.toNat b → memByte s.hm (outp.toNat + b) = none →
      (inp ≠ 0 → Mapped s.hm inp.toNat (min size.toNat (64 * (b / 64 + 1)))) →
      ∃ (t : State) (events : List WireEvent), StuckAt i (.memWr1 (outp.toNat + b) (b % 4)) s t ∧
        t.wire = s.wire ++ events ∧ events.length = b / 64 + 1 ∧
        GuardMine h.inst t ∧ Quiet h.inst t)

/-- R211 (b). The round trip of TRANSFER_BYTES: under LOOPBACK, full duplex and one bit order, separate buffers of any size
end equal byte for byte; an in-place transfer leaves all of host memory. -/
def Obligations.TransferBytesRoundTrip : Prop :=
  ∀ (nl : Bool) (h : Handle) (size inp outp : Word) (s : State), Ready (20 * size.toNat + 3) s → Usable h s →
    Admits nl h.inst s → Quiet h.inst s → EngineServes h.inst s → cfgOk s.cfg = true → LoopsBack h.inst s →
    inp ≠ 0 → outp ≠ 0 → Mapped s.hm inp.toNat size.toNat → Mapped s.hm outp.toNat size.toNat →
    inp = outp ∨ inp.toNat + size.toNat ≤ outp.toNat ∨ outp.toNat + size.toNat ≤ inp.toNat →
    ∃ t : State, exec (if nl then .transferBytesNl h size inp outp else .transferBytes h size inp outp) s =
        .next (t.finish .ok 0) ∧
      (∀ b < size.toNat, memByte t.hm (outp.toNat + b) = memByte s.hm (inp.toNat + b)) ∧
      (∀ a, a < outp.toNat ∨ outp.toNat + size.toNat ≤ a → memByte t.hm a = memByte s.hm a)

/-- R215, R216, R170, R61. WRITE_PIXELS, locked and no-lock: a null pointer is INVALID_ARGUMENT; else one write-only
transaction of each chunk (MISO_DLEN 0 under ZERO, the register's former value under OMIT), its bytes swapped inside
each 16-bit half when the write order asks for it, padding 0; host memory is not written. The guard, the lifecycle flags
and the other registers end as they were, nothing in flight. At the first byte outside the launch memory the caller is
stuck for good, the chunks before it sent and the guard held. -/
def Obligations.WritePixelsSendsEveryChunk : Prop :=
  ∀ (nl : Bool) (h : Handle) (size p : Word) (s : State), Ready (20 * size.toNat + 4) s → Usable h s →
    let i := if nl then Instr.writePixelsNl h size p else Instr.writePixels h size p
    (p = 0 → exec i s = .next (s.finish .invalidArgument 0)) ∧
    (p ≠ 0 → Admits nl h.inst s → Quiet h.inst s → EngineServes h.inst s → cfgOk s.cfg = true →
      let order := wrOrder (s.getBus h.inst).conf.ctrl
      (Mapped s.hm p.toNat size.toNat →
        ∃ (t : State) (events : List WireEvent), exec i s = .next (t.finish .ok 0) ∧
          ChunksLeave h.inst size.toNat false s t ∧
          t.wire = s.wire ++ events ∧ events.length = (size.toNat + 63) / 64 ∧
          (∀ c e, events[c]? = some e →
            let len := min 64 (size.toNat - 64 * c)
            e.inst = h.inst ∧ e.fin = s.fin ∧ e.conf.mosiDlen.toNat = 8 * len - 1 ∧
            e.conf.misoDlen =
              (if s.cfg.woMiso = .zero then 0 else (s.getBus h.inst).conf.misoDlen &&& wmask s.cfg .misoDlen) ∧
            CarriesBytes order len (fun j =>
              let b := if swapcond s.cfg order then (if j % 2 = 0 then j + 1 else j - 1) else j
              if b < len then memBytes s.hm (p.toNat + 64 * c) b else 0) e.tx ∧
            (s.cfg.link = .loopback → e.rx = e.tx)) ∧
          (∀ a, memByte t.hm a = memByte s.hm a)) ∧
      (∀ b < size.toNat, Mapped s.hm p.toNat b → memByte s.hm (p.toNat + b) = none →
        ∃ (t : State) (events : List WireEvent), StuckAt i (.memRd1 (p.toNat + b) (b % 4)) s t ∧
          t.wire = s.wire ++ events ∧ events.length = b / 64 ∧ t.hm = s.hm ∧
          GuardMine h.inst t ∧ Quiet h.inst t))

/-- R230, R243. START: an index past the last instance is INVALID_INSTANCE with no state changed; else the instance ends
initialised as R243's table says, started and registered, its guard created and free. -/
def Obligations.StartInitialisesTheInstance : Prop :=
  ∀ (idx : BitVec 8) (mode : Fin 4) (order : BitOrder) (clk : Word) (s : State), Ready 50 s →
    (s.cfg.nInst ≤ idx.toNat → exec (.start idx mode order clk) s = .next (s.finish .invalidInstance 0)) ∧
    (∀ i : Fin 4, idx.toNat = i.val → i.val < s.cfg.nInst → Quiet i s →
      (s.getBus i).guardExists = false ∨ GuardFree i s →
      exec (.start idx mode order clk) s = .next ((s.updBus i fun b => {
          conf := {
            clock := clk &&& wmask s.cfg .clock
            ctrl := if order = .lsbFirst then 3 else 0
            user := if mode = 1 ∨ mode = 2 then 3 else 1
            pin := if mode = 2 ∨ mode = 3 then 1 else 0
            mosiDlen := 0
            misoDlen := 0 }
          clkGate := if s.cfg.hasClkGate then s.cfg.clkGateStart else b.clkGate
          w := words16 fun _ => 0
          act := b.act
          phase := .idle
          guardExists := true
          owner := none
          started := true
          registered := true }).finish .ok (BitVec.ofNat 32 idx.toNat)))

/-- R244, R245. Every readable register after START is fixed by START's operands alone: from any two states with one
parameter record (a first start, a start of a started instance, a start after a stop) it leaves the same read values. -/
def Obligations.StartForgetsThePast : Prop :=
  ∀ (idx : BitVec 8) (mode : Fin 4) (order : BitOrder) (clk : Word) (i : Fin 4) (s u : State), s.cfg = u.cfg →
    idx.toNat = i.val → i.val < s.cfg.nInst → Ready 50 s → Ready 50 u → Quiet i s → Quiet i u →
    (s.getBus i).guardExists = false ∨ GuardFree i s → (u.getBus i).guardExists = false ∨ GuardFree i u →
    ∃ t v, exec (.start idx mode order clk) s = .next t ∧ exec (.start idx mode order clk) u = .next v ∧
      ∀ off r, regAt s.cfg off = some r → (readReg i r t).1 = (readReg i r v).1

/-- R231. STOP deregisters, zeroes the configuration registers under the guard and clears started; the buffer stays and
the guard is not destroyed. While any agent holds the guard it waits, already deregistered; while a commit or a
transaction of its instance is in flight its first register write raises BUSY_WRITE, the guard held. That the first
write, and so the register of that record, is CLOCK is the model's choice (log entry 7): the spec gives no order over
CFG. -/
def Obligations.StopZeroesTheConfiguration : Prop :=
  ∀ (h : Handle) (s : State), Ready 14 s → Usable h s →
    (GuardFree h.inst s → Quiet h.inst s →
      exec (.stop h) s = .next ((s.updBus h.inst fun b => { b with
        conf := { clock := 0, ctrl := 0, user := 0, pin := 0, mosiDlen := 0, misoDlen := 0 }
        clkGate := if s.cfg.hasClkGate then 0 else b.clkGate
        registered := false
        started := false }).finish .ok 0)) ∧
    (∀ a, (s.getBus h.inst).guardExists = true → (s.getBus h.inst).owner = some a →
      ∃ t, exec (.stop h) s = .next ((s.updBus h.inst fun b => { b with registered := false }).save t)) ∧
    (GuardFree h.inst s → ¬ Quiet h.inst s → ∃ t, exec (.stop h) s = .next t ∧
      Trapped (.busyWrite h.inst .clock)
        (s.updBus h.inst fun b => { b with registered := false, owner := some s.cur }) t ∧ t.stopped s.cur = true)

/-- R232, R234, R236. SET_CLOCK, SET_MODE and SET_ORDER write their fields under the guard and keep every other bit that is
not reserved. -/
def Obligations.SettersWriteTheirFields : Prop :=
  ∀ (h : Handle) (clk : Word) (mode : Fin 4) (order : BitOrder) (s : State), Ready 6 s → Usable h s →
    GuardFree h.inst s → Quiet h.inst s →
    exec (.setClock h clk) s = .next ((s.updBus h.inst fun b => { b with
      conf := { b.conf with clock := clk &&& wmask s.cfg .clock } }).finish .ok 0) ∧
    exec (.setMode h mode) s = .next ((s.updBus h.inst fun b => { b with
      conf := { b.conf with
        pin := (b.conf.pin &&& 0xE) ||| if mode = 2 ∨ mode = 3 then 1 else 0
        user := (b.conf.user &&& 1) ||| if mode = 1 ∨ mode = 2 then 2 else 0 } }).finish .ok 0) ∧
    exec (.setOrder h order) s = .next ((s.updBus h.inst fun b => { b with
      conf := { b.conf with ctrl := if order = .lsbFirst then 3 else 0 } }).finish .ok 0)

/-- R233, R235, R237. GET_CLOCK, GET_MODE and GET_ORDER answer the live registers, without the guard and whatever is in
flight, and change nothing. -/
def Obligations.GettersReadTheirFields : Prop :=
  ∀ (h : Handle) (s : State), Ready 3 s → Usable h s →
    let conf := (s.getBus h.inst).conf
    let idle := conf.pin.getLsbD 0
    let out := conf.user.getLsbD 1
    exec (.getClock h) s = .next (s.finish .ok (conf.clock &&& wmask s.cfg .clock)) ∧
    exec (.getMode h) s = .next (s.finish .ok
      (if idle then if out then 2 else 3 else if out then 1 else 0)) ∧
    exec (.getOrder h) s = .next (s.finish .ok (if conf.ctrl.getLsbD 0 then 1 else 0))

/-- R238, R239. CS_ENABLE and CS_DISABLE: a mask bit past line 2 is INVALID_ARGUMENT before any write; else the lines of the
mask are enabled (CS_DIS bits cleared) or disabled (set), and the rest of PIN is kept. -/
def Obligations.ChipSelectLinesFollowTheMask : Prop :=
  ∀ (h : Handle) (mask : BitVec 16) (s : State), Ready 5 s → Usable h s →
    (7 < mask.toNat →
      exec (.csEnable h mask) s = .next (s.finish .invalidArgument 0) ∧
      exec (.csDisable h mask) s = .next (s.finish .invalidArgument 0)) ∧
    (mask.toNat ≤ 7 → GuardFree h.inst s → Quiet h.inst s →
      let lines := BitVec.ofNat 32 (2 * mask.toNat)
      exec (.csEnable h mask) s = .next ((s.updBus h.inst fun b => { b with
        conf := { b.conf with pin := b.conf.pin &&& 0xF &&& ~~~lines } }).finish .ok 0) ∧
      exec (.csDisable h mask) s = .next ((s.updBus h.inst fun b => { b with
        conf := { b.conf with pin := b.conf.pin &&& 0xF ||| lines } }).finish .ok 0))

/-- R240. BEGIN_TXN takes the guard, applies clock, mode and order, commits them when the variant has the handshake, and
keeps the guard; while any agent holds the guard, its own holder included, it only waits. -/
def Obligations.BeginTxnConfiguresUnderTheGuard : Prop :=
  ∀ (h : Handle) (clk : Word) (mode : Fin 4) (order : BitOrder) (s : State), Ready 10 s → Usable h s →
    (GuardFree h.inst s → Quiet h.inst s → EngineServes h.inst s →
      exec (.beginTxn h clk mode order) s = .next ((s.updBus h.inst fun b =>
        let conf := { b.conf with
          clock := clk &&& wmask s.cfg .clock
          pin := (b.conf.pin &&& 0xE) ||| if mode = 2 ∨ mode = 3 then 1 else 0
          user := (b.conf.user &&& 1) ||| if mode = 1 ∨ mode = 2 then 2 else 0
          ctrl := if order = .lsbFirst then 3 else 0 }
        { b with conf := conf, act := if s.cfg.hasCommit then conf else b.act, owner := some s.cur }).finish .ok 0)) ∧
    (∀ a, (s.getBus h.inst).guardExists = true → (s.getBus h.inst).owner = some a →
      ∃ t, exec (.beginTxn h clk mode order) s = .next (s.save t))

/-- R241. END_TXN frees a guard its caller holds, whatever is in flight, and raises NOT_OWNER otherwise. -/
def Obligations.EndTxnFreesTheGuard : Prop :=
  ∀ (h : Handle) (s : State), Ready 2 s → Usable h s →
    (GuardMine h.inst s →
      exec (.endTxn h) s = .next ((s.updBus h.inst fun b => { b with owner := none }).finish .ok 0)) ∧
    (¬ GuardMine h.inst s → ∃ t, exec (.endTxn h) s = .next t ∧ Trapped (.notOwner h.inst) s t)

/-- R249. CLK_BEFORE, run by the notifier: its checks, then the guard is taken and a transaction in flight awaited, and the
guard stays held. That the UNMAPPED record has no OFF is the model's choice (log entry 13). -/
def Obligations.ClkBeforeTakesTheGuard : Prop :=
  ∀ (i : Fin 4) (old new : Word) (s : State), s.cur = .notifier → Ready 4 s →
    (s.cfg.nInst ≤ i.val → exec (.clkBefore i old new) s = .next (s.raise (.unmapped i none))) ∧
    (i.val < s.cfg.nInst → (s.getBus i).guardExists = false →
      ∃ t, exec (.clkBefore i old new) s = .next t ∧ Trapped (.notStarted i) s t) ∧
    (∀ a, i.val < s.cfg.nInst → (s.getBus i).guardExists = true → (s.getBus i).owner = some a →
      ∃ t, exec (.clkBefore i old new) s = .next (s.save t)) ∧
    (i.val < s.cfg.nInst → GuardFree i s → (s.getBus i).phase ≠ .busy →
      exec (.clkBefore i old new) s =
        .next ((s.updBus i fun b => { b with owner := some .notifier }).finish .ok 0)) ∧
    (i.val < s.cfg.nInst → GuardFree i s → (s.getBus i).phase = .busy → EngineServes i s →
      ((s.getBus i).txnCfg s.cfg).mosiDlen.toNat < 512 →
      exec (.clkBefore i old new) s =
        .next (((completeStep i s).updBus i fun b => { b with owner := some .notifier }).finish .ok 0))

/-- R250. CLK_AFTER, run by the notifier: UNMAPPED, then NOT_OWNER; else CLOCK is recomputed from the frequency it achieved
at the old clock, kept when that is 0, and the guard is freed. That the UNMAPPED record has no OFF is the model's
choice (log entry 13). -/
def Obligations.ClkAfterRetunesAndReleases : Prop :=
  ∀ (i : Fin 4) (old new : Word) (s : State), s.cur = .notifier → Ready 4 s →
    let prev := freqOf s.cfg.preW old.toNat ((s.getBus i).conf.clock &&& wmask s.cfg .clock)
    (s.cfg.nInst ≤ i.val → exec (.clkAfter i old new) s = .next (s.raise (.unmapped i none))) ∧
    (i.val < s.cfg.nInst → ¬ GuardMine i s → exec (.clkAfter i old new) s = .next (s.raise (.notOwner i))) ∧
    (i.val < s.cfg.nInst → GuardMine i s → prev = 0 →
      exec (.clkAfter i old new) s = .next ((s.updBus i fun b => { b with owner := none }).finish .ok 0)) ∧
    (i.val < s.cfg.nInst → GuardMine i s → prev ≠ 0 → Quiet i s →
      exec (.clkAfter i old new) s = .next ((s.updBus i fun b => { b with
        conf := { b.conf with clock := solveWord s.cfg new.toNat prev &&& wmask s.cfg .clock }
        owner := none }).finish .ok 0)) ∧
    (i.val < s.cfg.nInst → GuardMine i s → prev ≠ 0 → ¬ Quiet i s →
      ∃ t, exec (.clkAfter i old new) s = .next t ∧ Trapped (.busyWrite i .clock) s t)

/-- R84 (g), R281. A caller that runs CLK_BEFORE or CLK_AFTER raises ILLEGAL_OP with D0 of the descriptor, before any other
check. -/
def Obligations.CallbacksAreIllegalForCallers : Prop :=
  ∀ (c : Nat) (i : Fin 4) (old new : Word) (s : State), s.cur = .caller c → Ready 1 s →
    exec (.clkBefore i old new) s = .next (s.raise (.illegalOp (0x60 + 0x100 * BitVec.ofNat 32 i.val))) ∧
    exec (.clkAfter i old new) s = .next (s.raise (.illegalOp (0x61 + 0x100 * BitVec.ofNat 32 i.val)))

/-- R146, R147. FREQ_TO_DIV and DIV_TO_FREQ read the clock in force and write only RES and STS: a target of 0 is
INVALID_ARGUMENT; a CLOCK word is decoded as the register would hold it. -/
def Obligations.CalculatorReadsTheClock : Prop :=
  ∀ (v : Word) (s : State), Ready 2 s →
    (v = 0 → exec (.freqToDiv v) s = .next (s.finish .invalidArgument 0)) ∧
    (v ≠ 0 → exec (.freqToDiv v) s = .next (s.finish .ok (solveWord s.cfg s.fin.toNat v.toNat))) ∧
    (let w := v &&& wmask s.cfg .clock
     exec (.divToFreq v) s = .next (s.finish .ok (BitVec.ofNat 32
       (if w.getLsbD 31 then s.fin.toNat
        else s.fin.toNat / ((clkdivPre s.cfg.preW w + 1) * (clkcntN w + 1))))))

/-- R148 (a), (c). The solver's two clamps: a target at or above the input clock gives BYPASS, which runs at the input clock;
one below the minimum gives MINCFG, which runs above the target, at the minimum. -/
def Obligations.SolverClampsAtBothEnds : Prop :=
  ∀ (cfg : Cfg) (fin t : Nat), cfgOk cfg = true → 1 ≤ t →
    (fin ≤ t → solveWord cfg fin t = 0x80000000 ∧ freqOf cfg.preW fin (solveWord cfg fin t) = fin) ∧
    (t < minFreq cfg.preW fin → fin < 2 ^ 32 →
      solveWord cfg fin t = clockword (preMax cfg.preW) 63 0 cfg.minCfgL 0 ∧
      freqOf cfg.preW fin (solveWord cfg fin t) = minFreq cfg.preW fin ∧ t < minFreq cfg.preW fin)

/-- R148 (b), (d), (e). Between the clamps the solver answers a searched word whose frequency is at most the target and at
least that of every searched pair at most the target, so an attainable target is met exactly. -/
def Obligations.SolverIsOptimal : Prop :=
  ∀ (cfg : Cfg) (fin t : Nat), cfgOk cfg = true → fin < 2 ^ 32 → 1 ≤ t → minFreq cfg.preW fin ≤ t → t < fin →
    let w := solveWord cfg fin t
    (∃ n pre, 1 ≤ n ∧ n ≤ 63 ∧ pre ≤ preMax cfg.preW ∧ w = clockword pre n 0 ((n + 1) / 2) 0) ∧
    freqOf cfg.preW fin w ≤ t ∧
    ∀ n pre, 1 ≤ n → n ≤ 63 → pre ≤ preMax cfg.preW → fin / ((pre + 1) * (n + 1)) ≤ t →
      fin / ((pre + 1) * (n + 1)) ≤ freqOf cfg.preW fin w

/-- R148 (f), R145. The fields of every solver answer: BYPASS, MINCFG, or CLKCNT_N in 1..63, CLKCNT_H 0, CLKCNT_L half of
CLKCNT_N + 1, CLKDIV_PRE in its field, the bypass bit clear; no reserved bit is set. -/
def Obligations.SolverAnswersFillTheFields : Prop :=
  ∀ (cfg : Cfg) (fin t : Nat), cfgOk cfg = true → fin < 2 ^ 32 → 1 ≤ t →
    let w := solveWord cfg fin t
    w &&& wmask cfg .clock = w ∧ clkcntH w = 0 ∧ clkdivPre cfg.preW w ≤ preMax cfg.preW ∧
    (clkEquSysclk w = true → w = 0x80000000 ∧ fin ≤ t) ∧
    (clkEquSysclk w = false → t < fin ∧ 1 ≤ clkcntN w ∧ clkcntN w ≤ 63 ∧
      (clkcntL w = (clkcntN w + 1) / 2 ∨ t < minFreq cfg.preW fin ∧ clkcntN w = 63 ∧ clkcntL w = cfg.minCfgL))

/-- R252, R250. Frequency continuity: a CLOCK that decoded to p >= 1 at the old clock decodes, after CLK_AFTER, to the new
clock when p reaches it, else to the largest searched frequency at most p, else to the new minimum. -/
def Obligations.ClockChangeKeepsTheFrequency : Prop :=
  ∀ (i : Fin 4) (old new : Word) (s : State), s.cur = .notifier → Ready 4 s → i.val < s.cfg.nInst →
    cfgOk s.cfg = true → GuardMine i s → Quiet i s →
    let p := freqOf s.cfg.preW old.toNat ((s.getBus i).conf.clock &&& wmask s.cfg .clock)
    1 ≤ p →
    ∃ t, exec (.clkAfter i old new) s = .next t ∧
      let f := freqOf s.cfg.preW new.toNat ((t.getBus i).conf.clock &&& wmask s.cfg .clock)
      (new.toNat ≤ p → f = new.toNat) ∧
      (minFreq s.cfg.preW new.toNat ≤ p → p < new.toNat → f ≤ p ∧
        ∀ n pre, 1 ≤ n → n ≤ 63 → pre ≤ preMax s.cfg.preW → new.toNat / ((pre + 1) * (n + 1)) ≤ p →
          new.toNat / ((pre + 1) * (n + 1)) ≤ f) ∧
      (p < minFreq s.cfg.preW new.toNat → f = minFreq s.cfg.preW new.toNat)

/-- R175. The permutations are their own inverses on values that fit their width, and the pixel permutation swaps inside
each half, unlike the 32-bit reversal. -/
def Obligations.PermutationsAreInvolutions : Prop :=
  ∀ v : Word, (v.toNat < 2 ^ 16 → swap16 (swap16 v) = v) ∧ (v.toNat < 2 ^ 24 → swap24 (swap24 v) = v) ∧
    swap32 (swap32 v) = v ∧ pix (pix v) = v ∧
    pix v = swap16 (v.ushiftRight 16) * (0x10000 : Word) + swap16 (v &&& 0xFFFF) ∧ pix 0x12345678 = 0x34127856 ∧
    swap32 0x12345678 = 0x78563412

/-- R172, R274, R275. The checks of every handle operation, in their order, before anything else: the null handle is a no-op
that returns 0, an instance that does not exist is INVALID_INSTANCE, one that is not started raises NOT_STARTED. -/
def Obligations.HandleChecksComeFirst : Prop :=
  ∀ (i : Instr) (h : Handle) (s : State), handleOf i = some h → Ready 1 s →
    (h.null = true → exec i s = .next (s.finish .ok 0)) ∧
    (h.null = false → s.cfg.nInst ≤ h.inst.val → exec i s = .next (s.finish .invalidInstance 0)) ∧
    (h.null = false → h.inst.val < s.cfg.nInst → (s.getBus h.inst).started = false →
      exec i s = .next (s.raise (.notStarted h.inst)))

/-- R116. Every no-lock form whose agent does not hold the guard raises UNGUARDED and does nothing else. -/
def Obligations.NoLockFormsNeedTheGuard : Prop :=
  ∀ (i : Instr) (h : Handle) (s : State), handleOf i = some h → isNoLock i = true → Ready 1 s → Usable h s →
    ArgsValid i → ¬ GuardMine h.inst s → exec i s = .next (s.raise (.unguarded h.inst))

/-- R114, R90, R230. Every locked form, and START, waits at its acquire while any agent holds the guard, its own agent
included, with nothing changed but its place; and it goes on waiting there as long as the guard is held. -/
def Obligations.LockedFormsWaitForTheGuard : Prop :=
  let waits := fun (i : Instr) (j : Fin 4) (s : State) =>
    ∃ t : Task, t.inst = j ∧ t.ops.head? = some .acquire ∧ exec i s = .next (s.save t) ∧
      ∀ u : State, Inside t u → (u.getBus j).guardExists = true → (u.getBus j).owner ≠ none →
        exec i u = .next (u.save t)
  (∀ (i : Instr) (h : Handle) (s : State) (a : Agent), handleOf i = some h → isLocked i = true → Ready 2 s →
    Usable h s → ArgsValid i → (s.getBus h.inst).guardExists = true → (s.getBus h.inst).owner = some a →
    waits i h.inst s) ∧
  ∀ (idx : BitVec 8) (mode : Fin 4) (order : BitOrder) (clk : Word) (j : Fin 4) (s : State) (a : Agent), Ready 3 s →
    idx.toNat = j.val → j.val < s.cfg.nInst → (s.getBus j).guardExists = true → (s.getBus j).owner = some a →
    waits (.start idx mode order clk) j s

/-- R111, R68, R273, R230. The first register write of an operation, its loads before it made, while a commit or a
transaction of its instance is in flight raises BUSY_WRITE: no register changes, and the guard the operation took stays
held. START too, its guard created where there was none. That START's first write, and so the register of its record, is
CLOCK is the model's choice (log entry 7): the spec gives no order over CFG. -/
def Obligations.WritesFaultWhileInFlight : Prop :=
  (∀ (i : Instr) (h : Handle) (r : Reg) (s : State), handleOf i = some h → firstWrite i = some r →
    Ready (writeRoom i) s → Usable h s → ArgsValid i → (∀ a, firstLoads i a → (memByte s.hm a).isSome) →
    Admits (isNoLock i) h.inst s → ¬ Quiet h.inst s →
    ∃ t, exec i s = .next t ∧
      t.faults = s.faults ++ [⟨.busyWrite h.inst r, s.cur, s.ctx?.map Ctx.pc⟩] ∧
      t.getBus h.inst = { s.getBus h.inst with owner := some s.cur } ∧
      (∀ j, j ≠ h.inst → t.getBus j = s.getBus j) ∧ t.wire = s.wire ∧ t.hm = s.hm ∧ t.stopped s.cur = true) ∧
  ∀ (idx : BitVec 8) (mode : Fin 4) (order : BitOrder) (clk : Word) (j : Fin 4) (s : State), Ready 4 s →
    idx.toNat = j.val → j.val < s.cfg.nInst → (s.getBus j).guardExists = false ∨ GuardFree j s → ¬ Quiet j s →
    ∃ t, exec (.start idx mode order clk) s = .next t ∧
      Trapped (.busyWrite j .clock) (s.updBus j fun b => { b with guardExists := true, owner := some s.cur }) t ∧
      t.stopped s.cur = true

/-- R91, R80, R83. The worked encodings of the spec decode to the operations they stand for, and its two illegal words are
rejected. -/
def Obligations.WorkedEncodingsDecode : Prop :=
  decode ⟨0x00000033, 0x000000A5, 0, 0⟩ = .ok (.transferByte ⟨0, false⟩ 0xA5) ∧
  decode ⟨0x00000533, 0x000000A5, 0, 0⟩ = .ok (.transferByteNl ⟨1, false⟩ 0xA5) ∧
  decode ⟨0x00000010, 0x009C1001, 0, 0⟩ = .ok (.start 0 0 .msbFirst 0x009C1001) ∧
  decode ⟨0x07020010, 0x80000000, 0, 0⟩ = .ok (.start 2 3 .lsbFirst 0x80000000) ∧
  decode ⟨0x000C0039, 0x00000ABC, 0, 0⟩ = .ok (.transferBits ⟨0, false⟩ 12 0xABC) ∧
  decode ⟨0x00000002, 0x00000001, 0, 0⟩ = .ok (.regWr 0 0x00 0x1) ∧
  decode ⟨0x00000838, 5, 0x2000, 0x3000⟩ = .ok (.transferBytes ⟨0, true⟩ 5 0x2000 0x3000) ∧
  (∃ r, decode ⟨0x00001033, 0, 0, 0⟩ = .illegal r) ∧ ∃ r, decode ⟨0x00000420, 0, 0, 0⟩ = .illegal r

/-- R80 to R83, R86. Decoding the encoding of a well-formed operation gives it back, with every operand at every value. -/
def Obligations.DecodeInvertsEncode : Prop :=
  ∀ i : Instr, i.wellFormed = true → decode (encode i) = .ok i

/-- R80 to R84. Encoding inverts decoding: a descriptor that decodes is the encoding of a well-formed operation, so no bit of
it goes unread and no two descriptors decode alike. -/
def Obligations.EncodeInvertsDecode : Prop :=
  ∀ (d : Desc) (i : Instr), decode d = .ok i → i.wellFormed = true ∧ encode i = d

/-- R84, R83. A descriptor decodes to an operation exactly when it fits that operation's row of the opcode table, and to no
other row; a descriptor that fits no row is ILLEGAL. -/
def Obligations.DecodeFollowsTheTable : Prop :=
  ∀ d : Desc, (∀ i, decode d = .ok i → (rowOf i).Fits d) ∧
    (∀ i, (rowOf i).Fits d → ∃ j, decode d = .ok j ∧ rowOf j = rowOf i) ∧
    ((∀ i, ¬ (rowOf i).Fits d) ↔ ∃ r, decode d = .illegal r)

/-- R5, R7, R35, R36, R70, R251, R69. One step is one turn: a caller's turn runs the operation its current descriptor decodes
to, the notifier's the callback its protocol is at (and then moves the protocol past a callback that completed), an
engine's its step; a parameter record that breaks R6 or R69 is refused. That one step is one turn, of many micro-steps,
is the model's choice (log entry 1), and so is which records are refused (log entries 11 and 22). -/
def Obligations.StepRunsDecodedInstruction : Prop :=
  ∀ s : State, let u := s.takeTurn
    (cfgOk s.cfg = false → step s = .refused .badConfiguration) ∧
    (∀ c k d i, cfgOk s.cfg = true → u.turn.agent = .caller c → s.callers[c]? = some k → k.current = some d →
      decode d = .ok i → step s = exec i u) ∧
    (∀ todo j rest p, cfgOk s.cfg = true → u.turn.agent = .notifier → u.turn.burst ≠ 0 →
      s.stopped .notifier = false → s.notifier.pending = some p → visitOrder u todo = j :: rest →
      (s.notifier.phase = .before todo → step s =
        afterOp s.notifier.ctx.pc (exec (.clkBefore j p.old p.new) (u.atPhase (.before (j :: rest))))) ∧
      (s.notifier.phase = .after todo → step s =
        afterOp s.notifier.ctx.pc (exec (.clkAfter j p.old p.new) (u.atPhase (.after (j :: rest)))))) ∧
    (∀ j, cfgOk s.cfg = true → u.turn.agent = .engine j → u.turn.burst ≠ 0 → step s = .next (engineStep j u)) ∧
    (∀ c, cfgOk s.cfg = true → u.turn.agent = .caller c → (∀ k, s.callers[c]? = some k → k.current = none) →
      step s = .next u)

/-- R84, R273. A descriptor the decoder rejects raises ILLEGAL_OP with its D0 and has no other effect: the record holds the
caller and its pc, the pc stays, and the caller has no step after it. -/
def Obligations.IllegalDescriptorsFault : Prop :=
  ∀ (s : State) (c : Nat) (k : Caller) (d : Desc) (r : Reject), let u := s.takeTurn
    cfgOk s.cfg = true → u.turn.agent = .caller c → u.turn.burst ≠ 0 → s.callers[c]? = some k → k.ctx.task = none →
    s.stopped (.caller c) = false → k.current = some d → decode d = .illegal r →
    ∃ t, step s = .next t ∧ t = { u with faults := s.faults ++ [⟨.illegalOp d.d0, .caller c, some k.ctx.pc⟩] } ∧
      t.stopped (.caller c) = true

/-- R46. What power-on leaves, for every parameter record, program, launch memory and schedule: the table of R46. The model's
own: the constants that stand for the drawn values (log entry 3) and a notifier that has applied no change (log
entry 5). -/
def Obligations.PowerOnState : Prop :=
  ∀ (cfg : Cfg) (progs : List (List Desc)) (hm : List Host.Cell) (sched : List Turn),
    let s := State.powerOn cfg progs hm sched
    (∀ i, (s.getBus i).phase = .idle ∧ (s.getBus i).view cfg .cmd = 0 ∧ (s.getBus i).conf = ⟨0, 0, 0, 0, 0, 0⟩ ∧
      (s.getBus i).clkGate = 0 ∧ (∀ k : Fin 16, (s.getBus i).w[k.val] = Config.powerOnWord i k) ∧
      (s.getBus i).act = ⟨Config.powerOnAct i 0, Config.powerOnAct i 1, Config.powerOnAct i 2, Config.powerOnAct i 3,
        Config.powerOnAct i 4, Config.powerOnAct i 5⟩ ∧
      (s.getBus i).guardExists = false ∧ (s.getBus i).owner = none ∧ (s.getBus i).started = false ∧
      (s.getBus i).registered = false) ∧
    (∀ c < cfg.callers, s.callers[c]? = some ⟨progs.getD c [], ⟨0, 0, .ok, none⟩⟩) ∧ s.callers.length = cfg.callers ∧
    s.faults = [] ∧ s.wire = [] ∧ s.fin = cfg.fin0 ∧ s.notifier.pending = none ∧ s.notifier.applied = 0 ∧
    s.hm = hm ∧ s.cfg = cfg

/-- The invariant holds at power-on of every accepted parameter record and canonical launch memory, and in the reset
state, which is the power-on state under the REF preset with no program and no launch memory (the model's choice, log
entry 4). -/
def Obligations.InvHoldsAtReset : Prop :=
  State.reset = State.powerOn Cfg.ref [] [] [] ∧ State.reset.Inv ∧ ∀ (cfg : Cfg) (progs : List (List Desc)) (hm : List Host.Cell) (sched : List Turn),
    cfgOk cfg = true → Memory.wf hm = true → (State.powerOn cfg progs hm sched).Inv

/-- R61, R113, R33, R31, R39, R36, R42, R251, R273. Every step keeps the invariant: canonical host memory, reserved bits 0, a
held guard exists, a faulted engine stays BUSY, every wire event is a whole transaction (its reserved bits 0: for a drawn
ACT the model's choice, log entry 23), every caller is inside its program
and inside an operation of its own descriptor, the notifier agrees with the change it makes, fin is never 0, and no agent
faults twice. -/
def Obligations.EveryStepKeepsInv : Prop :=
  ∀ s t : State, s.Inv → step s = .next t → t.Inv

/-- R44. The access matrix, over one step of the machine: a register, the phase, ACT, the guard, a lifecycle flag, fin or a
byte of host memory changes only where the operation that runs, or the engine or the notifier, is one the matrix lets
write it; an engine's part only in a turn of its own or of an operation on its instance. -/
def Obligations.AccessMatrix : Prop :=
  ∀ s t : State, s.Inv → step s = .next t →
    (∀ j, let b := s.getBus j
      let c := t.getBus j
      let ranOn := fun (p : Instr → Prop) => ∃ i, s.running = some i ∧ instOf i = some j ∧ p i
      (∀ r, r ≠ .cmd → c.stored r ≠ b.stored r → ranOn (fun i => mayWrite s.cfg i r) ∨
        ((∃ k, r = .w k) ∧ s.engineMoves j ∧ t.wire ≠ s.wire)) ∧
      (c.phase ≠ b.phase → ranOn (fun i => mayWrite s.cfg i .cmd) ∨ s.engineMoves j) ∧
      (c.act ≠ b.act → s.engineMoves j) ∧
      (c.guardExists ≠ b.guardExists → ranOn fun i => createsGuard i = true) ∧
      (c.owner ≠ b.owner → ranOn fun i => takesGuard i = true ∨ freesGuard i = true) ∧
      (c.started ≠ b.started ∨ c.registered ≠ b.registered → ranOn fun i => setsLifecycle i = true)) ∧
    (t.fin ≠ s.fin → s.mover = .notifier) ∧
    (∀ a, memByte t.hm a ≠ memByte s.hm a → ∃ i, s.running = some i ∧ mayStore i a)

/-- R44. The frame of every operation: a turn on operation i, whether it begins it or goes on with it, leaves everything
unchanged but what R44 lets i write. -/
def Obligations.FrameOfEveryOperation : Prop :=
  ∀ (i : Instr) (s t : State), Resumes i s → exec i s = .next t → Frame i s t

/-- R33, R73, R114, R115, R246. A guard, once created, is never destroyed; while an agent holds it no other agent's step takes
or frees it; and only the agent that moves can have taken it. -/
def Obligations.GuardsPassOnlyThroughTheirHolder : Prop :=
  ∀ (s t : State) (j : Fin 4), step s = .next t →
    ((s.getBus j).guardExists = true → (t.getBus j).guardExists = true) ∧
    (∀ a, (s.getBus j).guardExists = true → (s.getBus j).owner = some a → a ≠ s.mover →
      (t.getBus j).owner = some a) ∧
    (∀ a, (t.getBus j).owner = some a → (s.getBus j).owner = some a ∨ a = s.mover)

/-- R317 (a), R114. An acquire by the guard's own holder holds for ever: in every run from there, however scheduled, the
caller stays at that acquire with its pc, RES and STS unmoved, and the guard stays held. -/
def Obligations.ReentrantAcquireDeadlocks : Prop :=
  ∀ (n : Nat) (s t : State) (c : Nat) (k : Caller) (o : Task), Run n s t → s.callers[c]? = some k →
    k.ctx.task = some o → o.ops.head? = some .acquire → (s.getBus o.inst).guardExists = true →
    (s.getBus o.inst).owner = some (.caller c) →
    t.callers[c]? = some k ∧ (t.getBus o.inst).owner = some (.caller c)

/-- R273, R317 (c). An agent that has faulted takes no step for the rest of the run: its place stays, an engine's
instance stays in flight with its registers, and every guard the agent holds stays held. -/
def Obligations.FaultedAgentsStop : Prop :=
  ∀ (n : Nat) (s t : State) (a : Agent), Run n s t → s.stopped a = true →
    t.stopped a = true ∧ (∀ c, a = .caller c → t.callers[c]? = s.callers[c]?) ∧
    (a = .notifier → t.notifier = s.notifier ∧ t.fin = s.fin) ∧
    (∀ i, a = .engine i → ¬ Quiet i s → (t.getBus i).phase = (s.getBus i).phase ∧
      ∀ r, (t.getBus i).stored r = (s.getBus i).stored r) ∧
    ∀ j, (s.getBus j).guardExists = true → (s.getBus j).owner = some a → (t.getBus j).owner = some a

/-- R6, R35, R38, R39, R61, R74. The fault list and the bus log are only appended to; no step changes a parameter, a program
text, which agents there are, or which addresses host memory has. -/
def Obligations.BookkeepingOnlyGrows : Prop :=
  ∀ (n : Nat) (s t : State), Run n s t →
    s.faults <+: t.faults ∧ s.wire <+: t.wire ∧ s.draws ≤ t.draws ∧ t.cfg = s.cfg ∧
    t.callers.map Caller.prog = s.callers.map Caller.prog ∧
    ∀ a, (memByte t.hm a).isSome = (memByte s.hm a).isSome

/-- R36. pc moves only in the caller's own turn, only by 1 and only when an operation ends, which is when RES and STS are
written; past the program's end the caller has no step. -/
def Obligations.PcAdvancesByOne : Prop :=
  ∀ (s t : State) (c : Nat) (k : Caller), step s = .next t → s.callers[c]? = some k →
    ∃ l, t.callers[c]? = some l ∧ l.prog = k.prog ∧ (s.mover ≠ .caller c → l = k) ∧
      (k.prog.length ≤ k.ctx.pc → l = k) ∧
      (l.ctx.pc = k.ctx.pc ∧ l.ctx.res = k.ctx.res ∧ l.ctx.sts = k.ctx.sts ∨
        l.ctx.pc = k.ctx.pc + 1 ∧ l.ctx.task = none)

/-- R251, R41, R42. The notifier moves only along its protocol, in its own turns and until it has faulted: fin changes only
when CLK_BEFORE has completed on every instance of REGSET, and CLK_AFTER runs after it on each of them. Which lines of
R251 are one micro-step is the model's choice (log entry 17). -/
def Obligations.NotifierFollowsProtocol : Prop :=
  ∀ s t : State, NotifierInv s → step s = .next t →
    (t.notifier = s.notifier ∧ t.fin = s.fin) ∨
    (s.mover = .notifier ∧ s.stopped .notifier = false ∧
      ProtocolStep s.cfg.finChanges[s.notifier.applied]? s.regset s.notifier s.fin t.notifier t.fin)

/-- R320. A run that has ended stays ended, however the schedule goes on: no register, guard, byte of host memory, wire event
or caller changes any more. -/
def Obligations.EndedRunStaysEnded : Prop :=
  ∀ (n : Nat) (s t : State), s.Inv → RunEnded s → Run n s t →
    RunEnded t ∧ t.bus = s.bus ∧ t.hm = s.hm ∧ t.wire = s.wire ∧ t.callers = s.callers ∧ t.notifier = s.notifier ∧
    t.fin = s.fin

/-- R5, R270, R273, R276. Under an accepted parameter record the machine never stops: every step answers a next state, whatever
the schedule, the descriptors, the operands and the faults already recorded; a fault stops one agent, never the machine. -/
def Obligations.EveryStepAnswers : Prop :=
  ∀ s : State, cfgOk s.cfg = true → ∃ t, step s = .next t ∧ t.cfg = s.cfg
end

