-- ==== Sys2Proof/Laws/Operands.lean ====
section
/-! SUPPORT. The buffer as bits (R30, R63, R64) and the byte permutations (R173, R175). -/

namespace Sys2Proof.Machine

theorem words16_getElem (f : Fin 16 → Word) (k : Nat) (h : k < 16) : (words16 f)[k]'h = f ⟨k, h⟩ := by
  interval_cases k <;> rfl

/-- A vector of sixteen words is the words it holds. -/
theorem words16_self (w : Vector Word 16) : (words16 fun k => w[k.val]'k.isLt) = w := by
  apply Vector.ext
  intro k h
  rw [words16_getElem]

theorem natOfBits_lt (f : Nat → Bool) (n : Nat) : natOfBits f n < 2 ^ n := by
  induction n with
  | zero => simp [natOfBits]
  | succ n ih =>
    simp only [natOfBits, Nat.pow_succ]
    split <;> omega

theorem natOfBits_testBit (f : Nat → Bool) (n k : Nat) : (natOfBits f n).testBit k = (decide (k < n) && f k) := by
  induction n with
  | zero => simp [natOfBits]
  | succ n ih =>
    have hlt := natOfBits_lt f n
    by_cases hf : f n = true
    · simp only [natOfBits, hf, if_true]
      rw [Nat.add_comm]
      by_cases hk : k = n
      · subst hk
        rw [Nat.testBit_two_pow_add_eq, Nat.testBit_lt_two_pow hlt]; simp [hf]
      · by_cases hkn : k < n
        · rw [Nat.testBit_two_pow_add_gt (by omega), ih]; simp [hkn, Nat.lt_succ_of_lt hkn]
        · have h1 : ¬ k < n + 1 := by omega
          have h2 : 2 ^ n + natOfBits f n < 2 ^ k := by
            have : 2 ^ (n + 1) ≤ 2 ^ k := Nat.pow_le_pow_right (by omega) (by omega)
            rw [Nat.pow_succ] at this; omega
          rw [Nat.testBit_lt_two_pow h2]; simp [h1]
    · simp only [natOfBits, hf, Bool.false_eq_true, if_false, Nat.add_zero, ih]
      by_cases hk : k = n
      · subst hk; simp [hf]
      · by_cases hkn : k < n
        · simp [hkn, Nat.lt_succ_of_lt hkn]
        · have h1 : ¬ k < n + 1 := by omega
          simp [hkn, h1]

theorem ofNat_natOfBits_getLsbD (f : Nat → Bool) (n k : Nat) (h : k < n) :
    (BitVec.ofNat n (natOfBits f n)).getLsbD k = f k := by
  rw [BitVec.getLsbD_ofNat, natOfBits_testBit]; simp [h]

/-- Bit b of the buffer is the bit it was assembled from (R64, R119). -/
theorem bufBit_bufOfBits (f : Nat → Bool) (b : Nat) (h : b < 512) : bufBit (bufOfBits f) b = f b := by
  have hb : b / 32 < 16 := by omega
  unfold bufBit bufOfBits
  rw [dif_pos hb, words16_getElem, ofNat_natOfBits_getLsbD _ _ _ (Nat.mod_lt _ (by omega))]
  congr 1
  dsimp only
  omega

/-- The wire order is its own inverse (R64). -/
@[simp] theorem wirePos_wirePos (k : Nat) (o : BitOrder) : wirePos (wirePos k o) o = k := by
  unfold wirePos; cases o <;> simp only <;> omega

/-- The wire order permutes the bits inside each byte (R64). -/
theorem wirePos_div (k : Nat) (o : BitOrder) : wirePos k o / 8 = k / 8 := by
  unfold wirePos; cases o <;> simp only <;> omega

theorem wirePos_lt_bytes {k n : Nat} (o : BitOrder) : wirePos k o < 8 * n ↔ k < 8 * n := by
  have := wirePos_div k o
  omega

theorem wirePos_lt {k : Nat} (o : BitOrder) (h : k < 512) : wirePos k o < 512 := by
  have := wirePos_div k o
  omega

theorem wirePos_injective {j k : Nat} {o : BitOrder} (h : wirePos j o = wirePos k o) : j = k := by
  rw [← wirePos_wirePos j o, h, wirePos_wirePos]

/-- A buffer is determined by its bits. -/
theorem bufBit_ext {v w : Vector Word 16} (h : ∀ b < 512, bufBit v b = bufBit w b) : v = w := by
  apply Vector.ext
  intro k hk
  apply BitVec.eq_of_getLsbD_eq
  intro j hj
  have := h (32 * k + j) (by omega)
  have e1 : (32 * k + j) / 32 = k := by omega
  have e2 : (32 * k + j) % 32 = j := by omega
  simpa only [bufBit, e1, e2, hk, dite_true] using this

theorem bufBit_word (w : Vector Word 16) (k j : Nat) (hk : k < 16) (hj : j < 32) :
    bufBit w (32 * k + j) = (w[k]'hk).getLsbD j := by
  have e1 : (32 * k + j) / 32 = k := by omega
  have e2 : (32 * k + j) % 32 = j := by omega
  simp only [bufBit, e1, e2, hk, dite_true]

/-! ### Bytes and masks -/

theorem lowMask_getLsbD (n j : Nat) : (lowMask n).getLsbD j = (decide (j < 32) && decide (j < n)) := by
  rw [lowMask, BitVec.getLsbD_ofNat, Nat.testBit_two_pow_sub_one]

theorem byteAt_getLsbD (v : Word) (k j : Nat) : (byteAt v k).getLsbD j = (decide (j < 8) && v.getLsbD (8 * k + j)) := by
  rw [byteAt, BitVec.getLsbD_extractLsb']

/-- Bit j of a word is bit j mod 8 of its byte j / 8. -/
theorem getLsbD_byteAt (v : Word) (j : Nat) : v.getLsbD j = (byteAt v (j / 8)).getLsbD (j % 8) := by
  rw [byteAt_getLsbD, Nat.div_add_mod]
  simp [Nat.mod_lt]

theorem word_ext_bytes {v w : Word} (h : ∀ k < 4, byteAt v k = byteAt w k) : v = w := by
  apply BitVec.eq_of_getLsbD_eq
  intro j hj
  rw [getLsbD_byteAt, getLsbD_byteAt w, h _ (by omega)]

/-- Byte k of a word assembled from four bytes. -/
theorem byteAt_ofBytes (a b c d : Byte) :
    byteAt (ofBytes a b c d) 0 = d ∧ byteAt (ofBytes a b c d) 1 = c ∧ byteAt (ofBytes a b c d) 2 = b ∧
      byteAt (ofBytes a b c d) 3 = a := by
  refine ⟨?_, ?_, ?_, ?_⟩ <;>
  · apply BitVec.eq_of_getLsbD_eq
    intro i hi
    simp only [byteAt, ofBytes, BitVec.getLsbD_extractLsb', BitVec.getLsbD_append, hi, decide_true, Bool.true_and]
    have h1 : ¬ (8 + i < 8) := by omega
    have h2 : ¬ (16 + i < 8) := by omega
    have h3 : ¬ (24 + i < 8) := by omega
    have h4 : ¬ (16 + i - 8 < 8) := by omega
    have h5 : ¬ (24 + i - 8 < 8) := by omega
    have h6 : ¬ (24 + i - 8 - 8 < 8) := by omega
    have h7 : 8 + i - 8 = i := by omega
    have h8 : 16 + i - 8 - 8 = i := by omega
    have h9 : 24 + i - 8 - 8 - 8 = i := by omega
    simp [hi, h1, h2, h3, h4, h5, h6, h7, h8, h9]

@[simp] theorem byteAt_ofBytes_0 (a b c d : Byte) : byteAt (ofBytes a b c d) 0 = d := (byteAt_ofBytes a b c d).1
@[simp] theorem byteAt_ofBytes_1 (a b c d : Byte) : byteAt (ofBytes a b c d) 1 = c := (byteAt_ofBytes a b c d).2.1
@[simp] theorem byteAt_ofBytes_2 (a b c d : Byte) : byteAt (ofBytes a b c d) 2 = b := (byteAt_ofBytes a b c d).2.2.1
@[simp] theorem byteAt_ofBytes_3 (a b c d : Byte) : byteAt (ofBytes a b c d) 3 = a := (byteAt_ofBytes a b c d).2.2.2

theorem ofBytes_byteAt (v : Word) : ofBytes (byteAt v 3) (byteAt v 2) (byteAt v 1) (byteAt v 0) = v := by
  apply word_ext_bytes
  intro k hk
  interval_cases k <;> simp

theorem byteAt_and (v w : Word) (k : Nat) : byteAt (v &&& w) k = byteAt v k &&& byteAt w k := by
  apply BitVec.eq_of_getLsbD_eq
  intro j hj
  simp only [byteAt_getLsbD, BitVec.getLsbD_and, hj, decide_true, Bool.true_and]

/-- A mask of whole bytes keeps the low bytes and clears the others. -/
theorem byteAt_and_lowMask (v : Word) (n k : Nat) (hk : k < 4) :
    byteAt (v &&& lowMask (8 * n)) k = if k < n then byteAt v k else 0 := by
  apply BitVec.eq_of_getLsbD_eq
  intro j hj
  simp only [byteAt_getLsbD, BitVec.getLsbD_and, lowMask_getLsbD, hj, decide_true, Bool.true_and]
  have h32 : 8 * k + j < 32 := by omega
  by_cases hn : k < n
  · have : 8 * k + j < 8 * n := by omega
    simp only [hn, h32, this, decide_true, Bool.true_and, Bool.and_true, if_true, byteAt_getLsbD, hj]
  · have : ¬ 8 * k + j < 8 * n := by omega
    simp [hn, this]

/-- The byte permutations look only at the bytes they permute (R173). -/
theorem swapN_and_lowMask (v : Word) (n : Nat) (h1 : 1 ≤ n) (h4 : n ≤ 4) : swapN (v &&& lowMask (8 * n)) n = swapN v n := by
  have hb := byteAt_and_lowMask v n
  interval_cases n <;> simp only [swapN, swap16, swap24, swap32] <;> congr 1 <;> simp [hb]

/-- Each byte permutation is its own inverse on the values of its width (R175). -/
theorem swapN_swapN (v : Word) (n : Nat) (h1 : 1 ≤ n) (h4 : n ≤ 4) : swapN (swapN v n) n = v &&& lowMask (8 * n) := by
  have hb := byteAt_and_lowMask v n
  apply word_ext_bytes
  intro k hk
  rw [hb k hk]
  interval_cases n <;> interval_cases k <;> simp [swapN, swap16, swap24, swap32]

/-- A permuted value fits its width (R173). -/
theorem swapN_fits (v : Word) (n : Nat) (h1 : 1 ≤ n) (h4 : n ≤ 4) : swapN v n &&& lowMask (8 * n) = swapN v n := by
  have hb := byteAt_and_lowMask (swapN v n) n
  apply word_ext_bytes
  intro k hk
  rw [hb k hk]
  interval_cases n <;> interval_cases k <;> simp [swapN, swap16, swap24, swap32]

end Sys2Proof.Machine
end

