-- ==== Sys2Proof/Laws/Memory.lean ====
section
/-! SUPPORT. Host memory: a read after a write, the canonical form is kept, and no write changes which addresses the
launch memory holds (R61). -/

namespace Sys2Proof.Machine

/-- No address at or past 2^32 holds a byte. -/
theorem memByte_of_large (hm : List Host.Cell) (a : Nat) (ha : ¬ a < 2 ^ 32) : memByte hm a = none := by
  induction hm with
  | nil => rfl
  | cons c rest ih => simp only [memByte, ha, and_false, if_false, ih]

/-- Reading after a store: the stored byte at its address if the launch memory holds it, else as before. -/
theorem memByte_memSet (hm : List Host.Cell) (a b : Nat) (v : Byte) :
    memByte (memSet hm a v) b = if b = a ∧ (memByte hm a).isSome then some v else memByte hm b := by
  induction hm with
  | nil => simp [memSet, memByte]
  | cons c rest ih =>
    obtain ⟨d, u⟩ := c
    by_cases had : a = d
    · subst had
      by_cases hba : b = a
      · subst hba
        by_cases hb : b < 2 ^ 32
        · simp only [memSet, memByte, hb, and_self, if_true, Option.isSome_some]
        · simp only [memByte_of_large _ _ hb, Option.isSome_none, Bool.false_eq_true, and_false, if_false]
      · simp [memSet, memByte, hba]
    · by_cases hba : b = a
      · subst hba
        simp only [memSet, memByte, had, false_and, if_false, ih]
      · simp only [memSet, if_neg had, memByte, ih, hba, false_and, if_false]

@[simp] theorem memSet_addresses (hm : List Host.Cell) (a : Nat) (v : Byte) :
    (memSet hm a v).map Prod.fst = hm.map Prod.fst := by
  induction hm with
  | nil => rfl
  | cons c rest ih =>
    obtain ⟨d, u⟩ := c
    by_cases h : a = d <;> simp [memSet, h, ih]

/-- An address is in the launch memory or not by the addresses the list holds alone. -/
theorem memByte_isSome (hm : List Host.Cell) (a : Nat) :
    (memByte hm a).isSome = (decide (a ∈ hm.map Prod.fst) && decide (a < 2 ^ 32)) := by
  induction hm with
  | nil => simp [memByte]
  | cons c rest ih =>
    obtain ⟨d, u⟩ := c
    by_cases hb : a < 2 ^ 32
    · by_cases h : a = d
      · simp only [memByte, h ▸ hb, h, and_self, if_true, Option.isSome_some, List.map_cons, List.mem_cons, true_or,
          decide_true, Bool.and_self]
      · simp only [memByte, h, false_and, if_false, ih, List.map_cons, List.mem_cons, false_or]
    · simp only [memByte_of_large _ _ hb, Option.isSome_none, hb, decide_false, Bool.and_false]

/-- The canonical form depends on the addresses alone. -/
theorem risingAbove_congr (lo : Option Nat) (l m : List Host.Cell) (h : l.map Prod.fst = m.map Prod.fst) :
    risingAbove lo l = risingAbove lo m := by
  induction l generalizing lo m with
  | nil => cases m with
    | nil => rfl
    | cons _ _ => simp at h
  | cons c rest ih =>
    cases m with
    | nil => simp at h
    | cons d rest' =>
      obtain ⟨a, u⟩ := c
      obtain ⟨b, v⟩ := d
      simp only [List.map_cons, List.cons.injEq] at h
      obtain ⟨rfl, h⟩ := h
      simp only [risingAbove, ih _ _ h]

theorem wf_congr (l m : List Host.Cell) (h : l.map Prod.fst = m.map Prod.fst) : Memory.wf l = Memory.wf m :=
  risingAbove_congr _ _ _ h

theorem wf_memSet (hm : List Host.Cell) (a : Nat) (v : Byte) : Memory.wf (memSet hm a v) = Memory.wf hm :=
  wf_congr _ _ (memSet_addresses hm a v)

theorem memWrite1_addresses {hm hm' : List Host.Cell} {a : Nat} {v : Byte} (h : memWrite1 hm a v = some hm') :
    hm'.map Prod.fst = hm.map Prod.fst := by
  unfold memWrite1 at h
  split at h <;> simp at h
  subst h; simp

theorem memWrite4_addresses {hm hm' : List Host.Cell} {a : Nat} {v : Word} (h : memWrite4 hm a v = some hm') :
    hm'.map Prod.fst = hm.map Prod.fst := by
  unfold memWrite4 at h
  split at h <;> simp at h
  subst h; simp

/-- Every memory operation keeps the canonical form. -/
theorem wf_memWrite1 {hm hm' : List Host.Cell} {a : Nat} {v : Byte} (h : memWrite1 hm a v = some hm') :
    Memory.wf hm' = Memory.wf hm := wf_congr _ _ (memWrite1_addresses h)

theorem wf_memWrite4 {hm hm' : List Host.Cell} {a : Nat} {v : Word} (h : memWrite4 hm a v = some hm') :
    Memory.wf hm' = Memory.wf hm := wf_congr _ _ (memWrite4_addresses h)

/-- A one-byte write stores its byte and leaves every other address. -/
theorem memByte_memWrite1 {hm hm' : List Host.Cell} {a : Nat} {v : Byte} (h : memWrite1 hm a v = some hm')
    (b : Nat) : memByte hm' b = if b = a then some v else memByte hm b := by
  unfold memWrite1 at h
  split at h <;> simp at h
  subst h
  rename_i u hu
  rw [memByte_memSet, hu]; simp

theorem memRead4_some {hm : List Host.Cell} {a : Nat} {v : Word} (h : memRead4 hm a = some v) :
    ∃ b0 b1 b2 b3, memByte hm a = some b0 ∧ memByte hm (a + 1) = some b1 ∧ memByte hm (a + 2) = some b2 ∧
      memByte hm (a + 3) = some b3 ∧ v = ofBytes b3 b2 b1 b0 := by
  unfold memRead4 at h
  split at h
  · rename_i b0 b1 b2 b3 h0 h1 h2 h3
    simp at h
    exact ⟨b0, b1, b2, b3, h0, h1, h2, h3, h.symm⟩
  · simp at h

/-- A four-byte write stores its bytes, least significant first, and leaves every other address (R62). -/
theorem memByte_memWrite4 {hm hm' : List Host.Cell} {a : Nat} {v : Word} (h : memWrite4 hm a v = some hm')
    (b : Nat) : memByte hm' b = if a ≤ b ∧ b < a + 4 then some (byteAt v (b - a)) else memByte hm b := by
  unfold memWrite4 at h
  split at h <;> simp at h
  subst h
  rename_i u hu
  obtain ⟨b0, b1, b2, b3, h0, h1, h2, h3, -⟩ := memRead4_some hu
  have e0 : ∀ c, memByte (memSet hm a (byteAt v 0)) c = if c = a then some (byteAt v 0) else memByte hm c := by
    intro c; rw [memByte_memSet, h0]; simp
  have e1 : ∀ c, memByte (memSet (memSet hm a (byteAt v 0)) (a + 1) (byteAt v 1)) c =
      if c = a + 1 then some (byteAt v 1) else if c = a then some (byteAt v 0) else memByte hm c := by
    intro c; rw [memByte_memSet, e0, e0, h1]; simp
  have e2 : ∀ c, memByte (memSet (memSet (memSet hm a (byteAt v 0)) (a + 1) (byteAt v 1)) (a + 2) (byteAt v 2)) c =
      if c = a + 2 then some (byteAt v 2) else if c = a + 1 then some (byteAt v 1)
      else if c = a then some (byteAt v 0) else memByte hm c := by
    intro c; rw [memByte_memSet, e1, e1, h2]; simp
  rw [memByte_memSet, e2, e2, h3]
  by_cases k3 : b = a + 3
  · subst k3; simp
  · by_cases k2 : b = a + 2
    · subst k2; simp
    · by_cases k1 : b = a + 1
      · subst k1; simp
      · by_cases k0 : b = a
        · subst k0; simp
        · have : ¬ (a ≤ b ∧ b < a + 4) := by omega
          simp [k0, k1, k2, k3, this]

/-- Writing back the word just read changes no byte. -/
theorem memByte_memWrite4_self {hm hm' : List Host.Cell} {a : Nat} {v : Word} (hr : memRead4 hm a = some v)
    (h : memWrite4 hm a v = some hm') (b : Nat) : memByte hm' b = memByte hm b := by
  obtain ⟨b0, b1, b2, b3, h0, h1, h2, h3, rfl⟩ := memRead4_some hr
  obtain ⟨e0, e1, e2, e3⟩ := byteAt_ofBytes b3 b2 b1 b0
  rw [memByte_memWrite4 h]
  split
  · rename_i hb
    have : b = a ∨ b = a + 1 ∨ b = a + 2 ∨ b = a + 3 := by omega
    rcases this with rfl | rfl | rfl | rfl <;> simp [e0, e1, e2, e3, h0, h1, h2, h3]
  · rfl

end Sys2Proof.Machine
end

