-- ==== Sys2Proof/Laws/State.lean ====
section
/-! SUPPORT. One lemma per field of the state per update, and the lemmas that read one instance or the running
agent's sequencing state after an update; all simp lemmas, so that no later proof unfolds a record update. -/

namespace Sys2Proof.Machine

@[simp] theorem State.updBus_cfg (i : Fin 4) (f : Bus → Bus) (s : State) : (s.updBus i f).cfg = s.cfg := rfl
@[simp] theorem State.updBus_fin (i : Fin 4) (f : Bus → Bus) (s : State) : (s.updBus i f).fin = s.fin := rfl
@[simp] theorem State.updBus_callers (i : Fin 4) (f : Bus → Bus) (s : State) : (s.updBus i f).callers = s.callers := rfl
@[simp] theorem State.updBus_notifier (i : Fin 4) (f : Bus → Bus) (s : State) : (s.updBus i f).notifier = s.notifier := rfl
@[simp] theorem State.updBus_hm (i : Fin 4) (f : Bus → Bus) (s : State) : (s.updBus i f).hm = s.hm := rfl
@[simp] theorem State.updBus_faults (i : Fin 4) (f : Bus → Bus) (s : State) : (s.updBus i f).faults = s.faults := rfl
@[simp] theorem State.updBus_wire (i : Fin 4) (f : Bus → Bus) (s : State) : (s.updBus i f).wire = s.wire := rfl
@[simp] theorem State.updBus_turn (i : Fin 4) (f : Bus → Bus) (s : State) : (s.updBus i f).turn = s.turn := rfl
@[simp] theorem State.updBus_sched (i : Fin 4) (f : Bus → Bus) (s : State) : (s.updBus i f).sched = s.sched := rfl
@[simp] theorem State.updBus_ticks (i : Fin 4) (f : Bus → Bus) (s : State) : (s.updBus i f).ticks = s.ticks := rfl
@[simp] theorem State.updBus_draws (i : Fin 4) (f : Bus → Bus) (s : State) : (s.updBus i f).draws = s.draws := rfl

@[simp] theorem State.addDraws_cfg (n : Nat) (s : State) : (s.addDraws n).cfg = s.cfg := rfl
@[simp] theorem State.addDraws_fin (n : Nat) (s : State) : (s.addDraws n).fin = s.fin := rfl
@[simp] theorem State.addDraws_bus (n : Nat) (s : State) : (s.addDraws n).bus = s.bus := rfl
@[simp] theorem State.addDraws_callers (n : Nat) (s : State) : (s.addDraws n).callers = s.callers := rfl
@[simp] theorem State.addDraws_notifier (n : Nat) (s : State) : (s.addDraws n).notifier = s.notifier := rfl
@[simp] theorem State.addDraws_hm (n : Nat) (s : State) : (s.addDraws n).hm = s.hm := rfl
@[simp] theorem State.addDraws_faults (n : Nat) (s : State) : (s.addDraws n).faults = s.faults := rfl
@[simp] theorem State.addDraws_wire (n : Nat) (s : State) : (s.addDraws n).wire = s.wire := rfl
@[simp] theorem State.addDraws_turn (n : Nat) (s : State) : (s.addDraws n).turn = s.turn := rfl
@[simp] theorem State.addDraws_sched (n : Nat) (s : State) : (s.addDraws n).sched = s.sched := rfl
@[simp] theorem State.addDraws_ticks (n : Nat) (s : State) : (s.addDraws n).ticks = s.ticks := rfl

@[simp] theorem State.addWire_cfg (e : WireEvent) (s : State) : (s.addWire e).cfg = s.cfg := rfl
@[simp] theorem State.addWire_fin (e : WireEvent) (s : State) : (s.addWire e).fin = s.fin := rfl
@[simp] theorem State.addWire_bus (e : WireEvent) (s : State) : (s.addWire e).bus = s.bus := rfl
@[simp] theorem State.addWire_callers (e : WireEvent) (s : State) : (s.addWire e).callers = s.callers := rfl
@[simp] theorem State.addWire_notifier (e : WireEvent) (s : State) : (s.addWire e).notifier = s.notifier := rfl
@[simp] theorem State.addWire_hm (e : WireEvent) (s : State) : (s.addWire e).hm = s.hm := rfl
@[simp] theorem State.addWire_faults (e : WireEvent) (s : State) : (s.addWire e).faults = s.faults := rfl
@[simp] theorem State.addWire_turn (e : WireEvent) (s : State) : (s.addWire e).turn = s.turn := rfl
@[simp] theorem State.addWire_sched (e : WireEvent) (s : State) : (s.addWire e).sched = s.sched := rfl
@[simp] theorem State.addWire_ticks (e : WireEvent) (s : State) : (s.addWire e).ticks = s.ticks := rfl
@[simp] theorem State.addWire_draws (e : WireEvent) (s : State) : (s.addWire e).draws = s.draws := rfl

@[simp] theorem State.setHm_cfg (hm : List Host.Cell) (s : State) : (s.setHm hm).cfg = s.cfg := rfl
@[simp] theorem State.setHm_fin (hm : List Host.Cell) (s : State) : (s.setHm hm).fin = s.fin := rfl
@[simp] theorem State.setHm_bus (hm : List Host.Cell) (s : State) : (s.setHm hm).bus = s.bus := rfl
@[simp] theorem State.setHm_callers (hm : List Host.Cell) (s : State) : (s.setHm hm).callers = s.callers := rfl
@[simp] theorem State.setHm_notifier (hm : List Host.Cell) (s : State) : (s.setHm hm).notifier = s.notifier := rfl
@[simp] theorem State.setHm_faults (hm : List Host.Cell) (s : State) : (s.setHm hm).faults = s.faults := rfl
@[simp] theorem State.setHm_wire (hm : List Host.Cell) (s : State) : (s.setHm hm).wire = s.wire := rfl
@[simp] theorem State.setHm_turn (hm : List Host.Cell) (s : State) : (s.setHm hm).turn = s.turn := rfl
@[simp] theorem State.setHm_sched (hm : List Host.Cell) (s : State) : (s.setHm hm).sched = s.sched := rfl
@[simp] theorem State.setHm_ticks (hm : List Host.Cell) (s : State) : (s.setHm hm).ticks = s.ticks := rfl
@[simp] theorem State.setHm_draws (hm : List Host.Cell) (s : State) : (s.setHm hm).draws = s.draws := rfl

@[simp] theorem State.setFin_cfg (v : Word) (s : State) : (s.setFin v).cfg = s.cfg := rfl
@[simp] theorem State.setFin_bus (v : Word) (s : State) : (s.setFin v).bus = s.bus := rfl
@[simp] theorem State.setFin_callers (v : Word) (s : State) : (s.setFin v).callers = s.callers := rfl
@[simp] theorem State.setFin_notifier (v : Word) (s : State) : (s.setFin v).notifier = s.notifier := rfl
@[simp] theorem State.setFin_hm (v : Word) (s : State) : (s.setFin v).hm = s.hm := rfl
@[simp] theorem State.setFin_faults (v : Word) (s : State) : (s.setFin v).faults = s.faults := rfl
@[simp] theorem State.setFin_wire (v : Word) (s : State) : (s.setFin v).wire = s.wire := rfl
@[simp] theorem State.setFin_turn (v : Word) (s : State) : (s.setFin v).turn = s.turn := rfl
@[simp] theorem State.setFin_sched (v : Word) (s : State) : (s.setFin v).sched = s.sched := rfl
@[simp] theorem State.setFin_ticks (v : Word) (s : State) : (s.setFin v).ticks = s.ticks := rfl
@[simp] theorem State.setFin_draws (v : Word) (s : State) : (s.setFin v).draws = s.draws := rfl

@[simp] theorem State.record_cfg (c : FaultCause) (a : Agent) (p : Option Nat) (s : State) : (s.record c a p).cfg = s.cfg := rfl
@[simp] theorem State.record_fin (c : FaultCause) (a : Agent) (p : Option Nat) (s : State) : (s.record c a p).fin = s.fin := rfl
@[simp] theorem State.record_bus (c : FaultCause) (a : Agent) (p : Option Nat) (s : State) : (s.record c a p).bus = s.bus := rfl
@[simp] theorem State.record_callers (c : FaultCause) (a : Agent) (p : Option Nat) (s : State) : (s.record c a p).callers = s.callers := rfl
@[simp] theorem State.record_notifier (c : FaultCause) (a : Agent) (p : Option Nat) (s : State) : (s.record c a p).notifier = s.notifier := rfl
@[simp] theorem State.record_hm (c : FaultCause) (a : Agent) (p : Option Nat) (s : State) : (s.record c a p).hm = s.hm := rfl
@[simp] theorem State.record_wire (c : FaultCause) (a : Agent) (p : Option Nat) (s : State) : (s.record c a p).wire = s.wire := rfl
@[simp] theorem State.record_turn (c : FaultCause) (a : Agent) (p : Option Nat) (s : State) : (s.record c a p).turn = s.turn := rfl
@[simp] theorem State.record_sched (c : FaultCause) (a : Agent) (p : Option Nat) (s : State) : (s.record c a p).sched = s.sched := rfl
@[simp] theorem State.record_ticks (c : FaultCause) (a : Agent) (p : Option Nat) (s : State) : (s.record c a p).ticks = s.ticks := rfl
@[simp] theorem State.record_draws (c : FaultCause) (a : Agent) (p : Option Nat) (s : State) : (s.record c a p).draws = s.draws := rfl

@[simp] theorem State.raise_cfg (c : FaultCause) (s : State) : (s.raise c).cfg = s.cfg := rfl
@[simp] theorem State.raise_fin (c : FaultCause) (s : State) : (s.raise c).fin = s.fin := rfl
@[simp] theorem State.raise_bus (c : FaultCause) (s : State) : (s.raise c).bus = s.bus := rfl
@[simp] theorem State.raise_callers (c : FaultCause) (s : State) : (s.raise c).callers = s.callers := rfl
@[simp] theorem State.raise_notifier (c : FaultCause) (s : State) : (s.raise c).notifier = s.notifier := rfl
@[simp] theorem State.raise_hm (c : FaultCause) (s : State) : (s.raise c).hm = s.hm := rfl
@[simp] theorem State.raise_wire (c : FaultCause) (s : State) : (s.raise c).wire = s.wire := rfl
@[simp] theorem State.raise_turn (c : FaultCause) (s : State) : (s.raise c).turn = s.turn := rfl
@[simp] theorem State.raise_sched (c : FaultCause) (s : State) : (s.raise c).sched = s.sched := rfl
@[simp] theorem State.raise_ticks (c : FaultCause) (s : State) : (s.raise c).ticks = s.ticks := rfl
@[simp] theorem State.raise_draws (c : FaultCause) (s : State) : (s.raise c).draws = s.draws := rfl

@[simp] theorem State.atPhase_cfg (p : NotifierPhase) (s : State) : (s.atPhase p).cfg = s.cfg := rfl
@[simp] theorem State.atPhase_fin (p : NotifierPhase) (s : State) : (s.atPhase p).fin = s.fin := rfl
@[simp] theorem State.atPhase_bus (p : NotifierPhase) (s : State) : (s.atPhase p).bus = s.bus := rfl
@[simp] theorem State.atPhase_callers (p : NotifierPhase) (s : State) : (s.atPhase p).callers = s.callers := rfl
@[simp] theorem State.atPhase_hm (p : NotifierPhase) (s : State) : (s.atPhase p).hm = s.hm := rfl
@[simp] theorem State.atPhase_faults (p : NotifierPhase) (s : State) : (s.atPhase p).faults = s.faults := rfl
@[simp] theorem State.atPhase_wire (p : NotifierPhase) (s : State) : (s.atPhase p).wire = s.wire := rfl
@[simp] theorem State.atPhase_turn (p : NotifierPhase) (s : State) : (s.atPhase p).turn = s.turn := rfl
@[simp] theorem State.atPhase_sched (p : NotifierPhase) (s : State) : (s.atPhase p).sched = s.sched := rfl
@[simp] theorem State.atPhase_ticks (p : NotifierPhase) (s : State) : (s.atPhase p).ticks = s.ticks := rfl
@[simp] theorem State.atPhase_draws (p : NotifierPhase) (s : State) : (s.atPhase p).draws = s.draws := rfl

@[simp] theorem State.updCtx_cfg (f : Ctx → Ctx) (s : State) : (s.updCtx f).cfg = s.cfg := by
  unfold State.updCtx; split <;> rfl
@[simp] theorem State.updCtx_fin (f : Ctx → Ctx) (s : State) : (s.updCtx f).fin = s.fin := by
  unfold State.updCtx; split <;> rfl
@[simp] theorem State.updCtx_bus (f : Ctx → Ctx) (s : State) : (s.updCtx f).bus = s.bus := by
  unfold State.updCtx; split <;> rfl
@[simp] theorem State.updCtx_hm (f : Ctx → Ctx) (s : State) : (s.updCtx f).hm = s.hm := by
  unfold State.updCtx; split <;> rfl
@[simp] theorem State.updCtx_faults (f : Ctx → Ctx) (s : State) : (s.updCtx f).faults = s.faults := by
  unfold State.updCtx; split <;> rfl
@[simp] theorem State.updCtx_wire (f : Ctx → Ctx) (s : State) : (s.updCtx f).wire = s.wire := by
  unfold State.updCtx; split <;> rfl
@[simp] theorem State.updCtx_turn (f : Ctx → Ctx) (s : State) : (s.updCtx f).turn = s.turn := by
  unfold State.updCtx; split <;> rfl
@[simp] theorem State.updCtx_sched (f : Ctx → Ctx) (s : State) : (s.updCtx f).sched = s.sched := by
  unfold State.updCtx; split <;> rfl
@[simp] theorem State.updCtx_ticks (f : Ctx → Ctx) (s : State) : (s.updCtx f).ticks = s.ticks := by
  unfold State.updCtx; split <;> rfl
@[simp] theorem State.updCtx_draws (f : Ctx → Ctx) (s : State) : (s.updCtx f).draws = s.draws := by
  unfold State.updCtx; split <;> rfl

@[simp] theorem State.finish_cfg (st : Status) (v : Word) (s : State) : (s.finish st v).cfg = s.cfg := by
  unfold State.finish State.updCtx; split <;> rfl
@[simp] theorem State.finish_fin (st : Status) (v : Word) (s : State) : (s.finish st v).fin = s.fin := by
  unfold State.finish State.updCtx; split <;> rfl
@[simp] theorem State.finish_bus (st : Status) (v : Word) (s : State) : (s.finish st v).bus = s.bus := by
  unfold State.finish State.updCtx; split <;> rfl
@[simp] theorem State.finish_hm (st : Status) (v : Word) (s : State) : (s.finish st v).hm = s.hm := by
  unfold State.finish State.updCtx; split <;> rfl
@[simp] theorem State.finish_faults (st : Status) (v : Word) (s : State) : (s.finish st v).faults = s.faults := by
  unfold State.finish State.updCtx; split <;> rfl
@[simp] theorem State.finish_wire (st : Status) (v : Word) (s : State) : (s.finish st v).wire = s.wire := by
  unfold State.finish State.updCtx; split <;> rfl
@[simp] theorem State.finish_turn (st : Status) (v : Word) (s : State) : (s.finish st v).turn = s.turn := by
  unfold State.finish State.updCtx; split <;> rfl
@[simp] theorem State.finish_sched (st : Status) (v : Word) (s : State) : (s.finish st v).sched = s.sched := by
  unfold State.finish State.updCtx; split <;> rfl
@[simp] theorem State.finish_ticks (st : Status) (v : Word) (s : State) : (s.finish st v).ticks = s.ticks := by
  unfold State.finish State.updCtx; split <;> rfl
@[simp] theorem State.finish_draws (st : Status) (v : Word) (s : State) : (s.finish st v).draws = s.draws := by
  unfold State.finish State.updCtx; split <;> rfl

@[simp] theorem State.save_cfg (t : Task) (s : State) : (s.save t).cfg = s.cfg := by
  unfold State.save State.updCtx; split <;> rfl
@[simp] theorem State.save_fin (t : Task) (s : State) : (s.save t).fin = s.fin := by
  unfold State.save State.updCtx; split <;> rfl
@[simp] theorem State.save_bus (t : Task) (s : State) : (s.save t).bus = s.bus := by
  unfold State.save State.updCtx; split <;> rfl
@[simp] theorem State.save_hm (t : Task) (s : State) : (s.save t).hm = s.hm := by
  unfold State.save State.updCtx; split <;> rfl
@[simp] theorem State.save_faults (t : Task) (s : State) : (s.save t).faults = s.faults := by
  unfold State.save State.updCtx; split <;> rfl
@[simp] theorem State.save_wire (t : Task) (s : State) : (s.save t).wire = s.wire := by
  unfold State.save State.updCtx; split <;> rfl
@[simp] theorem State.save_turn (t : Task) (s : State) : (s.save t).turn = s.turn := by
  unfold State.save State.updCtx; split <;> rfl
@[simp] theorem State.save_sched (t : Task) (s : State) : (s.save t).sched = s.sched := by
  unfold State.save State.updCtx; split <;> rfl
@[simp] theorem State.save_ticks (t : Task) (s : State) : (s.save t).ticks = s.ticks := by
  unfold State.save State.updCtx; split <;> rfl
@[simp] theorem State.save_draws (t : Task) (s : State) : (s.save t).draws = s.draws := by
  unfold State.save State.updCtx; split <;> rfl


@[simp] theorem State.addDraws_draws (n : Nat) (s : State) : (s.addDraws n).draws = s.draws + n := rfl
@[simp] theorem State.addWire_wire (e : WireEvent) (s : State) : (s.addWire e).wire = s.wire ++ [e] := rfl
@[simp] theorem State.setHm_hm (hm : List Host.Cell) (s : State) : (s.setHm hm).hm = hm := rfl
@[simp] theorem State.setFin_fin (v : Word) (s : State) : (s.setFin v).fin = v := rfl
@[simp] theorem State.record_faults (c : FaultCause) (a : Agent) (p : Option Nat) (s : State) :
    (s.record c a p).faults = s.faults ++ [⟨c, a, p⟩] := rfl
@[simp] theorem State.raise_faults (c : FaultCause) (s : State) :
    (s.raise c).faults = s.faults ++ [⟨c, s.cur, s.ctx?.map Ctx.pc⟩] := rfl
@[simp] theorem State.atPhase_phase (p : NotifierPhase) (s : State) : (s.atPhase p).notifier.phase = p := rfl

/-! ### Reading one instance after an update -/

@[simp] theorem State.getBus_updBus_same (i : Fin 4) (f : Bus → Bus) (s : State) :
    (s.updBus i f).getBus i = f (s.getBus i) := by
  simp [State.getBus, State.updBus]

theorem State.getBus_updBus (i j : Fin 4) (f : Bus → Bus) (s : State) :
    (s.updBus i f).getBus j = if j = i then f (s.getBus i) else s.getBus j := by
  by_cases h : j = i
  · subst h; simp
  · have : i.val ≠ j.val := fun e => h (Fin.ext e.symm)
    simp [State.getBus, State.updBus, this, h]

@[simp] theorem State.getBus_updBus_ne (i j : Fin 4) (f : Bus → Bus) (s : State) (h : j ≠ i) :
    (s.updBus i f).getBus j = s.getBus j := by
  simp [State.getBus_updBus, h]

@[simp] theorem State.updBus_updBus (i : Fin 4) (f g : Bus → Bus) (s : State) :
    (s.updBus i f).updBus i g = s.updBus i fun b => g (f b) := by
  simp only [State.updBus, State.getBus, Vector.getElem_set_self, Vector.set_set]

theorem State.ext_bus {s t : State} (h : ∀ i, s.getBus i = t.getBus i) : s.bus = t.bus := by
  apply Vector.ext
  intro i hi
  exact h ⟨i, hi⟩

@[simp] theorem State.getBus_addDraws (n : Nat) (j : Fin 4) (s : State) : (s.addDraws n).getBus j = s.getBus j := rfl
@[simp] theorem State.getBus_addWire (e : WireEvent) (j : Fin 4) (s : State) : (s.addWire e).getBus j = s.getBus j := rfl
@[simp] theorem State.getBus_setHm (hm : List Host.Cell) (j : Fin 4) (s : State) : (s.setHm hm).getBus j = s.getBus j := rfl
@[simp] theorem State.getBus_setFin (v : Word) (j : Fin 4) (s : State) : (s.setFin v).getBus j = s.getBus j := rfl
@[simp] theorem State.getBus_record (c : FaultCause) (a : Agent) (p : Option Nat) (j : Fin 4) (s : State) : (s.record c a p).getBus j = s.getBus j := rfl
@[simp] theorem State.getBus_raise (c : FaultCause) (j : Fin 4) (s : State) : (s.raise c).getBus j = s.getBus j := rfl
@[simp] theorem State.getBus_atPhase (p : NotifierPhase) (j : Fin 4) (s : State) : (s.atPhase p).getBus j = s.getBus j := rfl
@[simp] theorem State.getBus_updCtx (f : Ctx → Ctx) (j : Fin 4) (s : State) : (s.updCtx f).getBus j = s.getBus j := by
  simp [State.getBus]
@[simp] theorem State.getBus_finish (st : Status) (v : Word) (j : Fin 4) (s : State) : (s.finish st v).getBus j = s.getBus j := by
  simp [State.getBus]
@[simp] theorem State.getBus_save (t : Task) (j : Fin 4) (s : State) : (s.save t).getBus j = s.getBus j := by
  simp [State.getBus]

/-! ### The running agent after an update -/

@[simp] theorem State.cur_updBus (i : Fin 4) (f : Bus → Bus) (s : State) : (s.updBus i f).cur = s.cur := rfl
@[simp] theorem State.ctx_updBus (i : Fin 4) (f : Bus → Bus) (s : State) : (s.updBus i f).ctx? = s.ctx? := rfl
@[simp] theorem State.stopped_updBus (i : Fin 4) (f : Bus → Bus) (a : Agent) (s : State) : (s.updBus i f).stopped a = s.stopped a := by
  simp [State.stopped]
@[simp] theorem State.cur_addDraws (n : Nat) (s : State) : (s.addDraws n).cur = s.cur := rfl
@[simp] theorem State.ctx_addDraws (n : Nat) (s : State) : (s.addDraws n).ctx? = s.ctx? := rfl
@[simp] theorem State.stopped_addDraws (n : Nat) (a : Agent) (s : State) : (s.addDraws n).stopped a = s.stopped a := by
  simp [State.stopped]
@[simp] theorem State.cur_addWire (e : WireEvent) (s : State) : (s.addWire e).cur = s.cur := rfl
@[simp] theorem State.ctx_addWire (e : WireEvent) (s : State) : (s.addWire e).ctx? = s.ctx? := rfl
@[simp] theorem State.stopped_addWire (e : WireEvent) (a : Agent) (s : State) : (s.addWire e).stopped a = s.stopped a := by
  simp [State.stopped]
@[simp] theorem State.cur_setHm (hm : List Host.Cell) (s : State) : (s.setHm hm).cur = s.cur := rfl
@[simp] theorem State.ctx_setHm (hm : List Host.Cell) (s : State) : (s.setHm hm).ctx? = s.ctx? := rfl
@[simp] theorem State.stopped_setHm (hm : List Host.Cell) (a : Agent) (s : State) : (s.setHm hm).stopped a = s.stopped a := by
  simp [State.stopped]
@[simp] theorem State.cur_setFin (v : Word) (s : State) : (s.setFin v).cur = s.cur := rfl
@[simp] theorem State.ctx_setFin (v : Word) (s : State) : (s.setFin v).ctx? = s.ctx? := rfl
@[simp] theorem State.stopped_setFin (v : Word) (a : Agent) (s : State) : (s.setFin v).stopped a = s.stopped a := by
  simp [State.stopped]
@[simp] theorem State.cur_record (c : FaultCause) (a : Agent) (p : Option Nat) (s : State) : (s.record c a p).cur = s.cur := rfl
@[simp] theorem State.ctx_record (c : FaultCause) (a : Agent) (p : Option Nat) (s : State) : (s.record c a p).ctx? = s.ctx? := rfl
@[simp] theorem State.cur_raise (c : FaultCause) (s : State) : (s.raise c).cur = s.cur := rfl
@[simp] theorem State.ctx_raise (c : FaultCause) (s : State) : (s.raise c).ctx? = s.ctx? := rfl
@[simp] theorem State.cur_atPhase (p : NotifierPhase) (s : State) : (s.atPhase p).cur = s.cur := rfl
@[simp] theorem State.ctx_atPhase (p : NotifierPhase) (s : State) : (s.atPhase p).ctx? = s.ctx? := by
  rfl
@[simp] theorem State.stopped_atPhase (p : NotifierPhase) (a : Agent) (s : State) : (s.atPhase p).stopped a = s.stopped a := by
  simp [State.stopped]
@[simp] theorem State.cur_updCtx (f : Ctx → Ctx) (s : State) : (s.updCtx f).cur = s.cur := by
  simp [State.cur]
@[simp] theorem State.stopped_updCtx (f : Ctx → Ctx) (a : Agent) (s : State) : (s.updCtx f).stopped a = s.stopped a := by
  simp [State.stopped]
@[simp] theorem State.cur_finish (st : Status) (v : Word) (s : State) : (s.finish st v).cur = s.cur := by
  simp [State.cur]
@[simp] theorem State.stopped_finish (st : Status) (v : Word) (a : Agent) (s : State) : (s.finish st v).stopped a = s.stopped a := by
  simp [State.stopped]
@[simp] theorem State.cur_save (t : Task) (s : State) : (s.save t).cur = s.cur := by
  simp [State.cur]
@[simp] theorem State.stopped_save (t : Task) (a : Agent) (s : State) : (s.save t).stopped a = s.stopped a := by
  simp [State.stopped]

@[simp] theorem State.ctx_updCtx (f : Ctx → Ctx) (s : State) : (s.updCtx f).ctx? = s.ctx?.map f := by
  unfold State.ctx? State.updCtx
  cases h : s.turn.agent with
  | caller c => simp [h, Option.map_map, Function.comp_def]
  | notifier => simp [h]
  | engine i => simp [h]

@[simp] theorem State.ctx_finish (st : Status) (v : Word) (s : State) :
    (s.finish st v).ctx? = s.ctx?.map fun c => ⟨c.pc + 1, v, st, none⟩ := by
  simp [State.finish]

@[simp] theorem State.ctx_save (t : Task) (s : State) :
    (s.save t).ctx? = s.ctx?.map fun c => { c with task := some t } := by
  simp [State.save]

@[simp] theorem State.updCtx_updCtx (f g : Ctx → Ctx) (s : State) :
    (s.updCtx f).updCtx g = s.updCtx fun c => g (f c) := by
  unfold State.updCtx
  cases h : s.turn.agent <;> simp [h, List.modify_modify_eq, Function.comp_def]

theorem State.stopped_record (c : FaultCause) (a b : Agent) (p : Option Nat) (s : State) :
    (s.record c a p).stopped b = (s.stopped b || a == b) := by
  simp [State.stopped]

/-- Other callers and, unless it is the running agent, the notifier keep their state under `updCtx`. -/
theorem State.updCtx_other_caller (f : Ctx → Ctx) (s : State) (c : Nat) (h : s.cur ≠ .caller c) :
    (s.updCtx f).callers[c]? = s.callers[c]? := by
  unfold State.updCtx
  unfold State.cur at h
  cases e : s.turn.agent with
  | caller d =>
    have : d ≠ c := by rintro rfl; exact h e
    simp [this]
  | notifier => simp
  | engine i => simp

theorem State.updCtx_other_notifier (f : Ctx → Ctx) (s : State) (h : s.cur ≠ .notifier) :
    (s.updCtx f).notifier = s.notifier := by
  unfold State.updCtx
  unfold State.cur at h
  cases e : s.turn.agent with
  | caller d => simp
  | notifier => exact absurd e h
  | engine i => simp

/-- No update of a sequencing state changes a program text (R74). -/
@[simp] theorem State.updCtx_progs (f : Ctx → Ctx) (s : State) :
    (s.updCtx f).callers.map Caller.prog = s.callers.map Caller.prog := by
  unfold State.updCtx
  cases e : s.turn.agent with
  | caller d =>
    apply List.ext_getElem?
    intro n
    simp [List.getElem?_modify]
    by_cases hn : d = n
    · subst hn; cases s.callers[d]? <;> simp
    · simp [hn, Function.comp_def]
  | notifier => simp
  | engine i => simp

end Sys2Proof.Machine
end

