-- ==== Sys2Proof/Laws/Ops.lean ====
section
/-! SUPPORT. What one micro-step can do, said once (`perform_done`, `perform_hold`), what an engine step can do
(`engineStep_cases`). -/

namespace Sys2Proof.Machine

/-- The register a micro-step writes. -/
def UOp.writes : UOp → Option Reg
  | .wr r _ | .wrX r | .rmw r _ _ => some r
  | .wrScalar _ => some (.w 0)
  | .wrPix k => some (.w k)
  | .retune _ _ => some .clock
  | _ => none

/-- The bytes of host memory a micro-step writes. -/
def UOp.stores (op : UOp) (a : Nat) : Prop :=
  match op with
  | .memWr4 p => p ≤ a ∧ a < p + 4
  | .memWr1 p _ => a = p
  | _ => False

/-- Every change a micro-step makes to the machine. -/
inductive Micro (op : UOp) (i : Fin 4) (s : State) : State → Prop
  | same : Micro op i s s
  | drew (hb : (s.getBus i).phase = .busy) : Micro op i s (s.addDraws 1)
  | store (r : Reg) (v : Word) (hw : op.writes = some r) (hr : r ≠ .cmd) (hi : (s.getBus i).phase = .idle) :
      Micro op i s (s.updBus i fun b => b.store r (v &&& wmask s.cfg r))
  | trigger (hw : op.writes = some .cmd) (hi : (s.getBus i).phase = .idle) :
      Micro op i s (s.updBus i fun b => { b with phase := .busy })
  | commit (hw : op.writes = some .cmd) (hi : (s.getBus i).phase = .idle) (hc : s.cfg.hasCommit = true) :
      Micro op i s (s.updBus i fun b => { b with phase := .commit })
  | mem (hm : List Host.Cell) (ha : hm.map Prod.fst = s.hm.map Prod.fst)
      (hb : ∀ a, ¬ op.stores a → memByte hm a = memByte s.hm a) : Micro op i s (s.setHm hm)
  | create (ho : op = .createGuard) (hg : (s.getBus i).guardExists = false) :
      Micro op i s (s.updBus i fun b => { b with guardExists := true, owner := none })
  | acquire (ho : op = .acquire) (hg : (s.getBus i).guardExists = true) (hf : (s.getBus i).owner = none) :
      Micro op i s (s.updBus i fun b => { b with owner := some s.cur })
  | release (ho : op = .release) (hf : (s.getBus i).owner = some s.cur) :
      Micro op i s (s.updBus i fun b => { b with owner := none })
  | registered (v : Bool) (ho : op = .setRegistered v) : Micro op i s (s.updBus i fun b => { b with registered := v })
  | started (v : Bool) (ho : op = .setStarted v) : Micro op i s (s.updBus i fun b => { b with started := v })

theorem writeReg_done {op : UOp} {i : Fin 4} {r : Reg} {v x y x' y' : Word} {s s' : State} (hw : op.writes = some r)
    (h : writeReg i r v x y s = .done s' x' y') : Micro op i s s' := by
  unfold writeReg at h
  split at h
  · simp at h
  rename_i hi
  have hi : (s.getBus i).phase = .idle := Decidable.byContradiction hi
  cases r with
  | cmd =>
    simp only at h
    split at h
    · simp at h
    · split at h
      · cases h; exact .trigger hw hi
      · split at h
        · rename_i hu
          cases h
          refine .commit hw hi ?_
          simp only [cmdUpdate, Bool.and_eq_true] at hu
          exact hu.1
        · cases h; exact .same
  | _ => cases h; exact .store _ v hw (by simp) hi

theorem readReg_cases (i : Fin 4) (r : Reg) (s : State) :
    (readReg i r s = ((s.getBus i).view s.cfg r, s)) ∨
      ((s.getBus i).phase = .busy ∧ readReg i r s = (Config.freeWord s.draws, s.addDraws 1)) := by
  unfold readReg
  split
  · rename_i hp; exact .inr ⟨hp, rfl⟩
  · exact .inl rfl

theorem readReg_micro (op : UOp) (i : Fin 4) (r : Reg) (s : State) : Micro op i s (readReg i r s).2 := by
  rcases readReg_cases i r s with h | ⟨hb, h⟩ <;> rw [h]
  · exact .same
  · exact .drew hb

/-- Everything a micro-step that is taken can do. -/
theorem perform_done {op : UOp} {i : Fin 4} {x y x' y' : Word} {s s' : State}
    (h : perform op i x y s = .done s' x' y') : Micro op i s s' := by
  cases op with
  | wr r v => exact writeReg_done rfl h
  | wrX r => exact writeReg_done rfl h
  | wrScalar n => exact writeReg_done rfl h
  | wrPix k => exact writeReg_done rfl h
  | rmw r c v => exact writeReg_done rfl h
  | rd r dst =>
    have := readReg_micro (.rd r dst) i r s
    cases dst <;> simp only [perform, setLocal] at h <;> cases h <;> exact this
  | poll r m =>
    simp only [perform] at h
    split at h
    · cases h; exact readReg_micro _ i r s
    · simp at h
  | memRd4 a => simp only [perform] at h; split at h <;> cases h; exact .same
  | memRd1 a j => simp only [perform] at h; split at h <;> cases h; exact .same
  | memWr4 a =>
    simp only [perform] at h
    split at h <;> cases h
    rename_i hm hw
    exact .mem hm (memWrite4_addresses hw) fun b hb => by
      rw [memByte_memWrite4 hw]; exact if_neg hb
  | memWr1 a j =>
    simp only [perform] at h
    split at h <;> cases h
    rename_i hm hw
    exact .mem hm (memWrite1_addresses hw) fun b hb => by
      rw [memByte_memWrite1 hw]; exact if_neg hb
  | createGuard =>
    simp only [perform] at h
    split at h <;> cases h
    · exact .same
    · rename_i hg; exact .create rfl (by simpa using hg)
  | acquire =>
    simp only [perform, acquireGuard] at h
    split at h
    · simp at h
    · rename_i hg
      split at h <;> cases h
      rename_i hf; exact .acquire rfl (by simpa using hg) hf
  | release =>
    simp only [perform, releaseGuard] at h
    split at h <;> cases h
    rename_i hf; exact .release rfl hf
  | setRegistered b => cases h; exact .registered b rfl
  | setStarted b => cases h; exact .started b rfl
  | solve t => cases h; exact .same
  | freq w => cases h; exact .same
  | retune o n =>
    simp only [perform] at h
    split at h
    · cases h; exact .same
    · exact writeReg_done rfl h
  | bytes => cases h; exact .same
  | pixels => cases h; exact .same

theorem writeReg_not_hold {i : Fin 4} {r : Reg} {v x y : Word} {s s' : State} :
    writeReg i r v x y s ≠ .hold s' := by
  unfold writeReg
  split
  · simp
  · split
    · split
      · simp
      · split
        · simp
        · split <;> simp
    · simp

/-- A held micro-step leaves the machine, but for a draw a poll of the buffer makes (R112). -/
theorem perform_hold {op : UOp} {i : Fin 4} {x y : Word} {s s' : State} (h : perform op i x y s = .hold s') :
    Micro op i s s' ∧ (s' = s ∨ s' = s.addDraws 1) := by
  have read (r : Reg) : ((readReg i r s).2 = s ∨ (readReg i r s).2 = s.addDraws 1) := by
    rcases readReg_cases i r s with h | ⟨-, h⟩ <;> rw [h] <;> simp
  cases op with
  | poll r m =>
    simp only [perform] at h
    split at h
    · simp at h
    · cases h; exact ⟨readReg_micro _ i r s, read r⟩
  | memRd4 a => simp only [perform] at h; split at h <;> cases h; exact ⟨.same, .inl rfl⟩
  | memRd1 a j => simp only [perform] at h; split at h <;> cases h; exact ⟨.same, .inl rfl⟩
  | memWr4 a => simp only [perform] at h; split at h <;> cases h; exact ⟨.same, .inl rfl⟩
  | memWr1 a j => simp only [perform] at h; split at h <;> cases h; exact ⟨.same, .inl rfl⟩
  | acquire =>
    simp only [perform, acquireGuard] at h
    split at h
    · simp at h
    · split at h <;> cases h; exact ⟨.same, .inl rfl⟩
  | wr r v => exact absurd h writeReg_not_hold
  | wrX r => exact absurd h writeReg_not_hold
  | wrScalar n => exact absurd h writeReg_not_hold
  | wrPix k => exact absurd h writeReg_not_hold
  | rmw r c v => exact absurd h writeReg_not_hold
  | rd r dst => cases dst <;> simp [perform, setLocal] at h
  | createGuard => simp only [perform] at h; split at h <;> simp at h
  | release => simp only [perform, releaseGuard] at h; split at h <;> simp at h
  | setRegistered b => simp [perform] at h
  | setStarted b => simp [perform] at h
  | solve t => simp [perform] at h
  | freq w => simp [perform] at h
  | retune o n =>
    simp only [perform] at h
    split at h
    · simp at h
    · exact absurd h writeReg_not_hold
  | bytes => simp [perform] at h
  | pixels => simp [perform] at h

/-- A change of a micro-step keeps the parameter record, fin, the turn, the programs and the agents' places (R10). -/
theorem Micro.cfg {op : UOp} {i : Fin 4} {s s' : State} (h : Micro op i s s') : s'.cfg = s.cfg := by
  cases h <;> rfl

theorem Micro.fin {op : UOp} {i : Fin 4} {s s' : State} (h : Micro op i s s') : s'.fin = s.fin := by
  cases h <;> rfl

theorem Micro.turn {op : UOp} {i : Fin 4} {s s' : State} (h : Micro op i s s') : s'.turn = s.turn := by
  cases h <;> rfl

theorem Micro.callers {op : UOp} {i : Fin 4} {s s' : State} (h : Micro op i s s') : s'.callers = s.callers := by
  cases h <;> rfl

theorem Micro.notifier {op : UOp} {i : Fin 4} {s s' : State} (h : Micro op i s s') : s'.notifier = s.notifier := by
  cases h <;> rfl

theorem Micro.faults {op : UOp} {i : Fin 4} {s s' : State} (h : Micro op i s s') : s'.faults = s.faults := by
  cases h <;> rfl

theorem Micro.wire {op : UOp} {i : Fin 4} {s s' : State} (h : Micro op i s s') : s'.wire = s.wire := by
  cases h <;> rfl

/-- Every change an engine's step makes (R117 to R119). -/
inductive EngineMove (i : Fin 4) (s : State) : State → Prop
  | none : EngineMove i s s
  | commit (hp : (s.getBus i).phase = .commit) (hs : s.stopped (.engine i) = false) : EngineMove i s (commitStep i s)
  | complete (hp : (s.getBus i).phase = .busy) (hs : s.stopped (.engine i) = false) :
      EngineMove i s (completeStep i s)

theorem engineStep_cases (i : Fin 4) (s : State) : EngineMove i s (engineStep i s) := by
  unfold engineStep
  split
  · rename_i h
    simp only [State.engineReady, Bool.and_eq_true, Bool.not_eq_true'] at h
    split
    · exact .none
    · rename_i hp; exact .commit hp h.2
    · rename_i hp; exact .complete hp h.2
  · exact .none

@[simp] theorem commitStep_cfg (i : Fin 4) (s : State) : (commitStep i s).cfg = s.cfg := rfl

@[simp] theorem completeStep_cfg (i : Fin 4) (s : State) : (completeStep i s).cfg = s.cfg := by
  unfold completeStep; dsimp only; split <;> rfl

theorem EngineMove.cfg {i : Fin 4} {s s' : State} (h : EngineMove i s s') : s'.cfg = s.cfg := by
  cases h <;> simp

@[simp] theorem engineStep_cfg (i : Fin 4) (s : State) : (engineStep i s).cfg = s.cfg :=
  (engineStep_cases i s).cfg

end Sys2Proof.Machine
end

