-- ==== Sys2Proof/Laws/Run.lean ====
section
/-! SUPPORT. Running the micro-steps of an operation without fault or hold: the relation `Runs`, which a completion
proof composes micro-step by micro-step and chunk by chunk, and what `runOps` and `operate` answer from it. -/

namespace Sys2Proof.Machine

/-- From the micro-steps `ops` with locals x, y in state s, k micro-steps (the polled engine's among them) lead to
the micro-steps `ops'` with locals x', y' in state s'. -/
inductive Runs (i : Fin 4) : Nat → List UOp → Word → Word → State → List UOp → Word → Word → State → Prop
  | refl (ops : List UOp) (x y : Word) (s : State) : Runs i 0 ops x y s ops x y s
  | step {k : Nat} {ops rest : List UOp} {op : UOp} {x y x1 y1 : Word} {s s1 : State} {ops' : List UOp}
      {x' y' : Word} {s' : State} (hs : settle s.cfg ops = op :: rest) (hp : perform op i x y s = .done s1 x1 y1)
      (hr : Runs i k rest x1 y1 s1 ops' x' y' s') : Runs i (k + 1) ops x y s ops' x' y' s'
  | await {k : Nat} {ops rest : List UOp} {op : UOp} {x y x1 y1 : Word} {s s1 s2 : State} {ops' : List UOp}
      {x' y' : Word} {s' : State} (hs : settle s.cfg ops = op :: rest) (hp : perform op i x y s = .hold s1)
      (hc : s1.cfg = s.cfg) (hw : (op.isPoll && s1.turn.prompt && s1.engineReady i) = true)
      (hq : perform op i x y (engineStep i s1) = .done s2 x1 y1)
      (hr : Runs i k rest x1 y1 s2 ops' x' y' s') : Runs i (k + 2) ops x y s ops' x' y' s'

namespace Runs

variable {i : Fin 4} {k l : Nat} {ops ops' ops'' : List UOp} {x y x' y' x'' y'' : Word} {s s' s'' : State}

theorem trans (h : Runs i k ops x y s ops' x' y' s') (g : Runs i l ops' x' y' s' ops'' x'' y'' s'') :
    Runs i (k + l) ops x y s ops'' x'' y'' s'' := by
  induction h with
  | refl => simpa using g
  | step hs hp _ ih => rw [Nat.add_right_comm]; exact step hs hp (ih g)
  | await hs hp hc hw hq _ ih => rw [Nat.add_right_comm]; exact await hs hp hc hw hq (ih g)

/-- No micro-step leaves the list. -/
theorem zero (h : Runs i 0 ops x y s ops' x' y' s') : ops = ops' := by
  cases h
  rfl

/-- A micro-step that is taken, at the front of the list. -/
theorem one {op : UOp} {rest : List UOp} (hs : settle s.cfg (op :: rest) = op :: rest)
    (hp : perform op i x y s = .done s' x' y') : Runs i 1 (op :: rest) x y s rest x' y' s' :=
  step hs hp (refl _ _ _ _)

/-- The micro-steps of a list that settles to another are those of that other. -/
theorem of_settle (hs : settle s.cfg ops = settle s.cfg ops'') (h : Runs i (k + 1) ops'' x y s ops' x' y' s') :
    Runs i (k + 1) ops x y s ops' x' y' s' := by
  generalize hk : k + 1 = n at h
  cases h with
  | refl => omega
  | step hs' hp hr => exact step (hs.trans hs') hp hr
  | await hs' hp hc hw hq hr => exact await (hs.trans hs') hp hc hw hq hr

theorem settle_append {cfg : Cfg} {ops rest tail : List UOp} {op : UOp} (hs : settle cfg ops = op :: rest) :
    settle cfg (ops ++ tail) = op :: (rest ++ tail) := by
  cases ops with
  | nil => simp [settle] at hs
  | cons o os =>
    cases o with
    | bytes inp outp off size =>
      simp only [settle, List.cons_append] at hs ⊢
      split at hs
      · rename_i h
        rw [if_pos h, ← List.cons_append, ← List.append_assoc, hs, List.cons_append]
      · rename_i h
        rw [if_neg h, hs, List.cons_append]
    | pixels ptr off size =>
      simp only [settle, List.cons_append] at hs ⊢
      split at hs
      · rename_i h
        rw [if_pos h, ← List.cons_append, ← List.append_assoc, hs, List.cons_append]
      · rename_i h
        rw [if_neg h, hs, List.cons_append]
    | _ =>
      simp only [settle, List.cons_append, List.cons.injEq] at hs ⊢
      exact ⟨hs.1, by rw [hs.2]⟩

/-- More micro-steps behind do not disturb the ones in front. -/
theorem append (h : Runs i k ops x y s ops' x' y' s') (tail : List UOp) :
    Runs i k (ops ++ tail) x y s (ops' ++ tail) x' y' s' := by
  induction h with
  | refl => exact refl _ _ _ _
  | step hs hp _ ih => exact step (settle_append hs) hp ih
  | await hs hp hc hw hq _ ih => exact await (settle_append hs) hp hc hw hq ih

/-- `runOps` with room for the k micro-steps goes on from where they lead. -/
theorem runOps (h : Runs i k ops x y s ops' x' y' s') (ret : Ret) (n : Nat) :
    Machine.runOps (n + k) ⟨i, ops, x, y, ret⟩ s = Machine.runOps n ⟨i, ops', x', y', ret⟩ s' := by
  induction h with
  | refl => rfl
  | step hs hp _ ih => rw [← Nat.add_assoc, Machine.runOps]; simp only [hs, hp]; exact ih
  | await hs hp hc hw hq _ ih =>
    rw [← Nat.add_assoc]
    rw [Machine.runOps]; simp only [hs, hp, hw, if_true]
    rw [Machine.runOps]; simp only [engineStep_cfg, hc, hs, hq]; exact ih

/-- An operation whose micro-steps all run, with room for them, ends (R36). -/
theorem finishes (h : Runs i k ops x y s ops' x' y' s') (he : settle s'.cfg ops' = []) (ret : Ret) {n : Nat}
    (hn : k ≤ n) :
    Machine.runOps n ⟨i, ops, x, y, ret⟩ s = s'.finish .ok (retValue s'.cfg ret x' y') := by
  obtain ⟨m, rfl⟩ := Nat.exists_eq_add_of_le' hn
  rw [h.runOps]
  cases m <;> simp [Machine.runOps, he]

end Runs
end Sys2Proof.Machine
end

