-- ==== Sys2Proof/Laws/Xfer.lean ====
section
/-! SUPPORT. One hardware transaction: the sequence `xfer` runs to its end (R170), and what the engine's completion step
leaves (R119). -/

namespace Sys2Proof.Machine

theorem and_lowMask {v : Word} {n : Nat} (hn : n ≤ 32) (h : v.toNat < 2 ^ n) : v &&& lowMask n = v := by
  apply BitVec.eq_of_toNat_eq
  have h2 : 2 ^ n ≤ 2 ^ 32 := Nat.pow_le_pow_right (by omega) hn
  have h1 : 0 < 2 ^ n := Nat.two_pow_pos n
  rw [BitVec.toNat_and, lowMask, BitVec.toNat_ofNat, Nat.mod_eq_of_lt (by omega), Nat.and_two_pow_sub_one_eq_mod,
    Nat.mod_eq_of_lt h]

theorem cfgOk_dlenW {cfg : Cfg} (h : cfgOk cfg = true) : 9 ≤ cfg.dlenW ∧ cfg.dlenW ≤ 24 := by
  simp only [cfgOk, Bool.and_eq_true, decide_eq_true_eq] at h
  exact h.1.1.1.1.1.2

/-- A bit length of a transaction, less one, fits the length registers (R6, R26). -/
theorem lenWord_masked {cfg : Cfg} (h : cfgOk cfg = true) {nbits : Nat} (hn : nbits ≤ 512) :
    BitVec.ofNat 32 (nbits - 1) &&& lowMask cfg.dlenW = BitVec.ofNat 32 (nbits - 1) := by
  obtain ⟨h9, h24⟩ := cfgOk_dlenW h
  apply and_lowMask (by omega)
  have h1 : 2 ^ 9 ≤ 2 ^ cfg.dlenW := Nat.pow_le_pow_right (by omega) h9
  rw [BitVec.toNat_ofNat, Nat.mod_eq_of_lt (by omega)]
  omega

theorem lenWord_toNat {nbits : Nat} (h1 : 1 ≤ nbits) (hn : nbits ≤ 512) :
    (BitVec.ofNat 32 (nbits - 1)).toNat + 1 = nbits := by
  rw [BitVec.toNat_ofNat, Nat.mod_eq_of_lt (by omega)]; omega

/-- At most n micro-steps. -/
def RunsIn (i : Fin 4) (n : Nat) (ops : List UOp) (x y : Word) (s : State) (ops' : List UOp) (x' y' : Word)
    (s' : State) : Prop := ∃ k ≤ n, Runs i k ops x y s ops' x' y' s'

namespace RunsIn

variable {i : Fin 4} {m n : Nat} {ops ops' ops'' : List UOp} {x y x' y' x'' y'' : Word} {s s' s'' : State}

theorem refl : RunsIn i 0 ops x y s ops x y s := ⟨0, le_refl _, .refl _ _ _ _⟩

theorem trans (h : RunsIn i m ops x y s ops' x' y' s') (g : RunsIn i n ops' x' y' s' ops'' x'' y'' s'') :
    RunsIn i (m + n) ops x y s ops'' x'' y'' s'' := by
  obtain ⟨k, hk, h⟩ := h
  obtain ⟨l, hl, g⟩ := g
  exact ⟨k + l, by omega, h.trans g⟩

theorem mono (h : RunsIn i m ops x y s ops' x' y' s') (hmn : m ≤ n) : RunsIn i n ops x y s ops' x' y' s' := by
  obtain ⟨k, hk, h⟩ := h
  exact ⟨k, by omega, h⟩

theorem append (h : RunsIn i m ops x y s ops' x' y' s') (tail : List UOp) :
    RunsIn i m (ops ++ tail) x y s (ops' ++ tail) x' y' s' := by
  obtain ⟨k, hk, h⟩ := h
  exact ⟨k, hk, h.append tail⟩

theorem one {op : UOp} {rest : List UOp} (hp : perform op i x y s = .done s' x' y')
    (hs : settle s.cfg (op :: rest) = op :: rest := by rfl) : RunsIn i 1 (op :: rest) x y s rest x' y' s' :=
  ⟨1, le_refl _, .one hs hp⟩

theorem finishes (h : RunsIn i m ops x y s ops' x' y' s') (he : settle s'.cfg ops' = []) (ret : Ret) {n : Nat}
    (hn : m ≤ n) :
    runOps n ⟨i, ops, x, y, ret⟩ s = s'.finish .ok (retValue s'.cfg ret x' y') := by
  obtain ⟨k, hk, h⟩ := h
  exact h.finishes he ret (by omega)

/-- The micro-steps of a list that settles to another, with at least one to run. -/
theorem of_settle {op : UOp} {rest : List UOp} (hs : settle s.cfg ops = settle s.cfg (op :: rest))
    (h1 : RunsIn i 1 (op :: rest) x y s rest x' y' s') (h : RunsIn i n rest x' y' s' ops'' x'' y'' s'') :
    RunsIn i (1 + n) ops x y s ops'' x'' y'' s'' := by
  obtain ⟨k, hk, h1⟩ := h1
  obtain ⟨l, hl, h⟩ := h
  rcases k with _ | k
  · generalize hr : rest = r at h1
    cases h1
  · exact ⟨(k + l) + 1, by omega, Runs.of_settle hs (by rw [Nat.add_right_comm]; exact h1.trans h)⟩

end RunsIn

/-- Completion step with a length that fits the buffer, as an equation (R119). -/
theorem completeStep_eq (i : Fin 4) (s : State) (h : ((s.getBus i).txnCfg s.cfg).mosiDlen.toNat + 1 ≤ 512) :
    completeStep i s =
      (let c := (s.getBus i).txnCfg s.cfg
       let n := c.mosiDlen.toNat + 1
       let tx := fun k => bufBit (s.getBus i).w (wirePos k (wrOrder c.ctrl))
       let rx := rxBit s.cfg.link tx (Config.freeBits (s.draws + 1))
       ((s.updBus i fun b => { b with w := bufAfter c n rx (Config.freeBits s.draws), phase := .idle }).addWire
         ⟨i, s.fin, c, csDis c.pin, (List.range n).map tx, (List.range n).map rx⟩).addDraws 2) := by
  unfold completeStep
  rw [if_neg (by omega)]

/-- The bit length of a triggered transaction. -/
theorem triggered_mosiDlen {cfg : Cfg} (hc : cfgOk cfg = true) {nbits : Nat} (h1 : 1 ≤ nbits) (hn : nbits ≤ 512)
    (fd : Bool) (b : Bus) : ((b.triggered cfg nbits fd).txnCfg cfg).mosiDlen.toNat + 1 = nbits := by
  have h := lenWord_masked hc hn
  have : ((b.triggered cfg nbits fd).txnCfg cfg).mosiDlen = BitVec.ofNat 32 (nbits - 1) := by
    cases hh : cfg.hasCommit <;> simp [Bus.triggered, Bus.txnCfg, RegCfg.masked, wmask, hh, h]
  rw [this, lenWord_toNat h1 hn]

theorem getBus_transacted_phase {i : Fin 4} {nbits : Nat} {fd : Bool} {s : State} (hc : cfgOk s.cfg = true)
    (h1 : 1 ≤ nbits) (hn : nbits ≤ 512) : ((s.transacted i nbits fd).getBus i).phase = .idle := by
  unfold State.transacted
  rw [completeStep_eq]
  · simp
  · simp [triggered_mosiDlen hc h1 hn, hn]

theorem State.updBus_congr {i : Fin 4} {f g : Bus → Bus} {s : State} (h : f (s.getBus i) = g (s.getBus i)) :
    s.updBus i f = s.updBus i g := by
  simp [State.updBus, h]

/-- A write of a register other than CMD, when nothing is in flight (R111). -/
theorem writeReg_store {i : Fin 4} {r : Reg} {v x y : Word} {s : State} (hr : r ≠ .cmd) (hq : Quiet i s) :
    writeReg i r v x y s = .done (s.updBus i fun b => b.store r (v &&& wmask s.cfg r)) x y := by
  unfold writeReg
  rw [if_neg (by simpa [Quiet] using hq)]
  cases r <;> simp_all

theorem perform_trigger {i : Fin 4} {x y : Word} {s : State} (hq : Quiet i s) :
    perform (.wr .cmd 1) i x y s = .done (s.updBus i fun b => { b with phase := .busy }) x y := by
  simp only [perform, writeReg]
  rw [if_neg (by simpa [Quiet] using hq)]
  simp [cmdUsr, cmdUpdate]

theorem perform_commit {i : Fin 4} {x y : Word} {s : State} (hq : Quiet i s) (hc : s.cfg.hasCommit = true) :
    perform (.wr .cmd 2) i x y s = .done (s.updBus i fun b => { b with phase := .commit }) x y := by
  simp only [perform, writeReg]
  rw [if_neg (by simpa [Quiet] using hq)]
  simp [cmdUsr, cmdUpdate, hc]

theorem readReg_cmd (i : Fin 4) (s : State) : readReg i .cmd s = (cmdValue (s.getBus i).phase, s) := rfl

theorem await_complete {i : Fin 4} {x y : Word} {s : State} {rest : List UOp} (hb : (s.getBus i).phase = .busy)
    (he : EngineServes i s) (hn : ((s.getBus i).txnCfg s.cfg).mosiDlen.toNat + 1 ≤ 512) :
    RunsIn i 2 (.poll .cmd 1 :: rest) x y s rest x y (completeStep i s) := by
  refine ⟨2, le_refl _, .await (s1 := s) (s2 := completeStep i s) rfl ?_ rfl ?_ ?_ (.refl _ _ _ _)⟩
  · simp [perform, readReg_cmd, hb, cmdValue]
  · simp [UOp.isPoll, he.prompt, State.engineReady, hb, he.runs]
  · have e : engineStep i s = completeStep i s := by
      simp [engineStep, State.engineReady, hb, he.runs]
    rw [e]
    have hp : ((completeStep i s).getBus i).phase = .idle := by rw [completeStep_eq i s hn]; simp
    simp [perform, readReg_cmd, hp, cmdValue]

theorem await_commit {i : Fin 4} {x y : Word} {s : State} {rest : List UOp} (hb : (s.getBus i).phase = .commit)
    (he : EngineServes i s) : RunsIn i 2 (.poll .cmd 2 :: rest) x y s rest x y (commitStep i s) := by
  refine ⟨2, le_refl _, .await (s1 := s) (s2 := commitStep i s) rfl ?_ rfl ?_ ?_ (.refl _ _ _ _)⟩
  · simp [perform, readReg_cmd, hb, cmdValue]
  · simp [UOp.isPoll, he.prompt, State.engineReady, hb, he.runs]
  · have e : engineStep i s = commitStep i s := by
      simp [engineStep, State.engineReady, hb, he.runs]
    rw [e]
    simp [perform, readReg_cmd, commitStep, cmdValue]

theorem EngineServes.updBus {i j : Fin 4} {f : Bus → Bus} {s : State} (h : EngineServes i s) :
    EngineServes i (s.updBus j f) := ⟨h.prompt, by simpa using h.runs⟩

theorem EngineServes.commitStep {i j : Fin 4} {s : State} (h : EngineServes i s) :
    EngineServes i (commitStep j s) := h.updBus

/-- The lengths `xfer` programs (R170). -/
def Bus.lengths (cfg : Cfg) (nbits : Nat) (fd : Bool) (b : Bus) : Bus :=
  { b with conf := (b.triggered cfg nbits fd).conf }

theorem lengths_run {i : Fin 4} {nbits : Nat} {fd : Bool} {x y : Word} {s : State} {rest : List UOp}
    (hc : cfgOk s.cfg = true) (hn : nbits ≤ 512) (hq : Quiet i s) :
    RunsIn i 2 ([.wr .mosiDlen (BitVec.ofNat 32 (nbits - 1))] ++
      (if fd then [.wr .misoDlen (BitVec.ofNat 32 (nbits - 1))]
        else match s.cfg.woMiso with
          | .zero => [.wr .misoDlen 0]
          | .omit => []) ++ rest) x y s rest x y (s.updBus i fun b => b.lengths s.cfg nbits fd) := by
  have hl := lenWord_masked hc hn
  have first : perform (.wr .mosiDlen (BitVec.ofNat 32 (nbits - 1))) i x y s =
      .done (s.updBus i fun b => b.store .mosiDlen (BitVec.ofNat 32 (nbits - 1))) x y := by
    simp only [perform, writeReg_store (r := .mosiDlen) (by simp) hq, wmask, hl]
  have hq' : Quiet i (s.updBus i fun b => b.store .mosiDlen (BitVec.ofNat 32 (nbits - 1))) := by
    simpa [Quiet, Bus.store] using hq
  have second (v : Word) (hv : v &&& lowMask s.cfg.dlenW = v) :
      perform (.wr .misoDlen v) i x y (s.updBus i fun b => b.store .mosiDlen (BitVec.ofNat 32 (nbits - 1))) =
      .done ((s.updBus i fun b => b.store .mosiDlen (BitVec.ofNat 32 (nbits - 1))).updBus i fun b =>
        b.store .misoDlen v) x y := by
    simp only [perform, writeReg_store (r := .misoDlen) (by simp) hq', wmask, State.updBus_cfg, hv]
  cases fd with
  | true =>
    have run := (RunsIn.one (rest := .wr .misoDlen (BitVec.ofNat 32 (nbits - 1)) :: rest) first).trans
      (RunsIn.one (rest := rest) (second _ hl))
    have e : (s.updBus i fun b => b.store .mosiDlen (BitVec.ofNat 32 (nbits - 1))).updBus i
        (fun b => b.store .misoDlen (BitVec.ofNat 32 (nbits - 1))) = s.updBus i fun b => b.lengths s.cfg nbits true := by
      simp [Bus.store, Bus.lengths, Bus.triggered]
    rw [e] at run
    exact run
  | false =>
    match hw : s.cfg.woMiso with
    | .zero =>
      have run := (RunsIn.one (rest := .wr .misoDlen 0 :: rest) first).trans
        (RunsIn.one (rest := rest) (second 0 (by simp)))
      have e : (s.updBus i fun b => b.store .mosiDlen (BitVec.ofNat 32 (nbits - 1))).updBus i
          (fun b => b.store .misoDlen 0) = s.updBus i fun b => b.lengths s.cfg nbits false := by
        simp [Bus.store, Bus.lengths, Bus.triggered, hw]
      rw [e] at run
      exact run
    | .omit =>
      have run := (RunsIn.one (rest := rest) first).mono (n := 2) (by omega)
      have e : (s.updBus i fun b => b.store .mosiDlen (BitVec.ofNat 32 (nbits - 1))) =
          s.updBus i fun b => b.lengths s.cfg nbits false := by
        simp [Bus.store, Bus.lengths, Bus.triggered, hw]
      rw [e] at run
      exact run

/-- `xfer(i, nbits, fd)` runs to its end: at most eight micro-steps, the engine's among them (R170, R171). -/
theorem xfer_runs {i : Fin 4} {nbits : Nat} {fd : Bool} {x y : Word} {s : State} (hc : cfgOk s.cfg = true)
    (h1 : 1 ≤ nbits) (hn : nbits ≤ 512) (hq : Quiet i s) (he : EngineServes i s) :
    RunsIn i 8 (xferOps s.cfg nbits fd) x y s [] x y (s.transacted i nbits fd) := by
  have hlen := triggered_mosiDlen hc h1 hn fd (s.getBus i)
  have hql : Quiet i (s.updBus i fun b => b.lengths s.cfg nbits fd) := by simpa [Quiet, Bus.lengths] using hq
  unfold xferOps
  rw [List.append_assoc]
  refine RunsIn.mono (m := 2 + 6) ((lengths_run hc hn hq).trans ?_) (by omega)
  cases hcm : s.cfg.hasCommit with
  | false =>
    simp only [Bool.false_eq_true, if_false, List.nil_append]
    have t := RunsIn.one (x := x) (y := y) (rest := [.poll .cmd 1]) (perform_trigger hql)
    have hb : ((s.updBus i fun b => b.lengths s.cfg nbits fd).updBus i fun b => { b with phase := .busy }) =
        s.updBus i fun b => b.triggered s.cfg nbits fd := by
      simp [Bus.lengths, Bus.triggered, hcm]
    rw [hb] at t
    refine RunsIn.mono (m := 1 + 2) (t.trans ?_) (by omega)
    exact await_complete (by simp [Bus.triggered]) he.updBus (by simp [hlen, hn])
  | true =>
    simp only [if_true]
    have c := RunsIn.one (x := x) (y := y) (rest := [.poll .cmd 2, .wr .cmd 1, .poll .cmd 1])
      (perform_commit hql (by simpa using hcm))
    have d := await_commit (x := x) (y := y) (rest := [.wr .cmd 1, .poll .cmd 1]) (i := i)
      (s := (s.updBus i fun b => b.lengths s.cfg nbits fd).updBus i fun b => { b with phase := .commit })
      (by simp) he.updBus.updBus
    have hqc : Quiet i (commitStep i
        ((s.updBus i fun b => b.lengths s.cfg nbits fd).updBus i fun b => { b with phase := .commit })) := by
      simp [Quiet, commitStep]
    have t := RunsIn.one (x := x) (y := y) (rest := [.poll .cmd 1]) (perform_trigger hqc)
    have hb : (commitStep i ((s.updBus i fun b => b.lengths s.cfg nbits fd).updBus i fun b =>
        { b with phase := .commit })).updBus i (fun b => { b with phase := .busy }) =
        s.updBus i fun b => b.triggered s.cfg nbits fd := by
      simp [Bus.lengths, Bus.triggered, hcm, commitStep]
    rw [hb] at t
    refine RunsIn.mono (m := 1 + (2 + (1 + 2))) (c.trans (d.trans (t.trans ?_))) (by omega)
    exact await_complete (by simp [Bus.triggered]) he.updBus (by simp [hlen, hn])

/-- The registers `xfer` sends with: the commit, when there is one, has copied them (R118, R171). -/
theorem triggered_txnCfg (cfg : Cfg) (nbits : Nat) (fd : Bool) (b : Bus) :
    (b.triggered cfg nbits fd).txnCfg cfg = (b.triggered cfg nbits fd).conf.masked cfg := by
  cases hh : cfg.hasCommit <;> simp [Bus.txnCfg, Bus.triggered, hh]

/-- One whole transaction in closed form (R119, R170). -/
theorem transacted_eq {i : Fin 4} {nbits : Nat} {fd : Bool} {s : State} (hc : cfgOk s.cfg = true) (h1 : 1 ≤ nbits)
    (hn : nbits ≤ 512) : s.transacted i nbits fd =
      (let c := ((s.getBus i).triggered s.cfg nbits fd).conf.masked s.cfg
       let tx := fun k => bufBit (s.getBus i).w (wirePos k (wrOrder c.ctrl))
       let rx := rxBit s.cfg.link tx (Config.freeBits (s.draws + 1))
       ((s.updBus i fun b => { b.triggered s.cfg nbits fd with
            w := bufAfter c nbits rx (Config.freeBits s.draws), phase := .idle }).addWire
          ⟨i, s.fin, c, csDis c.pin, (List.range nbits).map tx, (List.range nbits).map rx⟩).addDraws 2) := by
  have hlen := triggered_mosiDlen hc h1 hn fd (s.getBus i)
  have e := completeStep_eq i (s.updBus i fun b => b.triggered s.cfg nbits fd) (by
    simp only [State.getBus_updBus_same, State.updBus_cfg]; rw [hlen]; exact hn)
  rw [triggered_txnCfg] at hlen
  simp only [State.getBus_updBus_same, State.updBus_cfg, triggered_txnCfg, hlen, State.updBus_updBus,
    State.updBus_fin, State.updBus_draws] at e
  exact e

/-- The bit orders, the duplex enable and the read length of a triggered configuration. -/
theorem triggered_wrOrder (cfg : Cfg) (nbits : Nat) (fd : Bool) (b : Bus) :
    wrOrder ((b.triggered cfg nbits fd).conf.masked cfg).ctrl = wrOrder b.conf.ctrl := by
  simp [Bus.triggered, RegCfg.masked, wrOrder, wmask]

theorem triggered_rdOrder (cfg : Cfg) (nbits : Nat) (fd : Bool) (b : Bus) :
    rdOrder ((b.triggered cfg nbits fd).conf.masked cfg).ctrl = rdOrder b.conf.ctrl := by
  simp [Bus.triggered, RegCfg.masked, rdOrder, wmask]

theorem triggered_doutdin (cfg : Cfg) (nbits : Nat) (fd : Bool) (b : Bus) :
    doutdin ((b.triggered cfg nbits fd).conf.masked cfg).user = doutdin b.conf.user := by
  simp [Bus.triggered, RegCfg.masked, doutdin, wmask]

theorem triggered_misoDlen {cfg : Cfg} (hc : cfgOk cfg = true) {nbits : Nat} (h1 : 1 ≤ nbits) (hn : nbits ≤ 512)
    (b : Bus) : ((b.triggered cfg nbits true).conf.masked cfg).misoDlen.toNat + 1 = nbits := by
  simp only [Bus.triggered, RegCfg.masked, wmask, if_true, lenWord_masked hc hn]
  exact lenWord_toNat h1 hn

end Sys2Proof.Machine
end

