-- ==== Sys2Proof/Laws/Complete.lean ====
section
/-! SUPPORT. When an operation ends in its turn: what `operate` answers for each opening (R36, R270, R273), the guard
taken and given back around a body (R172), and the shared micro-steps at the front of a list. -/

namespace Sys2Proof.Machine

@[simp] theorem and_ones (x : Word) : x &&& 4294967295#32 = x := BitVec.and_allOnes

/-- An operation that ends at once with a result. -/
theorem operate_ret {s : State} (h : Ready 1 s) (v : Word) : operate s (.ret v) = .next (s.finish .ok v) := by
  obtain ⟨⟨c, hc, ht⟩, hs, hb⟩ := h
  obtain ⟨m, hm⟩ := Nat.exists_eq_add_of_le' hb
  simp [operate, hc, hs, hm, ht]

/-- An operation that ends at once with a status: RES 0 (R10, R270). -/
theorem operate_status {s : State} (h : Ready 1 s) (st : Status) :
    operate s (.status st) = .next (s.finish st 0) := by
  obtain ⟨⟨c, hc, ht⟩, hs, hb⟩ := h
  obtain ⟨m, hm⟩ := Nat.exists_eq_add_of_le' hb
  simp [operate, hc, hs, hm, ht]

/-- An operation whose checks raise a fault (R273). -/
theorem operate_trap {s : State} (h : Ready 1 s) (c : FaultCause) : operate s (.trap c) = .next (s.raise c) := by
  obtain ⟨⟨k, hc, ht⟩, hs, hb⟩ := h
  obtain ⟨m, hm⟩ := Nat.exists_eq_add_of_le' hb
  simp [operate, hc, hs, hm, ht]

/-- An operation with micro-steps: its opening is one of the turn's micro-steps. -/
theorem operate_task {s : State} {n : Nat} (h : Ready (n + 1) s) (t : Task) :
    ∃ m, n ≤ m ∧ operate s (.task t) = .next (runOps m t s) := by
  obtain ⟨⟨k, hc, ht⟩, hs, hb⟩ := h
  obtain ⟨m, hm⟩ := Nat.exists_eq_add_of_le' hb
  exact ⟨m + n, by omega, by simp [operate, hc, hs, hm, ht, ← Nat.add_assoc]⟩

/-- An operation whose micro-steps all run ends in its turn (R36). -/
theorem operate_ends {s s' : State} {n : Nat} {i : Fin 4} {ops ops' : List UOp} {x y x' y' : Word} {ret : Ret}
    (h : Ready (n + 1) s) (hr : RunsIn i n ops x y s ops' x' y' s') (he : settle s'.cfg ops' = []) :
    operate s (.task ⟨i, ops, x, y, ret⟩) = .next (s'.finish .ok (retValue s'.cfg ret x' y')) := by
  obtain ⟨m, hm, e⟩ := operate_task h ⟨i, ops, x, y, ret⟩
  rw [e, hr.finishes he ret hm]

theorem operate_runs {s s' : State} {n : Nat} {i : Fin 4} {ops : List UOp} {x y x' y' : Word} {ret : Ret}
    (h : Ready (n + 1) s) (hr : RunsIn i n ops x y s [] x' y' s') :
    operate s (.task ⟨i, ops, x, y, ret⟩) = .next (s'.finish .ok (retValue s'.cfg ret x' y')) :=
  operate_ends h hr rfl

/-- An operation whose first micro-step raises a fault (R273). -/
theorem operate_traps {s : State} {i : Fin 4} {op : UOp} {ops rest : List UOp} {x y : Word} {ret : Ret}
    {c : FaultCause} (h : Ready 2 s) (hs : settle s.cfg ops = op :: rest) (hp : perform op i x y s = .trap c) :
    operate s (.task ⟨i, ops, x, y, ret⟩) = .next ((s.save ⟨i, ops, x, y, ret⟩).raise c) := by
  obtain ⟨m, hm, e⟩ := operate_task (n := 1) h ⟨i, ops, x, y, ret⟩
  obtain ⟨m, rfl⟩ := Nat.exists_eq_add_of_le' hm
  rw [e, runOps]; simp [hs, hp]

theorem Trapped.of_save {s : State} {t : Task} {c : FaultCause} : Trapped c s ((s.save t).raise c) := ⟨some t, rfl⟩

/-- An operation whose first micro-step holds, and no engine lifts the hold, keeps its place (R36, R112). -/
theorem operate_holds {s s' : State} {i : Fin 4} {op : UOp} {ops rest : List UOp} {x y : Word} {ret : Ret}
    (h : Ready 2 s) (hs : settle s.cfg ops = op :: rest) (hp : perform op i x y s = .hold s')
    (hw : (op.isPoll && s'.turn.prompt && s'.engineReady i) = false) :
    operate s (.task ⟨i, ops, x, y, ret⟩) = .next (s'.save ⟨i, ops, x, y, ret⟩) := by
  obtain ⟨m, hm, e⟩ := operate_task (n := 1) h ⟨i, ops, x, y, ret⟩
  obtain ⟨m, rfl⟩ := Nat.exists_eq_add_of_le' hm
  rw [e, runOps]; simp [hs, hp, hw]

/-- An operation that runs some micro-steps and then holds keeps its place there (R36, R112). -/
theorem operate_runs_hold {s s' s1 : State} {n : Nat} {i : Fin 4} {ops ops' rest : List UOp} {op : UOp}
    {x y x' y' : Word} {ret : Ret} (h : Ready (n + 2) s) (hr : RunsIn i n ops x y s ops' x' y' s')
    (hs : settle s'.cfg ops' = op :: rest) (hp : perform op i x' y' s' = .hold s1)
    (hw : (op.isPoll && s1.turn.prompt && s1.engineReady i) = false) :
    operate s (.task ⟨i, ops, x, y, ret⟩) = .next (s1.save ⟨i, ops', x', y', ret⟩) := by
  obtain ⟨k, hk, hr⟩ := hr
  obtain ⟨m, hm, e⟩ := operate_task (n := n + 1) h ⟨i, ops, x, y, ret⟩
  obtain ⟨m, rfl⟩ := Nat.exists_eq_add_of_le' hm
  rw [e, show m + (n + 1) = (m + (n - k)) + 1 + k by omega, hr.runOps, runOps]
  simp [hs, hp, hw]

/-- An operation in progress whose last micro-step is taken ends (R36). -/
theorem operate_resumes {s s' : State} {i : Fin 4} {op : UOp} {x y x' y' : Word} {ret : Ret} (o : Opening)
    (h : Inside ⟨i, [op], x, y, ret⟩ s) (hs : settle s.cfg [op] = [op]) (hp : perform op i x y s = .done s' x' y') :
    operate s o = .next (s'.finish .ok (retValue s'.cfg ret x' y')) := by
  obtain ⟨⟨c, hc, ht⟩, hst, hb⟩ := h
  obtain ⟨m, hm⟩ := Nat.exists_eq_add_of_le' hb
  simp only [operate, hc, hst, hm, ht, Bool.false_eq_true, if_false]
  rw [runOps]; simp only [hs, hp]
  cases m <;> simp [runOps, settle]

theorem Ready.mono {m n : Nat} {s : State} (h : Ready n s) (hm : m ≤ n) : Ready m s :=
  ⟨h.between, h.runs, by have := h.room; omega⟩

theorem rawOpening_eq {s : State} {i : Fin 4} (hi : i.val < s.cfg.nInst) (off : Option (BitVec 16)) (k : Opening) :
    rawOpening s i off k = k := by
  simp [rawOpening, hi]

theorem regOpening_eq {s : State} {i : Fin 4} {off : BitVec 16} {r : Reg} (hi : i.val < s.cfg.nInst)
    (ha : off.toNat % 4 = 0) (hr : regAt s.cfg off.toNat = some r) (k : Reg → Opening) :
    regOpening s i off k = k r := by
  simp [regOpening, rawOpening_eq hi, ha, hr]

/-- The checks of a register operation that fail, in their order (R110, R275). -/
theorem regOpening_faults {s : State} {i : Fin 4} {off : BitVec 16} (h : Ready 1 s) (k : Reg → Opening) :
    (s.cfg.nInst ≤ i.val → operate s (regOpening s i off k) = .next (s.raise (.unmapped i (some off)))) ∧
    (i.val < s.cfg.nInst → off.toNat % 4 ≠ 0 →
      operate s (regOpening s i off k) = .next (s.raise (.misaligned off.toNat))) ∧
    (i.val < s.cfg.nInst → off.toNat % 4 = 0 → regAt s.cfg off.toNat = none →
      operate s (regOpening s i off k) = .next (s.raise (.unmapped i (some off)))) := by
  refine ⟨fun hi => ?_, fun hi ha => ?_, fun hi ha hn => ?_⟩
  · simp only [regOpening, rawOpening, if_pos hi, operate_trap h]
  · simp only [regOpening, rawOpening_eq hi, if_pos ha, operate_trap h]
  · simp only [regOpening, rawOpening_eq hi, ha, ne_eq, not_true_eq_false, if_false, hn, operate_trap h]

/-- A read that is not a draw (R110). -/
theorem readReg_eq {i : Fin 4} {r : Reg} {s : State} (h : (s.getBus i).phase ≠ .busy ∨ ∀ k, r ≠ .w k) :
    readReg i r s = ((s.getBus i).view s.cfg r, s) := by
  unfold readReg
  split
  · rename_i hp; simp_all
  · rfl

theorem perform_rd_x {i : Fin 4} {r : Reg} {x y : Word} {s : State} :
    perform (.rd r .x) i x y s = .done (readReg i r s).2 (readReg i r s).1 y := rfl

theorem perform_rd_y {i : Fin 4} {r : Reg} {x y : Word} {s : State} :
    perform (.rd r .y) i x y s = .done (readReg i r s).2 x (readReg i r s).1 := rfl

/-- A read of a quiet instance: the register's value, and nothing changes. -/
theorem perform_rd_x_quiet {i : Fin 4} {r : Reg} {x y : Word} {s : State} (hq : Quiet i s) :
    perform (.rd r .x) i x y s = .done s ((s.getBus i).view s.cfg r) y := by
  rw [perform_rd_x, readReg_eq (.inl (by rw [show (s.getBus i).phase = .idle from hq]; simp))]

theorem perform_rd_y_quiet {i : Fin 4} {r : Reg} {x y : Word} {s : State} (hq : Quiet i s) :
    perform (.rd r .y) i x y s = .done s x ((s.getBus i).view s.cfg r) := by
  rw [perform_rd_y, readReg_eq (.inl (by rw [show (s.getBus i).phase = .idle from hq]; simp))]

theorem perform_wr {i : Fin 4} {r : Reg} {v x y : Word} {s : State} (hr : r ≠ .cmd) (hq : Quiet i s) :
    perform (.wr r v) i x y s = .done (s.updBus i fun b => b.store r (v &&& wmask s.cfg r)) x y :=
  writeReg_store hr hq

theorem perform_wrX {i : Fin 4} {r : Reg} {x y : Word} {s : State} (hr : r ≠ .cmd) (hq : Quiet i s) :
    perform (.wrX r) i x y s = .done (s.updBus i fun b => b.store r (x &&& wmask s.cfg r)) x y :=
  writeReg_store hr hq

theorem perform_rmw {i : Fin 4} {r : Reg} {c v x y : Word} {s : State} (hr : r ≠ .cmd) (hq : Quiet i s) :
    perform (.rmw r c v) i x y s =
      .done (s.updBus i fun b => b.store r ((((s.getBus i).view s.cfg r &&& ~~~c) ||| v) &&& wmask s.cfg r)) x y :=
  writeReg_store hr hq

theorem handleOpening_eq {s : State} {h : Handle} (hu : Usable h s) (k : Opening) : handleOpening s h k = k := by
  have := hu.inRange
  simp [handleOpening, hu.handle, hu.started, Nat.not_le.mpr this]

/-! ### The guard around a body -/

/-- Instance i with another owner of its guard. -/
def State.setOwner (i : Fin 4) (o : Option Agent) (s : State) : State := s.updBus i fun b => { b with owner := o }

theorem State.setOwner_setOwner (i : Fin 4) (o p : Option Agent) (s : State) :
    (s.setOwner i o).setOwner i p = s.setOwner i p := by
  simp [State.setOwner]

theorem State.updBus_self {i : Fin 4} {f : Bus → Bus} {s : State} (h : f (s.getBus i) = s.getBus i) :
    s.updBus i f = s := by
  cases s
  simp only [State.updBus, State.getBus] at h ⊢
  rw [h]
  simp

theorem State.setOwner_self {i : Fin 4} {o : Option Agent} {s : State} (h : (s.getBus i).owner = o) :
    s.setOwner i o = s := by
  apply State.updBus_self
  rw [← h]

theorem perform_acquire {i : Fin 4} {x y : Word} {s : State} (h : GuardFree i s) :
    perform .acquire i x y s = .done (s.setOwner i (some s.cur)) x y := by
  simp [perform, acquireGuard, h.created, h.free, State.setOwner]

theorem perform_release {i : Fin 4} {x y : Word} {s : State} (h : GuardMine i s) :
    perform .release i x y s = .done (s.setOwner i none) x y := by
  simp only [perform, releaseGuard]
  rw [if_pos (show (s.getBus i).owner = some s.cur from h)]; rfl

/-- The micro-steps that may be left when a body has run: none but a loop header past its end. -/
def Ended (cfg : Cfg) (ops : List UOp) : Prop := settle cfg ops = [] ∧ settle cfg (ops ++ [.release]) = [.release]

theorem Ended.nil (cfg : Cfg) : Ended cfg [] := ⟨rfl, rfl⟩

/-- The body of a locked form runs between the acquire and the release (R172). -/
theorem locked_ends {i : Fin 4} {n : Nat} {body ended : List UOp} {x y x' y' : Word} {s s' : State}
    (h : GuardFree i s) (hb : RunsIn i n body x y (s.setOwner i (some s.cur)) ended x' y' s')
    (he : Ended s'.cfg ended) (ho : GuardMine i s') :
    RunsIn i (n + 2) (locked body) x y s [] x' y' (s'.setOwner i none) := by
  have a := RunsIn.one (x := x) (y := y) (rest := body ++ [.release]) (perform_acquire h)
  have b := hb.append [.release]
  have c := RunsIn.of_settle (rest := []) (he.2.trans rfl)
    (RunsIn.one (x := x') (y := y') (rest := []) (perform_release ho)) RunsIn.refl
  exact RunsIn.mono (m := 1 + (n + 1)) (a.trans (b.trans c)) (by omega)

theorem locked_runs {i : Fin 4} {n : Nat} {body : List UOp} {x y x' y' : Word} {s s' : State} (h : GuardFree i s)
    (hb : RunsIn i n body x y (s.setOwner i (some s.cur)) [] x' y' s') (ho : GuardMine i s') :
    RunsIn i (n + 2) (locked body) x y s [] x' y' (s'.setOwner i none) :=
  locked_ends h hb (.nil _) ho

/-- Both forms of a guarded operation (R172): when the effect `G` of the body does not depend on the guard's owner and
leaves it, the no-lock form and the locked form end in the same state but for the owner that each began with. -/
theorem guarded_ends {s : State} {nl : Bool} {i : Fin 4} {n : Nat} {body : List UOp} {x V : Word} {ret : Ret}
    {G : State → State} (ha : Admits nl i s) (hr : Ready (n + 3) s)
    (hrun : ∀ o, ∃ ended x' y', RunsIn i n body x 0 (s.setOwner i o) ended x' y' (G (s.setOwner i o)) ∧
      Ended (G s).cfg ended ∧ retValue (G s).cfg ret x' y' = V)
    (hG : ∀ o, G (s.setOwner i o) = (G s).setOwner i o) (hcur : (G s).cur = s.cur)
    (ho : ((G s).getBus i).owner = (s.getBus i).owner) :
    operate s (guardedTask s nl i body x ret) = .next ((G s).finish .ok V) := by
  obtain ⟨ended, x', y', run, he, hv⟩ := hrun (some s.cur)
  rw [hG] at run
  cases nl with
  | true =>
    have hm : (s.getBus i).owner = some s.cur := by simpa [Admits, GuardMine] using ha
    rw [State.setOwner_self hm, State.setOwner_self (ho.trans hm)] at run
    simp only [guardedTask, if_true, guardCheck, if_pos hm, taskOf]
    rw [operate_ends (hr.mono (by omega)) run he.1, hv]
  | false =>
    have hf : GuardFree i s := by simpa [Admits] using ha
    have l := locked_ends hf run he (by simp [GuardMine, State.setOwner, hcur])
    rw [State.setOwner_setOwner, State.setOwner_self (ho.trans hf.free)] at l
    simp only [guardedTask, Bool.false_eq_true, if_false, taskOf]
    rw [operate_runs hr l, hv]

theorem guarded_completes {s : State} {nl : Bool} {i : Fin 4} {n : Nat} {body : List UOp} {x V : Word} {ret : Ret}
    {G : State → State} (ha : Admits nl i s) (hr : Ready (n + 3) s)
    (hrun : ∀ o, ∃ x' y', RunsIn i n body x 0 (s.setOwner i o) [] x' y' (G (s.setOwner i o)) ∧
      retValue (G s).cfg ret x' y' = V)
    (hG : ∀ o, G (s.setOwner i o) = (G s).setOwner i o) (hcur : (G s).cur = s.cur)
    (ho : ((G s).getBus i).owner = (s.getBus i).owner) :
    operate s (guardedTask s nl i body x ret) = .next ((G s).finish .ok V) :=
  guarded_ends ha hr (fun o => by
    obtain ⟨x', y', run, hv⟩ := hrun o
    exact ⟨[], x', y', run, .nil _, hv⟩) hG hcur ho

/-- A transaction does not depend on the owner of the guard, and leaves it (R117). -/
theorem transacted_setOwner (i : Fin 4) (nbits : Nat) (fd : Bool) (o : Option Agent) (s : State) :
    (s.setOwner i o).transacted i nbits fd = (s.transacted i nbits fd).setOwner i o := by
  have hm : ∀ b : Bus, (({ b with owner := o } : Bus).triggered s.cfg nbits fd).txnCfg s.cfg =
      (b.triggered s.cfg nbits fd).txnCfg s.cfg := fun _ => rfl
  unfold State.transacted completeStep
  simp only [State.setOwner, State.updBus_cfg, State.updBus_updBus, State.getBus_updBus_same, hm]
  split
  · simp [State.updBus, State.record, State.getBus, Bus.triggered]
  · simp [State.updBus, State.addWire, State.addDraws, State.getBus, Bus.triggered]

theorem transacted_owner (i : Fin 4) (nbits : Nat) (fd : Bool) (s : State) :
    ((s.transacted i nbits fd).getBus i).owner = (s.getBus i).owner := by
  unfold State.transacted completeStep
  dsimp only
  split <;> simp [Bus.triggered]

theorem transacted_cur (i : Fin 4) (nbits : Nat) (fd : Bool) (s : State) :
    (s.transacted i nbits fd).cur = s.cur := by
  unfold State.transacted completeStep
  dsimp only
  split <;> simp

/-- No transaction moves an agent (R117). -/
theorem transacted_ctx (i : Fin 4) (nbits : Nat) (fd : Bool) (s : State) :
    (s.transacted i nbits fd).ctx? = s.ctx? := by
  unfold State.transacted completeStep
  dsimp only
  split <;> rfl

/-- No transaction touches host memory (R61). -/
@[simp] theorem transacted_hm (i : Fin 4) (nbits : Nat) (fd : Bool) (s : State) :
    (s.transacted i nbits fd).hm = s.hm := by
  unfold State.transacted completeStep
  dsimp only
  split <;> rfl

@[simp] theorem transacted_cfg (i : Fin 4) (nbits : Nat) (fd : Bool) (s : State) :
    (s.transacted i nbits fd).cfg = s.cfg := by simp [State.transacted]

end Sys2Proof.Machine
end

