-- ==== Sys2Proof/Laws/Scalar.lean ====
section
/-! SUPPORT. The scalar operations: loading W[0], one transaction, and the readback (R182 to R188). -/

namespace Sys2Proof.Machine

/-- W[0] of instance i loaded with v. -/
def State.loaded (i : Fin 4) (v : Word) (s : State) : State := s.updBus i fun b => b.store (.w 0) v

theorem loaded_setOwner (i : Fin 4) (v : Word) (o : Option Agent) (s : State) :
    (s.setOwner i o).loaded i v = (s.loaded i v).setOwner i o := by
  simp [State.loaded, State.setOwner, Bus.store]

@[simp] theorem loaded_cfg (i : Fin 4) (v : Word) (s : State) : (s.loaded i v).cfg = s.cfg := rfl
@[simp] theorem loaded_cur (i : Fin 4) (v : Word) (s : State) : (s.loaded i v).cur = s.cur := rfl
@[simp] theorem loaded_owner (i : Fin 4) (v : Word) (s : State) :
    ((s.loaded i v).getBus i).owner = (s.getBus i).owner := by simp [State.loaded, Bus.store]
@[simp] theorem loaded_conf (i : Fin 4) (v : Word) (s : State) :
    ((s.loaded i v).getBus i).conf = (s.getBus i).conf := by simp [State.loaded, Bus.store]

theorem Quiet.loaded {i : Fin 4} {v : Word} {s : State} (h : Quiet i s) : Quiet i (s.loaded i v) := by
  simpa [Quiet, State.loaded, Bus.store] using h

theorem Quiet.setOwner {i : Fin 4} {o : Option Agent} {s : State} (h : Quiet i s) : Quiet i (s.setOwner i o) := by
  simpa [Quiet, State.setOwner] using h

theorem EngineServes.setOwner {i : Fin 4} {o : Option Agent} {s : State} (h : EngineServes i s) :
    EngineServes i (s.setOwner i o) := h.updBus

theorem EngineServes.loaded {i : Fin 4} {v : Word} {s : State} (h : EngineServes i s) :
    EngineServes i (s.loaded i v) := h.updBus

theorem wmask_w (cfg : Cfg) (k : Fin 16) (v : Word) : v &&& wmask cfg (.w k) = v := by simp [wmask]

/-- A loaded value sent in one transaction. -/
theorem load_xfer_runs {i : Fin 4} {nbits : Nat} {fd : Bool} {v x y : Word} {s : State} (hc : cfgOk s.cfg = true)
    (h1 : 1 ≤ nbits) (hn : nbits ≤ 512) (hq : Quiet i s) (he : EngineServes i s) :
    RunsIn i 9 (.wr (.w 0) v :: xferOps s.cfg nbits fd) x y s [] x y ((s.loaded i v).transacted i nbits fd) := by
  have w := RunsIn.one (x := x) (y := y) (rest := xferOps s.cfg nbits fd)
    (perform_wr (r := .w 0) (v := v) (by simp) hq)
  rw [wmask_w] at w
  exact RunsIn.mono (m := 1 + 8) (w.trans (xfer_runs (s := s.loaded i v) hc h1 hn hq.loaded he.loaded)) (by omega)

/-- The value a scalar of n bytes loads (R174): permuted when the write order asks for it. -/
def permuted (cfg : Cfg) (o : BitOrder) (n : Nat) (v : Word) : Word := if swapcond cfg o then swapN v n else v

/-- After a transaction the instance is quiet and its registers read back. -/
theorem quiet_transacted {i : Fin 4} {nbits : Nat} {fd : Bool} {s : State} (hc : cfgOk s.cfg = true) (h1 : 1 ≤ nbits)
    (hn : nbits ≤ 512) : Quiet i (s.transacted i nbits fd) := getBus_transacted_phase hc h1 hn

theorem view_w (b : Bus) (cfg : Cfg) (k : Fin 16) : b.view cfg (.w k) = b.w[k.val]'k.isLt := by
  simp [Bus.view, Bus.stored, wmask]

theorem transacted_ctrl {i : Fin 4} {nbits : Nat} {fd : Bool} {s : State} (hc : cfgOk s.cfg = true) (h1 : 1 ≤ nbits)
    (hn : nbits ≤ 512) : ((s.transacted i nbits fd).getBus i).conf.ctrl = (s.getBus i).conf.ctrl := by
  rw [transacted_eq hc h1 hn]; simp [Bus.triggered]

theorem view_ctrl_orders (b : Bus) (cfg : Cfg) :
    wrOrder (b.view cfg .ctrl) = wrOrder b.conf.ctrl ∧ rdOrder (b.view cfg .ctrl) = rdOrder b.conf.ctrl := by
  simp [Bus.view, Bus.stored, wmask, wrOrder, rdOrder]

/-- The state after a scalar x of n bytes, nbits of it sent (R184, R188). -/
def State.scalarSent (i : Fin 4) (n nbits : Nat) (fd : Bool) (x : Word) (s : State) : State :=
  (s.loaded i (permuted s.cfg (wrOrder (s.getBus i).conf.ctrl) n x)).transacted i nbits fd

theorem scalarSent_setOwner (i : Fin 4) (n nbits : Nat) (fd : Bool) (x : Word) (o : Option Agent) (s : State) :
    (s.setOwner i o).scalarSent i n nbits fd x = (s.scalarSent i n nbits fd x).setOwner i o := by
  have : ((s.setOwner i o).getBus i).conf = (s.getBus i).conf := by simp [State.setOwner]
  simp only [State.scalarSent, this, loaded_setOwner, transacted_setOwner]
  rfl

/-- A scalar permuted, loaded, sent, and read back when full duplex (R184 to R188). -/
theorem scalarOps_runs {i : Fin 4} {n nbits : Nat} {fd : Bool} {x y : Word} {s : State} (hc : cfgOk s.cfg = true)
    (h1 : 1 ≤ nbits) (hn : nbits ≤ 512) (hq : Quiet i s) (he : EngineServes i s) :
    let t := s.scalarSent i n nbits fd x
    RunsIn i 12 (scalarOps s.cfg n nbits fd) x y s [] (if fd then (t.getBus i).w[0] else x)
      (if fd then (t.getBus i).view s.cfg .ctrl else (s.getBus i).view s.cfg .ctrl) t := by
  intro t
  have r := RunsIn.one (x := x) (y := y) (rest := .wrScalar n :: xferOps s.cfg nbits fd)
    (perform_rd_y_quiet (r := .ctrl) hq)
  have hp : perform (.wrScalar n) i x ((s.getBus i).view s.cfg .ctrl) s =
      .done (s.loaded i (permuted s.cfg (wrOrder (s.getBus i).conf.ctrl) n x)) x ((s.getBus i).view s.cfg .ctrl) := by
    simp only [perform, (view_ctrl_orders _ _).1]
    rw [writeReg_store (by simp) hq, wmask_w]
    rfl
  have w := RunsIn.one (rest := xferOps s.cfg nbits fd) hp
  have g := (r.trans (w.trans (xfer_runs (s := s.loaded i _) hc h1 hn hq.loaded he.loaded))).append
    (if fd then [.rd (.w 0) .x, .rd .ctrl .y] else [])
  cases fd with
  | false => exact g.mono (by omega)
  | true =>
    have q : Quiet i t := quiet_transacted hc h1 hn
    have a := RunsIn.one (x := x) (y := (s.getBus i).view s.cfg .ctrl) (rest := [.rd .ctrl .y])
      (perform_rd_x_quiet (r := .w 0) q)
    have b := RunsIn.one (x := (t.getBus i).view t.cfg (.w 0)) (y := (s.getBus i).view s.cfg .ctrl) (rest := [])
      (perform_rd_y_quiet (r := .ctrl) q)
    have e := (g.trans (a.trans b)).mono (n := 12) (by omega)
    rw [view_w, show t.cfg = s.cfg by simp [t, State.scalarSent]] at e
    exact e

/-- Both forms of a scalar operation end in their turn, with the readback's value (R182 to R188). -/
theorem scalar_completes {nl fd : Bool} {i : Fin 4} {n nbits : Nat} {x : Word} {ret : Ret} {s : State}
    (hr : Ready 16 s) (ha : Admits nl i s) (hq : Quiet i s) (he : EngineServes i s) (hc : cfgOk s.cfg = true)
    (h1 : 1 ≤ nbits) (hn : nbits ≤ 512) :
    let t := s.scalarSent i n nbits fd x
    operate s (guardedTask s nl i (scalarOps s.cfg n nbits fd) x ret) = .next (t.finish .ok
      (retValue s.cfg ret (if fd then (t.getBus i).w[0] else x)
        (if fd then (t.getBus i).view s.cfg .ctrl else (s.getBus i).view s.cfg .ctrl))) := by
  intro t
  have ht : t.cfg = s.cfg := by simp [t, State.scalarSent]
  rw [guarded_completes (n := 12) (G := State.scalarSent i n nbits fd x) ha (hr.mono (by omega)) ?_ ?_ ?_ ?_]
  · intro o
    have r := scalarOps_runs (s := s.setOwner i o) (n := n) (fd := fd) (x := x) (y := 0) hc h1 hn
      (hq.setOwner (o := o)) he.setOwner
    have e1 : (((s.setOwner i o).scalarSent i n nbits fd x).getBus i) = { t.getBus i with owner := o } := by
      rw [scalarSent_setOwner]; simp [State.setOwner, t]
    have e2 : ((s.setOwner i o).getBus i) = { s.getBus i with owner := o } := by simp [State.setOwner]
    simp only [e1, e2] at r
    exact ⟨_, _, r, by rw [show (s.scalarSent i n nbits fd x).cfg = s.cfg from ht]; rfl⟩
  · intro o; exact scalarSent_setOwner i n nbits fd x o s
  · simp [State.scalarSent, transacted_cur]
  · simp [State.scalarSent, transacted_owner]

/-- Under loopback with one bit order, a full-duplex transaction of whole bytes brings every sent bit back to its place
in the buffer (R189, R211). -/
theorem transacted_loopback {i : Fin 4} {len : Nat} {s : State} (hc : cfgOk s.cfg = true) (h1 : 1 ≤ len)
    (hn : len ≤ 64) (hl : LoopsBack i s) (b : Nat) (hb : b < 8 * len) :
    bufBit ((s.transacted i (8 * len) true).getBus i).w b = bufBit (s.getBus i).w b := by
  rw [transacted_eq hc (by omega) (by omega)]
  simp only [State.getBus_addDraws, State.getBus_addWire, State.getBus_updBus_same]
  rw [bufAfter, bufBit_bufOfBits _ _ (by omega)]
  have hm := triggered_misoDlen hc (nbits := 8 * len) (by omega) (by omega) (s.getBus i)
  simp only [triggered_doutdin, hl.duplex, triggered_rdOrder, triggered_wrOrder, hm, wirePos_lt_bytes, hb, decide_true,
    Bool.and_self, if_true, rxBit, hl.link, hl.order, wirePos_wirePos]

/-- The same for the bytes of W[0]. -/
theorem transacted_loopback_byte {i : Fin 4} {len : Nat} {s : State} (hc : cfgOk s.cfg = true) (h1 : 1 ≤ len)
    (hn : len ≤ 4) (hl : LoopsBack i s) (k : Nat) (hk : k < len) :
    byteAt ((s.transacted i (8 * len) true).getBus i).w[0] k = byteAt (s.getBus i).w[0] k := by
  apply BitVec.eq_of_getLsbD_eq
  intro j hj
  have := transacted_loopback hc h1 (by omega) hl (32 * 0 + (8 * k + j)) (by omega)
  rw [bufBit_word _ _ _ (by omega) (by omega), bufBit_word _ _ _ (by omega) (by omega)] at this
  simp only [byteAt_getLsbD, hj, decide_true, Bool.true_and]
  exact this

end Sys2Proof.Machine
end

