-- ==== Sys2Proof/Laws/Arrays.lean ====
section
/-! SUPPORT. The word-array operations: loading buffer words from host memory and storing them back (R180, R181). -/

namespace Sys2Proof.Machine

theorem Mapped.mono {hm : List Host.Cell} {a m n : Nat} (h : Mapped hm a n) (hm' : m ≤ n) : Mapped hm a m :=
  fun j hj => h j (by omega)

/-- Four mapped bytes read as a word. -/
theorem memRead4_mapped {hm : List Host.Cell} {a n k : Nat} (h : Mapped hm a n) (hk : k + 4 ≤ n) :
    ∃ v, memRead4 hm (a + k) = some v := by
  have h0 := h k (by omega)
  have h1 := h (k + 1) (by omega)
  have h2 := h (k + 2) (by omega)
  have h3 := h (k + 3) (by omega)
  simp only [Option.isSome_iff_exists] at *
  obtain ⟨b0, h0⟩ := h0
  obtain ⟨b1, h1⟩ := h1
  obtain ⟨b2, h2⟩ := h2
  obtain ⟨b3, h3⟩ := h3
  exact ⟨ofBytes b3 b2 b1 b0, by simp only [memRead4, Nat.add_assoc, h0, h1, h2, h3]⟩

theorem loadWords_succ (c p : Nat) :
    loadWords (c + 1) p = loadWords c p ++ [.memRd4 (p + 4 * c), .wrX (.w (Fin.ofNat 16 c))] := by
  simp [loadWords, List.range_succ]

theorem storeWords_succ (c p : Nat) :
    storeWords (c + 1) p = storeWords c p ++ [.rd (.w (Fin.ofNat 16 c)) .x, .memWr4 (p + 4 * c)] := by
  simp [storeWords, List.range_succ]

theorem loadedFrom_zero (hm : List Host.Cell) (p : Nat) (w : Vector Word 16) : loadedFrom hm p 0 w = w := by
  simp only [loadedFrom, Nat.not_lt_zero, if_false, words16_self]

theorem loadedFrom_succ {hm : List Host.Cell} {p c : Nat} {v : Word} (hc : c < 16)
    (hv : memRead4 hm (p + 4 * c) = some v) (w : Vector Word 16) :
    (loadedFrom hm p c w).set c v hc = loadedFrom hm p (c + 1) w := by
  apply Vector.ext
  intro k hk
  simp only [loadedFrom, words16_getElem, Vector.getElem_set]
  by_cases h : c = k
  · subst h; simp [hv]
  · have e : (k < c + 1) = (k < c) := by apply propext; omega
    simp only [h, if_false, e]

/-- The buffer words loaded from host memory. -/
def State.loadedWords (i : Fin 4) (p c : Nat) (s : State) : State :=
  s.updBus i fun b => { b with w := loadedFrom s.hm p c b.w }

theorem loadedWords_setOwner (i : Fin 4) (p c : Nat) (o : Option Agent) (s : State) :
    (s.setOwner i o).loadedWords i p c = (s.loadedWords i p c).setOwner i o := by
  simp [State.loadedWords, State.setOwner]

theorem Quiet.loadedWords {i : Fin 4} {p c : Nat} {s : State} (h : Quiet i s) : Quiet i (s.loadedWords i p c) := by
  simpa [Quiet, State.loadedWords] using h

theorem wordsChecks_eq {count : BitVec 16} {p : Word} (h1 : 1 ≤ count.toNat) (h16 : count.toNat ≤ 16) (hp : p ≠ 0)
    (ha : p.toNat % 4 = 0) (k : Opening) : wordsChecks count p k = k := by
  have : (decide (count.toNat < 1) || decide (16 < count.toNat)) = false := by
    rw [Bool.or_eq_false_iff]; exact ⟨by simpa using Nat.ne_of_gt h1, by simpa using h16⟩
  simp only [wordsChecks, argCheck, this, Bool.false_eq_true, if_false, alignCheck, ha, ne_eq, not_true_eq_false,
    beq_iff_eq, hp]

/-- Loading c words runs through when their bytes are mapped (R180). -/
theorem loadWords_run {i : Fin 4} {p c : Nat} {x y : Word} {s : State} (hc : c ≤ 16) (hm : Mapped s.hm p (4 * c))
    (hq : Quiet i s) : ∃ x', RunsIn i (2 * c) (loadWords c p) x y s [] x' y (s.loadedWords i p c) := by
  induction c with
  | zero =>
    refine ⟨x, ?_⟩
    have : s.loadedWords i p 0 = s := State.updBus_self (by simp [loadedFrom_zero])
    rw [this]
    exact RunsIn.refl
  | succ c ih =>
    obtain ⟨x', r⟩ := ih (by omega) (hm.mono (by omega))
    obtain ⟨v, hv⟩ := memRead4_mapped hm (k := 4 * c) (by omega)
    refine ⟨v, ?_⟩
    rw [loadWords_succ]
    have a := RunsIn.one (i := i) (x := x') (y := y) (s := s.loadedWords i p c)
      (s' := s.loadedWords i p c) (x' := v) (y' := y) (op := .memRd4 (p + 4 * c))
      (rest := [.wrX (.w (Fin.ofNat 16 c))]) (by simp [perform, State.loadedWords, hv])
    have b := RunsIn.one (i := i) (x := v) (y := y) (s := s.loadedWords i p c) (rest := [])
      (perform_wrX (r := .w (Fin.ofNat 16 c)) (by simp) (by simpa [Quiet, State.loadedWords] using hq))
    rw [wmask_w] at b
    have e : (s.loadedWords i p c).updBus i (fun b => b.store (.w (Fin.ofNat 16 c)) v) = s.loadedWords i p (c + 1) := by
      have hf : (Fin.ofNat 16 c).val = c := Nat.mod_eq_of_lt (by omega)
      simp only [State.loadedWords, State.updBus_updBus, Bus.store, hf]
      apply State.updBus_congr
      rw [loadedFrom_succ (by omega) hv]
    rw [e] at b
    exact ((r.append _).trans (a.trans b)).mono (by omega)

/-- Host memory with the first c buffer words stored at p (R181). -/
def storedTo (hm : List Host.Cell) (p : Nat) (w : Vector Word 16) : Nat → List Host.Cell
  | 0 => hm
  | c + 1 =>
    if h : c < 16 then (memWrite4 (storedTo hm p w c) (p + 4 * c) (w[c]'h)).getD (storedTo hm p w c)
    else storedTo hm p w c

theorem storedTo_addresses (hm : List Host.Cell) (p : Nat) (w : Vector Word 16) (c : Nat) :
    (storedTo hm p w c).map Prod.fst = hm.map Prod.fst := by
  induction c with
  | zero => rfl
  | succ c ih =>
    simp only [storedTo]
    split
    · cases hw : memWrite4 (storedTo hm p w c) (p + 4 * c) (w[c]) with
      | none => exact ih
      | some hm' => exact (memWrite4_addresses hw).trans ih
    · exact ih

theorem Mapped.congr {hm hm' : List Host.Cell} {a n : Nat} (h : Mapped hm a n)
    (e : hm'.map Prod.fst = hm.map Prod.fst) : Mapped hm' a n := by
  intro j hj
  have := h j hj
  rw [memByte_isSome] at this ⊢
  rwa [e]

/-- The word a store writes, when its bytes are mapped. -/
theorem storedTo_succ {hm : List Host.Cell} {p c : Nat} {w : Vector Word 16} (hc : c < 16)
    (hm4 : Mapped hm p (4 * (c + 1))) :
    memWrite4 (storedTo hm p w c) (p + 4 * c) (w[c]'hc) = some (storedTo hm p w (c + 1)) := by
  obtain ⟨u, hu⟩ := memRead4_mapped (hm4.congr (storedTo_addresses hm p w c)) (k := 4 * c) (by omega)
  simp only [storedTo, hc, dite_true, memWrite4, hu, Option.getD_some]

/-- Each stored word lands little-endian at its place and no other byte changes (R62, R181). -/
theorem storedTo_spec {hm : List Host.Cell} {p c : Nat} {w : Vector Word 16} (hc : c ≤ 16) (hm4 : Mapped hm p (4 * c)) :
    (∀ k (hk : k < 16), k < c → ∀ j < 4, memByte (storedTo hm p w c) (p + 4 * k + j) = some (byteAt (w[k]'hk) j)) ∧
      (∀ a, a < p ∨ p + 4 * c ≤ a → memByte (storedTo hm p w c) a = memByte hm a) := by
  induction c with
  | zero => exact ⟨fun k hk h => by omega, fun a _ => rfl⟩
  | succ c ih =>
    obtain ⟨hin, hout⟩ := ih (by omega) (hm4.mono (by omega))
    have hw := storedTo_succ (w := w) (show c < 16 by omega) hm4
    refine ⟨fun k hk hkc j hj => ?_, fun q hq => ?_⟩
    · rw [memByte_memWrite4 hw]
      by_cases h : k = c
      · subst h
        rw [if_pos (by omega), show p + 4 * k + j - (p + 4 * k) = j by omega]
      · rw [if_neg (by omega)]; exact hin k hk (by omega) j hj
    · rw [memByte_memWrite4 hw, if_neg (by omega)]; exact hout q (by omega)

/-- Storing c words runs through when their bytes are mapped (R181). -/
theorem storeWords_run {i : Fin 4} {p c : Nat} {x y : Word} {s : State} (hc : c ≤ 16) (hm : Mapped s.hm p (4 * c))
    (hq : Quiet i s) : ∃ x', RunsIn i (2 * c) (storeWords c p) x y s [] x' y
      (s.setHm (storedTo s.hm p (s.getBus i).w c)) := by
  induction c with
  | zero => exact ⟨x, RunsIn.refl⟩
  | succ c ih =>
    obtain ⟨x', r⟩ := ih (by omega) (hm.mono (by omega))
    have hf : (Fin.ofNat 16 c).val = c := Nat.mod_eq_of_lt (by omega)
    let hm1 := storedTo s.hm p (s.getBus i).w c
    let v := (s.getBus i).w[c]'(by omega)
    have a := RunsIn.one (i := i) (x := x') (y := y) (s := s.setHm hm1)
      (rest := [.memWr4 (p + 4 * c)]) (perform_rd_x_quiet (r := .w (Fin.ofNat 16 c)) hq)
    rw [view_w] at a
    simp only [hf, State.getBus_setHm] at a
    have b := RunsIn.one (i := i) (x := v) (y := y) (s := s.setHm hm1)
      (s' := s.setHm (storedTo s.hm p (s.getBus i).w (c + 1))) (x' := v) (y' := y)
      (op := .memWr4 (p + 4 * c)) (rest := [])
      (by simp only [perform, State.setHm_hm, hm1, v, storedTo_succ (show c < 16 by omega) hm]; rfl)
    refine ⟨v, ?_⟩
    rw [storeWords_succ]
    exact ((r.append _).trans (a.trans b)).mono (by omega)

end Sys2Proof.Machine
end

