-- ==== Sys2Proof/Laws/Chunks.lean ====
section
/-! SUPPORT. The chunking layer: assembling a word byte by byte, loading and storing a chunk, and the loops of
TRANSFER_BYTES and WRITE_PIXELS (R210, R212, R215). -/

namespace Sys2Proof.Machine

/-! ### Bytes of one word -/

theorem byteAt_shift (b : Byte) (j k : Nat) (hk : k < 4) :
    byteAt (b.setWidth 32 <<< (8 * j)) k = if k = j then b else 0 := by
  apply BitVec.eq_of_getLsbD_eq
  intro i hi
  simp only [byteAt_getLsbD, hi, decide_true, Bool.true_and, BitVec.getLsbD_shiftLeft, BitVec.getLsbD_setWidth]
  have h32 : 8 * k + i < 32 := by omega
  by_cases h : k = j
  · subst h
    have e : 8 * k + i - 8 * k = i := by omega
    have e2 : ¬ 8 * k + i < 8 * k := by omega
    have e3 : i < 32 := by omega
    simp only [h32, e, e2, e3, decide_true, decide_false, Bool.not_false, Bool.true_and, if_true]
  · by_cases hlt : k < j
    · have e : 8 * k + i < 8 * j := by omega
      simp [h, e]
    · have e : ¬ 8 * k + i < 8 * j := by omega
      have e2 : 8 ≤ 8 * k + i - 8 * j := by omega
      simp [h, BitVec.getLsbD_of_ge b _ e2]

theorem byteAt_or (v w : Word) (k : Nat) : byteAt (v ||| w) k = byteAt v k ||| byteAt w k := by
  apply BitVec.eq_of_getLsbD_eq
  intro j hj
  simp only [byteAt_getLsbD, BitVec.getLsbD_or, hj, decide_true, Bool.true_and]

theorem byteAt_zero (k : Nat) : byteAt 0 k = 0 := by
  apply BitVec.eq_of_getLsbD_eq
  intro j hj
  simp [byteAt]

/-- Adding a byte above the bytes assembled so far (R210). -/
theorem byteAt_addByte (x : Word) (b : Byte) (j k : Nat) (hk : k < 4) (hx : ∀ l < 4, j ≤ l → 0 < j → byteAt x l = 0) :
    byteAt (addByte x b j) k = if k = j then b else if k < j then byteAt x k else 0 := by
  let x0 : Word := if j = 0 then 0 else x
  have h0 : ∀ l < 4, byteAt x0 l = if l < j then byteAt x l else 0 := by
    intro l hl
    by_cases hj : j = 0
    · simp only [x0, hj, if_true, Nat.not_lt_zero, if_false]; exact byteAt_zero l
    · by_cases hlj : l < j
      · simp [x0, hj, hlj]
      · simp only [x0, hj, if_false, hlj]; exact hx l hl (by omega) (by omega)
  have hand : x0 &&& (b.setWidth 32 <<< (8 * j)) = 0 := by
    apply word_ext_bytes
    intro l hl
    rw [byteAt_and, byteAt_shift _ _ _ hl, h0 l hl, byteAt_zero]
    by_cases h : l = j
    · subst h; simp
    · simp [h]
  have e : addByte x b j = x0 ||| (b.setWidth 32 <<< (8 * j)) := by
    rw [addByte, BitVec.add_eq_or_of_and_eq_zero _ _ hand]
  rw [e, byteAt_or, byteAt_shift _ _ _ hk, h0 k hk]
  by_cases h : k = j
  · subst h; simp
  · by_cases hlt : k < j <;> simp [h, hlt]

theorem validBytes_eq (len w : Nat) : validBytes len w = List.range (min 4 (len - 4 * w)) := by
  have h : validBytes len w = (List.range 4).filter fun j => decide (j < len - 4 * w) := by
    unfold validBytes
    congr 1
    funext j
    congr 1
    apply propext
    omega
  rw [h]
  generalize len - 4 * w = m
  match m with
  | 0 => rfl
  | 1 => rfl
  | 2 => rfl
  | 3 => rfl
  | m + 4 =>
    rw [show min 4 (m + 4) = 4 by omega]
    have : (fun j => decide (j < m + 4)) = fun j => decide (j < m + 4) := rfl
    apply List.filter_eq_self.mpr
    intro j hj
    simp only [List.mem_range] at hj
    exact decide_eq_true (by omega)

/-- A word that holds the first m bytes f and zeros above is the chunk word (R212). -/
theorem bytesWord_of_bytes {f : Nat → Byte} {len w : Nat} {x : Word}
    (h : ∀ k < 4, byteAt x k = if k < min 4 (len - 4 * w) then f (4 * w + k) else 0) : x = bytesWord f len w := by
  apply word_ext_bytes
  intro k hk
  rw [h k hk]
  have e : (k < min 4 (len - 4 * w)) = (4 * w + k < len) := by apply propext; omega
  simp only [e, bytesWord]
  interval_cases k <;> simp

theorem byteAt_bytesWord (f : Nat → Byte) (len w k : Nat) (hk : k < 4) :
    byteAt (bytesWord f len w) k = if 4 * w + k < len then f (4 * w + k) else 0 := by
  simp only [bytesWord]
  interval_cases k <;> simp

/-- The word a null input stands for (R210). -/
theorem onesWord_eq (len w : Nat) (h : 4 * w < len) : onesWord len w = bytesWord (fun _ => 0xFF) len w := by
  apply bytesWord_of_bytes
  unfold onesWord
  rw [validBytes_eq]
  have hm : 1 ≤ min 4 (len - 4 * w) ∧ min 4 (len - 4 * w) ≤ 4 := by omega
  generalize min 4 (len - 4 * w) = m at hm
  intro k hk
  obtain ⟨h1, h4⟩ := hm
  interval_cases m <;> interval_cases k <;> decide

/-! ### Loading a chunk -/

/-- Reading the bytes of one word into x (R210). -/
theorem loadBytes_run {i : Fin 4} {a len w : Nat} {x y : Word} {s : State} (hw : 4 * w < len)
    (hm : Mapped s.hm a len) :
    RunsIn i 4 (loadBytes a len w) x y s [] (bytesWord (memBytes s.hm a) len w) y s := by
  have key : ∀ m, 1 ≤ m → m ≤ min 4 (len - 4 * w) → ∃ x', RunsIn i m
      ((List.range m).map fun j => .memRd1 (a + 4 * w + j) j) x y s [] x' y s ∧
      ∀ k < 4, byteAt x' k = if k < m then memBytes s.hm a (4 * w + k) else 0 := by
    intro m h1
    induction m with
    | zero => omega
    | succ m ih =>
      intro hle
      obtain ⟨b, hb⟩ := Option.isSome_iff_exists.mp (hm (4 * w + m) (by omega))
      have rd : ∀ x1, perform (.memRd1 (a + 4 * w + m) m) i x1 y s = .done s (addByte x1 b m) y := by
        intro x1; simp only [perform, Nat.add_assoc, hb]
      have hb' : memBytes s.hm a (4 * w + m) = b := by simp [memBytes, hb]
      by_cases hm0 : m = 0
      · subst hm0
        refine ⟨addByte x b 0, RunsIn.one (rest := []) (rd x), fun k hk => ?_⟩
        rw [byteAt_addByte _ _ _ _ hk (by omega)]
        by_cases h : k = 0
        · subst h; simpa using hb'.symm
        · simp [h]
      · obtain ⟨x1, r, hx⟩ := ih (by omega) (by omega)
        refine ⟨addByte x1 b m, ?_, fun k hk => ?_⟩
        · rw [List.range_succ, List.map_append]
          exact (r.append _).trans (RunsIn.one (rest := []) (rd x1))
        · rw [byteAt_addByte _ _ _ _ hk (fun l hl hml _ => by rw [hx l hl, if_neg (by omega)])]
          by_cases h : k = m
          · subst h; simp [hb']
          · by_cases hlt : k < m
            · have : k < m + 1 := by omega
              simp [h, hlt, this, hx k hk]
            · have : ¬ k < m + 1 := by omega
              simp [h, hlt, this]
  obtain ⟨x', r, hx⟩ := key (min 4 (len - 4 * w)) (by omega) (le_refl _)
  rw [← bytesWord_of_bytes hx]
  unfold loadBytes
  rw [validBytes_eq]
  exact r.mono (by omega)

/-- The buffer with the words of a chunk loaded, each through g (R210, R215). -/
def chunkBuffer (g : Word → Word) (f : Nat → Byte) (len : Nat) (w : Vector Word 16) : Vector Word 16 :=
  words16 fun k => if k.val < (len + 3) / 4 then g (bytesWord f len k.val) else w[k.val]'k.isLt

/-- The first n words of a chunk loaded. -/
def chunkPart (g : Word → Word) (f : Nat → Byte) (len n : Nat) (w : Vector Word 16) : Vector Word 16 :=
  words16 fun k => if k.val < n then g (bytesWord f len k.val) else w[k.val]'k.isLt

theorem chunkPart_succ (g : Word → Word) (f : Nat → Byte) {len n : Nat} (hn : n < 16) (w : Vector Word 16) :
    (chunkPart g f len n w).set n (g (bytesWord f len n)) hn = chunkPart g f len (n + 1) w := by
  apply Vector.ext
  intro k hk
  simp only [chunkPart, words16_getElem, Vector.getElem_set]
  by_cases h : n = k
  · subst h; simp
  · have e : (k < n + 1) = (k < n) := by apply propext; omega
    simp only [h, if_false, e]

/-- Instance i with the first n words of a chunk loaded. -/
def State.chunkLoaded (i : Fin 4) (g : Word → Word) (f : Nat → Byte) (len n : Nat) (s : State) : State :=
  s.updBus i fun b => { b with w := chunkPart g f len n b.w }

/-- Loading a chunk word by word, when each word's micro-steps store it (R210, R215). -/
theorem chunk_load_run {i : Fin 4} {g : Word → Word} {f : Nat → Byte} {len : Nat} {y : Word} {s : State}
    {load : Nat → List UOp} (hlen : len ≤ 64)
    (hword : ∀ n, 4 * n < len → ∀ x (u : State), u = s.chunkLoaded i g f len n → ∃ x',
      RunsIn i 5 (load n) x y u [] x' y (u.updBus i fun b => b.store (.w (Fin.ofNat 16 n)) (g (bytesWord f len n)))) :
    ∀ n, n ≤ (len + 3) / 4 → ∀ x, ∃ x', RunsIn i (5 * n) ((List.range n).flatMap load) x y s [] x' y
      (s.chunkLoaded i g f len n) := by
  intro n
  induction n with
  | zero =>
    intro _ x
    refine ⟨x, ?_⟩
    have : s.chunkLoaded i g f len 0 = s := State.updBus_self (by
      simp only [chunkPart, Nat.not_lt_zero, if_false, words16_self])
    rw [this]; exact RunsIn.refl
  | succ n ih =>
    intro hn x
    obtain ⟨x1, r⟩ := ih (by omega) x
    obtain ⟨x2, r2⟩ := hword n (by omega) x1 _ rfl
    refine ⟨x2, ?_⟩
    have e : (s.chunkLoaded i g f len n).updBus i (fun b => b.store (.w (Fin.ofNat 16 n)) (g (bytesWord f len n))) =
        s.chunkLoaded i g f len (n + 1) := by
      have hf : (Fin.ofNat 16 n).val = n := Nat.mod_eq_of_lt (by omega)
      simp only [State.chunkLoaded, State.updBus_updBus, Bus.store, hf]
      apply State.updBus_congr
      rw [chunkPart_succ]
    rw [e] at r2
    rw [List.range_succ, List.flatMap_append]
    have := (r.append (load n)).trans r2
    simpa using this.mono (by omega)

theorem Quiet.chunkLoaded {i : Fin 4} {g : Word → Word} {f : Nat → Byte} {len n : Nat} {s : State} (h : Quiet i s) :
    Quiet i (s.chunkLoaded i g f len n) := by simpa [Quiet, State.chunkLoaded] using h

/-! ### Storing a chunk -/

/-- Byte b of the buffer (R63). -/
def bufByte (w : Vector Word 16) (b : Nat) : Byte := if h : b / 4 < 16 then byteAt (w[b / 4]'h) (b % 4) else 0

/-- Host memory with the first n buffer bytes stored from a on (R210). -/
def storedBytes (hm : List Host.Cell) (a : Nat) (w : Vector Word 16) : Nat → List Host.Cell
  | 0 => hm
  | n + 1 => (memWrite1 (storedBytes hm a w n) (a + n) (bufByte w n)).getD (storedBytes hm a w n)

theorem storedBytes_addresses (hm : List Host.Cell) (a : Nat) (w : Vector Word 16) (n : Nat) :
    (storedBytes hm a w n).map Prod.fst = hm.map Prod.fst := by
  induction n with
  | zero => rfl
  | succ n ih =>
    simp only [storedBytes]
    cases hw : memWrite1 (storedBytes hm a w n) (a + n) (bufByte w n) with
    | none => exact ih
    | some hm' => exact (memWrite1_addresses hw).trans ih

theorem storedBytes_succ {hm : List Host.Cell} {a n : Nat} {w : Vector Word 16} (h : Mapped hm a (n + 1)) :
    memWrite1 (storedBytes hm a w n) (a + n) (bufByte w n) = some (storedBytes hm a w (n + 1)) := by
  obtain ⟨b, hb⟩ := Option.isSome_iff_exists.mp ((h.congr (storedBytes_addresses hm a w n)) n (by omega))
  simp only [storedBytes, memWrite1, hb, Option.getD_some]

theorem storedBytes_spec {hm : List Host.Cell} {a n : Nat} {w : Vector Word 16} (h : Mapped hm a n) :
    (∀ b < n, memByte (storedBytes hm a w n) (a + b) = some (bufByte w b)) ∧
      (∀ q, q < a ∨ a + n ≤ q → memByte (storedBytes hm a w n) q = memByte hm q) := by
  induction n with
  | zero => exact ⟨fun b hb => by omega, fun q _ => rfl⟩
  | succ n ih =>
    obtain ⟨hin, hout⟩ := ih (h.mono (by omega))
    have hw := storedBytes_succ (w := w) h
    refine ⟨fun b hb => ?_, fun q hq => ?_⟩
    · rw [memByte_memWrite1 hw]
      by_cases e : b = n
      · subst e; simp
      · rw [if_neg (by omega)]; exact hin b (by omega)
    · rw [memByte_memWrite1 hw, if_neg (by omega)]; exact hout q (by omega)

/-- The copy-out of a chunk (R210): only its valid bytes, in ascending order. -/
def storeChunk (a len n : Nat) : List UOp :=
  (List.range n).flatMap fun w =>
    .rd (.w (Fin.ofNat 16 w)) .x :: (validBytes len w).map fun j => .memWr1 (a + 4 * w + j) j

theorem storeChunk_run {i : Fin 4} {a len : Nat} {y : Word} {s : State} (hlen : len ≤ 64) (hm : Mapped s.hm a len)
    (hq : Quiet i s) : ∀ n, n ≤ (len + 3) / 4 → ∀ x, ∃ x', RunsIn i (5 * n) (storeChunk a len n) x y s [] x' y
      (s.setHm (storedBytes s.hm a (s.getBus i).w (min len (4 * n)))) := by
  intro n
  induction n with
  | zero =>
    intro _ x
    rw [show min len (4 * 0) = 0 by omega]
    exact ⟨x, RunsIn.refl⟩
  | succ n ih =>
    intro hn x
    obtain ⟨x1, r⟩ := ih (by omega) x
    let v := (s.getBus i).w[n]'(by omega)
    have hmin : min len (4 * n) = 4 * n := by omega
    rw [hmin] at r
    have hf : (Fin.ofNat 16 n).val = n := Nat.mod_eq_of_lt (by omega)
    have rd := RunsIn.one (i := i) (x := x1) (y := y) (s := s.setHm (storedBytes s.hm a (s.getBus i).w (4 * n)))
      (rest := (validBytes len n).map fun j => .memWr1 (a + 4 * n + j) j)
      (perform_rd_x_quiet (r := .w (Fin.ofNat 16 n)) hq)
    rw [view_w] at rd
    simp only [hf, State.getBus_setHm] at rd
    have key : ∀ m, m ≤ min 4 (len - 4 * n) → RunsIn i m ((List.range m).map fun j => .memWr1 (a + 4 * n + j) j) v y
        (s.setHm (storedBytes s.hm a (s.getBus i).w (4 * n))) [] v y
        (s.setHm (storedBytes s.hm a (s.getBus i).w (4 * n + m))) := by
      intro m
      induction m with
      | zero => intro _; exact RunsIn.refl
      | succ m ihm =>
        intro hle
        rw [List.range_succ, List.map_append]
        have hb : bufByte (s.getBus i).w (4 * n + m) = byteAt v m := by
          have e1 : (4 * n + m) / 4 = n := by omega
          have e2 : (4 * n + m) % 4 = m := by omega
          have e3 : n < 16 := by omega
          simp only [bufByte, e1, e2, e3, dite_true, v]
        have hw := storedBytes_succ (w := (s.getBus i).w) (hm.mono (m := 4 * n + m + 1) (by omega))
        rw [hb] at hw
        refine ((ihm (by omega)).append _).trans (RunsIn.one (rest := []) ?_)
        simp only [perform, State.setHm_hm, Nat.add_assoc] at hw ⊢
        rw [hw]; rfl
    have st := key (min 4 (len - 4 * n)) (le_refl _)
    rw [← validBytes_eq, show 4 * n + min 4 (len - 4 * n) = min len (4 * (n + 1)) by omega] at st
    refine ⟨v, ?_⟩
    have := (r.append _).trans (rd.trans st)
    unfold storeChunk at this ⊢
    rw [List.range_succ, List.flatMap_append]
    simpa using this.mono (n := 5 * (n + 1)) (by omega)

/-! ### One chunk -/

/-- A chunk of len bytes f loaded, each word through g, and sent. -/
def State.chunkSent (i : Fin 4) (g : Word → Word) (f : Nat → Byte) (fd : Bool) (len : Nat) (s : State) : State :=
  (s.chunkLoaded i g f len ((len + 3) / 4)).transacted i (8 * len) fd

/-- The bytes TRANSFER_BYTES sends for a chunk: 0xFF for a null input (R210). -/
def inputBytes (hm : List Host.Cell) (inp off : Nat) : Nat → Byte :=
  if inp = 0 then fun _ => 0xFF else memBytes hm (inp + off)

/-- The state after one chunk of TRANSFER_BYTES (R210). -/
def State.bytesMoved (i : Fin 4) (inp outp off len : Nat) (s : State) : State :=
  let t := s.chunkSent i id (inputBytes s.hm inp off) true len
  if outp = 0 then t else t.setHm (storedBytes t.hm (outp + off) (t.getBus i).w len)

/-- The state after one chunk of WRITE_PIXELS (R215). -/
def State.pixelsMoved (i : Fin 4) (swap : Bool) (p off len : Nat) (s : State) : State :=
  s.chunkSent i (fun v => if swap then pix v else v) (memBytes s.hm (p + off)) false len

theorem EngineServes.chunkLoaded {i : Fin 4} {g : Word → Word} {f : Nat → Byte} {len n : Nat} {s : State}
    (h : EngineServes i s) : EngineServes i (s.chunkLoaded i g f len n) := h.updBus

theorem transacted_serves {i : Fin 4} {nbits : Nat} {fd : Bool} {s : State} (hc : cfgOk s.cfg = true) (h1 : 1 ≤ nbits)
    (hn : nbits ≤ 512) (h : EngineServes i s) : EngineServes i (s.transacted i nbits fd) := by
  rw [transacted_eq hc h1 hn]
  exact ⟨h.prompt, by simpa using h.runs⟩

/-- One chunk of TRANSFER_BYTES loaded and sent (R210). -/
theorem bytesFront_run {i : Fin 4} {inp off len : Nat} {x y : Word} {s : State} (hc : cfgOk s.cfg = true)
    (h1 : 1 ≤ len) (h64 : len ≤ 64) (hq : Quiet i s) (he : EngineServes i s)
    (hi : inp ≠ 0 → Mapped s.hm (inp + off) len) :
    ∃ x', RunsIn i (5 * ((len + 3) / 4) + 8) (((chunkWords len).flatMap fun w =>
      if inp = 0 then [.wr (.w (Fin.ofNat 16 w)) (onesWord len w)]
      else loadBytes (inp + off) len w ++ [.wrX (.w (Fin.ofNat 16 w))]) ++ xferOps s.cfg (8 * len) true) x y s [] x' y
      (s.chunkSent i id (inputBytes s.hm inp off) true len) := by
  obtain ⟨x1, load⟩ := chunk_load_run (i := i) (g := id) (f := inputBytes s.hm inp off) (len := len) (y := y) (s := s)
    (load := fun w => if inp = 0 then [.wr (.w (Fin.ofNat 16 w)) (onesWord len w)]
      else loadBytes (inp + off) len w ++ [.wrX (.w (Fin.ofNat 16 w))]) h64 (by
    rintro n hn x u rfl
    have hqu : Quiet i (s.chunkLoaded i id (inputBytes s.hm inp off) len n) := hq.chunkLoaded
    by_cases h : inp = 0
    · have w := RunsIn.one (x := x) (y := y) (rest := [])
        (perform_wr (r := .w (Fin.ofNat 16 n)) (v := onesWord len n) (by simp) hqu)
      rw [wmask_w] at w
      refine ⟨x, ?_⟩
      simp only [h, if_true, inputBytes, id, onesWord_eq _ _ hn] at w ⊢
      exact w.mono (by omega)
    · have r := loadBytes_run (i := i) (x := x) (y := y) (s := s.chunkLoaded i id (inputBytes s.hm inp off) len n) hn
        (hi h)
      have w := RunsIn.one (x := bytesWord (memBytes s.hm (inp + off)) len n) (y := y) (rest := [])
        (perform_wrX (r := .w (Fin.ofNat 16 n)) (by simp) hqu)
      rw [wmask_w] at w
      refine ⟨bytesWord (memBytes s.hm (inp + off)) len n, ?_⟩
      simp only [h, if_false, inputBytes, id] at r w ⊢
      exact (r.append _).trans w) _ (le_refl _) x
  have send := xfer_runs (i := i) (x := x1) (y := y) (nbits := 8 * len) (fd := true)
    (s := s.chunkLoaded i id (inputBytes s.hm inp off) len ((len + 3) / 4)) hc (by omega) (by omega) hq.chunkLoaded
    he.chunkLoaded
  exact ⟨x1, (load.append (xferOps s.cfg (8 * len) true)).trans send⟩

theorem bytesChunk_run {i : Fin 4} {inp outp off len : Nat} {x y : Word} {s : State} (hc : cfgOk s.cfg = true)
    (h1 : 1 ≤ len) (h64 : len ≤ 64) (hq : Quiet i s) (he : EngineServes i s)
    (hi : inp ≠ 0 → Mapped s.hm (inp + off) len) (ho : outp ≠ 0 → Mapped s.hm (outp + off) len) :
    ∃ x', RunsIn i (20 * len) (bytesChunk s.cfg inp outp off len) x y s [] x' y
      (s.bytesMoved i inp outp off len) := by
  obtain ⟨x1, front⟩ := bytesFront_run (x := x) (y := y) hc h1 h64 hq he hi
  unfold bytesChunk State.bytesMoved
  by_cases h : outp = 0
  · simp only [h, if_true, List.append_nil]
    exact ⟨x1, front.mono (by omega)⟩
  · have hqt : Quiet i (s.chunkSent i id (inputBytes s.hm inp off) true len) :=
      quiet_transacted hc (by omega) (by omega)
    obtain ⟨x2, st⟩ := storeChunk_run (i := i) (a := outp + off) (y := y) h64
      (s := s.chunkSent i id (inputBytes s.hm inp off) true len)
      (by rw [show (s.chunkSent i id (inputBytes s.hm inp off) true len).hm = s.hm from transacted_hm _ _ _ _]; exact ho h)
      hqt _ (le_refl _) x1
    rw [show min len (4 * ((len + 3) / 4)) = len by omega] at st
    refine ⟨x2, ?_⟩
    simp only [h, if_false]
    exact ((front.append _).trans st).mono (by omega)

theorem pixelsChunk_run {i : Fin 4} {p off len : Nat} {x y : Word} {s : State} (hc : cfgOk s.cfg = true)
    (h1 : 1 ≤ len) (h64 : len ≤ 64) (hq : Quiet i s) (he : EngineServes i s) (hm : Mapped s.hm (p + off) len) :
    ∃ x', RunsIn i (20 * len) (pixelsChunk s.cfg p off len) x y s [] x' y
      (s.pixelsMoved i (swapcond s.cfg (wrOrder y)) p off len) := by
  obtain ⟨x1, load⟩ := chunk_load_run (i := i) (g := fun v => if swapcond s.cfg (wrOrder y) then pix v else v)
    (f := memBytes s.hm (p + off)) (len := len) (y := y) (s := s)
    (load := fun w => loadBytes (p + off) len w ++ [.wrPix (Fin.ofNat 16 w)]) h64 (by
    rintro n hn x u rfl
    have r := loadBytes_run (i := i) (x := x) (y := y) (s := s.chunkLoaded i
      (fun v => if swapcond s.cfg (wrOrder y) then pix v else v) (memBytes s.hm (p + off)) len n) hn hm
    refine ⟨bytesWord (memBytes s.hm (p + off)) len n, (r.append _).trans (RunsIn.one (rest := []) ?_)⟩
    simp only [perform]
    rw [writeReg_store (by simp) hq.chunkLoaded, wmask_w]
    rfl) _ (le_refl _) x
  have send := xfer_runs (i := i) (x := x1) (y := y) (nbits := 8 * len) (fd := false)
    (s := s.chunkLoaded i (fun v => if swapcond s.cfg (wrOrder y) then pix v else v) (memBytes s.hm (p + off)) len
      ((len + 3) / 4)) hc (by omega) (by omega) hq.chunkLoaded he.chunkLoaded
  exact ⟨x1, ((load.append (xferOps s.cfg (8 * len) false)).trans send).mono (by omega)⟩

/-! ### The loops -/

/-- The state after n chunks of a request of size bytes, each doing M at its offset and length (R212). -/
def chunkIter (M : Nat → Nat → State → State) (size : Nat) : Nat → State → State
  | 0, s => s
  | n + 1, s => M (64 * n) (min 64 (size - 64 * n)) (chunkIter M size n s)

/-- The number of chunks (R212). -/
def chunkCount (size : Nat) : Nat := (size + 63) / 64

/-- A loop runs its chunks, each with the invariant P, to its header past the end. -/
theorem chunk_loop {i : Fin 4} {size : Nat} {y : Word} {s : State} {header : Nat → UOp} {chunk : Nat → Nat → List UOp}
    {M : Nat → Nat → State → State} {P : State → Prop} (hP : P s)
    (hset : ∀ m tail, 64 * m < size → settle s.cfg (header (64 * m) :: tail) =
      chunk (64 * m) (min 64 (size - 64 * m)) ++ header (64 * m + min 64 (size - 64 * m)) :: tail)
    (hcfg : ∀ u, P u → u.cfg = s.cfg)
    (hne : ∀ off len, 1 ≤ len → ∃ op rest, chunk off len = op :: rest ∧ ∀ tail, settle s.cfg (op :: tail) = op :: tail)
    (hrun : ∀ off len x u, off + len ≤ size → 1 ≤ len → len ≤ 64 → P u →
      ∃ x', RunsIn i (20 * len) (chunk off len) x y u [] x' y (M off len u) ∧ P (M off len u)) :
    ∀ n, n ≤ chunkCount size → ∀ x, ∃ x', RunsIn i (20 * min (64 * n) size) [header 0] x y s
      [header (min (64 * n) size)] x' y (chunkIter M size n s) ∧ P (chunkIter M size n s) := by
  intro n
  induction n with
  | zero => intro _ x; exact ⟨x, by simpa [chunkIter] using RunsIn.refl, hP⟩
  | succ n ih =>
    intro hn x
    have hlt : 64 * n < size := by unfold chunkCount at hn; omega
    obtain ⟨x1, r, hp⟩ := ih (by omega) x
    have hoff : min (64 * n) size = 64 * n := by omega
    rw [hoff] at r
    obtain ⟨x2, ⟨k, hk, c⟩, hp2⟩ := hrun (64 * n) (min 64 (size - 64 * n)) x1 _ (by omega) (by omega) (by omega) hp
    have e : 64 * n + min 64 (size - 64 * n) = min (64 * (n + 1)) size := by omega
    refine ⟨x2, ?_, hp2⟩
    have c := c.append [header (min (64 * (n + 1)) size)]
    obtain ⟨op, rest, hch, hop⟩ := hne (64 * n) (min 64 (size - 64 * n)) (by omega)
    have hs : settle (chunkIter M size n s).cfg [header (64 * n)] = settle (chunkIter M size n s).cfg
        (chunk (64 * n) (min 64 (size - 64 * n)) ++ [header (min (64 * (n + 1)) size)]) := by
      rw [hcfg _ hp, hset _ _ hlt, e, hch, List.cons_append, hop]
    cases k with
    | zero =>
      have hl := c.zero
      rw [hch] at hl
      exact absurd (congrArg List.length hl) (by simp)
    | succ k =>
      have c2 : RunsIn i (k + 1) [header (64 * n)] x1 y (chunkIter M size n s) [header (min (64 * (n + 1)) size)] x2 y
          (chunkIter M size (n + 1) s) := ⟨k + 1, le_refl _, Runs.of_settle hs c⟩
      exact (r.trans c2).mono (by omega)

theorem chunkLoaded_setOwner (i : Fin 4) (g : Word → Word) (f : Nat → Byte) (len n : Nat) (o : Option Agent)
    (s : State) : (s.setOwner i o).chunkLoaded i g f len n = (s.chunkLoaded i g f len n).setOwner i o := by
  simp [State.chunkLoaded, State.setOwner]

theorem chunkSent_setOwner (i : Fin 4) (g : Word → Word) (f : Nat → Byte) (fd : Bool) (len : Nat) (o : Option Agent)
    (s : State) : (s.setOwner i o).chunkSent i g f fd len = (s.chunkSent i g f fd len).setOwner i o := by
  simp only [State.chunkSent, chunkLoaded_setOwner, transacted_setOwner]

theorem bytesMoved_setOwner (i : Fin 4) (inp outp off len : Nat) (o : Option Agent) (s : State) :
    (s.setOwner i o).bytesMoved i inp outp off len = (s.bytesMoved i inp outp off len).setOwner i o := by
  have h : (s.setOwner i o).hm = s.hm := rfl
  have hw (t : State) : ((t.setOwner i o).getBus i).w = (t.getBus i).w := by simp [State.setOwner]
  have ht (t : State) : (t.setOwner i o).hm = t.hm := rfl
  unfold State.bytesMoved
  simp only [h, chunkSent_setOwner, hw, ht]
  split <;> rfl

theorem pixelsMoved_setOwner (i : Fin 4) (swap : Bool) (p off len : Nat) (o : Option Agent) (s : State) :
    (s.setOwner i o).pixelsMoved i swap p off len = (s.pixelsMoved i swap p off len).setOwner i o := by
  have h : (s.setOwner i o).hm = s.hm := rfl
  simp only [State.pixelsMoved, h, chunkSent_setOwner]

theorem chunkIter_setOwner {i : Fin 4} {M : Nat → Nat → State → State} {o : Option Agent}
    (hM : ∀ off len s, M off len (s.setOwner i o) = (M off len s).setOwner i o) (size n : Nat) (s : State) :
    chunkIter M size n (s.setOwner i o) = (chunkIter M size n s).setOwner i o := by
  induction n with
  | zero => rfl
  | succ n ih => simp only [chunkIter, ih, hM]

theorem chunkIter_keeps {α : Sort*} {M : Nat → Nat → State → State} (v : State → α)
    (hM : ∀ off len s, v (M off len s) = v s) (size n : Nat) (s : State) : v (chunkIter M size n s) = v s := by
  induction n with
  | zero => rfl
  | succ n ih => simp only [chunkIter, hM, ih]

@[simp] theorem chunkSent_cfg (i : Fin 4) (g : Word → Word) (f : Nat → Byte) (fd : Bool) (len : Nat) (s : State) :
    (s.chunkSent i g f fd len).cfg = s.cfg := by simp [State.chunkSent, State.chunkLoaded]

@[simp] theorem chunkSent_cur (i : Fin 4) (g : Word → Word) (f : Nat → Byte) (fd : Bool) (len : Nat) (s : State) :
    (s.chunkSent i g f fd len).cur = s.cur := by simp [State.chunkSent, State.chunkLoaded, transacted_cur]

@[simp] theorem chunkSent_hm (i : Fin 4) (g : Word → Word) (f : Nat → Byte) (fd : Bool) (len : Nat) (s : State) :
    (s.chunkSent i g f fd len).hm = s.hm := by simp [State.chunkSent, State.chunkLoaded]

theorem chunkSent_owner (i : Fin 4) (g : Word → Word) (f : Nat → Byte) (fd : Bool) (len : Nat) (s : State) :
    ((s.chunkSent i g f fd len).getBus i).owner = (s.getBus i).owner := by
  simp [State.chunkSent, State.chunkLoaded, transacted_owner]

@[simp] theorem bytesMoved_cfg (i : Fin 4) (inp outp off len : Nat) (s : State) :
    (s.bytesMoved i inp outp off len).cfg = s.cfg := by unfold State.bytesMoved; dsimp only; split <;> simp

@[simp] theorem bytesMoved_cur (i : Fin 4) (inp outp off len : Nat) (s : State) :
    (s.bytesMoved i inp outp off len).cur = s.cur := by unfold State.bytesMoved; dsimp only; split <;> simp

theorem bytesMoved_owner (i : Fin 4) (inp outp off len : Nat) (s : State) :
    ((s.bytesMoved i inp outp off len).getBus i).owner = (s.getBus i).owner := by
  unfold State.bytesMoved; dsimp only; split <;> simp [chunkSent_owner]

theorem bytesMoved_addresses (i : Fin 4) (inp outp off len : Nat) (s : State) :
    (s.bytesMoved i inp outp off len).hm.map Prod.fst = s.hm.map Prod.fst := by
  unfold State.bytesMoved; dsimp only; split <;> simp [storedBytes_addresses]

/-- What a loop keeps between its chunks. -/
structure ChunkInv (i : Fin 4) (cfg : Cfg) (addrs : List Nat) (u : State) : Prop where
  cfg : u.cfg = cfg
  quiet : Quiet i u
  serves : EngineServes i u
  addrs : u.hm.map Prod.fst = addrs

theorem chunkSent_serves {i : Fin 4} {g : Word → Word} {f : Nat → Byte} {fd : Bool} {len : Nat} {s : State}
    (hc : cfgOk s.cfg = true) (h1 : 1 ≤ len) (h64 : len ≤ 64) (he : EngineServes i s) :
    EngineServes i (s.chunkSent i g f fd len) :=
  transacted_serves hc (by omega) (by omega) he.chunkLoaded

theorem chunkSent_quiet {i : Fin 4} {g : Word → Word} {f : Nat → Byte} {fd : Bool} {len : Nat} {s : State}
    (hc : cfgOk s.cfg = true) (h1 : 1 ≤ len) (h64 : len ≤ 64) : Quiet i (s.chunkSent i g f fd len) :=
  quiet_transacted hc (by omega) (by omega)

theorem Mapped.off {hm hm' : List Host.Cell} {a n off len : Nat} (h : Mapped hm a n) (hl : off + len ≤ n)
    (e : hm'.map Prod.fst = hm.map Prod.fst) : Mapped hm' (a + off) len := by
  intro j hj
  rw [Nat.add_assoc]
  exact h.congr e (off + j) (by omega)

/-- A chunk has a micro-step of its own at the front. -/
theorem bytesChunk_cons (cfg : Cfg) (inp outp off : Nat) {len : Nat} (h1 : 1 ≤ len) : ∃ op rest,
    bytesChunk cfg inp outp off len = op :: rest ∧ ∀ tail, settle cfg (op :: tail) = op :: tail := by
  obtain ⟨k, hk⟩ : ∃ k, (len + 3) / 4 = k + 1 := ⟨(len + 3) / 4 - 1, by omega⟩
  by_cases h : inp = 0
  · simp only [bytesChunk, chunkWords, hk, List.range_succ_eq_map, List.flatMap_cons, h, if_true,
      List.cons_append, List.append_assoc]
    exact ⟨_, _, rfl, fun _ => rfl⟩
  · obtain ⟨m, hm⟩ : ∃ m, min 4 (len - 4 * 0) = m + 1 := ⟨min 4 (len - 4 * 0) - 1, by omega⟩
    simp only [bytesChunk, chunkWords, hk, List.range_succ_eq_map, List.flatMap_cons, h, if_false, loadBytes,
      validBytes_eq, hm, List.map_cons, List.cons_append, List.append_assoc]
    exact ⟨_, _, rfl, fun _ => rfl⟩

theorem pixelsChunk_cons (cfg : Cfg) (p off : Nat) {len : Nat} (h1 : 1 ≤ len) : ∃ op rest,
    pixelsChunk cfg p off len = op :: rest ∧ ∀ tail, settle cfg (op :: tail) = op :: tail := by
  obtain ⟨k, hk⟩ : ∃ k, (len + 3) / 4 = k + 1 := ⟨(len + 3) / 4 - 1, by omega⟩
  obtain ⟨m, hm⟩ : ∃ m, min 4 (len - 4 * 0) = m + 1 := ⟨min 4 (len - 4 * 0) - 1, by omega⟩
  simp only [pixelsChunk, chunkWords, hk, List.range_succ_eq_map, List.flatMap_cons, loadBytes,
    validBytes_eq, hm, List.map_cons, List.cons_append, List.append_assoc]
  exact ⟨_, _, rfl, fun _ => rfl⟩

/-- One chunk of the loop of TRANSFER_BYTES runs and keeps what the loop keeps. -/
theorem bytes_loop_step {i : Fin 4} {inp outp size : Nat} {s : State} (hc : cfgOk s.cfg = true)
    (hi : inp ≠ 0 → Mapped s.hm inp size) (ho : outp ≠ 0 → Mapped s.hm outp size) {off len : Nat} {u : State}
    (hsz : off + len ≤ size) (h1 : 1 ≤ len) (h64 : len ≤ 64) (hu : ChunkInv i s.cfg (s.hm.map Prod.fst) u) (x : Word) :
    ∃ x', RunsIn i (20 * len) (bytesChunk s.cfg inp outp off len) x 0 u [] x' 0 (u.bytesMoved i inp outp off len) ∧
      ChunkInv i s.cfg (s.hm.map Prod.fst) (u.bytesMoved i inp outp off len) := by
  have hcu : cfgOk u.cfg = true := by rw [hu.cfg]; exact hc
  obtain ⟨x', r⟩ := bytesChunk_run (x := x) (y := 0) hcu h1 h64 hu.quiet hu.serves
    (fun h => (hi h).off hsz hu.addrs) (fun h => (ho h).off hsz hu.addrs)
  rw [hu.cfg] at r
  refine ⟨x', r, by rw [bytesMoved_cfg, hu.cfg], ?_, ?_, by rw [bytesMoved_addresses, hu.addrs]⟩
  · unfold State.bytesMoved
    dsimp only
    split
    · exact chunkSent_quiet hcu h1 h64
    · exact chunkSent_quiet (s := u) hcu h1 h64
  · unfold State.bytesMoved
    dsimp only
    split
    · exact chunkSent_serves hcu h1 h64 hu.serves
    · have := chunkSent_serves (g := id) (f := inputBytes u.hm inp off) (fd := true) hcu h1 h64 hu.serves
      exact ⟨this.prompt, this.runs⟩

/-- One chunk of the loop of WRITE_PIXELS runs and keeps what the loop keeps. -/
theorem pixels_loop_step {i : Fin 4} {p size : Nat} {s : State} {y : Word} {swap : Bool} (hc : cfgOk s.cfg = true)
    (hm : Mapped s.hm p size) (hy : swapcond s.cfg (wrOrder y) = swap) {off len : Nat} {u : State}
    (hsz : off + len ≤ size) (h1 : 1 ≤ len) (h64 : len ≤ 64) (hu : ChunkInv i s.cfg (s.hm.map Prod.fst) u) (x : Word) :
    ∃ x', RunsIn i (20 * len) (pixelsChunk s.cfg p off len) x y u [] x' y (u.pixelsMoved i swap p off len) ∧
      ChunkInv i s.cfg (s.hm.map Prod.fst) (u.pixelsMoved i swap p off len) := by
  have hcu : cfgOk u.cfg = true := by rw [hu.cfg]; exact hc
  obtain ⟨x', r⟩ := pixelsChunk_run (x := x) (y := y) hcu h1 h64 hu.quiet hu.serves (hm.off hsz hu.addrs)
  rw [hu.cfg, hy] at r
  exact ⟨x', r, (chunkSent_cfg ..).trans hu.cfg, chunkSent_quiet hcu h1 h64, chunkSent_serves hcu h1 h64 hu.serves,
    by rw [State.pixelsMoved, chunkSent_hm, hu.addrs]⟩

/-- Both forms of TRANSFER_BYTES end in their turn (R210). -/
theorem bytes_completes {nl : Bool} {i : Fin 4} {inp outp size : Nat} {s : State} (hr : Ready (20 * size + 3) s)
    (ha : Admits nl i s) (hq : Quiet i s) (he : EngineServes i s) (hc : cfgOk s.cfg = true)
    (hi : inp ≠ 0 → Mapped s.hm inp size) (ho : outp ≠ 0 → Mapped s.hm outp size) :
    operate s (guardedTask s nl i [.bytes inp outp 0 size] 0 (.const 0)) =
      .next ((chunkIter (fun off len u => u.bytesMoved i inp outp off len) size (chunkCount size) s).finish .ok 0) := by
  rw [guarded_ends (n := 20 * size) (V := 0)
    (G := fun u => chunkIter (fun off len u => u.bytesMoved i inp outp off len) size (chunkCount size) u) ha hr ?_ ?_ ?_ ?_]
  · intro o
    obtain ⟨x', r, hp⟩ := chunk_loop (i := i) (size := size) (y := 0) (s := s.setOwner i o)
      (header := fun off => .bytes inp outp off size) (chunk := bytesChunk s.cfg inp outp)
      (M := fun off len u => u.bytesMoved i inp outp off len) (P := ChunkInv i s.cfg (s.hm.map Prod.fst))
      ⟨rfl, hq.setOwner, he.setOwner, rfl⟩
      (fun off tail h => by simp only [settle, if_pos h]; rfl) (fun u h => h.cfg)
      (fun off len h1 => bytesChunk_cons s.cfg inp outp off h1)
      (fun off len x u hsz h1 h64 hu => bytes_loop_step hc hi ho hsz h1 h64 hu x)
      _ (le_refl _) 0
    have e : min (64 * chunkCount size) size = size := by unfold chunkCount; omega
    rw [e] at r
    exact ⟨_, x', 0, r, ⟨by simp [settle], by simp [settle]⟩, rfl⟩
  · intro o; exact chunkIter_setOwner (fun off len u => bytesMoved_setOwner i inp outp off len o u) _ _ _
  · exact chunkIter_keeps State.cur (fun off len u => bytesMoved_cur i inp outp off len u) _ _ _
  · exact chunkIter_keeps (fun u => (u.getBus i).owner) (fun off len u => bytesMoved_owner i inp outp off len u) _ _ _

/-- Both forms of WRITE_PIXELS end in their turn (R215). -/
theorem pixels_completes {nl : Bool} {i : Fin 4} {p size : Nat} {s : State} (hr : Ready (20 * size + 4) s)
    (ha : Admits nl i s) (hq : Quiet i s) (he : EngineServes i s) (hc : cfgOk s.cfg = true) (hm : Mapped s.hm p size) :
    operate s (guardedTask s nl i [.rd .ctrl .y, .pixels p 0 size] 0 (.const 0)) =
      .next ((chunkIter (fun off len u => u.pixelsMoved i (swapcond s.cfg (wrOrder (s.getBus i).conf.ctrl)) p off len)
        size (chunkCount size) s).finish .ok 0) := by
  let swap := swapcond s.cfg (wrOrder (s.getBus i).conf.ctrl)
  rw [guarded_ends (n := 20 * size + 1) (V := 0)
    (G := fun u => chunkIter (fun off len u => u.pixelsMoved i swap p off len) size (chunkCount size) u) ha hr ?_ ?_ ?_ ?_]
  · intro o
    let y := ((s.setOwner i o).getBus i).view s.cfg .ctrl
    have hy : swapcond s.cfg (wrOrder y) = swap := by
      have e : ((s.setOwner i o).getBus i).conf.ctrl = (s.getBus i).conf.ctrl := by simp [State.setOwner]
      simp only [y, (view_ctrl_orders _ _).1, e, swap]
    have rd := RunsIn.one (x := 0) (y := 0) (rest := [.pixels p 0 size])
      (perform_rd_y_quiet (i := i) (r := .ctrl) (hq.setOwner (o := o)))
    obtain ⟨x', r, hp⟩ := chunk_loop (i := i) (size := size) (y := y) (s := s.setOwner i o)
      (header := fun off => .pixels p off size) (chunk := pixelsChunk s.cfg p)
      (M := fun off len u => u.pixelsMoved i swap p off len) (P := ChunkInv i s.cfg (s.hm.map Prod.fst))
      ⟨rfl, hq.setOwner, he.setOwner, rfl⟩
      (fun off tail h => by simp only [settle, if_pos h]; rfl) (fun u h => h.cfg)
      (fun off len h1 => pixelsChunk_cons s.cfg p off h1)
      (fun off len x u hsz h1 h64 hu => pixels_loop_step hc hm hy hsz h1 h64 hu x)
      _ (le_refl _) 0
    have e : min (64 * chunkCount size) size = size := by unfold chunkCount; omega
    rw [e] at r
    refine ⟨_, x', y, (rd.trans r).mono (by omega), ⟨by simp [settle], by simp [settle]⟩, rfl⟩
  · intro o; exact chunkIter_setOwner (fun off len u => pixelsMoved_setOwner i swap p off len o u) _ _ _
  · exact chunkIter_keeps State.cur (fun off len u => chunkSent_cur ..) _ _ _
  · exact chunkIter_keeps (fun u => (u.getBus i).owner) (fun off len u => chunkSent_owner ..) _ _ _

end Sys2Proof.Machine
end

