-- ==== Sys2Proof/Laws/ChunkLaws.lean ====
section
/-! SUPPORT. What the chunked operations send and store (R210 to R215): the wire event of a chunk, and the laws of R211
carried through the loop. -/

namespace Sys2Proof.Machine

theorem bufBit_byte (w : Vector Word 16) (b : Nat) (hb : b < 512) :
    bufBit w b = (bufByte w (b / 8)).getLsbD (b % 8) := by
  have e1 : b / 8 / 4 < 16 := by omega
  have e2 : b / 32 < 16 := by omega
  simp only [bufBit, e2, dite_true, bufByte, e1, byteAt_getLsbD, Nat.mod_lt b (show 8 > 0 by omega), decide_true,
    Bool.true_and]
  have e3 : b / 8 / 4 = b / 32 := by omega
  have e4 : 8 * (b / 8 % 4) + b % 8 = b % 32 := by omega
  simp only [e3, e4]

theorem bufByte_chunk (g : Word → Word) (f : Nat → Byte) {len j : Nat} (h : j < len) (h64 : len ≤ 64)
    (w : Vector Word 16) :
    bufByte (chunkPart g f len ((len + 3) / 4) w) j = byteAt (g (bytesWord f len (j / 4))) (j % 4) := by
  have e : j / 4 < 16 := by omega
  have e2 : j / 4 < (len + 3) / 4 := by omega
  simp only [bufByte, e, dite_true, chunkPart, words16_getElem, e2, if_true]

/-- The wire event of a chunk, and what the instance keeps (R119, R210). -/
theorem chunkSent_event {i : Fin 4} {g : Word → Word} {f : Nat → Byte} {fd : Bool} {len : Nat} {s : State}
    (hc : cfgOk s.cfg = true) (h1 : 1 ≤ len) (h64 : len ≤ 64) :
    let t := s.chunkSent i g f fd len
    (t.getBus i).conf.ctrl = (s.getBus i).conf.ctrl ∧ (t.getBus i).conf.user = (s.getBus i).conf.user ∧
    t.fin = s.fin ∧
    ∃ e, t.wire = s.wire ++ [e] ∧ e.inst = i ∧ e.fin = s.fin ∧ e.conf.mosiDlen = BitVec.ofNat 32 (8 * len - 1) ∧
      (fd = true → e.conf.misoDlen = BitVec.ofNat 32 (8 * len - 1)) ∧
      CarriesBytes (wrOrder (s.getBus i).conf.ctrl) len
        (fun j => byteAt (g (bytesWord f len (j / 4))) (j % 4)) e.tx ∧
      (s.cfg.link = .loopback → e.rx = e.tx) ∧
      (fd = true → doutdin (s.getBus i).conf.user = true →
        CarriesBytes (rdOrder (s.getBus i).conf.ctrl) len (bufByte (t.getBus i).w) e.rx) := by
  intro t
  have et : t = _ := transacted_eq (i := i) (nbits := 8 * len) (fd := fd)
    (s := s.chunkLoaded i g f len ((len + 3) / 4)) hc (by omega) (by omega)
  have hb : (s.chunkLoaded i g f len ((len + 3) / 4)).getBus i =
      { s.getBus i with w := chunkPart g f len ((len + 3) / 4) (s.getBus i).w } := by simp [State.chunkLoaded]
  have hl := lenWord_masked hc (nbits := 8 * len) (by omega)
  rw [et]
  simp only [hb, triggered_wrOrder]
  have pos (k : Nat) (o : BitOrder) : wirePos k o / 8 = k / 8 := wirePos_div k o
  refine ⟨by simp [Bus.triggered, hb], by simp [Bus.triggered, hb], rfl, _, rfl, rfl, rfl, ?_, ?_, ⟨by simp, fun k hk => ?_⟩, ?_, ?_⟩
  · simp [RegCfg.masked, Bus.triggered, wmask, State.chunkLoaded, hl]
  · intro hfd; simp [RegCfg.masked, Bus.triggered, wmask, State.chunkLoaded, hfd, hl]
  · rw [List.getElem?_map, List.getElem?_range (by omega)]
    simp only [Option.map_some]
    rw [bufBit_byte _ _ (wirePos_lt _ (by omega)), pos, bufByte_chunk g f (by omega) h64]
  · intro hlk; simp [rxBit, State.chunkLoaded, hlk]
  · intro hfd hd
    subst hfd
    refine ⟨by simp, fun k hk => ?_⟩
    rw [List.getElem?_map, List.getElem?_range (by omega)]
    simp only [Option.map_some, State.getBus_addDraws, State.getBus_addWire, State.getBus_updBus_same]
    rw [← pos k (rdOrder (s.getBus i).conf.ctrl), ← bufBit_byte _ _ (wirePos_lt _ (by omega)), bufAfter,
      bufBit_bufOfBits _ _ (wirePos_lt _ (by omega))]
    have hm := triggered_misoDlen hc (nbits := 8 * len) (by omega) (by omega)
      { s.getBus i with w := chunkPart g f len ((len + 3) / 4) (s.getBus i).w }
    simp only [triggered_doutdin, triggered_rdOrder, hd, hm, State.chunkLoaded, State.updBus_cfg, wirePos_wirePos, hk,
      decide_true, Bool.and_self, if_true]

theorem carries_congr {o : BitOrder} {len : Nat} {f g : Nat → Byte} {bits : List Bool} (h : CarriesBytes o len f bits)
    (e : ∀ j < len, f j = g j) : CarriesBytes o len g bits :=
  ⟨h.1, fun k hk => by rw [h.2 k hk, e _ (by omega)]⟩

theorem byteAt_chunk (f : Nat → Byte) {len j : Nat} (h : j < len) : byteAt (bytesWord f len (j/4)) (j%4) = f j := by
  rw [byteAt_bytesWord _ _ _ _ (by omega), show 4 * (j/4) + j%4 = j by omega, if_pos h]

/-- What the first n chunks of TRANSFER_BYTES leave. -/
structure BytesDone (i : Fin 4) (inp outp size : Nat) (s : State) (n : Nat) (u : State) (events : List WireEvent) : Prop where
  wire : u.wire = s.wire ++ events
  count : events.length = n
  ctrl : (u.getBus i).conf.ctrl = (s.getBus i).conf.ctrl
  user : (u.getBus i).conf.user = (s.getBus i).conf.user
  fin : u.fin = s.fin
  addrs : u.hm.map Prod.fst = s.hm.map Prod.fst
  mem : ∀ a, outp = 0 ∨ a < outp ∨ outp + min (64*n) size ≤ a → memByte u.hm a = memByte s.hm a
  event : ∀ c e, events[c]? = some e → 
        let len := min 64 (size - 64 * c)
        e.inst = i ∧ e.fin = s.fin ∧ e.tx.length = 8 * len ∧
        e.conf.mosiDlen.toNat = 8 * len - 1 ∧ e.conf.misoDlen.toNat = 8 * len - 1 ∧
        (inp = 0 → ∀ b ∈ e.tx, b = true) ∧
        (inp ≠ 0 → outp = 0 ∨ inp = outp ∨ inp + size ≤ outp ∨ outp + size ≤ inp →
          CarriesBytes (wrOrder (s.getBus i).conf.ctrl) len (memBytes s.hm (inp + 64 * c)) e.tx) ∧
        (s.cfg.link = .loopback → e.rx = e.tx) ∧
        (outp ≠ 0 → doutdin (s.getBus i).conf.user = true →
          CarriesBytes (rdOrder (s.getBus i).conf.ctrl) len (memBytes u.hm (outp + 64 * c)) e.rx)

theorem bytesDone {i : Fin 4} {inp outp size : Nat} {s : State} (hc : cfgOk s.cfg = true) (ho : outp ≠ 0 → Mapped s.hm outp size) :
   ∀ n, n ≤ chunkCount size → ∃ events, BytesDone i inp outp size s n (chunkIter (fun off len u => u.bytesMoved i inp outp off len) size n s) events := by
  intro n
  induction n with
  | zero => intro _; exact ⟨[], by simp [chunkIter], rfl, rfl, rfl, rfl, rfl, fun _ _ => rfl, fun c e h => by simp at h⟩
  | succ n ih =>
    intro hn
    obtain ⟨events, d⟩ := ih (by omega)
    have hlt : 64 * n < size := by unfold chunkCount at hn; omega
    simp only [chunkIter]
    generalize hu : chunkIter (fun off len u => u.bytesMoved i inp outp off len) size n s = u at *
    have hcu : u.cfg = s.cfg := by rw [← hu]; exact chunkIter_keeps State.cfg (fun off len u => bytesMoved_cfg i inp outp off len u) _ _ _
    generalize hlen : min 64 (size - 64 * n) = len
    have h1 : 1 ≤ len := by omega
    have h64 : len ≤ 64 := by omega
    obtain ⟨kc, ku, kf, e, ew, ei, ef, em, es, et, el, er⟩ := chunkSent_event (i := i) (g := id) (f := inputBytes u.hm inp (64*n)) (fd := true) (s := u) (by rw [hcu]; exact hc) h1 h64
    have hmt : (u.bytesMoved i inp outp (64*n) len).hm = if outp = 0 then u.hm else storedBytes u.hm (outp + 64*n) ((u.chunkSent i id (inputBytes u.hm inp (64*n)) true len).getBus i).w len := by
      unfold State.bytesMoved; dsimp only; split <;> simp
    have hsp := fun h : outp ≠ 0 => storedBytes_spec (w := ((u.chunkSent i id (inputBytes u.hm inp (64*n)) true len).getBus i).w) ((ho h).off (off := 64*n) (len := len) (by omega) d.addrs)
    have hconf : ((u.bytesMoved i inp outp (64*n) len).getBus i) = ((u.chunkSent i id (inputBytes u.hm inp (64*n)) true len).getBus i) := by
      unfold State.bytesMoved; dsimp only; split <;> rfl
    have hout : ∀ a, outp = 0 ∨ a < outp + 64 * n ∨ outp + 64*n + len ≤ a → memByte (u.bytesMoved i inp outp (64*n) len).hm a = memByte u.hm a := by
      intro a ha
      rw [hmt]
      split
      · rfl
      · rename_i h0; exact (hsp h0).2 a (by omega)
    refine ⟨events ++ [e], ?_, by simp [d.count], ?_, ?_, ?_, ?_, ?_, ?_⟩
    · rw [show (u.bytesMoved i inp outp (64*n) len).wire = (u.chunkSent i id (inputBytes u.hm inp (64*n)) true len).wire by unfold State.bytesMoved; dsimp only; split <;> rfl, ew, d.wire, List.append_assoc]
    · rw [hconf, kc, d.ctrl]
    · rw [hconf, ku, d.user]
    · rw [show (u.bytesMoved i inp outp (64*n) len).fin = (u.chunkSent i id (inputBytes u.hm inp (64*n)) true len).fin by unfold State.bytesMoved; dsimp only; split <;> rfl, kf, d.fin]
    · rw [bytesMoved_addresses, d.addrs]
    · intro a ha
      rw [hout a (by omega), d.mem a (by omega)]
    · intro c e' hce
      rw [List.getElem?_append] at hce
      split at hce
      · rename_i hcn
        obtain ⟨a1,a2,a3,a4,a5,a6,a7,a8,a9⟩ := d.event c e' hce
        rw [d.count] at hcn
        refine ⟨a1,a2,a3,a4,a5,a6,a7,a8,fun h0 hd => carries_congr (a9 h0 hd) fun j hj => ?_⟩
        simp only [memBytes]
        rw [hout _ (by omega)]
      · rename_i hcn
        rw [d.count] at hcn hce
        obtain ⟨rfl, rfl⟩ : c = n ∧ e' = e := by
          have : c - n = 0 := by
            by_contra h
            rw [List.getElem?_eq_none (by simp; omega)] at hce
            simp at hce
          refine ⟨by omega, ?_⟩
          rw [this] at hce
          simpa using hce.symm
        simp only [hlen, d.ctrl, d.user] at et er es ⊢
        have et : CarriesBytes (wrOrder (s.getBus i).conf.ctrl) len (inputBytes u.hm inp (64*c)) e'.tx := carries_congr et fun j hj => byteAt_chunk _ hj
        have hl2 : (BitVec.ofNat 32 (8*len-1)).toNat = 8 * len - 1 := by rw [BitVec.toNat_ofNat, Nat.mod_eq_of_lt (by omega)]
        refine ⟨ei, by rw [ef, d.fin], et.1, by rw [em, hl2], by rw [es trivial, hl2], fun h0 b hb => ?_, fun h0 hap => ?_, fun hlk => el (by rw [hcu, hlk]), fun h0 hd => ?_⟩
        · obtain ⟨k, hk, hb⟩ := List.mem_iff_getElem.mp hb
          have := et.2 k (by rw [et.1] at hk; exact hk)
          rw [List.getElem?_eq_getElem hk, hb] at this
          rw [Option.some.inj this]
          have h8 : wirePos k (wrOrder (s.getBus i).conf.ctrl) % 8 < 8 := by omega
          simp only [inputBytes, h0, if_true]
          generalize wirePos k (wrOrder (s.getBus i).conf.ctrl) % 8 = q at h8
          interval_cases q <;> rfl
        · refine carries_congr et fun j hj => ?_
          simp only [inputBytes, h0, if_false, memBytes]
          rw [d.mem _ (by omega)]
        · refine carries_congr (er trivial hd) fun j hj => ?_
          simp only [memBytes, hmt, h0, if_false]
          rw [(hsp h0).1 j hj]; rfl

/-! ### What a loop leaves of its instance and of the rest (R210, R215) -/

/-- One chunk: the instance as a transaction leaves it, and nothing else of the machine but the log and host memory. -/
theorem chunkSent_leaves {i : Fin 4} {g : Word → Word} {f : Nat → Byte} {fd : Bool} {len : Nat} {s : State}
    (hc : cfgOk s.cfg = true) (h1 : 1 ≤ len) (h64 : len ≤ 64) :
    let t := s.chunkSent i g f fd len
    (∃ w, t.getBus i = { (s.getBus i).triggered s.cfg (8 * len) fd with w := w, phase := .idle }) ∧
    (∀ j, j ≠ i → t.getBus j = s.getBus j) ∧
    t.fin = s.fin ∧ t.callers = s.callers ∧ t.notifier = s.notifier ∧ t.faults = s.faults := by
  intro t
  have et : t = _ := transacted_eq (i := i) (nbits := 8 * len) (fd := fd)
    (s := s.chunkLoaded i g f len ((len + 3) / 4)) hc (by omega) (by omega)
  rw [et]
  refine ⟨⟨_, by simp [State.chunkLoaded, Bus.triggered]; rfl⟩, fun j hj => by simp [State.chunkLoaded, hj], rfl, rfl,
    rfl, rfl⟩

/-- A chunk sent where a chunk was sent before: the lengths are the later one's. -/
theorem triggered_triggered (cfg : Cfg) (m n : Nat) (fd : Bool) (b : Bus) (w v : Vector Word 16) :
    ({ ({ b.triggered cfg m fd with w := w, phase := .idle } : Bus).triggered cfg n fd with w := v, phase := .idle } : Bus) =
      { b.triggered cfg n fd with w := v, phase := .idle } := by
  cases fd <;> cases h : cfg.woMiso <;> cases hc : cfg.hasCommit <;> simp [Bus.triggered, h, hc]

/-- The chunks of a loop, each of which sends (by `chunkSent_leaves`), leave what `ChunksLeave` says. -/
theorem chunkIter_leaves {i : Fin 4} {fd : Bool} {size : Nat} {s : State} {M : Nat → Nat → State → State}
    (hcfg : ∀ off len u, (M off len u).cfg = u.cfg)
    (hM : ∀ off len u, u.cfg = s.cfg → 1 ≤ len → len ≤ 64 →
      (∃ w, (M off len u).getBus i = { (u.getBus i).triggered u.cfg (8 * len) fd with w := w, phase := .idle }) ∧
      (∀ j, j ≠ i → (M off len u).getBus j = u.getBus j) ∧ (M off len u).fin = u.fin ∧
      (M off len u).callers = u.callers ∧ (M off len u).notifier = u.notifier ∧ (M off len u).faults = u.faults) :
    ChunksLeave i size fd s (chunkIter M size (chunkCount size) s) := by
  have key : ∀ n, n ≤ chunkCount size →
      (n = 0 → chunkIter M size n s = s) ∧
      (n ≠ 0 → ∃ w, (chunkIter M size n s).getBus i =
        { (s.getBus i).triggered s.cfg (8 * min 64 (size - 64 * (n - 1))) fd with w := w, phase := .idle }) ∧
      (∀ j, j ≠ i → (chunkIter M size n s).getBus j = s.getBus j) ∧ (chunkIter M size n s).cfg = s.cfg ∧
      (chunkIter M size n s).fin = s.fin ∧ (chunkIter M size n s).callers = s.callers ∧
      (chunkIter M size n s).notifier = s.notifier ∧ (chunkIter M size n s).faults = s.faults := by
    intro n
    induction n with
    | zero => intro _; exact ⟨fun _ => rfl, fun h => absurd rfl h, fun _ _ => rfl, rfl, rfl, rfl, rfl, rfl⟩
    | succ n ih =>
      intro hn
      obtain ⟨z, b, o, c, f, k, no, fa⟩ := ih (by omega)
      have hlt : 64 * n < size := by unfold chunkCount at hn; omega
      simp only [chunkIter]
      obtain ⟨⟨w, hw⟩, mo, mf, mk, mn, ma⟩ := hM (64 * n) (min 64 (size - 64 * n)) (chunkIter M size n s) c (by omega)
        (by omega)
      refine ⟨fun h => by omega, fun _ => ⟨w, ?_⟩, fun j hj => by rw [mo j hj, o j hj], by rw [hcfg, c], by rw [mf, f],
        by rw [mk, k], by rw [mn, no], by rw [ma, fa]⟩
      rw [hw, c, Nat.add_sub_cancel]
      by_cases h0 : n = 0
      · rw [z h0, h0]
      · obtain ⟨v, hv⟩ := b h0
        rw [hv, triggered_triggered]
  obtain ⟨z, b, o, c, f, k, no, fa⟩ := key _ (le_refl _)
  refine ⟨fun h => by rw [z (by subst h; rfl)], fun h => ?_, o, c, f, k, no, fa⟩
  obtain ⟨w, hw⟩ := b (by unfold chunkCount; omega)
  refine ⟨w, ?_⟩
  rw [hw, show chunkCount size - 1 = (size - 1) / 64 by unfold chunkCount; omega,
    show min 64 (size - 64 * ((size - 1) / 64)) = size - 64 * ((size - 1) / 64) by omega]

/-- What TRANSFER_BYTES leaves (R210). -/
theorem bytes_leave {i : Fin 4} {inp outp size : Nat} {s : State} (hc : cfgOk s.cfg = true) :
    ChunksLeave i size true s
      (chunkIter (fun off len u => u.bytesMoved i inp outp off len) size (chunkCount size) s) := by
  refine chunkIter_leaves (fun _ _ _ => bytesMoved_cfg ..) fun off len u hu h1 h64 => ?_
  have h := chunkSent_leaves (i := i) (g := id) (f := inputBytes u.hm inp off) (fd := true) (s := u)
    (by rw [hu]; exact hc) h1 h64
  unfold State.bytesMoved
  dsimp only
  split <;> exact h

/-- What WRITE_PIXELS leaves (R215). -/
theorem pixels_leave {i : Fin 4} {p size : Nat} {swap : Bool} {s : State} (hc : cfgOk s.cfg = true) :
    ChunksLeave i size false s
      (chunkIter (fun off len u => u.pixelsMoved i swap p off len) size (chunkCount size) s) :=
  chunkIter_leaves (fun _ _ _ => chunkSent_cfg ..) fun off len u hu h1 h64 =>
    chunkSent_leaves (by rw [hu]; exact hc) h1 h64

/-! ### What WRITE_PIXELS sends (R215) -/

/-- Byte j of a pixel chunk as it goes out: swapped inside its half when the values are permuted, padding 0 (R173, R215). -/
def pixelByte (swap : Bool) (len : Nat) (f : Nat → Byte) (j : Nat) : Byte :=
  let b := if swap then (if j % 2 = 0 then j + 1 else j - 1) else j
  if b < len then f b else 0

theorem byteAt_pixels (swap : Bool) (f : Nat → Byte) {len j : Nat} (hj : j < len) :
    byteAt (if swap then pix (bytesWord f len (j / 4)) else bytesWord f len (j / 4)) (j % 4) = pixelByte swap len f j := by
  cases swap with
  | false => simp only [Bool.false_eq_true, if_false, pixelByte, if_pos hj, byteAt_chunk f hj]
  | true =>
    simp only [if_true, pixelByte, pix]
    rcases (show j % 4 = 0 ∨ j % 4 = 1 ∨ j % 4 = 2 ∨ j % 4 = 3 by omega) with h | h | h | h <;> rw [h]
    · rw [byteAt_ofBytes_0, byteAt_bytesWord _ _ _ _ (by omega), if_pos (show j % 2 = 0 by omega),
        show 4 * (j / 4) + 1 = j + 1 by omega]
    · rw [byteAt_ofBytes_1, byteAt_bytesWord _ _ _ _ (by omega), if_neg (show ¬ j % 2 = 0 by omega),
        show 4 * (j / 4) + 0 = j - 1 by omega]
    · rw [byteAt_ofBytes_2, byteAt_bytesWord _ _ _ _ (by omega), if_pos (show j % 2 = 0 by omega),
        show 4 * (j / 4) + 3 = j + 1 by omega]
    · rw [byteAt_ofBytes_3, byteAt_bytesWord _ _ _ _ (by omega), if_neg (show ¬ j % 2 = 0 by omega),
        show 4 * (j / 4) + 2 = j - 1 by omega]

/-- What the first n chunks of WRITE_PIXELS leave. -/
structure PixelsDone (i : Fin 4) (swap : Bool) (p size : Nat) (s : State) (n : Nat) (u : State)
    (events : List WireEvent) : Prop where
  wire : u.wire = s.wire ++ events
  count : events.length = n
  ctrl : (u.getBus i).conf.ctrl = (s.getBus i).conf.ctrl
  miso : s.cfg.woMiso = .omit → (u.getBus i).conf.misoDlen = (s.getBus i).conf.misoDlen
  fin : u.fin = s.fin
  hm : u.hm = s.hm
  event : ∀ c e, events[c]? = some e →
    let len := min 64 (size - 64 * c)
    e.inst = i ∧ e.fin = s.fin ∧ e.conf.mosiDlen.toNat = 8 * len - 1 ∧
    e.conf.misoDlen = (if s.cfg.woMiso = .zero then 0 else (s.getBus i).conf.misoDlen &&& wmask s.cfg .misoDlen) ∧
    CarriesBytes (wrOrder (s.getBus i).conf.ctrl) len (pixelByte swap len (memBytes s.hm (p + 64 * c))) e.tx ∧
    (s.cfg.link = .loopback → e.rx = e.tx)

theorem pixelsDone {i : Fin 4} {swap : Bool} {p size : Nat} {s : State} (hc : cfgOk s.cfg = true) :
    ∀ n, n ≤ chunkCount size → ∃ events, PixelsDone i swap p size s n
      (chunkIter (fun off len u => u.pixelsMoved i swap p off len) size n s) events := by
  intro n
  induction n with
  | zero => intro _; exact ⟨[], by simp [chunkIter], rfl, rfl, fun _ => rfl, rfl, rfl, fun c e h => by simp at h⟩
  | succ n ih =>
    intro hn
    obtain ⟨events, d⟩ := ih (by omega)
    have hlt : 64 * n < size := by unfold chunkCount at hn; omega
    simp only [chunkIter]
    generalize hu : chunkIter (fun off len u => u.pixelsMoved i swap p off len) size n s = u at *
    have hcu : u.cfg = s.cfg := by
      rw [← hu]; exact chunkIter_keeps State.cfg (fun off len u => chunkSent_cfg ..) _ _ _
    generalize hlen : min 64 (size - 64 * n) = len
    have h1 : 1 ≤ len := by omega
    have h64 : len ≤ 64 := by omega
    obtain ⟨kc, ku, kf, e, ew, ei, ef, em, -, et, el, -⟩ := chunkSent_event (i := i)
      (g := fun v => if swap then pix v else v) (f := memBytes u.hm (p + 64 * n)) (fd := false) (s := u)
      (by rw [hcu]; exact hc) h1 h64
    obtain ⟨⟨w, hw⟩, -⟩ := chunkSent_leaves (i := i) (g := fun v => if swap then pix v else v)
      (f := memBytes u.hm (p + 64 * n)) (fd := false) (s := u) (by rw [hcu]; exact hc) h1 h64
    have eo : e.conf.misoDlen = (if u.cfg.woMiso = .zero then 0
        else (u.getBus i).conf.misoDlen &&& wmask u.cfg .misoDlen) := by
      have et := transacted_eq (i := i) (nbits := 8 * len) (fd := false)
        (s := u.chunkLoaded i (fun v => if swap then pix v else v) (memBytes u.hm (p + 64 * n)) len ((len + 3) / 4))
        (by simpa [State.chunkLoaded, hcu] using hc) (by omega) (by omega)
      have ew' : (u.chunkSent i (fun v => if swap then pix v else v) (memBytes u.hm (p + 64 * n)) false len).wire = _ :=
        congrArg State.wire et
      rw [ew] at ew'
      simp only [State.addDraws_wire, State.addWire_wire, State.chunkLoaded, State.updBus_wire, List.append_cancel_left_eq,
        List.cons.injEq, and_true] at ew'
      rw [ew']
      cases h : u.cfg.woMiso <;> simp [RegCfg.masked, Bus.triggered, h]
    refine ⟨events ++ [e], ?_, by simp [d.count], ?_, fun hom => ?_, ?_, ?_, fun c e' hce => ?_⟩
    · rw [State.pixelsMoved, ew, d.wire, List.append_assoc]
    · rw [State.pixelsMoved, kc, d.ctrl]
    · rw [State.pixelsMoved, hw, ← d.miso hom]
      simp [Bus.triggered, hcu, hom]
    · rw [State.pixelsMoved, kf, d.fin]
    · rw [State.pixelsMoved, chunkSent_hm, d.hm]
    · rw [List.getElem?_append] at hce
      split at hce
      · exact d.event c e' hce
      · rename_i hcn
        rw [d.count] at hcn hce
        obtain ⟨rfl, rfl⟩ : c = n ∧ e' = e := by
          have : c - n = 0 := by
            by_contra h
            rw [List.getElem?_eq_none (by simp; omega)] at hce
            simp at hce
          refine ⟨by omega, ?_⟩
          rw [this] at hce
          simpa using hce.symm
        simp only [hlen, d.ctrl, hcu] at et eo ⊢
        have hl2 : (BitVec.ofNat 32 (8 * len - 1)).toNat = 8 * len - 1 := by
          rw [BitVec.toNat_ofNat, Nat.mod_eq_of_lt (by omega)]
        refine ⟨ei, by rw [ef, d.fin], by rw [em, hl2], ?_, carries_congr et fun j hj => ?_,
          fun hl => el (by rw [hcu, hl])⟩
        · rw [eo]
          by_cases hz : s.cfg.woMiso = .zero
          · rw [if_pos hz, if_pos hz]
          · have hom : s.cfg.woMiso = .omit := by revert hz; cases s.cfg.woMiso <;> simp
            rw [if_neg hz, if_neg hz, d.miso hom]
        · rw [d.hm]
          exact byteAt_pixels swap _ hj

end Sys2Proof.Machine
end

