-- ==== Sys2Proof/Laws/Decode.lean ====
section
/-! SUPPORT. The header word and its fields (R80): packing and unpacking are inverse, and matching a header word under a
mask is matching its fields. -/

namespace Sys2Proof

theorem Header.ext' {h k : Header} (h1 : h.opc = k.opc) (h2 : h.inst = k.inst) (h3 : h.nl = k.nl)
    (h4 : h.nullh = k.nullh) (h5 : h.rsv = k.rsv) (h6 : h.imm = k.imm) : h = k := by
  cases h; cases k; simp_all

theorem packed_fields (a : BitVec 16) (b : BitVec 4) (c d : BitVec 1) (e : BitVec 2) (f : BitVec 8) :
    let v : BitVec 32 := a ++ b ++ c ++ d ++ e ++ f
    v.extractLsb' 0 8 = f ∧ v.extractLsb' 8 2 = e ∧ v.extractLsb' 10 1 = d ∧ v.extractLsb' 11 1 = c ∧
      v.extractLsb' 12 4 = b ∧ v.extractLsb' 16 16 = a := by
  refine ⟨?_, ?_, ?_, ?_, ?_, ?_⟩ <;>
  · apply BitVec.eq_of_getLsbD_eq
    intro j hj
    simp only [BitVec.getLsbD_extractLsb', BitVec.getLsbD_append, hj, decide_true, Bool.true_and]
    interval_cases j <;> simp

theorem fields_packed (v : BitVec 32) :
    (v.extractLsb' 16 16 ++ v.extractLsb' 12 4 ++ v.extractLsb' 11 1 ++ v.extractLsb' 10 1 ++ v.extractLsb' 8 2 ++
      v.extractLsb' 0 8 : BitVec 32) = v := by
  apply BitVec.eq_of_getLsbD_eq
  intro j hj
  simp only [BitVec.getLsbD_extractLsb', BitVec.getLsbD_append]
  interval_cases j <;> simp

theorem ofBool_getLsbD (v : Word) (k : Nat) : BitVec.ofBool (v.getLsbD k) = v.extractLsb' k 1 := by
  apply BitVec.eq_of_getLsbD_eq
  intro j hj
  obtain rfl : j = 0 := by omega
  simp

theorem getLsbD_of_extract {v : Word} {k : Nat} {b : Bool} (h : v.extractLsb' k 1 = BitVec.ofBool b) :
    v.getLsbD k = b := by
  have := congrArg (fun u : BitVec 1 => u.getLsbD 0) h
  simpa using this

/-- Unpacking a packed header gives it back (R80). -/
@[simp] theorem Header.unpack_pack (h : Header) : Header.unpack h.pack = h := by
  obtain ⟨e0, e8, e10, e11, e12, e16⟩ := packed_fields h.imm h.rsv (BitVec.ofBool h.nullh) (BitVec.ofBool h.nl)
    (BitVec.ofNat 2 h.inst.val) h.opc
  apply Header.ext'
  · exact e0
  · show (h.pack.extractLsb' 8 2).toFin = h.inst
    rw [show h.pack.extractLsb' 8 2 = BitVec.ofNat 2 h.inst.val from e8]
    ext
    exact Nat.mod_eq_of_lt h.inst.isLt
  · exact getLsbD_of_extract e10
  · exact getLsbD_of_extract e11
  · exact e12
  · exact e16

/-- Packing the fields of a header word gives it back (R80). -/
@[simp] theorem Header.pack_unpack (v : Word) : (Header.unpack v).pack = v := by
  have := fields_packed v
  simp only [Header.pack, Header.unpack, ofBool_getLsbD]
  rw [show BitVec.ofNat 2 (BitVec.toFin (v.extractLsb' 8 2)).val = v.extractLsb' 8 2 from by
    apply BitVec.eq_of_toNat_eq
    exact Nat.mod_eq_of_lt (v.extractLsb' 8 2).isLt]
  exact this

theorem word_eq_iff_fields (v w : Word) : v = w ↔
    v.extractLsb' 0 8 = w.extractLsb' 0 8 ∧ v.extractLsb' 8 2 = w.extractLsb' 8 2 ∧
    v.extractLsb' 10 1 = w.extractLsb' 10 1 ∧ v.extractLsb' 11 1 = w.extractLsb' 11 1 ∧
    v.extractLsb' 12 4 = w.extractLsb' 12 4 ∧ v.extractLsb' 16 16 = w.extractLsb' 16 16 := by
  constructor
  · rintro rfl; simp
  · rintro ⟨h0, h8, h10, h11, h12, h16⟩
    rw [← fields_packed v, ← fields_packed w, h0, h8, h10, h11, h12, h16]

/-- Matching a header word under a mask is matching each field under its part of the mask (R84). -/
theorem match_iff_fields (v m w : Word) : v &&& m = w ↔
    v.extractLsb' 0 8 &&& m.extractLsb' 0 8 = w.extractLsb' 0 8 ∧
    v.extractLsb' 8 2 &&& m.extractLsb' 8 2 = w.extractLsb' 8 2 ∧
    v.extractLsb' 10 1 &&& m.extractLsb' 10 1 = w.extractLsb' 10 1 ∧
    v.extractLsb' 11 1 &&& m.extractLsb' 11 1 = w.extractLsb' 11 1 ∧
    v.extractLsb' 12 4 &&& m.extractLsb' 12 4 = w.extractLsb' 12 4 ∧
    v.extractLsb' 16 16 &&& m.extractLsb' 16 16 = w.extractLsb' 16 16 := by
  have h (a n : Nat) : (v &&& m).extractLsb' a n = v.extractLsb' a n &&& m.extractLsb' a n := by
    apply BitVec.eq_of_getLsbD_eq
    intro j hj
    simp only [BitVec.getLsbD_extractLsb', BitVec.getLsbD_and, hj, decide_true, Bool.true_and]
  rw [word_eq_iff_fields]
  simp only [h]

/-! ### Packed immediates (R82) -/

theorem immMode_packImm (o : BitOrder) (m : Fin 4) (l : BitVec 8) : immMode (packImm o m l) = m := by
  have : (packImm o m l).extractLsb' 8 2 = BitVec.ofNat 2 m.val := by
    apply BitVec.eq_of_getLsbD_eq
    intro j hj
    simp only [packImm, BitVec.getLsbD_extractLsb', BitVec.getLsbD_append, hj, decide_true, Bool.true_and]
    interval_cases j <;> simp
  rw [immMode, this]
  ext
  exact Nat.mod_eq_of_lt m.isLt

theorem immIdx_packImm (o : BitOrder) (m : Fin 4) (l : BitVec 8) : immIdx (packImm o m l) = l := by
  apply BitVec.eq_of_getLsbD_eq
  intro j hj
  simp only [immIdx, packImm, BitVec.getLsbD_extractLsb', BitVec.getLsbD_append, hj, decide_true, Bool.true_and]
  interval_cases j <;> simp

theorem immOrder_packImm (o : BitOrder) (m : Fin 4) (l : BitVec 8) : immOrder (packImm o m l) = o := by
  have : (packImm o m l).getLsbD 10 = (o == .lsbFirst) := by
    simp only [packImm, BitVec.getLsbD_append]
    simp
  rw [immOrder, this]
  cases o <;> rfl

/-- An immediate whose reserved bits [15:11] are 0 is packed from its fields. -/
theorem packImm_fields (v : BitVec 16) (h : v &&& 0xF800 = 0) : packImm (immOrder v) (immMode v) (immIdx v) = v := by
  have hb (j : Nat) (hj : 11 ≤ j) (hj2 : j < 16) : v.getLsbD j = false := by
    have := congrArg (fun u : BitVec 16 => u.getLsbD j) h
    simp only [BitVec.getLsbD_and] at this
    interval_cases j <;> simpa using this
  have ho : BitVec.ofBool (immOrder v == .lsbFirst) = v.extractLsb' 10 1 := by
    have : (immOrder v == .lsbFirst) = v.getLsbD 10 := by
      unfold immOrder
      cases v.getLsbD 10 <;> rfl
    rw [this]
    apply BitVec.eq_of_getLsbD_eq
    intro j hj
    obtain rfl : j = 0 := by omega
    simp
  have hm : BitVec.ofNat 2 (immMode v).val = v.extractLsb' 8 2 := by
    apply BitVec.eq_of_toNat_eq
    exact Nat.mod_eq_of_lt (v.extractLsb' 8 2).isLt
  rw [packImm, ho, hm, immIdx]
  apply BitVec.eq_of_getLsbD_eq
  intro j hj
  simp only [BitVec.getLsbD_append, BitVec.getLsbD_extractLsb']
  by_cases hj11 : 11 ≤ j
  · rw [hb j hj11 hj]
    interval_cases j <;> simp
  · interval_cases j <;> simp

/-! ### What the rows of the opcode map admit, and their packed immediates (R82 to R84). The literals of the masks are as
`simp` writes them. -/

theorem packImm_and (o : BitOrder) (m : Fin 4) (l : BitVec 8) : packImm o m l &&& 63488#16 = 0#16 := by
  apply BitVec.eq_of_getLsbD_eq
  intro j hj
  simp only [packImm, BitVec.getLsbD_and, BitVec.getLsbD_append]
  interval_cases j <;> simp

theorem packImm_and0 (o : BitOrder) (m : Fin 4) : packImm o m 0#8 &&& 63743#16 = 0#16 := by
  apply BitVec.eq_of_getLsbD_eq
  intro j hj
  simp only [packImm, BitVec.getLsbD_and, BitVec.getLsbD_append]
  interval_cases j <;> simp

theorem packImm_andm (m : Fin 4) : packImm .msbFirst m 0#8 &&& 64767#16 = 0#16 := by
  fin_cases m <;> decide
theorem packImm_ando (o : BitOrder) : packImm o 0 0#8 &&& 64511#16 = 0#16 := by
  cases o <;> decide

/-- A descriptor a row admits: clauses (b), (d), (e) and (f) of R84 all pass. -/
theorem RowForm.refuses_none {r : RowForm} {h : Header} {a b c : Word} : r.refuses h a b c = none ↔
    (if h.nl then r.nl1 else r.nl0) = true ∧ (r.instUsed = true ∨ h.inst = 0) ∧ (r.nullOk = true ∨ h.nullh = false) ∧
      h.imm &&& ~~~r.imm = 0 ∧ a &&& ~~~r.arg1 = 0 ∧ b &&& ~~~r.arg2 = 0 ∧ c &&& ~~~r.arg3 = 0 := by
  unfold RowForm.refuses argFits
  have e : (if h.nl then !r.nl1 else !r.nl0) = !(if h.nl then r.nl1 else r.nl0) := by split <;> rfl
  rw [e]
  generalize (if h.nl then r.nl1 else r.nl0) = n
  cases n <;> cases r.instUsed <;> cases r.nullOk <;> cases h.nullh <;> by_cases hi : h.inst = 0 <;>
    by_cases hm : h.imm &&& ~~~r.imm = 0#16 <;> simp [hi, hm, and_assoc]

theorem and_ones16 (x : BitVec 16) : x &&& 65535#16 = x := BitVec.and_allOnes
theorem and_ones32 (x : BitVec 32) : x &&& 4294967295#32 = x := BitVec.and_allOnes

theorem imm_bit_zero (imm m : BitVec 16) (h : imm &&& m = 0) (j : Nat) (hj : m.getLsbD j = true) :
    imm.getLsbD j = false := by
  have := congrArg (fun v : BitVec 16 => v.getLsbD j) h
  simpa [hj] using this

theorem packImm_order_mode (imm : BitVec 16) (h : imm &&& 63743#16 = 0#16) :
    packImm (immOrder imm) (immMode imm) 0#8 = imm := by
  have h0 : immIdx imm = 0#8 := by
    apply BitVec.eq_of_getLsbD_eq
    intro j hj
    simp only [immIdx, BitVec.getLsbD_extractLsb', hj, decide_true, Bool.true_and, Nat.zero_add]
    rw [imm_bit_zero imm _ h j (by interval_cases j <;> decide)]
    simp
  rw [← h0]
  exact packImm_fields _ (by
    show imm &&& 63488#16 = 0#16
    have : 63488#16 = 63743#16 &&& 63488#16 := by decide
    rw [this, ← BitVec.and_assoc, h]; decide)

theorem packImm_mode (imm : BitVec 16) (h : imm &&& 64767#16 = 0#16) : packImm .msbFirst (immMode imm) 0#8 = imm := by
  have ho : immOrder imm = .msbFirst := by
    rw [immOrder, imm_bit_zero imm _ h 10 (by decide)]; rfl
  rw [← ho]
  exact packImm_order_mode _ (by
    have : 63743#16 = 64767#16 &&& 63743#16 := by decide
    rw [this, ← BitVec.and_assoc, h]; decide)

theorem packImm_order (imm : BitVec 16) (h : imm &&& 64511#16 = 0#16) : packImm (immOrder imm) 0 0#8 = imm := by
  have hm : immMode imm = 0 := by
    have : imm.extractLsb' 8 2 = 0 := by
      apply BitVec.eq_of_getLsbD_eq
      intro j hj
      simp only [BitVec.getLsbD_extractLsb', hj, decide_true, Bool.true_and]
      rw [imm_bit_zero imm _ h (8 + j) (by interval_cases j <;> decide)]
      simp
    rw [immMode, this]; rfl
  rw [← hm]
  exact packImm_order_mode _ (by
    have : 63743#16 = 64511#16 &&& 63743#16 := by decide
    rw [this, ← BitVec.and_assoc, h]; decide)

/-- Matching a packed header under a mask is matching each field under its part of the mask (R84). -/
theorem Header.pack_match (h : Header) (m w : Word) : h.pack &&& m = w ↔
    h.opc &&& m.extractLsb' 0 8 = w.extractLsb' 0 8 ∧
    BitVec.ofNat 2 h.inst.val &&& m.extractLsb' 8 2 = w.extractLsb' 8 2 ∧
    BitVec.ofBool h.nl &&& m.extractLsb' 10 1 = w.extractLsb' 10 1 ∧
    BitVec.ofBool h.nullh &&& m.extractLsb' 11 1 = w.extractLsb' 11 1 ∧
    h.rsv &&& m.extractLsb' 12 4 = w.extractLsb' 12 4 ∧
    h.imm &&& m.extractLsb' 16 16 = w.extractLsb' 16 16 := by
  obtain ⟨e0, e8, e10, e11, e12, e16⟩ := packed_fields h.imm h.rsv (BitVec.ofBool h.nullh) (BitVec.ofBool h.nl)
    (BitVec.ofNat 2 h.inst.val) h.opc
  rw [match_iff_fields]
  simp only [Header.pack]
  rw [e0, e8, e10, e11, e12, e16]


/-- Decoding a descriptor whose header word is packed reads the fields back. -/
theorem decode_pack (h : Header) (a b c : Word) : decode ⟨h.pack, a, b, c⟩ = decodeFields h a b c := by
  simp [decode]

end Sys2Proof
end

