-- ==== Sys2Proof/Laws/Turn.lean ====
section
/-! SUPPORT. What a whole turn can do, said once: the micro-steps of an operation and the polled engine's steps among
them (`Moves`), how a turn on an operation leaves it (`Left`, `runOps_left`), the operation each instruction begins
(`openingOf`, `exec_eq`) and that its micro-steps are ones the access matrix allows (`openingOf_of`). -/

namespace Sys2Proof.Machine

/-- Micro-steps that satisfy F on instance i, and steps of the engine of i at the polls of a prompt turn. -/
inductive Moves (F : UOp → Prop) (i : Fin 4) (s : State) : State → Prop
  | refl : Moves F i s s
  | micro {m t : State} {op : UOp} (h : Moves F i s m) (ho : F op) (hm : Micro op i m t) : Moves F i s t
  | engine {m t : State} (h : Moves F i s m) (hp : m.turn.prompt = true) (hf : ∃ r k, F (.poll r k))
      (he : EngineMove i m t) : Moves F i s t

/-- How a turn on an operation in progress leaves it: ended, kept for a later turn, or faulted. -/
inductive Left (F : UOp → Prop) (k : Task) (s : State) : State → Prop
  | ended {m : State} (v : Word) (h : Moves F k.inst s m) : Left F k s (m.finish .ok v)
  | kept {m : State} (ops : List UOp) (x y : Word) (h : Moves F k.inst s m) (ho : ∀ op ∈ ops, F op) :
      Left F k s (m.save { k with ops := ops, x := x, y := y })
  | faulted {m : State} (ops : List UOp) (x y : Word) (op : UOp) (c : FaultCause) (h : Moves F k.inst s m)
      (ho : ∀ op ∈ ops, F op) (hop : F op) (ht : perform op k.inst x y m = .trap c) :
      Left F k s ((m.save { k with ops := ops, x := x, y := y }).raise c)

theorem EngineMove.turn {i : Fin 4} {s t : State} (h : EngineMove i s t) : t.turn = s.turn := by
  cases h with
  | none => rfl
  | commit => rfl
  | complete => unfold completeStep; dsimp only; split <;> rfl

theorem Moves.cfg {F : UOp → Prop} {i : Fin 4} {s t : State} (h : Moves F i s t) : t.cfg = s.cfg := by
  induction h with
  | refl => rfl
  | micro _ _ hm ih => rw [hm.cfg, ih]
  | engine _ _ _ he ih => rw [he.cfg, ih]

theorem Moves.turn {F : UOp → Prop} {i : Fin 4} {s t : State} (h : Moves F i s t) : t.turn = s.turn := by
  induction h with
  | refl => rfl
  | micro _ _ hm ih => rw [hm.turn, ih]
  | engine _ _ _ he ih => rw [he.turn, ih]

/-- What running the micro-steps of an operation can do. -/
theorem runOps_left {F : UOp → Prop} {cfg : Cfg} {s : State} {k : Task} (hcfg : s.cfg = cfg)
    (hF : ∀ ops, (∀ op ∈ ops, F op) → ∀ op ∈ settle cfg ops, F op) (hk : ∀ op ∈ k.ops, F op) (n : Nat) :
    Left F k s (runOps n k s) := by
  have go : ∀ (n : Nat) (ops : List UOp) (x y : Word) (m : State), Moves F k.inst s m → (∀ op ∈ ops, F op) →
      Left F k s (runOps n { k with ops := ops, x := x, y := y } m) := by
    intro n
    induction n with
    | zero =>
      intro ops x y m hm ho
      rw [runOps]
      split
      · exact .ended _ hm
      · exact .kept ops x y hm ho
    | succ n ih =>
      intro ops x y m hm ho
      rw [runOps]
      have hset := hF ops ho
      rw [← hcfg, ← hm.cfg] at hset
      revert hset
      dsimp only
      cases hs : settle m.cfg ops with
      | nil => intro _; exact .ended _ hm
      | cons op rest =>
        intro hset
        dsimp only
        have hop : F op := hset op (by simp)
        cases hq : perform op k.inst x y m with
        | done m' x' y' =>
          exact ih rest x' y' m' (.micro hm hop (perform_done hq)) fun o ho => hset o (by simp [ho])
        | hold m' =>
          have hm' : Moves F k.inst s m' := .micro hm hop (perform_hold hq).1
          dsimp only
          split
          · rename_i hw
            simp only [Bool.and_eq_true] at hw
            refine ih ops x y _ (.engine hm' hw.1.2 ?_ (engineStep_cases k.inst m')) ho
            cases op <;> simp [UOp.isPoll] at hw
            exact ⟨_, _, hop⟩
          · exact .kept ops x y hm' ho
        | trap c => exact .faulted ops x y op c hm ho hop hq
  exact go n k.ops k.x k.y s .refl hk

/-- What a turn on an operation that begins as o, or goes on, can answer. -/
theorem operate_left {F : UOp → Prop} {s t : State} {o : Opening}
    (hF : ∀ ops, (∀ op ∈ ops, F op) → ∀ op ∈ settle s.cfg ops, F op)
    (hgo : ∀ c k, s.ctx? = some c → c.task = some k → ∀ op ∈ k.ops, F op) (hbegin : ∀ k, o = .task k → ∀ op ∈ k.ops, F op)
    (h : operate s o = .next t) :
    t = s ∨ s.stopped s.cur = false ∧ ((∃ c k, s.ctx? = some c ∧ c.task = some k ∧ Left F k s t) ∨
      ∃ c, s.ctx? = some c ∧ c.task = none ∧ ((∃ v, o = .ret v ∧ t = s.finish .ok v) ∨
        (∃ st, o = .status st ∧ t = s.finish st 0) ∨ (∃ f, o = .trap f ∧ t = s.raise f) ∨
        ∃ k, o = .task k ∧ Left F k s t)) := by
  unfold operate at h
  split at h
  · simp at h
  rename_i c hc
  split at h
  · cases h; exact .inl rfl
  rename_i hs
  have hs : s.stopped s.cur = false := by simpa using hs
  split at h
  · cases h; exact .inl rfl
  refine .inr ⟨hs, ?_⟩
  split at h
  · rename_i k hk
    cases h
    exact .inl ⟨c, k, hc, hk, runOps_left rfl hF (hgo c k hc hk) _⟩
  · rename_i hk
    refine .inr ⟨c, hc, hk, ?_⟩
    split at h <;> cases h
    · exact .inl ⟨_, rfl, rfl⟩
    · exact .inr (.inl ⟨_, rfl, rfl⟩)
    · exact .inr (.inr (.inl ⟨_, rfl, rfl⟩))
    · exact .inr (.inr (.inr ⟨_, rfl, runOps_left rfl hF (hbegin _ rfl) _⟩))

/-! ### What each operation begins with -/

/-- The operation an instruction begins, its checks made: `exec` is `operate` of it. -/
def openingOf (i : Instr) (s : State) : Opening :=
  match i with
  | .regRd n off => regOpening s n off fun r => taskOf n [.rd r .x] 0 (.low 0xFFFFFFFF)
  | .regWr n off v => regOpening s n off fun r => taskOf n [.wr r v] 0 (.const 0)
  | .regPoll n off mask => regOpening s n off fun r => taskOf n [.poll r mask] 0 (.const 0)
  | .guardAcq n => rawOpening s n none (taskOf n [.acquire] 0 (.const 0))
  | .guardRel n => rawOpening s n none (taskOf n [.release] 0 (.const 0))
  | .xferNl n nbits fd => rawOpening s n none <| argCheck (nbits.toNat < 1 || 512 < nbits.toNat) <|
      guardCheck s n (taskOf n (xferOps s.cfg nbits.toNat (fd.getLsbD 0)) 0 (.const 0))
  | .start idx mode order clk =>
    if s.cfg.nInst ≤ idx.toNat then .status .invalidInstance
    else taskOf (Fin.ofNat 4 idx.toNat) (startOps s.cfg mode order clk) 0 (.const (idx.setWidth 32))
  | .stop h => handleOpening s h (taskOf h.inst (stopOps s.cfg) 0 (.const 0))
  | .setClock h clk => handleOpening s h (taskOf h.inst (locked [.wr .clock clk]) 0 (.const 0))
  | .getClock h => handleOpening s h (taskOf h.inst [.rd .clock .x] 0 (.low 0xFFFFFFFF))
  | .setMode h mode => handleOpening s h (taskOf h.inst (locked (setModeOps mode)) 0 (.const 0))
  | .getMode h => handleOpening s h (taskOf h.inst [.rd .pin .x, .rd .user .y] 0 .mode)
  | .setOrder h order => handleOpening s h (taskOf h.inst (locked (setOrderOps order)) 0 (.const 0))
  | .getOrder h => handleOpening s h (taskOf h.inst [.rd .ctrl .x] 0 (.low 1))
  | .csEnable h mask =>
    handleOpening s h (csCheck mask (taskOf h.inst (locked [.rmw .pin (csBits mask) 0]) 0 (.const 0)))
  | .csDisable h mask =>
    handleOpening s h (csCheck mask (taskOf h.inst (locked [.rmw .pin 0 (csBits mask)]) 0 (.const 0)))
  | .write h count p => writeOpening false h count p s
  | .writeNl h count p => writeOpening true h count p s
  | .transfer h count p => transferOpening false h count p s
  | .transferNl h count p => transferOpening true h count p s
  | .writeByte h v => byteOpening false false h v s
  | .writeByteNl h v => byteOpening true false h v s
  | .transferByte h v => byteOpening false true h v s
  | .transferByteNl h v => byteOpening true true h v s
  | .writeWord h v => scalarOpening false false 2 h v s
  | .writeWordNl h v => scalarOpening true false 2 h v s
  | .transferWord h v => scalarOpening false true 2 h v s
  | .transferWordNl h v => scalarOpening true true 2 h v s
  | .writeLong h v => scalarOpening false false 4 h v s
  | .writeLongNl h v => scalarOpening true false 4 h v s
  | .transferLong h v => scalarOpening false true 4 h v s
  | .transferLongNl h v => scalarOpening true true 4 h v s
  | .transferBytes h size inp outp => bytesOpening false h size inp outp s
  | .transferBytesNl h size inp outp => bytesOpening true h size inp outp s
  | .transferBits h nbits data => bitsOpening false h nbits data s
  | .transferBitsNl h nbits data => bitsOpening true h nbits data s
  | .writePixels h size p => pixelsOpening false h size p s
  | .writePixelsNl h size p => pixelsOpening true h size p s
  | .freqToDiv target => argCheck (target == 0) (taskOf 0 [.solve target] 0 (.low 0xFFFFFFFF))
  | .divToFreq clk => taskOf 0 [.freq clk] 0 (.low 0xFFFFFFFF)
  | .beginTxn h clk mode order => handleOpening s h (taskOf h.inst (beginOps s.cfg clk mode order) 0 (.const 0))
  | .endTxn h => handleOpening s h (taskOf h.inst [.release] 0 (.const 0))
  | .clkBefore n old new => notifierOnly s (.clkBefore n old new) <| rawOpening s n none <|
      taskOf n [.acquire, .poll .cmd 1] 0 (.const 0)
  | .clkAfter n old new => notifierOnly s (.clkAfter n old new) <| rawOpening s n none <| ownerCheck s n <|
      taskOf n [.rd .clock .x, .retune old new, .release] 0 (.const 0)

theorem exec_eq (i : Instr) (s : State) : exec i s = operate s (openingOf i s) := by
  cases i <;> rfl

/-! ### Every check of an opening either stops it or lets it through -/

section checks
variable {s : State} {k : Task} {o : Opening}

theorem rawOpening_task {i : Fin 4} {off : Option (BitVec 16)} (h : rawOpening s i off o = .task k) : o = .task k := by
  unfold rawOpening at h; split at h
  · simp at h
  · exact h

theorem regOpening_task {i : Fin 4} {off : BitVec 16} {f : Reg → Opening} (h : regOpening s i off f = .task k) :
    ∃ r, regAt s.cfg off.toNat = some r ∧ f r = .task k := by
  have h := rawOpening_task h
  split at h
  · simp at h
  · split at h
    · simp at h
    · rename_i r hr; exact ⟨r, hr, h⟩

theorem handleOpening_task {hd : Handle} (h : handleOpening s hd o = .task k) : o = .task k := by
  unfold handleOpening at h
  split at h
  · simp at h
  · split at h
    · simp at h
    · split at h
      · simp at h
      · exact h

theorem argCheck_task {b : Bool} (h : argCheck b o = .task k) : o = .task k := by
  unfold argCheck at h; split at h
  · simp at h
  · exact h

theorem alignCheck_task {p : Word} (h : alignCheck p o = .task k) : o = .task k := by
  unfold alignCheck at h; split at h
  · simp at h
  · exact h

theorem guardCheck_task {i : Fin 4} (h : guardCheck s i o = .task k) : o = .task k := by
  unfold guardCheck at h; split at h
  · exact h
  · simp at h

theorem ownerCheck_task {i : Fin 4} (h : ownerCheck s i o = .task k) : o = .task k := by
  unfold ownerCheck at h; split at h
  · exact h
  · simp at h

theorem notifierOnly_task {i : Instr} (h : notifierOnly s i o = .task k) : o = .task k := by
  unfold notifierOnly at h; split at h
  · exact h
  · simp at h

theorem taskOf_task {i : Fin 4} {ops : List UOp} {x : Word} {r : Ret} (h : taskOf i ops x r = .task k) :
    k.inst = i ∧ k.ops = ops := by
  cases h; exact ⟨rfl, rfl⟩

theorem guardedTask_task {nl : Bool} {i : Fin 4} {ops : List UOp} {x : Word} {r : Ret}
    (h : guardedTask s nl i ops x r = .task k) : k.inst = i ∧ k.ops = if nl then ops else locked ops := by
  unfold guardedTask at h
  cases nl
  · exact taskOf_task h
  · exact taskOf_task (guardCheck_task h)

end checks

/-! ### Every micro-step of an operation is one the access matrix allows (R44) -/

section allowed
variable {cfg : Cfg} {i : Instr}

theorem within_locked {ops : List UOp} (ht : takesGuard i = true) (hf : freesGuard i = true)
    (h : ∀ op ∈ ops, op.within cfg i) : ∀ op ∈ locked ops, op.within cfg i := by
  intro op hop
  simp only [locked, List.cons_append, List.mem_cons, List.mem_append, List.not_mem_nil, or_false] at hop
  rcases hop with rfl | hop | rfl
  · exact ht
  · exact h op hop
  · exact hf

theorem within_xferOps (n : Nat) (fd : Bool) (hw : ∀ r, xferWrites r → mayWrite cfg i r) (hi : instOf i ≠ none) :
    ∀ op ∈ xferOps cfg n fd, op.within cfg i := by
  have hm : ∀ v, (UOp.wr .mosiDlen v).within cfg i := fun v => hw _ (.inl rfl)
  have hs : ∀ v, (UOp.wr .misoDlen v).within cfg i := fun v => hw _ (.inr (.inl rfl))
  have hc : ∀ v, (UOp.wr .cmd v).within cfg i := fun v => hw _ (.inr (.inr rfl))
  have hp : ∀ v, (UOp.poll .cmd v).within cfg i := fun v => hi
  intro op hop
  unfold xferOps at hop
  simp only [List.mem_append, List.mem_cons, List.not_mem_nil, or_false] at hop
  rcases hop with ((rfl | hop) | hop) | rfl | rfl
  · exact hm _
  · split at hop
    · simp only [List.mem_cons, List.not_mem_nil, or_false] at hop; subst hop; exact hs _
    · split at hop
      · simp only [List.mem_cons, List.not_mem_nil, or_false] at hop; subst hop; exact hs _
      · simp at hop
  · split at hop
    · simp only [List.mem_cons, List.not_mem_nil, or_false] at hop
      rcases hop with rfl | rfl
      · exact hc _
      · exact hp _
    · simp at hop
  · exact hc _
  · exact hp _

theorem within_loadBytes (p len w : Nat) : ∀ op ∈ loadBytes p len w, op.within cfg i := by
  intro op hop
  simp only [loadBytes, List.mem_map] at hop
  obtain ⟨j, -, rfl⟩ := hop
  exact trivial

theorem mem_validBytes {len w j : Nat} (h : j ∈ validBytes len w) : j < 4 ∧ 4 * w + j < len := by
  simpa [validBytes] using h

/-- Unfolding a loop header gives only micro-steps of the same operation. -/
theorem within_settle (ops : List UOp) (h : ∀ op ∈ ops, op.within cfg i) : ∀ op ∈ settle cfg ops, op.within cfg i := by
  unfold settle
  split
  · rename_i inp outp off size rest
    obtain ⟨hw, hi, hst⟩ : (UOp.bytes inp outp off size).within cfg i := h _ (by simp)
    have hrest : ∀ op ∈ rest, op.within cfg i := fun op ho => h op (by simp [ho])
    split
    · rename_i hlt
      intro op hop
      simp only [bytesChunk, List.mem_append, List.mem_cons, List.mem_flatMap] at hop
      rcases hop with ((⟨w, -, hop⟩ | hop) | hop) | rfl | hop
      · split at hop
        · simp only [List.mem_cons, List.not_mem_nil, or_false] at hop
          subst hop
          exact hw _ (.inl ⟨_, rfl⟩)
        · simp only [List.mem_append, List.mem_cons, List.not_mem_nil, or_false] at hop
          rcases hop with hop | rfl
          · exact within_loadBytes _ _ _ op hop
          · exact hw _ (.inl ⟨_, rfl⟩)
      · exact within_xferOps _ _ (fun r hr => hw r (.inr hr)) hi op hop
      · split at hop
        · simp at hop
        · rename_i ho
          simp only [List.mem_flatMap, List.mem_cons, List.mem_map] at hop
          obtain ⟨w, -, rfl | ⟨j, hj, rfl⟩⟩ := hop
          · exact trivial
          · have := mem_validBytes hj
            exact hst ho _ (by omega) (by omega)
      · exact ⟨hw, hi, fun ho a h1 h2 => hst ho a (by omega) h2⟩
      · exact hrest op hop
    · exact hrest
  · rename_i p off size rest
    obtain ⟨hw, hi⟩ : (UOp.pixels p off size).within cfg i := h _ (by simp)
    have hrest : ∀ op ∈ rest, op.within cfg i := fun op ho => h op (by simp [ho])
    split
    · intro op hop
      simp only [pixelsChunk, List.mem_append, List.mem_cons, List.mem_flatMap, List.not_mem_nil, or_false] at hop
      rcases hop with (⟨w, -, hop | rfl⟩ | hop) | rfl | hop
      · exact within_loadBytes _ _ _ op hop
      · exact hw _ (.inl ⟨_, rfl⟩)
      · exact within_xferOps _ _ (fun r hr => hw r (.inr hr)) hi op hop
      · exact ⟨hw, hi⟩
      · exact hrest op hop
    · exact hrest
  · exact h

theorem within_scalarOps {n b : Nat} {fd : Bool} (hw : ∀ r, (∃ k, r = .w k) ∨ xferWrites r → mayWrite cfg i r)
    (hi : instOf i ≠ none) : ∀ op ∈ scalarOps cfg n b fd, op.within cfg i := by
  intro op hop
  simp only [scalarOps, List.mem_append, List.mem_cons, List.not_mem_nil, or_false] at hop
  rcases hop with ((rfl | rfl) | hop) | hop
  · exact trivial
  · exact hw _ (.inl ⟨_, rfl⟩)
  · exact within_xferOps _ _ (fun r hr => hw r (.inr hr)) hi op hop
  · split at hop
    · simp only [List.mem_cons, List.not_mem_nil, or_false] at hop
      rcases hop with rfl | rfl <;> exact trivial
    · simp at hop

theorem within_loadWords {c p : Nat} (hw : ∀ k, mayWrite cfg i (.w k)) : ∀ op ∈ loadWords c p, op.within cfg i := by
  intro op hop
  simp only [loadWords, List.mem_flatMap, List.mem_cons, List.not_mem_nil, or_false] at hop
  obtain ⟨k, -, rfl | rfl⟩ := hop
  · exact trivial
  · exact hw _

theorem within_storeWords {c p : Nat} (hs : ∀ a, p ≤ a → a < p + 4 * c → mayStore i a) :
    ∀ op ∈ storeWords c p, op.within cfg i := by
  intro op hop
  simp only [storeWords, List.mem_flatMap, List.mem_cons, List.not_mem_nil, or_false, List.mem_range] at hop
  obtain ⟨k, hk, rfl | rfl⟩ := hop
  · exact trivial
  · exact fun a h1 h2 => hs a (by omega) (by omega)

end allowed

theorem Task.of_locked {cfg : Cfg} {i : Instr} {k : Task} {j : Fin 4} {ops : List UOp} (hi : instOf i = some j)
    (h : k.inst = j ∧ k.ops = locked ops) (ht : takesGuard i = true) (hf : freesGuard i = true)
    (hops : ∀ op ∈ ops, op.within cfg i) : k.Of cfg i := by
  refine ⟨fun n hn => ?_, ?_⟩
  · rw [hi] at hn; cases hn; exact h.1
  · rw [h.2]; exact within_locked ht hf hops

theorem Task.of_ops {cfg : Cfg} {i : Instr} {k : Task} {j : Fin 4} {ops : List UOp} (hi : instOf i = some j)
    (h : k.inst = j ∧ k.ops = ops) (hops : ∀ op ∈ ops, op.within cfg i) : k.Of cfg i := by
  refine ⟨fun n hn => ?_, ?_⟩
  · rw [hi] at hn; cases hn; exact h.1
  · rw [h.2]; exact hops

theorem within_modeOps {cfg : Cfg} {i : Instr} {m : Fin 4} (hp : mayWrite cfg i .pin) (hu : mayWrite cfg i .user) :
    ∀ op ∈ setModeOps m, op.within cfg i := by
  intro op hop
  simp only [setModeOps, List.mem_cons, List.not_mem_nil, or_false] at hop
  rcases hop with rfl | rfl
  · exact hp
  · exact hu

theorem within_orderOps {cfg : Cfg} {i : Instr} {o : BitOrder} (hc : mayWrite cfg i .ctrl) :
    ∀ op ∈ setOrderOps o, op.within cfg i := by
  intro op hop
  simp only [setOrderOps, List.mem_cons, List.not_mem_nil, or_false] at hop
  subst hop
  exact hc

theorem within_byteOps {cfg : Cfg} {i : Instr} {v : Word} {fd : Bool}
    (hw : ∀ r, (∃ k, r = .w k) ∨ xferWrites r → mayWrite cfg i r) (hi : instOf i ≠ none) :
    ∀ op ∈ (UOp.wr (.w 0) v :: xferOps cfg 8 fd ++ if fd then [.rd (.w 0) .x] else []), op.within cfg i := by
  intro op hop
  simp only [List.cons_append, List.mem_append, List.mem_cons] at hop
  rcases hop with rfl | hop | hop
  · exact hw _ (.inl ⟨_, rfl⟩)
  · exact within_xferOps _ _ (fun r hr => hw r (.inr hr)) hi op hop
  · split at hop
    · simp only [List.mem_cons, List.not_mem_nil, or_false] at hop; subst hop; exact trivial
    · simp at hop

theorem within_startOps {cfg : Cfg} {mode : Fin 4} {order : BitOrder} {clk : Word} (idx : BitVec 8) :
    ∀ op ∈ startOps cfg mode order clk, op.within cfg (.start idx mode order clk) := by
  have hc (r : Reg) (h : r ∈ cfgRegs cfg) : mayWrite cfg (.start idx mode order clk) r := .inl h
  have hr (r : Reg) (h : r ∈ [Reg.clock, .ctrl, .user, .pin, .mosiDlen, .misoDlen]) : r ∈ cfgRegs cfg :=
    List.mem_append_left _ h
  intro op hop
  simp only [startOps, List.mem_append, List.mem_cons, List.not_mem_nil, or_false] at hop
  rcases hop with ((((rfl | hop) | hop) | hop) | hop) | rfl | rfl
  · rfl
  · refine within_locked rfl rfl ?_ op hop
    intro op hop
    simp only [List.mem_append, List.mem_map, List.mem_cons, List.not_mem_nil, or_false] at hop
    rcases hop with ((⟨r, h, rfl⟩ | ⟨k, -, rfl⟩) | rfl) | hop
    · exact hc r h
    · exact .inr ⟨k, rfl⟩
    · exact hc _ (hr _ (by simp))
    · split at hop
      · rename_i hg
        simp only [List.mem_cons, List.not_mem_nil, or_false] at hop
        subst hop
        exact hc _ (by simp [cfgRegs, hg])
      · simp at hop
  · exact within_locked rfl rfl (within_modeOps (hc _ (hr _ (by simp))) (hc _ (hr _ (by simp)))) op hop
  · exact within_locked rfl rfl (within_orderOps (hc _ (hr _ (by simp)))) op hop
  · refine within_locked rfl rfl ?_ op hop
    intro op hop
    simp only [List.mem_cons, List.not_mem_nil, or_false] at hop
    subst hop
    exact hc _ (hr _ (by simp))
  · rfl
  · rfl

theorem within_stopOps {cfg : Cfg} (h : Handle) : ∀ op ∈ stopOps cfg, op.within cfg (.stop h) := by
  intro op hop
  simp only [stopOps, List.mem_append, List.mem_cons, List.not_mem_nil, or_false] at hop
  rcases hop with (rfl | hop) | rfl
  · rfl
  · refine within_locked rfl rfl ?_ op hop
    intro op hop
    simp only [List.mem_map] at hop
    obtain ⟨r, hr, rfl⟩ := hop
    exact hr
  · rfl

theorem within_beginOps {cfg : Cfg} (h : Handle) {clk : Word} {mode : Fin 4} {order : BitOrder} :
    ∀ op ∈ beginOps cfg clk mode order, op.within cfg (.beginTxn h clk mode order) := by
  have hp : mayWrite cfg (.beginTxn h clk mode order) .pin := .inr (.inl rfl)
  have hu : mayWrite cfg (.beginTxn h clk mode order) .user := .inr (.inr (.inl rfl))
  have hc : mayWrite cfg (.beginTxn h clk mode order) .ctrl := .inr (.inr (.inr (.inl rfl)))
  intro op hop
  simp only [beginOps, List.mem_append, List.mem_cons, List.not_mem_nil, or_false] at hop
  rcases hop with (((rfl | rfl) | hop) | hop) | hop
  · rfl
  · exact .inl rfl
  · exact within_modeOps hp hu op hop
  · exact within_orderOps hc op hop
  · split at hop
    · simp only [List.mem_cons, List.not_mem_nil, or_false] at hop
      rcases hop with rfl | rfl
      · exact .inr (.inr (.inr (.inr rfl)))
      · simp [UOp.within, instOf]
    · simp at hop

theorem within_bytesOps {cfg : Cfg} {i : Instr} (inp outp size : Word)
    (hw : ∀ r, (∃ k, r = .w k) ∨ xferWrites r → mayWrite cfg i r) (hi : instOf i ≠ none)
    (hs : outp ≠ 0 → ∀ a, outp.toNat ≤ a → a < outp.toNat + size.toNat → mayStore i a) :
    ∀ op ∈ [UOp.bytes inp.toNat outp.toNat 0 size.toNat], op.within cfg i := by
  intro op hop
  simp only [List.mem_cons, List.not_mem_nil, or_false] at hop
  subst hop
  refine ⟨hw, hi, fun ho a h1 h2 => hs ?_ a h1 h2⟩
  rintro rfl
  exact ho rfl

theorem within_pixelsOps {cfg : Cfg} {i : Instr} (p size : Word)
    (hw : ∀ r, (∃ k, r = .w k) ∨ xferWrites r → mayWrite cfg i r) (hi : instOf i ≠ none) :
    ∀ op ∈ [UOp.rd .ctrl .y, .pixels p.toNat 0 size.toNat], op.within cfg i := by
  intro op hop
  simp only [List.mem_cons, List.not_mem_nil, or_false] at hop
  rcases hop with rfl | rfl
  · exact trivial
  · exact ⟨hw, hi⟩

/-- The operation an instruction begins is on its instance and made of micro-steps the access matrix allows it. -/
theorem openingOf_of {i : Instr} {s : State} {k : Task} (h : openingOf i s = .task k) : k.Of s.cfg i := by
  have one {op : UOp} (hop : op.within s.cfg i) : ∀ o ∈ [op], o.within s.cfg i := by
    intro o ho
    simp only [List.mem_cons, List.not_mem_nil, or_false] at ho
    subst ho
    exact hop
  have data (hd : Handle) (nl : Bool) (ops : List UOp) (hi : instOf i = some hd.inst)
      (ht : nl = false → takesGuard i = true) (hf : nl = false → freesGuard i = true)
      (hops : ∀ op ∈ ops, op.within s.cfg i) (hk : k.inst = hd.inst ∧ k.ops = if nl then ops else locked ops) :
      k.Of s.cfg i := by
    cases nl
    · exact Task.of_locked hi hk (ht rfl) (hf rfl) hops
    · exact Task.of_ops hi hk hops
  cases i with
  | regRd n off =>
    obtain ⟨r, -, h⟩ := regOpening_task h
    exact Task.of_ops rfl (taskOf_task h) (one trivial)
  | regWr n off v =>
    obtain ⟨r, hr, h⟩ := regOpening_task h
    exact Task.of_ops rfl (taskOf_task h) (one hr)
  | regPoll n off mask =>
    obtain ⟨r, -, h⟩ := regOpening_task h
    exact Task.of_ops rfl (taskOf_task h) (one (by simp [UOp.within, instOf]))
  | guardAcq n => exact Task.of_ops rfl (taskOf_task (rawOpening_task h)) (one rfl)
  | guardRel n => exact Task.of_ops rfl (taskOf_task (rawOpening_task h)) (one rfl)
  | xferNl n nbits fd =>
    exact Task.of_ops rfl (taskOf_task (guardCheck_task (argCheck_task (rawOpening_task h))))
      (within_xferOps _ _ (fun _ hr => hr) (by simp [instOf]))
  | start idx mode order clk =>
    unfold openingOf at h
    dsimp only at h
    split at h
    · simp at h
    · obtain ⟨hi, ho⟩ := taskOf_task h
      exact ⟨fun j hj => by cases hj; exact hi, by rw [ho]; exact within_startOps idx⟩
  | stop hd => exact Task.of_ops rfl (taskOf_task (handleOpening_task h)) (within_stopOps hd)
  | setClock hd clk => exact Task.of_locked rfl (taskOf_task (handleOpening_task h)) rfl rfl (one rfl)
  | getClock hd => exact Task.of_ops rfl (taskOf_task (handleOpening_task h)) (one trivial)
  | setMode hd mode =>
    exact Task.of_locked rfl (taskOf_task (handleOpening_task h)) rfl rfl (within_modeOps (Or.inl rfl) (Or.inr rfl))
  | getMode hd =>
    refine Task.of_ops rfl (taskOf_task (handleOpening_task h)) ?_
    intro o ho
    simp only [List.mem_cons, List.not_mem_nil, or_false] at ho
    rcases ho with rfl | rfl <;> exact trivial
  | setOrder hd order =>
    exact Task.of_locked rfl (taskOf_task (handleOpening_task h)) rfl rfl (within_orderOps rfl)
  | getOrder hd => exact Task.of_ops rfl (taskOf_task (handleOpening_task h)) (one trivial)
  | csEnable hd mask =>
    exact Task.of_locked rfl (taskOf_task (argCheck_task (handleOpening_task h))) rfl rfl (one rfl)
  | csDisable hd mask =>
    exact Task.of_locked rfl (taskOf_task (argCheck_task (handleOpening_task h))) rfl rfl (one rfl)
  | write hd c p =>
    refine data hd false _ rfl (fun _ => rfl) (fun _ => rfl) ?_
      (guardedTask_task (alignCheck_task (argCheck_task (argCheck_task (handleOpening_task h)))))
    exact List.forall_mem_append.mpr ⟨within_loadWords fun k => .inl ⟨k, rfl⟩,
      within_xferOps _ _ (fun r hr => .inr hr) (by simp [instOf])⟩
  | writeNl hd c p =>
    refine data hd true _ rfl nofun nofun ?_
      (guardedTask_task (alignCheck_task (argCheck_task (argCheck_task (handleOpening_task h)))))
    exact List.forall_mem_append.mpr ⟨within_loadWords fun k => .inl ⟨k, rfl⟩,
      within_xferOps _ _ (fun r hr => .inr hr) (by simp [instOf])⟩
  | transfer hd c p =>
    refine data hd false _ rfl (fun _ => rfl) (fun _ => rfl) ?_
      (guardedTask_task (alignCheck_task (argCheck_task (argCheck_task (handleOpening_task h)))))
    exact List.forall_mem_append.mpr ⟨List.forall_mem_append.mpr ⟨within_loadWords fun k => .inl ⟨k, rfl⟩,
      within_xferOps _ _ (fun r hr => .inr hr) (by simp [instOf])⟩, within_storeWords fun a h1 h2 => ⟨h1, h2⟩⟩
  | transferNl hd c p =>
    refine data hd true _ rfl nofun nofun ?_
      (guardedTask_task (alignCheck_task (argCheck_task (argCheck_task (handleOpening_task h)))))
    exact List.forall_mem_append.mpr ⟨List.forall_mem_append.mpr ⟨within_loadWords fun k => .inl ⟨k, rfl⟩,
      within_xferOps _ _ (fun r hr => .inr hr) (by simp [instOf])⟩, within_storeWords fun a h1 h2 => ⟨h1, h2⟩⟩
  | writeByte hd v =>
    exact data hd false _ rfl (fun _ => rfl) (fun _ => rfl)
      (within_byteOps (fun _ hr => hr) (by simp [instOf])) (guardedTask_task (handleOpening_task h))
  | writeByteNl hd v =>
    exact data hd true _ rfl nofun nofun
      (within_byteOps (fun _ hr => hr) (by simp [instOf])) (guardedTask_task (handleOpening_task h))
  | transferByte hd v =>
    exact data hd false _ rfl (fun _ => rfl) (fun _ => rfl)
      (within_byteOps (fun _ hr => hr) (by simp [instOf])) (guardedTask_task (handleOpening_task h))
  | transferByteNl hd v =>
    exact data hd true _ rfl nofun nofun
      (within_byteOps (fun _ hr => hr) (by simp [instOf])) (guardedTask_task (handleOpening_task h))
  | writeWord hd v =>
    exact data hd false _ rfl (fun _ => rfl) (fun _ => rfl)
      (within_scalarOps (fun _ hr => hr) (by simp [instOf])) (guardedTask_task (handleOpening_task h))
  | writeWordNl hd v =>
    exact data hd true _ rfl nofun nofun
      (within_scalarOps (fun _ hr => hr) (by simp [instOf])) (guardedTask_task (handleOpening_task h))
  | transferWord hd v =>
    exact data hd false _ rfl (fun _ => rfl) (fun _ => rfl)
      (within_scalarOps (fun _ hr => hr) (by simp [instOf])) (guardedTask_task (handleOpening_task h))
  | transferWordNl hd v =>
    exact data hd true _ rfl nofun nofun
      (within_scalarOps (fun _ hr => hr) (by simp [instOf])) (guardedTask_task (handleOpening_task h))
  | writeLong hd v =>
    exact data hd false _ rfl (fun _ => rfl) (fun _ => rfl)
      (within_scalarOps (fun _ hr => hr) (by simp [instOf])) (guardedTask_task (handleOpening_task h))
  | writeLongNl hd v =>
    exact data hd true _ rfl nofun nofun
      (within_scalarOps (fun _ hr => hr) (by simp [instOf])) (guardedTask_task (handleOpening_task h))
  | transferLong hd v =>
    exact data hd false _ rfl (fun _ => rfl) (fun _ => rfl)
      (within_scalarOps (fun _ hr => hr) (by simp [instOf])) (guardedTask_task (handleOpening_task h))
  | transferLongNl hd v =>
    exact data hd true _ rfl nofun nofun
      (within_scalarOps (fun _ hr => hr) (by simp [instOf])) (guardedTask_task (handleOpening_task h))
  | transferBytes hd size inp outp =>
    exact data hd false _ rfl (fun _ => rfl) (fun _ => rfl)
      (within_bytesOps inp outp size (fun _ hr => hr) (by simp [instOf]) fun ho a h1 h2 => ⟨ho, h1, h2⟩)
      (guardedTask_task (handleOpening_task h))
  | transferBytesNl hd size inp outp =>
    exact data hd true _ rfl nofun nofun
      (within_bytesOps inp outp size (fun _ hr => hr) (by simp [instOf]) fun ho a h1 h2 => ⟨ho, h1, h2⟩)
      (guardedTask_task (handleOpening_task h))
  | transferBits hd n v =>
    exact data hd false _ rfl (fun _ => rfl) (fun _ => rfl)
      (within_scalarOps (fun _ hr => hr) (by simp [instOf])) (guardedTask_task (argCheck_task (handleOpening_task h)))
  | transferBitsNl hd n v =>
    exact data hd true _ rfl nofun nofun
      (within_scalarOps (fun _ hr => hr) (by simp [instOf])) (guardedTask_task (argCheck_task (handleOpening_task h)))
  | writePixels hd size p =>
    exact data hd false _ rfl (fun _ => rfl) (fun _ => rfl)
      (within_pixelsOps p size (fun _ hr => hr) (by simp [instOf]))
      (guardedTask_task (argCheck_task (handleOpening_task h)))
  | writePixelsNl hd size p =>
    exact data hd true _ rfl nofun nofun
      (within_pixelsOps p size (fun _ hr => hr) (by simp [instOf]))
      (guardedTask_task (argCheck_task (handleOpening_task h)))
  | freqToDiv t =>
    obtain ⟨-, ho⟩ := taskOf_task (argCheck_task h)
    exact ⟨fun _ hj => by simp [instOf] at hj, by rw [ho]; exact one trivial⟩
  | divToFreq c =>
    obtain ⟨-, ho⟩ := taskOf_task h
    exact ⟨fun _ hj => by simp [instOf] at hj, by rw [ho]; exact one trivial⟩
  | beginTxn hd clk mode order => exact Task.of_ops rfl (taskOf_task (handleOpening_task h)) (within_beginOps hd)
  | endTxn hd => exact Task.of_ops rfl (taskOf_task (handleOpening_task h)) (one rfl)
  | clkBefore n old new =>
    refine Task.of_ops rfl (taskOf_task (rawOpening_task (notifierOnly_task h))) ?_
    intro o ho
    simp only [List.mem_cons, List.not_mem_nil, or_false] at ho
    rcases ho with rfl | rfl
    · rfl
    · simp [UOp.within, instOf]
  | clkAfter n old new =>
    refine Task.of_ops rfl (taskOf_task (ownerCheck_task (rawOpening_task (notifierOnly_task h)))) ?_
    intro o ho
    simp only [List.mem_cons, List.not_mem_nil, or_false] at ho
    rcases ho with rfl | rfl | rfl
    · exact trivial
    · rfl
    · rfl

/-- What `exec` can answer: nothing, or a turn on operation i. -/
theorem exec_left {i : Instr} {s t : State} (hr : Resumes i s) (h : exec i s = .next t) :
    t = s ∨ s.stopped s.cur = false ∧
      ((∃ c k, s.ctx? = some c ∧ c.task = some k ∧ k.Of s.cfg i ∧ Left (UOp.within s.cfg i) k s t) ∨
      ∃ c, s.ctx? = some c ∧ c.task = none ∧ ((∃ v, openingOf i s = .ret v ∧ t = s.finish .ok v) ∨
        (∃ st, openingOf i s = .status st ∧ t = s.finish st 0) ∨
        (∃ f, openingOf i s = .trap f ∧ t = s.raise f) ∨
        ∃ k, openingOf i s = .task k ∧ k.Of s.cfg i ∧ Left (UOp.within s.cfg i) k s t)) := by
  rw [exec_eq] at h
  rcases operate_left (F := UOp.within s.cfg i) (fun ops ho => within_settle ops ho)
    (fun c k hc hk => (hr c k hc hk).ops) (fun k hk => (openingOf_of hk).ops) h with h | ⟨hs, h⟩
  · exact .inl h
  refine .inr ⟨hs, ?_⟩
  rcases h with ⟨c, k, hc, hk, hl⟩ | ⟨c, hc, hk, h⟩
  · exact .inl ⟨c, k, hc, hk, hr c k hc hk, hl⟩
  · refine .inr ⟨c, hc, hk, ?_⟩
    rcases h with h | h | h | ⟨k, ho, hl⟩
    · exact .inl h
    · exact .inr (.inl h)
    · exact .inr (.inr (.inl h))
    · exact .inr (.inr (.inr ⟨k, ho, openingOf_of ho, hl⟩))

end Sys2Proof.Machine
end

