-- ==== Sys2Proof/Laws/Kept.lean ====
section
/-! SUPPORT. What every micro-step and every engine's step keeps, whatever operation it belongs to (`Kept`), and every
way a step of the machine can go (`Turned`, `step_turned`). -/

namespace Sys2Proof.Machine

/-- What no micro-step and no engine's step changes, and what they only add to. -/
structure Kept (s t : State) : Prop where
  cfg : t.cfg = s.cfg
  fin : t.fin = s.fin
  turn : t.turn = s.turn
  sched : t.sched = s.sched ∧ t.ticks = s.ticks
  callers : t.callers = s.callers
  notifier : t.notifier = s.notifier
  addresses : t.hm.map Prod.fst = s.hm.map Prod.fst
  wire : s.wire <+: t.wire
  faults : s.faults <+: t.faults
  draws : s.draws ≤ t.draws
  created : ∀ j, (s.getBus j).guardExists = true → (t.getBus j).guardExists = true
  held : ∀ j a, (s.getBus j).guardExists = true → (s.getBus j).owner = some a → a ≠ s.cur →
    (t.getBus j).owner = some a
  taken : ∀ j a, (t.getBus j).owner = some a → (s.getBus j).owner = some a ∨ a = s.cur
  stuck : ∀ j, s.stopped (.engine j) = true → (s.getBus j).phase ≠ .idle →
    (t.getBus j).phase = (s.getBus j).phase ∧ ∀ r, (t.getBus j).stored r = (s.getBus j).stored r

/-- An agent that has faulted stays so while the fault list only grows (R273). -/
theorem stopped_of_prefix {s t : State} {a : Agent} (h : s.faults <+: t.faults) (hs : s.stopped a = true) :
    t.stopped a = true := by
  simp only [State.stopped, List.any_eq_true] at hs ⊢
  obtain ⟨f, hf, ha⟩ := hs
  exact ⟨f, h.subset hf, ha⟩

theorem Kept.cur {s t : State} (h : Kept s t) : t.cur = s.cur := by simp [State.cur, h.turn]

theorem Kept.refl (s : State) : Kept s s :=
  ⟨rfl, rfl, rfl, ⟨rfl, rfl⟩, rfl, rfl, rfl, List.prefix_rfl, List.prefix_rfl, Nat.le_refl _, fun _ h => h,
    fun _ _ _ h _ => h, fun _ _ h => .inl h, fun _ _ _ => ⟨rfl, fun _ => rfl⟩⟩

theorem Kept.trans {s t u : State} (h : Kept s t) (g : Kept t u) : Kept s u where
  cfg := g.cfg.trans h.cfg
  fin := g.fin.trans h.fin
  turn := g.turn.trans h.turn
  sched := ⟨g.sched.1.trans h.sched.1, g.sched.2.trans h.sched.2⟩
  callers := g.callers.trans h.callers
  notifier := g.notifier.trans h.notifier
  addresses := g.addresses.trans h.addresses
  wire := h.wire.trans g.wire
  faults := h.faults.trans g.faults
  draws := Nat.le_trans h.draws g.draws
  created j hj := g.created j (h.created j hj)
  held j a he ho hc := g.held j a (h.created j he) (h.held j a he ho hc) (by rwa [h.cur])
  taken j a ho := by
    rcases g.taken j a ho with h1 | h1
    · exact h.taken j a h1
    · exact .inr (by rw [h1, h.cur])
  stuck j hs hp := by
    obtain ⟨h1, h2⟩ := h.stuck j hs hp
    obtain ⟨g1, g2⟩ := g.stuck j (stopped_of_prefix h.faults hs) (by rw [h1]; exact hp)
    exact ⟨g1.trans h1, fun r => (g2 r).trans (h2 r)⟩

theorem Kept.updBus (s : State) (i : Fin 4) (f : Bus → Bus) (hc : (s.getBus i).guardExists = true →
    (f (s.getBus i)).guardExists = true)
    (hh : ∀ a, (s.getBus i).guardExists = true → (s.getBus i).owner = some a → a ≠ s.cur →
      (f (s.getBus i)).owner = some a)
    (ht : ∀ a, (f (s.getBus i)).owner = some a → (s.getBus i).owner = some a ∨ a = s.cur)
    (hs : s.stopped (.engine i) = true → (s.getBus i).phase ≠ .idle →
      (f (s.getBus i)).phase = (s.getBus i).phase ∧ ∀ r, (f (s.getBus i)).stored r = (s.getBus i).stored r) :
    Kept s (s.updBus i f) where
  cfg := rfl
  fin := rfl
  turn := rfl
  sched := ⟨rfl, rfl⟩
  callers := rfl
  notifier := rfl
  addresses := rfl
  wire := List.prefix_rfl
  faults := List.prefix_rfl
  draws := Nat.le_refl _
  created j hj := by
    rw [State.getBus_updBus]
    split
    · rename_i e; subst e; exact hc hj
    · exact hj
  held j a he ho ha := by
    rw [State.getBus_updBus]
    split
    · rename_i e; subst e; exact hh a he ho ha
    · exact ho
  taken j a ho := by
    rw [State.getBus_updBus] at ho
    split at ho
    · rename_i e; subst e; exact ht a ho
    · exact .inl ho
  stuck j hj hp := by
    rw [State.getBus_updBus]
    split
    · rename_i e; subst e; exact hs hj hp
    · exact ⟨rfl, fun _ => rfl⟩

theorem Kept.other {s t : State} (hb : t.bus = s.bus) (h : t.cfg = s.cfg ∧ t.fin = s.fin ∧ t.turn = s.turn ∧
      t.sched = s.sched ∧ t.ticks = s.ticks ∧ t.callers = s.callers ∧ t.notifier = s.notifier)
    (ha : t.hm.map Prod.fst = s.hm.map Prod.fst) (hw : s.wire <+: t.wire) (hf : s.faults <+: t.faults)
    (hd : s.draws ≤ t.draws) : Kept s t := by
  have hb (j : Fin 4) : t.getBus j = s.getBus j := by simp [State.getBus, hb]
  obtain ⟨h1, h2, h3, h4, h5, h6, h7⟩ := h
  refine ⟨h1, h2, h3, ⟨h4, h5⟩, h6, h7, ha, hw, hf, hd, fun j hj => ?_, fun j a _ ho _ => ?_, fun j a ho => ?_, fun j _ _ => ?_⟩
  · rw [hb]; exact hj
  · rw [hb]; exact ho
  · rw [hb] at ho; exact .inl ho
  · rw [hb]; exact ⟨rfl, fun _ => rfl⟩

theorem Bus.store_guard (b : Bus) (r : Reg) (v : Word) :
    (b.store r v).guardExists = b.guardExists ∧ (b.store r v).owner = b.owner := by
  cases r <;> exact ⟨rfl, rfl⟩

theorem Bus.stored_of {b c : Bus} (h : c.phase = b.phase ∧ c.conf = b.conf ∧ c.clkGate = b.clkGate ∧ c.w = b.w) (r : Reg) :
    c.stored r = b.stored r := by
  obtain ⟨h1, h2, h3, h4⟩ := h
  cases r <;> simp [Bus.stored, h1, h2, h3, h4]

theorem Micro.kept {op : UOp} {i : Fin 4} {s t : State} (h : Micro op i s t) : Kept s t := by
  have regs (c : Bus) (h : c.phase = (s.getBus i).phase ∧ c.conf = (s.getBus i).conf ∧ c.clkGate = (s.getBus i).clkGate ∧
      c.w = (s.getBus i).w) : c.phase = (s.getBus i).phase ∧ ∀ r, c.stored r = (s.getBus i).stored r :=
    ⟨h.1, Bus.stored_of h⟩
  cases h with
  | same => exact .refl s
  | drew => exact .other rfl ⟨rfl, rfl, rfl, rfl, rfl, rfl, rfl⟩ rfl List.prefix_rfl List.prefix_rfl (by simp)
  | store r v _ _ hi =>
    have := (s.getBus i).store_guard r (v &&& wmask s.cfg r)
    refine .updBus s i _ (fun h => ?_) (fun a _ h _ => ?_) (fun a h => ?_) fun _ h => absurd hi h
    · rw [this.1]; exact h
    · rw [this.2]; exact h
    · rw [this.2] at h; exact .inl h
  | trigger _ hi => exact .updBus s i _ id (fun a _ h _ => h) (fun a h => .inl h) fun _ h => absurd hi h
  | commit _ hi => exact .updBus s i _ id (fun a _ h _ => h) (fun a h => .inl h) fun _ h => absurd hi h
  | mem hm ha =>
    exact .other rfl ⟨rfl, rfl, rfl, rfl, rfl, rfl, rfl⟩ ha List.prefix_rfl List.prefix_rfl (Nat.le_refl _)
  | create _ hg =>
    refine .updBus s i _ (fun _ => rfl) (fun a h => ?_) (fun a h => ?_) fun _ _ => regs _ ⟨rfl, rfl, rfl, rfl⟩
    · rw [hg] at h; cases h
    · simp at h
  | acquire _ hg hf =>
    refine .updBus s i _ id (fun a _ h => ?_) (fun a h => ?_) fun _ _ => regs _ ⟨rfl, rfl, rfl, rfl⟩
    · rw [hf] at h; cases h
    · simp only [Option.some.injEq] at h; exact .inr h.symm
  | release _ hf =>
    refine .updBus s i _ id (fun a _ h hc => ?_) (fun a h => ?_) fun _ _ => regs _ ⟨rfl, rfl, rfl, rfl⟩
    · rw [hf] at h; cases h; exact absurd rfl hc
    · simp at h
  | registered =>
    exact .updBus s i _ id (fun a _ h _ => h) (fun a h => .inl h) fun _ _ => regs _ ⟨rfl, rfl, rfl, rfl⟩
  | started =>
    exact .updBus s i _ id (fun a _ h _ => h) (fun a h => .inl h) fun _ _ => regs _ ⟨rfl, rfl, rfl, rfl⟩

theorem EngineMove.kept {i : Fin 4} {s t : State} (h : EngineMove i s t) : Kept s t := by
  cases h with
  | none => exact .refl s
  | commit _ hs =>
    exact .updBus s i _ id (fun a _ h _ => h) (fun a h => .inl h) fun h => by rw [hs] at h; cases h
  | complete _ hs =>
    unfold completeStep
    dsimp only
    split
    · exact .other rfl ⟨rfl, rfl, rfl, rfl, rfl, rfl, rfl⟩ rfl List.prefix_rfl (List.prefix_append _ _) (Nat.le_refl _)
    · have h1 (w : Vector Word 16) : Kept s (s.updBus i fun b => { b with w := w, phase := .idle }) :=
        .updBus s i _ id (fun a _ h _ => h) (fun a h => .inl h) fun h => by rw [hs] at h; cases h
      have h2 (u : State) (e : WireEvent) : Kept u ((u.addWire e).addDraws 2) :=
        .other rfl ⟨rfl, rfl, rfl, rfl, rfl, rfl, rfl⟩ rfl (List.prefix_append _ _) List.prefix_rfl (by simp)
      exact (h1 _).trans (h2 _ _)

theorem Moves.kept {F : UOp → Prop} {i : Fin 4} {s t : State} (h : Moves F i s t) : Kept s t := by
  induction h with
  | refl => exact .refl s
  | micro _ _ hm ih => exact ih.trans hm.kept
  | engine _ _ _ he ih => exact ih.trans he.kept

/-! ### A turn of an agent that runs descriptors -/

/-- A turn on an operation, whatever it does: micro-steps and engine steps, then the agent's own place and, on a fault,
its record. -/
inductive Acted (s : State) : State → Prop
  | none : Acted s s
  | moved {m : State} (f : Ctx → Ctx) (h : Kept s m) (hs : s.stopped s.cur = false) (hx : s.ctx? ≠ none)
      (hf : ∀ c, (f c).pc = c.pc ∧ (f c).res = c.res ∧ (f c).sts = c.sts ∨ (f c).pc = c.pc + 1 ∧ (f c).task = none) :
      Acted s (m.updCtx f)
  | faulted {m : State} (f : Ctx → Ctx) (c : FaultCause) (h : Kept s m) (hs : s.stopped s.cur = false)
      (hx : s.ctx? ≠ none) (hf : ∀ c, (f c).pc = c.pc ∧ (f c).res = c.res ∧ (f c).sts = c.sts) :
      Acted s ((m.updCtx f).raise c)

theorem Left.acted {F : UOp → Prop} {k : Task} {s t : State} (hs : s.stopped s.cur = false) (hx : s.ctx? ≠ none)
    (h : Left F k s t) : Acted s t := by
  cases h with
  | ended v h => exact .moved _ h.kept hs hx fun c => .inr ⟨rfl, rfl⟩
  | kept ops x y h => exact .moved _ h.kept hs hx fun c => .inl ⟨rfl, rfl, rfl⟩
  | faulted ops x y op c h => exact .faulted _ c h.kept hs hx fun c => ⟨rfl, rfl, rfl⟩

theorem State.updCtx_id (s : State) : s.updCtx id = s := by
  unfold State.updCtx
  split
  · rw [show (fun k : Caller => { k with ctx := id k.ctx }) = id from rfl, List.modify_id]
  · rfl
  · rfl

theorem operate_acted {s t : State} {o : Opening} (h : operate s o = .next t) : Acted s t := by
  rcases operate_left (F := fun _ => True) (fun _ _ _ _ => trivial) (fun _ _ _ _ _ _ => trivial)
    (fun _ _ _ _ => trivial) h with rfl | ⟨hs, ⟨c, k, hc, -, hl⟩ | ⟨c, hc, -, hl⟩⟩
  · exact .none
  · exact hl.acted hs (by simp [hc])
  · have hx : s.ctx? ≠ none := by simp [hc]
    rcases hl with ⟨v, -, rfl⟩ | ⟨st, -, rfl⟩ | ⟨f, -, rfl⟩ | ⟨k, -, hl⟩
    · exact .moved _ (.refl s) hs hx fun c => .inr ⟨rfl, rfl⟩
    · exact .moved _ (.refl s) hs hx fun c => .inr ⟨rfl, rfl⟩
    · have e : s.raise f = (s.updCtx id).raise f := by rw [s.updCtx_id]
      rw [e]
      exact .faulted _ f (.refl s) hs hx fun c => ⟨rfl, rfl, rfl⟩
    · exact hl.acted hs hx

theorem exec_acted {i : Instr} {s t : State} (h : exec i s = .next t) : Acted s t := by
  rw [exec_eq] at h
  exact operate_acted h

/-! ### Every way a step can go -/

/-- The encodings of the callbacks decode back to them, so that the notifier's descriptors are never ILLEGAL. -/
theorem decode_clkBefore (j : Fin 4) (old new : Word) : decode (encode (.clkBefore j old new)) = .ok (.clkBefore j old new) := by
  simp [encode, encodeFields, decode_pack, decodeFields, rawHeader, opcodeMap, rawRow, RowForm.refuses, argFits]

theorem decode_clkAfter (j : Fin 4) (old new : Word) : decode (encode (.clkAfter j old new)) = .ok (.clkAfter j old new) := by
  simp [encode, encodeFields, decode_pack, decodeFields, rawHeader, opcodeMap, rawRow, RowForm.refuses, argFits]

/-- Every way the turn of state u can go. -/
inductive Turned (u : State) : State → Prop
  | idle : Turned u u
  | engine (j : Fin 4) (ha : u.turn.agent = .engine j) : Turned u (engineStep j u)
  | protocol {p : State} (ha : u.turn.agent = .notifier) (hs : u.stopped .notifier = false)
      (hp : fetchNotifier u = .protocol p) : Turned u p
  | illegal {c : Nat} {k : Caller} {d : Desc} {r : Reject} {t : State} (ha : u.turn.agent = .caller c)
      (hk : u.callers[c]? = some k) (hd : k.current = some d) (hr : decode d = .illegal r)
      (ho : operate u (.trap (.illegalOp d.d0)) = .next t) : Turned u t
  | caller {c : Nat} {k : Caller} {d : Desc} {i : Instr} {t : State} (ha : u.turn.agent = .caller c)
      (hk : u.callers[c]? = some k) (hd : k.current = some d) (hi : decode d = .ok i) (he : exec i u = .next t) :
      Turned u t
  | before {todo rest : List (Fin 4)} {j : Fin 4} {p : Pending} {t : State} (ha : u.turn.agent = .notifier)
      (hs : u.stopped .notifier = false) (hb : u.turn.burst ≠ 0) (hph : u.notifier.phase = .before todo) (hpd : u.notifier.pending = some p)
      (hv : visitOrder u todo = j :: rest)
      (he : exec (.clkBefore j p.old p.new) (u.atPhase (.before (j :: rest))) = .next t) :
      Turned u (afterCallback u.notifier.ctx.pc t)
  | after {todo rest : List (Fin 4)} {j : Fin 4} {p : Pending} {t : State} (ha : u.turn.agent = .notifier)
      (hs : u.stopped .notifier = false) (hb : u.turn.burst ≠ 0) (hph : u.notifier.phase = .after todo) (hpd : u.notifier.pending = some p)
      (hv : visitOrder u todo = j :: rest)
      (he : exec (.clkAfter j p.old p.new) (u.atPhase (.after (j :: rest))) = .next t) :
      Turned u (afterCallback u.notifier.ctx.pc t)

theorem afterOp_next {pc : Nat} {o : Host.Outcome State Fault Refusal} {t : State} (h : afterOp pc o = .next t) :
    ∃ m, o = .next m ∧ t = afterCallback pc m := by
  cases o <;> simp only [afterOp, reduceCtorEq, Host.Outcome.next.injEq] at h
  exact ⟨_, rfl, h.symm⟩

/-- What the notifier's turn is about to do: nothing, a micro-step of its protocol, or one of the two callbacks. -/
theorem fetchNotifier_cases (u : State) : fetchNotifier u = .nothing ∨ (∃ p, fetchNotifier u = .protocol p) ∨
    (∃ todo j rest p, u.notifier.phase = .before todo ∧ u.notifier.pending = some p ∧ visitOrder u todo = j :: rest ∧
      fetchNotifier u = .instr (.clkBefore j p.old p.new) (u.atPhase (.before (j :: rest)))) ∨
    ∃ todo j rest p, u.notifier.phase = .after todo ∧ u.notifier.pending = some p ∧ visitOrder u todo = j :: rest ∧
      fetchNotifier u = .instr (.clkAfter j p.old p.new) (u.atPhase (.after (j :: rest))) := by
  unfold fetchNotifier
  split
  · split
    · exact .inl rfl
    · exact .inr (.inl ⟨_, rfl⟩)
  · exact .inr (.inl ⟨_, rfl⟩)
  · rename_i todo p hph hpd
    split
    · exact .inr (.inl ⟨_, rfl⟩)
    · rename_i j rest hv
      exact .inr (.inr (.inl ⟨todo, j, rest, p, hph, hpd, hv, by rw [fetchDesc, decode_clkBefore]⟩))
  · exact .inr (.inl ⟨_, rfl⟩)
  · rename_i todo p hph hpd
    split
    · exact .inr (.inl ⟨_, rfl⟩)
    · rename_i j rest hv
      exact .inr (.inr (.inr ⟨todo, j, rest, p, hph, hpd, hv, by rw [fetchDesc, decode_clkAfter]⟩))
  · exact .inl rfl

theorem runTurn_turned {u t : State} (h : runTurn u = .next t) : Turned u t := by
  unfold runTurn fetch at h
  cases ha : u.turn.agent with
  | engine j =>
    simp only [ha] at h
    by_cases hb : u.turn.burst = 0
    · simp only [hb, if_true] at h; cases h; exact .idle
    · simp only [hb, if_false] at h; cases h; exact .engine j ha
  | caller c =>
    simp only [ha] at h
    cases hk : u.callers[c]? with
    | none => simp only [hk] at h; cases h; exact .idle
    | some k =>
      simp only [hk] at h
      cases hd : k.current with
      | none => simp only [hd] at h; cases h; exact .idle
      | some d =>
        simp only [hd, fetchDesc] at h
        cases hi : decode d with
        | ok i => simp only [hi, ha] at h; exact .caller ha hk hd hi h
        | illegal r => simp only [hi] at h; exact .illegal ha hk hd hi h
  | notifier =>
    simp only [ha] at h
    by_cases hb : (u.turn.burst = 0 || u.stopped .notifier) = true
    · rw [if_pos (by simpa using hb)] at h; cases h; exact .idle
    · rw [if_neg (by simpa using hb)] at h
      simp only [Bool.or_eq_true, decide_eq_true_eq, not_or, Bool.not_eq_true] at hb
      rcases fetchNotifier_cases u with e | ⟨p, e⟩ | ⟨todo, j, rest, p, hph, hpd, hv, e⟩ | ⟨todo, j, rest, p, hph, hpd, hv, e⟩
      · rw [e] at h; cases h; exact .idle
      · have hp := e
        rw [e] at h; cases h; exact .protocol ha hb.2 hp
      · rw [e] at h
        simp only [show (u.atPhase (.before (j :: rest))).turn.agent = .notifier from ha] at h
        obtain ⟨m, hm, rfl⟩ := afterOp_next h
        exact .before ha hb.2 hb.1 hph hpd hv hm
      · rw [e] at h
        simp only [show (u.atPhase (.after (j :: rest))).turn.agent = .notifier from ha] at h
        obtain ⟨m, hm, rfl⟩ := afterOp_next h
        exact .after ha hb.2 hb.1 hph hpd hv hm

/-- Every way a step can go: the parameter record is accepted, and the turn taken next goes one of the ways of `Turned`. -/
theorem step_turned {s t : State} (h : step s = .next t) : cfgOk s.cfg = true ∧ Turned s.takeTurn t := by
  unfold step at h
  split at h
  · rename_i hc; exact ⟨hc, runTurn_turned h⟩
  · simp at h

/-- Taking a turn changes nothing but the schedule. -/
theorem takeTurn_kept (s : State) : (s.takeTurn).cfg = s.cfg ∧ (s.takeTurn).fin = s.fin ∧ (s.takeTurn).bus = s.bus ∧
    (s.takeTurn).callers = s.callers ∧ (s.takeTurn).notifier = s.notifier ∧ (s.takeTurn).hm = s.hm ∧
    (s.takeTurn).faults = s.faults ∧ (s.takeTurn).wire = s.wire ∧ (s.takeTurn).draws = s.draws := by
  unfold State.takeTurn
  split <;> exact ⟨rfl, rfl, rfl, rfl, rfl, rfl, rfl, rfl, rfl⟩

/-! ### What a step can reach, whatever its turn is -/

/-- How one caller's place may move in a turn: not at all, or its pc by 1 as its operation ends (R36). -/
def Placed (f : Ctx → Ctx) : Prop :=
  ∀ c, (f c).pc = c.pc ∧ (f c).res = c.res ∧ (f c).sts = c.sts ∨ (f c).pc = c.pc + 1 ∧ (f c).task = none

/-- From u a turn reaches t: the machine moves by micro-steps and engine steps to m, and beyond them only the place of
the agent whose turn it is, its fault record, and in the notifier's turn the protocol and fin, differ from m. -/
structure Reached (u t : State) : Prop where
  machine : ∃ m, Kept u m ∧ t.cfg = m.cfg ∧ t.bus = m.bus ∧ t.hm = m.hm ∧ t.wire = m.wire ∧ t.draws = m.draws ∧
    (t.faults = m.faults ∨ u.stopped u.cur = false ∧ ∃ c q, t.faults = m.faults ++ [⟨c, u.cur, q⟩])
  callers : t.callers = u.callers ∨ ∃ c f, u.turn.agent = .caller c ∧ u.stopped (.caller c) = false ∧ Placed f ∧
    (∃ k d, u.callers[c]? = some k ∧ k.current = some d) ∧
    t.callers = u.callers.modify c fun k => { k with ctx := f k.ctx }
  notifier : t.notifier = u.notifier ∧ t.fin = u.fin ∨ u.turn.agent = .notifier ∧ u.stopped .notifier = false

theorem Reached.of_kept {u t : State} (h : Kept u t) : Reached u t where
  machine := ⟨t, h, rfl, rfl, rfl, rfl, rfl, .inl rfl⟩
  callers := .inl h.callers
  notifier := .inl ⟨h.notifier, h.fin⟩

theorem Acted.reached {u t : State} {c : Nat} {k : Caller} {d : Desc} (ha : u.turn.agent = .caller c)
    (hk : u.callers[c]? = some k) (hd : k.current = some d) (h : Acted u t) : Reached u t := by
  have hcur : u.cur = .caller c := ha
  cases h with
  | none => exact .of_kept (.refl u)
  | @moved m f h hs _ hf =>
    have hm : m.turn.agent = .caller c := by rw [h.turn, ha]
    have e : m.updCtx f = { m with callers := m.callers.modify c fun k => { k with ctx := f k.ctx } } := by
      simp [State.updCtx, hm]
    rw [e]
    exact ⟨⟨m, h, rfl, rfl, rfl, rfl, rfl, .inl rfl⟩,
      .inr ⟨c, f, ha, hcur ▸ hs, hf, ⟨k, d, hk, hd⟩, by rw [← h.callers]⟩, .inl ⟨h.notifier, h.fin⟩⟩
  | @faulted m f c' h hs _ hf =>
    have hm : m.turn.agent = .caller c := by rw [h.turn, ha]
    have e : m.updCtx f = { m with callers := m.callers.modify c fun k => { k with ctx := f k.ctx } } := by
      simp [State.updCtx, hm]
    rw [e]
    exact ⟨⟨m, h, rfl, rfl, rfl, rfl, rfl, .inr ⟨hs, c', _, by
        show m.faults ++ [⟨c', m.cur, _⟩] = _
        rw [h.cur]⟩⟩,
      .inr ⟨c, f, ha, hcur ▸ hs, fun x => .inl (hf x), ⟨k, d, hk, hd⟩, by rw [← h.callers]; rfl⟩,
      .inl ⟨h.notifier, h.fin⟩⟩

/-- A callback that has not completed leaves the protocol where it is. -/
theorem afterCallback_same {pc : Nat} {t : State} (h : t.notifier.ctx.pc = pc) : afterCallback pc t = t := by
  unfold afterCallback
  rw [if_neg (fun hn => hn h)]

/-- CLK_BEFORE of i has completed. -/
theorem afterCallback_before {pc : Nat} {t : State} {i : Fin 4} {rest : List (Fin 4)} (h : t.notifier.ctx.pc ≠ pc)
    (hp : t.notifier.phase = .before (i :: rest)) : afterCallback pc t = t.atPhase (.marking i rest) := by
  unfold afterCallback
  rw [if_pos h, hp]

/-- CLK_AFTER of an instance has completed. -/
theorem afterCallback_after {pc : Nat} {t : State} {i : Fin 4} {rest : List (Fin 4)} (h : t.notifier.ctx.pc ≠ pc)
    (hp : t.notifier.phase = .after (i :: rest)) : afterCallback pc t = t.atPhase (.after rest) := by
  unfold afterCallback
  rw [if_pos h, hp]

theorem afterCallback_other (pc : Nat) (s : State) : (afterCallback pc s).cfg = s.cfg ∧
    (afterCallback pc s).bus = s.bus ∧ (afterCallback pc s).hm = s.hm ∧ (afterCallback pc s).wire = s.wire ∧
    (afterCallback pc s).draws = s.draws ∧ (afterCallback pc s).faults = s.faults ∧
    (afterCallback pc s).callers = s.callers ∧ (afterCallback pc s).fin = s.fin := by
  unfold afterCallback
  split
  · split <;> exact ⟨rfl, rfl, rfl, rfl, rfl, rfl, rfl, rfl⟩
  · exact ⟨rfl, rfl, rfl, rfl, rfl, rfl, rfl, rfl⟩

theorem Acted.callback {u t : State} {ph : NotifierPhase} {pc : Nat} (ha : u.turn.agent = .notifier)
    (hs : u.stopped .notifier = false) (h : Acted (u.atPhase ph) t) : Reached u (afterCallback pc t) := by
  obtain ⟨h1, h2, h3, h4, h5, h6, h7, h8⟩ := afterCallback_other pc t
  have hk : ∀ {m : State}, Kept (u.atPhase ph) m →
      Kept u { m with notifier := u.notifier } := fun {m} h =>
    ⟨h.cfg, h.fin, h.turn, h.sched, h.callers, rfl, h.addresses, h.wire, h.faults, h.draws, h.created, h.held,
      h.taken, h.stuck⟩
  cases h with
  | none => exact ⟨⟨u, .refl u, h1, h2, h3, h4, h5, .inl h6⟩, .inl h7, .inr ⟨ha, hs⟩⟩
  | @moved m f h _ _ hf =>
    have hm : m.turn.agent = .notifier := by rw [h.turn]; exact ha
    have e : m.updCtx f = { m with notifier := { m.notifier with ctx := f m.notifier.ctx } } := by
      simp [State.updCtx, hm]
    rw [e] at h1 h2 h3 h4 h5 h6 h7 ⊢
    exact ⟨⟨_, hk h, h1, h2, h3, h4, h5, .inl h6⟩, .inl (h7.trans h.callers), .inr ⟨ha, hs⟩⟩
  | @faulted m f c' h _ _ hf =>
    have hm : m.turn.agent = .notifier := by rw [h.turn]; exact ha
    have e : m.updCtx f = { m with notifier := { m.notifier with ctx := f m.notifier.ctx } } := by
      simp [State.updCtx, hm]
    rw [e] at h1 h2 h3 h4 h5 h6 h7 ⊢
    refine ⟨⟨_, hk h, h1, h2, h3, h4, h5, .inr ⟨?_, c', _, h6.trans (by
      show m.faults ++ [⟨c', m.cur, _⟩] = _
      rw [h.cur]; rfl)⟩⟩, .inl (h7.trans h.callers), .inr ⟨ha, hs⟩⟩
    show u.stopped u.turn.agent = false
    rw [ha]; exact hs

theorem protocol_other {u p : State} (h : fetchNotifier u = .protocol p) :
    p.cfg = u.cfg ∧ p.bus = u.bus ∧ p.hm = u.hm ∧ p.wire = u.wire ∧ p.draws = u.draws ∧ p.faults = u.faults ∧
      p.callers = u.callers := by
  unfold fetchNotifier at h
  split at h
  · split at h <;> cases h
    exact ⟨rfl, rfl, rfl, rfl, rfl, rfl, rfl⟩
  · cases h; exact ⟨rfl, rfl, rfl, rfl, rfl, rfl, rfl⟩
  · split at h
    · cases h; exact ⟨rfl, rfl, rfl, rfl, rfl, rfl, rfl⟩
    · rw [fetchDesc, decode_clkBefore] at h; cases h
  · cases h; exact ⟨rfl, rfl, rfl, rfl, rfl, rfl, rfl⟩
  · split at h
    · cases h; exact ⟨rfl, rfl, rfl, rfl, rfl, rfl, rfl⟩
    · rw [fetchDesc, decode_clkAfter] at h; cases h
  · cases h

theorem Turned.reached {u t : State} (h : Turned u t) : Reached u t := by
  cases h with
  | idle => exact .of_kept (.refl u)
  | engine j => exact .of_kept (engineStep_cases j u).kept
  | protocol ha hs hp =>
    obtain ⟨h1, h2, h3, h4, h5, h6, h7⟩ := protocol_other hp
    exact ⟨⟨u, .refl u, h1, h2, h3, h4, h5, .inl h6⟩, .inl h7, .inr ⟨ha, hs⟩⟩
  | illegal ha hk hd hr ho => exact (operate_acted ho).reached ha hk hd
  | caller ha hk hd hi he => exact (exec_acted he).reached ha hk hd
  | before ha hs hb hph hpd hv he => exact (exec_acted he).callback ha hs
  | after ha hs hb hph hpd hv he => exact (exec_acted he).callback ha hs

theorem Acted.halted {u t : State} (h : Acted u t) (hs : u.stopped u.cur = true) : t = u := by
  cases h with
  | none => rfl
  | moved _ _ h => rw [hs] at h; cases h
  | faulted _ _ _ h => rw [hs] at h; cases h

/-- A turn of an agent that has faulted does nothing (R273). -/
theorem Turned.halted {u t : State} (h : Turned u t) (hs : u.stopped u.cur = true) : t = u := by
  cases h with
  | idle => rfl
  | engine j ha =>
    have hc : u.cur = .engine j := ha
    rw [hc] at hs
    simp [engineStep, State.engineReady, hs]
  | protocol ha h =>
    have hc : u.cur = .notifier := ha
    rw [hc, h] at hs; cases hs
  | illegal _ _ _ _ ho => exact (operate_acted ho).halted hs
  | caller _ _ _ _ he => exact (exec_acted he).halted hs
  | before ha h =>
    have hc : u.cur = .notifier := ha
    rw [hc, h] at hs; cases hs
  | after ha h =>
    have hc : u.cur = .notifier := ha
    rw [hc, h] at hs; cases hs

end Sys2Proof.Machine
end

