-- ==== Sys2Proof/Laws/Invariant.lean ====
section
/-! SUPPORT. The part of the invariant that is about the machine, not the agents' places (`MachineInv`), and that every
micro-step and every engine's step keeps it. -/

namespace Sys2Proof.Machine

/-- The part of `State.Inv` about host memory, the instances, the bus log, fin and the fault list. -/
structure MachineInv (s : State) : Prop where
  memory : Memory.wf s.hm = true
  buses : ∀ j, (s.getBus j).Inv s.cfg (s.stopped (.engine j))
  wire : ∀ e ∈ s.wire, e.Inv s.cfg
  clock : s.fin ≠ 0
  faults : (s.faults.map FaultRecord.agent).Nodup

/-- The machine's invariant is about these fields alone. -/
theorem MachineInv.congr {s t : State} (h : MachineInv s) (h1 : t.hm = s.hm) (h2 : t.bus = s.bus) (h3 : t.cfg = s.cfg)
    (h4 : t.faults = s.faults) (h5 : t.wire = s.wire) (h6 : t.fin = s.fin) : MachineInv t := by
  have hb (j : Fin 4) : t.getBus j = s.getBus j := by simp [State.getBus, h2]
  have hs (a : Agent) : t.stopped a = s.stopped a := by simp [State.stopped, h4]
  exact ⟨by rw [h1]; exact h.memory, fun j => by rw [hb, hs, h3]; exact h.buses j, fun e he => by
    rw [h3]; exact h.wire e (h5 ▸ he), by rw [h6]; exact h.clock, by rw [h4]; exact h.faults⟩

/-- A change of one instance that keeps the instance's invariant. -/
theorem MachineInv.updBus {s : State} {n : Fin 4} {f : Bus → Bus} (h : MachineInv s)
    (hf : (s.getBus n).Inv s.cfg (s.stopped (.engine n)) → (f (s.getBus n)).Inv s.cfg (s.stopped (.engine n))) :
    MachineInv (s.updBus n f) where
  memory := h.memory
  buses j := by
    rw [State.stopped_updBus, State.getBus_updBus]
    split
    · rename_i e; subst e; exact hf (h.buses j)
    · exact h.buses j
  wire := h.wire
  clock := h.clock
  faults := h.faults

theorem and_masked (v m : Word) : (v &&& m) &&& ~~~m = 0 := by
  rw [BitVec.and_assoc]; simp

theorem Micro.inv {op : UOp} {n : Fin 4} {s t : State} (h : Micro op n s t) (hi : MachineInv s) : MachineInv t := by
  have keep {f : Bus → Bus} (hs : ∀ r, (f (s.getBus n)).stored r = (s.getBus n).stored r)
      (hp : (f (s.getBus n)).phase = (s.getBus n).phase)
      (ho : (f (s.getBus n)).owner ≠ none → (f (s.getBus n)).guardExists = true) : MachineInv (s.updBus n f) :=
    hi.updBus fun b => ⟨fun r hr => by rw [hs]; exact b.reserved r hr, ho, by rw [hp]; exact b.commits,
      by rw [hp]; exact b.stuck⟩
  cases h with
  | same => exact hi
  | drew => exact hi.congr rfl rfl rfl rfl rfl rfl
  | store r v hw hr hidle =>
    refine hi.updBus fun b => ?_
    obtain ⟨h3, h4⟩ := (s.getBus n).store_guard r (v &&& wmask s.cfg r)
    have h1 : ((s.getBus n).store r (v &&& wmask s.cfg r)).phase = (s.getBus n).phase := by cases r <;> rfl
    refine ⟨fun q hq => ?_, by rw [h3, h4]; exact b.owned, by rw [h1]; exact b.commits, by rw [h1]; exact b.stuck⟩
    by_cases e : q = r
    · subst e
      have : ((s.getBus n).store q (v &&& wmask s.cfg q)).stored q = v &&& wmask s.cfg q := by
        cases q <;> first | exact absurd rfl hq | simp [Bus.store, Bus.stored]
      rw [this]; exact and_masked v _
    · have : ((s.getBus n).store r (v &&& wmask s.cfg r)).stored q = (s.getBus n).stored q := by
        cases r <;> cases q <;> first
          | exact absurd rfl e
          | rfl
          | exact absurd rfl hr
          | (rename_i a c
             have : a.val ≠ c.val := fun h => e (by rw [Fin.ext h])
             simp [Bus.store, Bus.stored, this])
      rw [this]; exact b.reserved q hq
  | trigger hw hidle =>
    refine hi.updBus fun b => ⟨fun q hq => ?_, b.owned, (fun h => by cases h), fun _ => rfl⟩
    have := b.reserved q hq
    cases q <;> first | exact absurd rfl hq | exact this
  | commit hw hidle hc =>
    refine hi.updBus fun b => ⟨fun q hq => ?_, b.owned, fun _ => hc, fun h => ?_⟩
    · have := b.reserved q hq
      cases q <;> first | exact absurd rfl hq | exact this
    · have := b.stuck h
      rw [hidle] at this; cases this
  | mem hm ha => exact ⟨by rw [← hi.memory]; exact wf_congr _ _ ha, hi.buses, hi.wire, hi.clock, hi.faults⟩
  | create => exact keep (fun r => by cases r <;> rfl) rfl fun _ => rfl
  | acquire _ hg => exact keep (fun r => by cases r <;> rfl) rfl fun _ => hg
  | release => exact keep (fun r => by cases r <;> rfl) rfl fun h => absurd rfl h
  | registered => exact keep (fun r => by cases r <;> rfl) rfl (hi.buses n).owned
  | started => exact keep (fun r => by cases r <;> rfl) rfl (hi.buses n).owned

theorem masked_masked (c : RegCfg) (cfg : Cfg) : (c.masked cfg).masked cfg = c.masked cfg := by
  simp [RegCfg.masked, BitVec.and_assoc]

/-- The record of an agent that had not faulted keeps the fault list free of repeats. -/
theorem nodup_record {s : State} {a : Agent} {c : FaultCause} {q : Option Nat} (h : (s.faults.map FaultRecord.agent).Nodup)
    (hs : s.stopped a = false) : ((s.faults ++ [(⟨c, a, q⟩ : FaultRecord)]).map FaultRecord.agent).Nodup := by
  rw [List.map_append, List.nodup_append]
  refine ⟨h, by simp, fun b hb d hd => ?_⟩
  simp only [List.map_cons, List.map_nil, List.mem_cons, List.not_mem_nil, or_false] at hd
  subst hd
  obtain ⟨f, hf, rfl⟩ := List.mem_map.mp hb
  rintro e
  simp only [State.stopped, List.any_eq_false, beq_iff_eq] at hs
  exact hs f hf e

theorem EngineMove.inv {n : Fin 4} {s t : State} (h : EngineMove n s t) (hi : MachineInv s) : MachineInv t := by
  cases h with
  | none => exact hi
  | commit hp hs =>
    refine hi.updBus fun b => ⟨fun q hq => ?_, b.owned, (fun h => by cases h), fun h => by rw [hs] at h; cases h⟩
    have := b.reserved q hq
    cases q <;> first | exact absurd rfl hq | exact this
  | complete hp hs =>
    unfold completeStep
    dsimp only
    split
    · refine ⟨hi.memory, fun j => ?_, hi.wire, hi.clock, nodup_record hi.faults hs⟩
      have b := hi.buses j
      refine ⟨b.reserved, b.owned, b.commits, fun h => ?_⟩
      rw [State.stopped_record] at h
      simp only [Bool.or_eq_true, beq_iff_eq, Agent.engine.injEq] at h
      rcases h with h | rfl
      · exact b.stuck h
      · exact hp
    · rename_i hn
      have hu (w : Vector Word 16) : MachineInv (s.updBus n fun b => { b with w := w, phase := .idle }) := by
        refine hi.updBus fun b => ⟨fun q hq => ?_, b.owned, (fun h => by cases h), fun h => by rw [hs] at h; cases h⟩
        cases q with
        | cmd => exact absurd rfl hq
        | w k => simp [wmask]
        | clock => exact b.reserved .clock (by simp)
        | ctrl => exact b.reserved .ctrl (by simp)
        | user => exact b.reserved .user (by simp)
        | pin => exact b.reserved .pin (by simp)
        | mosiDlen => exact b.reserved .mosiDlen (by simp)
        | misoDlen => exact b.reserved .misoDlen (by simp)
        | clkGate => exact b.reserved .clkGate (by simp)
      have ha (u : State) (e : WireEvent) (hu : MachineInv u) (he : e.Inv u.cfg) : MachineInv ((u.addWire e).addDraws 2) :=
        ⟨hu.memory, hu.buses, fun f hf => by
          simp only [State.addDraws_wire, State.addWire_wire, List.mem_append, List.mem_cons, List.not_mem_nil,
            or_false] at hf
          rcases hf with hf | rfl
          · exact hu.wire f hf
          · exact he, hu.clock, hu.faults⟩
      refine ha _ _ (hu _) ⟨⟨by simp, by simp; omega⟩, by simp, rfl, masked_masked _ _, fun hl => ?_, hi.clock⟩
      simp only [State.updBus_cfg] at hl
      apply List.map_congr_left
      intro k hk
      simp [rxBit, hl]

theorem Moves.inv {F : UOp → Prop} {n : Fin 4} {s t : State} (h : Moves F n s t) (hi : MachineInv s) : MachineInv t := by
  induction h with
  | refl => exact hi
  | micro _ _ hm ih => exact hm.inv ih
  | engine _ _ _ he ih => exact he.inv ih

end Sys2Proof.Machine
end

