-- ==== Sys2Proof/Laws/Frames.lean ====
section
/-! SUPPORT. What the micro-steps of one operation and its polled engine's steps leave unchanged (`Framed`): the access
matrix of R44, micro-step by micro-step, and what the place of the running agent adds to it. -/

namespace Sys2Proof.Machine

/-- What moves of operation i on instance n leave unchanged in the machine. -/
structure Framed (i : Instr) (s t : State) : Prop where
  others : ∀ j, instOf i ≠ some j → t.getBus j = s.getBus j
  registers : ∀ j r, r ≠ .cmd → ¬ mayWrite s.cfg i r → ((∃ k, r = .w k) → t.wire = s.wire) →
    (t.getBus j).stored r = (s.getBus j).stored r
  command : ∀ j, ¬ mayWrite s.cfg i .cmd → s.turn.prompt = false → (t.getBus j).phase = (s.getBus j).phase
  active : ∀ j, s.turn.prompt = false → (t.getBus j).act = (s.getBus j).act
  guardExists : ∀ j, createsGuard i = false → (t.getBus j).guardExists = (s.getBus j).guardExists
  owner : ∀ j, takesGuard i = false → freesGuard i = false → (t.getBus j).owner = (s.getBus j).owner
  lifecycle : ∀ j, setsLifecycle i = false →
    (t.getBus j).started = (s.getBus j).started ∧ (t.getBus j).registered = (s.getBus j).registered
  memory : ∀ a, ¬ mayStore i a → memByte t.hm a = memByte s.hm a
  wire : s.turn.prompt = false → t.wire = s.wire
  faults : ∀ f ∈ t.faults, f ∈ s.faults ∨ (s.turn.prompt = true ∧ ∃ j, instOf i = some j ∧ f.agent = .engine j)
  kept : Kept s t
  inv : MachineInv s → MachineInv t

theorem prefix_middle {α : Type} {a b c : List α} (h : a <+: b) (g : b <+: c) (e : c = a) : b = a := by
  subst e
  exact (List.IsPrefix.eq_of_length_le h (g.length_le)).symm

theorem Framed.refl (i : Instr) (s : State) : Framed i s s :=
  ⟨fun _ _ => rfl, fun _ _ _ _ _ => rfl, fun _ _ _ => rfl, fun _ _ => rfl, fun _ _ => rfl, fun _ _ _ => rfl,
    fun _ _ => ⟨rfl, rfl⟩, fun _ _ => rfl, fun _ => rfl, fun _ h => .inl h, .refl s, id⟩

theorem Framed.trans {i : Instr} {s t u : State} (h : Framed i s t) (g : Framed i t u) : Framed i s u where
  others j hj := (g.others j hj).trans (h.others j hj)
  registers j r hr hw he := by
    have e : (∃ k, r = .w k) → t.wire = s.wire := fun hk => prefix_middle h.kept.wire g.kept.wire (he hk)
    exact (g.registers j r hr (by rwa [h.kept.cfg]) fun hk => by rw [he hk, e hk]).trans (h.registers j r hr hw e)
  command j hw hp := (g.command j (by rwa [h.kept.cfg]) (by rwa [h.kept.turn])).trans (h.command j hw hp)
  active j hp := (g.active j (by rwa [h.kept.turn])).trans (h.active j hp)
  guardExists j hc := (g.guardExists j hc).trans (h.guardExists j hc)
  owner j ht hf := (g.owner j ht hf).trans (h.owner j ht hf)
  lifecycle j hl := ⟨(g.lifecycle j hl).1.trans (h.lifecycle j hl).1, (g.lifecycle j hl).2.trans (h.lifecycle j hl).2⟩
  memory a ha := (g.memory a ha).trans (h.memory a ha)
  wire hp := (g.wire (by rwa [h.kept.turn])).trans (h.wire hp)
  faults f hf := by
    rcases g.faults f hf with h1 | ⟨hp, h1⟩
    · exact h.faults f h1
    · exact .inr ⟨by rwa [h.kept.turn] at hp, h1⟩
  kept := h.kept.trans g.kept
  inv hi := g.inv (h.inv hi)

/-- The calculator operations, which name no instance, write nothing (R44). -/
theorem calculator_writes_nothing {i : Instr} (h : instOf i = none) : (∀ cfg r, ¬ mayWrite cfg i r) ∧
    takesGuard i = false ∧ freesGuard i = false ∧ createsGuard i = false ∧ setsLifecycle i = false := by
  cases i <;> simp [instOf] at h <;>
    exact ⟨fun _ _ h => h, rfl, rfl, rfl, rfl⟩

theorem Bus.stored_store (b : Bus) (r q : Reg) (v : Word) (hr : r ≠ .cmd) :
    (b.store r v).stored q = if q = r then v else b.stored q := by
  cases r with
  | cmd => exact absurd rfl hr
  | w k =>
    cases q with
    | w l =>
      by_cases hkl : l = k
      · subst hkl; simp [Bus.store, Bus.stored]
      · have : k.val ≠ l.val := fun e => hkl (Fin.ext e.symm)
        simp [Bus.store, Bus.stored, this, hkl]
    | _ => simp [Bus.store, Bus.stored]
  | _ => cases q <;> simp [Bus.store, Bus.stored]

theorem Bus.store_rest (b : Bus) (r : Reg) (v : Word) : (b.store r v).phase = b.phase ∧ (b.store r v).act = b.act ∧
    (b.store r v).guardExists = b.guardExists ∧ (b.store r v).owner = b.owner ∧ (b.store r v).started = b.started ∧
    (b.store r v).registered = b.registered := by
  cases r <;> exact ⟨rfl, rfl, rfl, rfl, rfl, rfl⟩

/-- A change of one instance that the matrix allows. -/
theorem Framed.updBus {i : Instr} {s : State} {n : Fin 4} {f : Bus → Bus} (hk : Kept s (s.updBus n f))
    (hv : MachineInv s → MachineInv (s.updBus n f))
    (hn : instOf i = some n) (hr : ∀ r, r ≠ .cmd → ¬ mayWrite s.cfg i r → (f (s.getBus n)).stored r = (s.getBus n).stored r)
    (hp : ¬ mayWrite s.cfg i .cmd → (f (s.getBus n)).phase = (s.getBus n).phase)
    (ha : (f (s.getBus n)).act = (s.getBus n).act)
    (hg : createsGuard i = false → (f (s.getBus n)).guardExists = (s.getBus n).guardExists)
    (ho : takesGuard i = false → freesGuard i = false → (f (s.getBus n)).owner = (s.getBus n).owner)
    (hl : setsLifecycle i = false → (f (s.getBus n)).started = (s.getBus n).started ∧
      (f (s.getBus n)).registered = (s.getBus n).registered) : Framed i s (s.updBus n f) where
  others j hj := State.getBus_updBus_ne _ _ _ _ fun e => hj (by rw [e]; exact hn)
  registers j r h1 h2 _ := by
    rw [State.getBus_updBus]; split
    · rename_i e; subst e; exact hr r h1 h2
    · rfl
  command j h1 _ := by
    rw [State.getBus_updBus]; split
    · rename_i e; subst e; exact hp h1
    · rfl
  active j _ := by
    rw [State.getBus_updBus]; split
    · rename_i e; subst e; exact ha
    · rfl
  guardExists j h := by
    rw [State.getBus_updBus]; split
    · rename_i e; subst e; exact hg h
    · rfl
  owner j h1 h2 := by
    rw [State.getBus_updBus]; split
    · rename_i e; subst e; exact ho h1 h2
    · rfl
  lifecycle j h := by
    rw [State.getBus_updBus]; split
    · rename_i e; subst e; exact hl h
    · exact ⟨rfl, rfl⟩
  memory _ _ := rfl
  wire _ := rfl
  faults _ h := .inl h
  kept := hk
  inv := hv

/-- A change outside the instances. -/
theorem Framed.other {i : Instr} {s t : State} (hk : Kept s t) (hv : MachineInv s → MachineInv t) (hb : t.bus = s.bus) (hw : t.wire = s.wire)
    (hf : t.faults = s.faults) (hm : ∀ a, ¬ mayStore i a → memByte t.hm a = memByte s.hm a) : Framed i s t := by
  have hb (j : Fin 4) : t.getBus j = s.getBus j := by simp [State.getBus, hb]
  exact ⟨fun j _ => hb j, fun j _ _ _ _ => by rw [hb], fun j _ _ => by rw [hb], fun j _ => by rw [hb],
    fun j _ => by rw [hb], fun j _ _ => by rw [hb], fun j _ => by rw [hb]; exact ⟨rfl, rfl⟩, hm, fun _ => hw,
    fun f h => .inl (hf ▸ h), hk, hv⟩

theorem within_writes {cfg : Cfg} {i : Instr} {op : UOp} {r : Reg} (h : op.within cfg i) (hw : op.writes = some r) :
    mayWrite cfg i r := by
  cases op <;> simp only [UOp.writes, Option.some.injEq, reduceCtorEq] at hw <;> subst hw <;> exact h

theorem within_stores {cfg : Cfg} {i : Instr} {op : UOp} {a : Nat} (h : op.within cfg i) (hs : op.stores a) :
    mayStore i a := by
  cases op <;> simp only [UOp.stores] at hs
  · exact h a hs.1 hs.2
  · subst hs; exact h

/-- Some instance is named by an operation that writes a register, touches a guard or sets a lifecycle flag. -/
theorem inst_of_writes {cfg : Cfg} {i : Instr} {n : Fin 4} (hn : ∀ j, instOf i = some j → n = j)
    (h : (∃ r, mayWrite cfg i r) ∨ takesGuard i = true ∨ freesGuard i = true ∨ createsGuard i = true ∨
      setsLifecycle i = true) : instOf i = some n := by
  cases hi : instOf i with
  | some j => rw [hn j hi]
  | none =>
    obtain ⟨h1, h2, h3, h4, h5⟩ := calculator_writes_nothing hi
    rcases h with ⟨r, h⟩ | h | h | h | h
    · exact (h1 cfg r h).elim
    all_goals simp_all

theorem Micro.framed {op : UOp} {i : Instr} {n : Fin 4} {s t : State} (hn : ∀ j, instOf i = some j → n = j)
    (ho : op.within s.cfg i) (h : Micro op n s t) : Framed i s t := by
  have hk := h.kept
  have hv := h.inv
  cases h with
  | same => exact .refl i s
  | drew => exact .other hk hv rfl rfl rfl fun _ _ => rfl
  | store r v hw hr hi =>
    have hwr := within_writes ho hw
    obtain ⟨h1, h2, h3, h4, h5, h6⟩ := (s.getBus n).store_rest r (v &&& wmask s.cfg r)
    refine .updBus hk hv (inst_of_writes (cfg := s.cfg) hn (.inl ⟨r, hwr⟩)) (fun q hq hm => ?_) (fun _ => h1) h2 (fun _ => h3)
      (fun _ _ => h4) fun _ => ⟨h5, h6⟩
    rw [Bus.stored_store _ _ _ _ hr, if_neg]
    rintro rfl; exact hm hwr
  | trigger hw hi =>
    have hwr := within_writes ho hw
    exact .updBus hk hv (inst_of_writes (cfg := s.cfg) hn (.inl ⟨_, hwr⟩)) (fun q hq _ => by cases q <;> first | rfl | exact absurd rfl hq)
      (fun h => absurd hwr h) rfl (fun _ => rfl) (fun _ _ => rfl) fun _ => ⟨rfl, rfl⟩
  | commit hw hi =>
    have hwr := within_writes ho hw
    exact .updBus hk hv (inst_of_writes (cfg := s.cfg) hn (.inl ⟨_, hwr⟩)) (fun q hq _ => by cases q <;> first | rfl | exact absurd rfl hq)
      (fun h => absurd hwr h) rfl (fun _ => rfl) (fun _ _ => rfl) fun _ => ⟨rfl, rfl⟩
  | mem hm ha hb => exact .other hk hv rfl rfl rfl fun a hs => hb a fun h => hs (within_stores ho h)
  | create he hg =>
    subst he
    have hc : createsGuard i = true := ho
    have ht : takesGuard i = true := by cases i <;> simp [createsGuard] at hc; rfl
    exact .updBus hk hv (inst_of_writes (cfg := s.cfg) hn (.inr (.inr (.inr (.inl ho))))) (fun q _ _ => by cases q <;> rfl) (fun _ => rfl)
      rfl (fun h => by rw [hc] at h; cases h) (fun h => by rw [ht] at h; cases h) fun _ => ⟨rfl, rfl⟩
  | acquire he =>
    subst he
    have ht : takesGuard i = true := ho
    exact .updBus hk hv (inst_of_writes (cfg := s.cfg) hn (.inr (.inl ho))) (fun q _ _ => by cases q <;> rfl) (fun _ => rfl)
      rfl (fun _ => rfl) (fun h => by rw [ht] at h; cases h) fun _ => ⟨rfl, rfl⟩
  | release he =>
    subst he
    have ht : freesGuard i = true := ho
    exact .updBus hk hv (inst_of_writes (cfg := s.cfg) hn (.inr (.inr (.inl ho)))) (fun q _ _ => by cases q <;> rfl) (fun _ => rfl)
      rfl (fun _ => rfl) (fun _ h => by rw [ht] at h; cases h) fun _ => ⟨rfl, rfl⟩
  | registered v he =>
    subst he
    have ht : setsLifecycle i = true := ho
    exact .updBus hk hv (inst_of_writes (cfg := s.cfg) hn (.inr (.inr (.inr (.inr ho))))) (fun q _ _ => by cases q <;> rfl) (fun _ => rfl)
      rfl (fun _ => rfl) (fun _ _ => rfl) fun h => by rw [ht] at h; cases h
  | started v he =>
    subst he
    have ht : setsLifecycle i = true := ho
    exact .updBus hk hv (inst_of_writes (cfg := s.cfg) hn (.inr (.inr (.inr (.inr ho))))) (fun q _ _ => by cases q <;> rfl) (fun _ => rfl)
      rfl (fun _ => rfl) (fun _ _ => rfl) fun h => by rw [ht] at h; cases h

theorem EngineMove.framed {i : Instr} {n : Fin 4} {s t : State} (hi : instOf i = some n) (hp : s.turn.prompt = true)
    (h : EngineMove n s t) : Framed i s t := by
  have hk := h.kept
  have hv := h.inv
  have np {P : Prop} (h : s.turn.prompt = false) : P := by rw [hp] at h; cases h
  cases h with
  | none => exact .refl i s
  | commit hph hs =>
    refine ⟨fun j hj => ?_, fun j r hr _ _ => ?_, fun _ _ h => np h, fun _ h => np h, fun j _ => ?_, fun j _ _ => ?_,
      fun j _ => ?_, fun _ _ => rfl, fun _ => rfl, fun _ h => .inl h, hk, hv⟩
    · exact State.getBus_updBus_ne _ _ _ _ fun e => hj (by rw [e]; exact hi)
    all_goals
      unfold commitStep
      rw [State.getBus_updBus]
      split
      · rename_i e; subst e
        first
          | rfl
          | exact ⟨rfl, rfl⟩
          | (cases r <;> first | rfl | exact absurd rfl hr)
      · first | rfl | exact ⟨rfl, rfl⟩
  | complete hph hs =>
    unfold completeStep at hk hv ⊢
    dsimp only at hk hv ⊢
    split
    · rename_i hlt
      rw [if_pos hlt] at hk hv
      exact ⟨fun _ _ => rfl, fun _ _ _ _ _ => rfl, fun _ _ _ => rfl, fun _ _ => rfl, fun _ _ => rfl, fun _ _ _ => rfl,
        fun _ _ => ⟨rfl, rfl⟩, fun _ _ => rfl, fun _ => rfl, fun f hf => by
          simp only [State.record, List.mem_append, List.mem_cons, List.not_mem_nil, or_false] at hf
          rcases hf with h | rfl
          · exact .inl h
          · exact .inr ⟨hp, n, hi, rfl⟩, hk, hv⟩
    · rename_i hlt
      rw [if_neg hlt] at hk hv
      refine ⟨fun j hj => ?_, fun j r hr _ hw => ?_, fun _ _ h => np h, fun _ h => np h, fun j _ => ?_, fun j _ _ => ?_,
        fun j _ => ?_, fun _ _ => rfl, fun h => np h, fun _ h => .inl h, hk, hv⟩
      · rw [State.getBus_addDraws, State.getBus_addWire]
        exact State.getBus_updBus_ne _ _ _ _ fun e => hj (by rw [e]; exact hi)
      · rw [State.getBus_addDraws, State.getBus_addWire, State.getBus_updBus]
        split
        · rename_i e; subst e
          cases r with
          | cmd => exact absurd rfl hr
          | w k =>
            have := congrArg List.length (hw ⟨k, rfl⟩)
            simp at this
          | _ => rfl
        · rfl
      all_goals
        rw [State.getBus_addDraws, State.getBus_addWire, State.getBus_updBus]
        split
        · rename_i e; subst e; first | rfl | exact ⟨rfl, rfl⟩
        · first | rfl | exact ⟨rfl, rfl⟩

theorem Moves.framed {i : Instr} {n : Fin 4} {s t : State} (hn : ∀ j, instOf i = some j → n = j)
    (h : Moves (UOp.within s.cfg i) n s t) : Framed i s t := by
  induction h with
  | refl => exact .refl i s
  | @micro m t op h ho hm ih => exact ih.trans (Micro.framed hn (by rw [ih.kept.cfg]; exact ho) hm)
  | @engine m t h hp hf he ih =>
    obtain ⟨r, k, hf⟩ := hf
    have : instOf i = some n := by
      cases hi : instOf i with
      | some j => rw [hn j hi]
      | none => exact absurd hi hf
    exact ih.trans (he.framed this hp)

/-- A turn on operation i: the machine's moves, then the running agent's place, then on a fault its record. -/
inductive Ran (i : Instr) (s : State) : State → Prop
  | none : Ran i s s
  | moved {m : State} (f : Ctx → Ctx) (h : Framed i s m) (hs : s.stopped s.cur = false) (hx : s.ctx? ≠ none)
      (hf : Placed f) (ht : ∀ c k, s.ctx? = some c → (f c).task = some k → k.Of s.cfg i) : Ran i s (m.updCtx f)
  | faulted {m : State} (f : Ctx → Ctx) (c : FaultCause) (h : Framed i s m) (hs : s.stopped s.cur = false)
      (hx : s.ctx? ≠ none) (hf : ∀ c, (f c).pc = c.pc ∧ (f c).res = c.res ∧ (f c).sts = c.sts)
      (ht : ∀ c k, s.ctx? = some c → (f c).task = some k → k.Of s.cfg i) : Ran i s ((m.updCtx f).raise c)

theorem Left.ran {i : Instr} {k : Task} {s t : State} (hk : k.Of s.cfg i) (hs : s.stopped s.cur = false)
    (hx : s.ctx? ≠ none) (h : Left (UOp.within s.cfg i) k s t) : Ran i s t := by
  cases h with
  | ended v h => exact .moved _ (h.framed hk.inst) hs hx (fun c => .inr ⟨rfl, rfl⟩) fun c k _ h => by cases h
  | kept ops x y h ho =>
    exact .moved _ (h.framed hk.inst) hs hx (fun c => .inl ⟨rfl, rfl, rfl⟩) fun c k' _ h => by
      cases h; exact ⟨hk.inst, ho⟩
  | faulted ops x y op c h ho =>
    exact .faulted _ c (h.framed hk.inst) hs hx (fun c => ⟨rfl, rfl, rfl⟩) fun c k' _ h => by
      cases h; exact ⟨hk.inst, ho⟩

/-- Every way `exec i` can go, from a state whose running agent is between operations or inside one of i. -/
theorem exec_ran {i : Instr} {s t : State} (hr : Resumes i s) (h : exec i s = .next t) : Ran i s t := by
  rcases exec_left hr h with rfl | ⟨hs, ⟨c, k, hc, -, hk, hl⟩ | ⟨c, hc, hn, hl⟩⟩
  · exact .none
  · exact hl.ran hk hs (by simp [hc])
  · have hx : s.ctx? ≠ none := by simp [hc]
    rcases hl with ⟨v, -, rfl⟩ | ⟨st, -, rfl⟩ | ⟨f, -, rfl⟩ | ⟨k, -, hk, hl⟩
    · exact .moved _ (.refl i s) hs hx (fun c => .inr ⟨rfl, rfl⟩) fun c k _ h => by cases h
    · exact .moved _ (.refl i s) hs hx (fun c => .inr ⟨rfl, rfl⟩) fun c k _ h => by cases h
    · have e : s.raise f = (s.updCtx id).raise f := by rw [s.updCtx_id]
      rw [e]
      exact .faulted _ f (.refl i s) hs hx (fun c => ⟨rfl, rfl, rfl⟩) fun c' k h1 h2 => by
        rw [hc] at h1; cases h1; rw [show (id c).task = c.task from rfl, hn] at h2; cases h2
    · exact hl.ran hk hs hx

/-! ### Under the invariant the running agent is inside an operation of its own -/

theorem State.Inv.takeTurn {s : State} (h : s.Inv) : s.takeTurn.Inv := by
  unfold State.takeTurn
  split <;> exact ⟨h.memory, h.buses, h.wire, h.callers, h.notifier, h.clock, h.faults⟩

theorem State.Inv.resumes_caller {u : State} {c : Nat} {k : Caller} {d : Desc} {i : Instr} (h : u.Inv)
    (ha : u.turn.agent = .caller c) (hk : u.callers[c]? = some k) (hd : k.current = some d) (hi : decode d = .ok i) :
    Resumes i u := by
  intro x o hx ho
  have : x = k.ctx := by
    simp only [State.ctx?, ha, hk, Option.map_some, Option.some.injEq] at hx
    exact hx.symm
  subst this
  obtain ⟨d', i', hd', hi', hof⟩ := (h.callers k (List.mem_of_getElem? hk)).task o ho
  rw [hd] at hd'; cases hd'
  rw [hi] at hi'; cases hi'
  exact hof

theorem State.Inv.no_task_of_illegal {u : State} {c : Nat} {k : Caller} {d : Desc} {r : Reject} (h : u.Inv)
    (hk : u.callers[c]? = some k) (hd : k.current = some d) (hr : decode d = .illegal r) : k.ctx.task = none := by
  cases ho : k.ctx.task with
  | none => rfl
  | some o =>
    obtain ⟨d', i', hd', hi', -⟩ := (h.callers k (List.mem_of_getElem? hk)).task o ho
    rw [hd] at hd'; cases hd'
    rw [hr] at hi'; cases hi'

theorem State.Inv.resumes_before {u : State} {todo rest : List (Fin 4)} {j : Fin 4} {p : Pending} (h : u.Inv)
    (ha : u.turn.agent = .notifier) (hph : u.notifier.phase = .before todo) (hpd : u.notifier.pending = some p)
    (hv : visitOrder u todo = j :: rest) : Resumes (.clkBefore j p.old p.new) (u.atPhase (.before (j :: rest))) := by
  intro x o hx ho
  have : x = u.notifier.ctx := by
    simp only [State.ctx?, State.atPhase, ha, Option.some.injEq] at hx
    exact hx.symm
  subst this
  have hn := h.notifier.2
  rw [hph, hpd] at hn
  obtain ⟨i, l, he, hof⟩ := hn.2.2 o ho
  have : visitOrder u todo = todo := by simp [visitOrder, ho]
  rw [this, he] at hv
  cases hv
  exact hof

theorem State.Inv.resumes_after {u : State} {todo rest : List (Fin 4)} {j : Fin 4} {p : Pending} (h : u.Inv)
    (ha : u.turn.agent = .notifier) (hph : u.notifier.phase = .after todo) (hpd : u.notifier.pending = some p)
    (hv : visitOrder u todo = j :: rest) : Resumes (.clkAfter j p.old p.new) (u.atPhase (.after (j :: rest))) := by
  intro x o hx ho
  have : x = u.notifier.ctx := by
    simp only [State.ctx?, State.atPhase, ha, Option.some.injEq] at hx
    exact hx.symm
  subst this
  have hn := h.notifier.2
  rw [hph, hpd] at hn
  obtain ⟨i, l, he, hof⟩ := hn.2.2 o ho
  have : visitOrder u todo = todo := by simp [visitOrder, ho]
  rw [this, he] at hv
  cases hv
  exact hof

/-- What the machine does in a step from a state of the invariant: nothing, one engine's step, a micro-step of the
notifier's protocol, a fault record for an illegal descriptor, or a turn on the operation that runs. -/
inductive Went (s : State) : State → Prop
  | still {t : State} (hb : t.bus = s.bus) (hh : t.hm = s.hm) (hf : t.fin ≠ s.fin → s.mover = .notifier)
      (hw : t.wire = s.wire) : Went s t
  | engine (j : Fin 4) (ha : s.mover = .engine j) : Went s (engineStep j s.takeTurn)
  | ran {i : Instr} {m t : State} (hr : s.running = some i) (h : Framed i s.takeTurn m) (hb : t.bus = m.bus)
      (hh : t.hm = m.hm) (hw : t.wire = m.wire) (hf : t.fin = s.fin) : Went s t

theorem Ran.machine {i : Instr} {u t : State} (h : Ran i u t) : ∃ m, Framed i u m ∧ t.bus = m.bus ∧ t.hm = m.hm ∧
    t.wire = m.wire ∧ t.fin = u.fin := by
  cases h with
  | none => exact ⟨u, .refl i u, rfl, rfl, rfl, rfl⟩
  | @moved m f h => exact ⟨m, h, by simp, by simp, by simp, by simp [h.kept.fin]⟩
  | @faulted m f c h => exact ⟨m, h, by simp, by simp, by simp, by simp [h.kept.fin]⟩

theorem running_notifier {s : State} (ha : s.takeTurn.turn.agent = .notifier) (hs : s.takeTurn.stopped .notifier = false)
    (hb : s.takeTurn.turn.burst ≠ 0) : s.running = match fetchNotifier s.takeTurn with
      | .instr i _ => some i
      | _ => none := by
  unfold State.running fetch
  rw [ha]
  simp only [hs, hb, decide_false, Bool.or_false, Bool.false_eq_true, if_false]
  split <;> simp_all

theorem Framed.atPhase {i : Instr} {u m : State} {ph : NotifierPhase} (h : Framed i (u.atPhase ph) m) :
    Framed i u { m with notifier := u.notifier } :=
  ⟨h.others, h.registers, h.command, h.active, h.guardExists, h.owner, h.lifecycle, h.memory, h.wire, h.faults,
    ⟨h.kept.cfg, h.kept.fin, h.kept.turn, h.kept.sched, h.kept.callers, rfl, h.kept.addresses, h.kept.wire,
      h.kept.faults, h.kept.draws, h.kept.created, h.kept.held, h.kept.taken, h.kept.stuck⟩,
    fun hi => (h.inv (hi.congr rfl rfl rfl rfl rfl rfl)).congr rfl rfl rfl rfl rfl rfl⟩

theorem step_went {s t : State} (hi : s.Inv) (h : step s = .next t) : Went s t := by
  obtain ⟨h1, h2, h3, h4, h5, h6, h7, h8, h9⟩ := takeTurn_kept s
  have hu := hi.takeTurn
  cases (step_turned h).2 with
  | idle => exact .still h3 h6 (fun h => absurd h2 h) h8
  | engine j ha => exact .engine j ha
  | protocol ha hs hp =>
    obtain ⟨p1, p2, p3, p4, p5, p6, p7⟩ := protocol_other hp
    exact .still (p2.trans h3) (p3.trans h6) (fun _ => ha) (p4.trans h8)
  | @illegal c k d r t ha hk hd hr ho =>
    have hx : s.takeTurn.ctx? = some k.ctx := by simp [State.ctx?, ha, hk]
    have hn := hu.no_task_of_illegal hk hd hr
    unfold operate at ho
    rw [hx] at ho
    dsimp only at ho
    split at ho
    · cases ho; exact .still h3 h6 (fun h => absurd h2 h) h8
    · split at ho
      · cases ho; exact .still h3 h6 (fun h => absurd h2 h) h8
      · rw [hn] at ho
        cases ho
        exact .still h3 h6 (fun h => absurd h2 h) h8
  | @caller c k d i t ha hk hd hdec he =>
    obtain ⟨m, hm, e1, e2, e3, e4⟩ := (exec_ran (hu.resumes_caller ha hk hd hdec) he).machine
    exact .ran (by simp [State.running, fetch, ha, hk, hd, fetchDesc, hdec]) hm e1 e2 e3 (e4.trans h2)
  | @before todo rest j p m ha hs hb hph hpd hv he =>
    obtain ⟨m', hm, e1, e2, e3, e4⟩ := (exec_ran (hu.resumes_before ha hph hpd hv) he).machine
    obtain ⟨c1, c2, c3, c4, c5, c6, c7, c8⟩ := afterCallback_other s.takeTurn.notifier.ctx.pc m
    refine .ran (i := .clkBefore j p.old p.new) ?_ hm.atPhase (c2.trans e1) (c3.trans e2) (c4.trans e3)
      ((c8.trans e4).trans h2)
    rw [running_notifier ha hs hb]
    unfold fetchNotifier
    rw [hph, hpd]
    simp only [hv, fetchDesc, decode_clkBefore]
  | @after todo rest j p m ha hs hb hph hpd hv he =>
    obtain ⟨m', hm, e1, e2, e3, e4⟩ := (exec_ran (hu.resumes_after ha hph hpd hv) he).machine
    obtain ⟨c1, c2, c3, c4, c5, c6, c7, c8⟩ := afterCallback_other s.takeTurn.notifier.ctx.pc m
    refine .ran (i := .clkAfter j p.old p.new) ?_ hm.atPhase (c2.trans e1) (c3.trans e2) (c4.trans e3)
      ((c8.trans e4).trans h2)
    rw [running_notifier ha hs hb]
    unfold fetchNotifier
    rw [hph, hpd]
    simp only [hv, fetchDesc, decode_clkAfter]

end Sys2Proof.Machine
end

