-- ==== Sys2Proof/Laws/Lifecycle.lean ====
section
/-! SUPPORT. The register micro-steps of the lifecycle and configuration operations (R230 to R240): runs of register
writes, the bodies of SET_MODE and SET_ORDER, and a locked body of them. -/

namespace Sys2Proof.Machine

theorem RunsIn.to {i : Fin 4} {m : Nat} {ops ops' : List UOp} {x y x' y' : Word} {s s' t : State}
    (h : RunsIn i m ops x y s ops' x' y' s') (e : s' = t) : RunsIn i m ops x y s ops' x' y' t := e ▸ h

@[simp] theorem Bus.store_phase (b : Bus) (r : Reg) (v : Word) : (b.store r v).phase = b.phase := by cases r <;> rfl

@[simp] theorem Bus.store_owner (b : Bus) (r : Reg) (v : Word) : (b.store r v).owner = b.owner := by cases r <;> rfl

@[simp] theorem Bus.store_guardExists (b : Bus) (r : Reg) (v : Word) : (b.store r v).guardExists = b.guardExists := by
  cases r <;> rfl

theorem Quiet.store {i : Fin 4} {s : State} {r : Reg} {f : Bus → Word} (h : Quiet i s) :
    Quiet i (s.updBus i fun b => b.store r (f b)) := by
  simpa [Quiet] using h

/-- Registers written one by one. -/
def storeAll (cfg : Cfg) (l : List (Reg × Word)) (b : Bus) : Bus :=
  l.foldl (fun b p => b.store p.1 (p.2 &&& wmask cfg p.1)) b

/-- A list of register writes runs through (R111). -/
theorem writes_run {i : Fin 4} {x y : Word} (l : List (Reg × Word)) :
    ∀ (s : State), (∀ p ∈ l, p.1 ≠ .cmd) → Quiet i s →
      RunsIn i l.length (l.map fun p => .wr p.1 p.2) x y s [] x y (s.updBus i (storeAll s.cfg l)) := by
  induction l with
  | nil =>
    intro s _ _
    exact RunsIn.refl.to (State.updBus_self rfl).symm
  | cons p l ih =>
    intro s hl hq
    have a := RunsIn.one (x := x) (y := y) (rest := l.map fun p => .wr p.1 p.2)
      (perform_wr (r := p.1) (v := p.2) (hl p (by simp)) hq)
    have b := ih (s.updBus i fun b => b.store p.1 (p.2 &&& wmask s.cfg p.1)) (fun q hq => hl q (by simp [hq])) hq.store
    have e : (s.updBus i fun b => b.store p.1 (p.2 &&& wmask s.cfg p.1)).updBus i (storeAll s.cfg l) =
        s.updBus i (storeAll s.cfg (p :: l)) := by rw [State.updBus_updBus]; rfl
    exact ((a.trans b).to e).mono (by simp; omega)

theorem pin_mode (v b : Word) (hb : b = 0 ∨ b = 1) :
    (((v &&& 0xF) &&& ~~~1) ||| b) &&& 0xF = (v &&& 0xE) ||| b := by
  apply BitVec.eq_of_getLsbD_eq
  intro j hj
  rcases hb with rfl | rfl <;> interval_cases j <;> simp

theorem user_mode (v b : Word) (hb : b = 0 ∨ b = 2) :
    (((v &&& 3) &&& ~~~2) ||| b) &&& 3 = (v &&& 1) ||| b := by
  apply BitVec.eq_of_getLsbD_eq
  intro j hj
  rcases hb with rfl | rfl <;> interval_cases j <;> simp

theorem ctrl_order (v b : Word) (hb : b = 0 ∨ b = 3) : (((v &&& 3) &&& ~~~3) ||| b) &&& 3 = b := by
  apply BitVec.eq_of_getLsbD_eq
  intro j hj
  rcases hb with rfl | rfl <;> interval_cases j <;> simp

/-- PIN.CK_IDLE_EDGE of a mode (R248). -/
def idleBit (mode : Fin 4) : Word := if mode = 2 ∨ mode = 3 then 1 else 0

/-- USER.CK_OUT_EDGE of a mode (R248). -/
def outBit (mode : Fin 4) : Word := if mode = 1 ∨ mode = 2 then 2 else 0

/-- setmode as one change of the instance (R234). -/
def Bus.withMode (mode : Fin 4) (b : Bus) : Bus :=
  { b with conf := { b.conf with
    pin := (b.conf.pin &&& 0xE) ||| idleBit mode
    user := (b.conf.user &&& 1) ||| outBit mode } }

/-- setorder as one change of the instance (R236). -/
def Bus.withOrder (order : BitOrder) (b : Bus) : Bus :=
  { b with conf := { b.conf with ctrl := if order = .lsbFirst then 3 else 0 } }

theorem setMode_run {i : Fin 4} {mode : Fin 4} {x y : Word} {s : State} (hq : Quiet i s) :
    RunsIn i 2 (setModeOps mode) x y s [] x y (s.updBus i (Bus.withMode mode)) := by
  have a := RunsIn.one (x := x) (y := y) (rest := [.rmw .user 2 (bitAt 1 (modeBits mode).2)])
    (perform_rmw (r := .pin) (c := 1) (v := bitAt 0 (modeBits mode).1) (by simp) hq)
  have b := RunsIn.one (x := x) (y := y) (rest := [])
    (perform_rmw (i := i) (r := .user) (c := 2) (v := bitAt 1 (modeBits mode).2)
      (s := s.updBus i fun b => b.store .pin
        ((((s.getBus i).view s.cfg .pin &&& ~~~1) ||| bitAt 0 (modeBits mode).1) &&& wmask s.cfg .pin)) (by simp)
      hq.store)
  refine (a.trans b).to ?_
  rw [State.updBus_updBus]
  apply State.updBus_congr
  have h1 : bitAt 0 (modeBits mode).1 = idleBit mode := by fin_cases mode <;> rfl
  have h2 : bitAt 1 (modeBits mode).2 = outBit mode := by fin_cases mode <;> rfl
  simp only [State.getBus_updBus_same, Bus.store, Bus.view, Bus.stored, wmask, Bus.withMode, h1, h2]
  rw [pin_mode _ _ (by unfold idleBit; split <;> simp), user_mode _ _ (by unfold outBit; split <;> simp)]

theorem setOrder_run {i : Fin 4} {order : BitOrder} {x y : Word} {s : State} (hq : Quiet i s) :
    RunsIn i 1 (setOrderOps order) x y s [] x y (s.updBus i (Bus.withOrder order)) := by
  refine (RunsIn.one (perform_rmw (r := .ctrl) (by simp) hq)).to ?_
  apply State.updBus_congr
  have h : orderBits order = if order = .lsbFirst then 3 else 0 := by cases order <;> rfl
  simp only [Bus.store, Bus.view, Bus.stored, wmask, Bus.withOrder, h]
  rw [ctrl_order _ _ (by split <;> simp)]

/-- A body that is a change f of the instance, taken under the guard (R172). -/
theorem locked_change {i : Fin 4} {n : Nat} {body : List UOp} {f : Bus → Bus} {x y : Word} {s : State}
    (hf : ∀ (b : Bus) (o : Option Agent), f { b with owner := o } = { f b with owner := o })
    (hg : GuardFree i s) (hq : Quiet i s)
    (hrun : ∀ u : State, u.cfg = s.cfg → Quiet i u → RunsIn i n body x y u [] x y (u.updBus i f)) :
    RunsIn i (n + 2) (locked body) x y s [] x y (s.updBus i f) := by
  have ho : ∀ b : Bus, (f b).owner = b.owner := fun b =>
    (congrArg Bus.owner (hf b b.owner) : _)
  have l := locked_runs hg (hrun (s.setOwner i (some s.cur)) rfl hq.setOwner) (by
    simp only [GuardMine, State.getBus_updBus_same, ho, State.setOwner]; rfl)
  refine l.to ?_
  rw [State.setOwner, State.setOwner, State.updBus_updBus, State.updBus_updBus]
  apply State.updBus_congr
  rw [hf]
  have : (f (s.getBus i)).owner = none := (ho _).trans hg.free
  rw [← this]

/-- A locked operation whose body is a change f of the instance that does not look at the guard (R172). -/
theorem locked_completes {i : Fin 4} {n : Nat} {body : List UOp} {f : Bus → Bus} {s : State}
    (hf : ∀ (b : Bus) (o : Option Agent), f { b with owner := o } = { f b with owner := o })
    (hr : Ready (n + 3) s) (hg : GuardFree i s)
    (hrun : ∀ u : State, u.cfg = s.cfg → Quiet i u → RunsIn i n body 0 0 u [] 0 0 (u.updBus i f)) (hq : Quiet i s) :
    operate s (taskOf i (locked body) 0 (.const 0)) = .next ((s.updBus i f).finish .ok 0) :=
  operate_runs hr (locked_change hf hg hq hrun)

/-- The configuration registers of an instance zeroed (R43). -/
def Bus.zeroed (cfg : Cfg) (b : Bus) : Bus := { b with
        conf := RegCfg.zero
        clkGate := if cfg.hasClkGate then 0 else b.clkGate }

/-- Zeroing the configuration registers one by one (R43, R231). -/
theorem cfgRegs_run {i : Fin 4} {x y : Word} {s : State} (hq : Quiet i s) :
    RunsIn i 7 ((cfgRegs s.cfg).map fun r => .wr r 0) x y s [] x y (s.updBus i (Bus.zeroed s.cfg)) := by
  have := writes_run (x := x) (y := y) ((cfgRegs s.cfg).map fun r => (r, 0)) s (by
    intro p hp; simp only [List.mem_map] at hp; obtain ⟨r, hr, rfl⟩ := hp
    rintro rfl
    simp only [cfgRegs] at hr; cases hh : s.cfg.hasClkGate <;> simp [hh] at hr) hq
  rw [List.map_map] at this
  refine (this.mono ?_).to ?_
  · simp only [cfgRegs]; split <;> simp
  · congr 1; funext b; simp only [storeAll, cfgRegs, Bus.zeroed]; cases hh : s.cfg.hasClkGate <;> simp [Bus.store, RegCfg.zero]

/-- The first block of START under the guard (R230). -/
def initOps (cfg : Cfg) : List UOp := (cfgRegs cfg).map (fun r => .wr r 0) ++ (List.finRange 16).map (fun k => .wr (.w k) 0) ++
    [.rmw .user 1 1] ++ if cfg.hasClkGate then [.wr .clkGate cfg.clkGateStart] else []

/-- An instance as that block leaves it. -/
def Bus.init (cfg : Cfg) (b : Bus) : Bus := { b with
  conf := { RegCfg.zero with user := 1 }
  clkGate := if cfg.hasClkGate then cfg.clkGateStart else b.clkGate
  w := words16 fun _ => 0 }

theorem init_run {i : Fin 4} {x y : Word} {s : State} (hq : Quiet i s) : RunsIn i 25 (initOps s.cfg) x y s [] x y (s.updBus i (Bus.init s.cfg)) := by
  have w := writes_run (i := i) (x := x) (y := y) ((cfgRegs s.cfg).map (fun r => (r, 0)) ++ (List.finRange 16).map (fun k => (.w k, 0))) s (by
    intro p hp; simp only [List.mem_append, List.mem_map] at hp
    rcases hp with ⟨r, hr, rfl⟩ | ⟨k, hk, rfl⟩
    · rintro rfl
      simp only [cfgRegs] at hr; cases hh : s.cfg.hasClkGate <;> simp [hh] at hr
    · simp) hq
  generalize hs1 : s.updBus i (storeAll s.cfg ((cfgRegs s.cfg).map (fun r => (r, 0)) ++ (List.finRange 16).map (fun k => (.w k, 0)))) = s1 at w
  have q1 : Quiet i s1 := by
    rw [← hs1]
    have : ∀ (l : List (Reg × Word)) b, (storeAll s.cfg l b).phase = b.phase := by
      intro l; induction l with
      | nil => intro b; rfl
      | cons p l ih => intro b; exact (ih _).trans (by simp)
    simpa [Quiet, this] using hq
  have c1 : s1.cfg = s.cfg := by rw [← hs1]; rfl
  have e1 : s1 = s.updBus i fun b => { b with conf := RegCfg.zero, clkGate := if s.cfg.hasClkGate then 0 else b.clkGate, w := words16 fun _ => 0 } := by
    rw [← hs1]; congr 1; funext b; simp only [storeAll, cfgRegs, List.foldl_append, List.foldl_map]
    have hw : ∀ b : Bus, (List.finRange 16).foldl (fun b k => b.store (.w k) (0 &&& wmask s.cfg (.w k))) b = { b with w := words16 fun _ => 0 } := by
      intro b
      have : List.finRange 16 = [0,1,2,3,4,5,6,7,8,9,10,11,12,13,14,15] := by decide
      rw [this]
      simp only [List.foldl_cons, List.foldl_nil, Bus.store, wmask]
      congr 1
      apply Vector.ext
      intro j hj
      rw [words16_getElem]
      simp only [Vector.getElem_set]
      simp
      omega
    rw [hw]
    cases hh : s.cfg.hasClkGate <;> simp [Bus.store, RegCfg.zero]
  have r := (RunsIn.one (x := x) (y := y) (rest := if s.cfg.hasClkGate then [.wr .clkGate s.cfg.clkGateStart] else []) (perform_rmw (r := .user) (c := 1) (v := 1) (by simp) q1))
  have q2 : Quiet i (s1.updBus i fun b => b.store .user ((((s1.getBus i).view s1.cfg .user &&& ~~~1) ||| 1) &&& wmask s1.cfg .user)) := q1.store
  have g : RunsIn i 1 (if s.cfg.hasClkGate then [.wr .clkGate s.cfg.clkGateStart] else []) x y (s1.updBus i fun b => b.store .user ((((s1.getBus i).view s1.cfg .user &&& ~~~1) ||| 1) &&& wmask s1.cfg .user)) [] x y (s.updBus i (Bus.init s.cfg)) := by
    cases hh : s.cfg.hasClkGate with
    | true =>
      refine (RunsIn.one (perform_wr (by simp) q2)).to ?_
      rw [e1]; simp only [State.updBus_updBus]
      apply State.updBus_congr
      simp [Bus.store, Bus.init, Bus.view, Bus.stored, wmask, RegCfg.zero, hh]
    | false =>
      refine (RunsIn.refl.to ?_).mono (by omega)
      rw [e1]; simp only [State.updBus_updBus]
      apply State.updBus_congr
      simp [Bus.store, Bus.init, Bus.view, Bus.stored, wmask, RegCfg.zero, hh]
  have := ((w.append _).trans (r.trans g))
  have eo : initOps s.cfg = List.map (fun p => UOp.wr p.1 p.2) ((cfgRegs s.cfg).map (fun r => (r, 0)) ++ (List.finRange 16).map (fun k => (Reg.w k, 0))) ++ (UOp.rmw .user 1 1 :: if s.cfg.hasClkGate then [.wr .clkGate s.cfg.clkGateStart] else []) := by
    simp only [initOps, List.map_append, List.map_map, List.append_assoc]; rfl
  rw [eo]
  refine this.mono ?_
  simp [cfgRegs]; split <;> simp

theorem csMask_le {mask : BitVec 16} (h : mask &&& 0xFFF8 = 0) : mask.toNat ≤ 7 := by
  have : mask = mask &&& 7 := by
    apply BitVec.eq_of_getLsbD_eq
    intro j hj
    have := congrArg (fun v : BitVec 16 => v.getLsbD j) h
    simp only [BitVec.getLsbD_and] at this ⊢
    interval_cases j <;> simp_all
  rw [this, BitVec.toNat_and]
  exact Nat.and_le_right

theorem csMask_small {mask : BitVec 16} (hm : mask.toNat ≤ 7) : (mask &&& 0xFFF8 != 0) = false ∧ csBits mask = BitVec.ofNat 32 (2*mask.toNat) ∧ (BitVec.ofNat 32 (2*mask.toNat)) &&& 0xE = BitVec.ofNat 32 (2*mask.toNat) := by
  obtain ⟨m, hm', rfl⟩ : ∃ m, m ≤ 7 ∧ mask = BitVec.ofNat 16 m := ⟨mask.toNat, hm, by simp⟩
  interval_cases m <;> decide

theorem pin_lines_off (v l : Word) : (v &&& 0xF &&& ~~~l ||| 0) &&& 0xF = v &&& 0xF &&& ~~~l := by
  apply BitVec.eq_of_getLsbD_eq
  intro j hj
  simp only [BitVec.getLsbD_and, BitVec.getLsbD_or]
  interval_cases j <;> simp

theorem pin_lines_on (v l : Word) (h : l &&& 0xE = l) : (v &&& 0xF &&& ~~~0 ||| l) &&& 0xF = v &&& 0xF ||| l := by
  apply BitVec.eq_of_getLsbD_eq
  intro j hj
  have := congrArg (fun v : Word => v.getLsbD j) h
  simp only [BitVec.getLsbD_and, BitVec.getLsbD_or] at this ⊢
  interval_cases j <;> simp_all

end Sys2Proof.Machine
end

