-- ==== Sys2Proof/Laws/Solver.lean ====
section
/-! SUPPORT. The clock-divider solver (R141 to R145): the fields of a CLOCK word, and what the search keeps and finds. -/

namespace Sys2Proof.Machine

/-! ### The fields of a CLOCK word (R86) -/
theorem clockword_toNat {pre n h l eq : Nat} (hp : pre < 2^13) (hn : n < 64) (hh : h < 64) (hl : l < 64) (he : eq < 2) :
    (clockword pre n h l eq).toNat = eq * 2 ^ 31 + pre * 2 ^ 18 + n * 2 ^ 12 + h * 2 ^ 6 + l := by
  rw [clockword, BitVec.toNat_ofNat, Nat.mod_eq_of_lt (by omega)]

theorem extract_nat (w : Word) (a n : Nat) : (w.extractLsb' a n).toNat = w.toNat / 2^a % 2^n := by
  rw [BitVec.extractLsb'_toNat, Nat.shiftRight_eq_div_pow]

theorem clk_fields {p : PreWidth} {pre n h l eq : Nat} (hp : pre ≤ preMax p) (hn : n < 64) (hh : h < 64) (hl : l < 64) (he : eq < 2) :
    let w := clockword pre n h l eq
    clkcntL w = l ∧ clkcntH w = h ∧ clkcntN w = n ∧ clkdivPre p w = pre ∧ clkEquSysclk w = decide (eq = 1) := by
  intro w
  have hp' : pre < 2^13 := by cases p <;> simp [preMax, preBits] at hp <;> omega
  have hw : w.toNat = _ := clockword_toNat hp' hn hh hl he
  refine ⟨?_, ?_, ?_, ?_, ?_⟩
  · rw [clkcntL, extract_nat, hw]; omega
  · rw [clkcntH, extract_nat, hw]; omega
  · rw [clkcntN, extract_nat, hw]; omega
  · rw [clkdivPre, extract_nat, hw]
    cases p <;> simp [preMax, preBits] at hp ⊢ <;> omega
  · rw [clkEquSysclk, BitVec.getLsbD, Nat.testBit_eq_decide_div_mod_eq, hw]
    congr 1
    apply propext
    omega

theorem clk_masked {cfg : Cfg} {pre n h l eq : Nat} (hp : pre ≤ preMax cfg.preW) (hn : n < 64) (hh : h < 64) (hl : l < 64) (he : eq < 2) :
    clockword pre n h l eq &&& wmask cfg .clock = clockword pre n h l eq := by
  cases hpw : cfg.preW with
  | thirteen => simp only [wmask, hpw]; exact BitVec.and_allOnes
  | four =>
    simp only [wmask, hpw]
    rw [hpw] at hp
    simp [preMax, preBits] at hp
    have hw := clockword_toNat (show pre < 2^13 by omega) hn hh hl he
    apply BitVec.eq_of_getLsbD_eq
    intro j hj
    rw [BitVec.getLsbD_and]
    by_cases hc : j < 22 ∨ j = 31
    · have : BitVec.getLsbD (0x803FFFFF : Word) j = true := by
        rcases hc with hc | hc
        · interval_cases j <;> rfl
        · subst hc; rfl
      rw [this, Bool.and_true]
    · have : (clockword pre n h l eq).getLsbD j = false := by
        rw [BitVec.getLsbD, Nat.testBit_eq_decide_div_mod_eq, hw]
        have h1 : 22 ≤ j := by omega
        have h2 : j ≤ 30 := by omega
        interval_cases j <;> simp <;> omega
      rw [this, Bool.false_and]

/-! ### The search (R143) -/

/-- A searched word with its frequency. -/
def Searched (p : PreWidth) (fin : Nat) (w : Word) (f : Nat) : Prop :=
  ∃ n pre, 1 ≤ n ∧ n ≤ 63 ∧ pre ≤ preMax p ∧ w = clockword pre n 0 ((n + 1) / 2) 0 ∧ f = fin / ((pre + 1) * (n + 1))

/-- What the search has after some probes: an exact word, or the best so far below the target (R144). -/
def Good (p : PreWidth) (fin t : Nat) (b : Search) : Prop :=
  (b.exact = true → Searched p fin b.best t) ∧
  (b.exact = false → b.bestF < t ∧ (b.bestF = 0 ∨ Searched p fin b.best b.bestF))

theorem probe_good {p : PreWidth} {fin t n : Nat} {b : Search} {v : Int} (h1 : 1 ≤ n) (h2 : n ≤ 63) (h : Good p fin t b) :
    Good p fin t (probe p fin t n b v) ∧ ((probe p fin t n b v).exact = false → b.exact = false ∧ b.bestF ≤ (probe p fin t n b v).bestF ∧
      let f := fin / ((probePre p fin t n v + 1) * (n + 1))
      f ≠ t ∧ (f < t → f ≤ (probe p fin t n b v).bestF)) := by
  unfold probe
  have hpm : probePre p fin t n v ≤ preMax p := Nat.min_le_right _ _
  cases hb : b.exact with
  | true => simp only [if_true]; exact ⟨h, fun h' => by rw [hb] at h'; exact absurd h' (by simp)⟩
  | false =>
    obtain ⟨hlt, hf⟩ := h.2 hb
    simp only [Bool.false_eq_true, if_false]
    split
    · rename_i he
      exact ⟨⟨fun _ => ⟨n, _, h1, h2, hpm, rfl, he.symm⟩, fun h' => by simp at h'⟩, fun h' => by simp at h'⟩
    · rename_i hne
      split
      · rename_i hc
        obtain ⟨hc1, hc2⟩ := hc
        simp only [absDiff] at hc2
        refine ⟨⟨fun h' => by simp at h', fun _ => ⟨hc1, .inr ⟨n, _, h1, h2, hpm, rfl, rfl⟩⟩⟩, fun _ => ⟨trivial, ?_, hne, fun _ => le_refl _⟩⟩
        show b.bestF ≤ fin / ((probePre p fin t n v + 1) * (n + 1))
        omega
      · rename_i hc
        refine ⟨h, fun _ => ⟨trivial, le_refl _, hne, fun hft => ?_⟩⟩
        by_contra hh
        exact hc ⟨hft, by simp only [absDiff]; omega⟩

/-- The probes of one CLKCNT_N cover every CLKDIV_PRE (R148 (b)). -/
theorem cover {p : PreWidth} {fin t n bf : Nat} (ht : 1 ≤ t) 
   (h0 : fin / ((probePre p fin t n 0 + 1) * (n + 1)) ≠ t)
   (h1 : fin / ((probePre p fin t n 1 + 1) * (n + 1)) < t → fin / ((probePre p fin t n 1 + 1) * (n + 1)) ≤ bf)
   (pre : Nat) (hp : pre ≤ preMax p) (hle : fin / ((pre+1)*(n+1)) ≤ t) : fin / ((pre+1)*(n+1)) ≤ bf := by
  obtain ⟨q, hqq⟩ : ∃ q, q = fin / (n+1) / t := ⟨_, rfl⟩
  have hq0 : probePre p fin t n 0 = min (q - 1) (preMax p) := by
    simp only [probePre, ← hqq]; congr 1; omega
  have hq1 : probePre p fin t n 1 = min q (preMax p) := by
    simp only [probePre, ← hqq]; congr 1; omega
  have hqd : q = fin / ((n+1)*t) := hqq.trans (Nat.div_div_eq_div_mul _ _ _)
  have hn : 0 < n+1 := by omega
  have low : ∀ k, 1 ≤ k → k ≤ q → t ≤ fin / (k*(n+1)) := by
    intro k hk hkq
    rw [Nat.le_div_iff_mul_le (by positivity)]
    have : k * ((n+1)*t) ≤ fin := by
      rw [hqd, Nat.le_div_iff_mul_le (by positivity)] at hkq; exact hkq
    calc t * (k*(n+1)) = k * ((n+1)*t) := by ring
      _ ≤ fin := this
  have high : ∀ k, q < k → fin / (k*(n+1)) < t := by
    intro k hk
    have hk0 : 0 < k := by omega
    rw [Nat.div_lt_iff_lt_mul (by positivity)]
    rw [hqd, Nat.div_lt_iff_lt_mul (by positivity)] at hk
    calc fin < k * ((n+1)*t) := hk
      _ = t * (k*(n+1)) := by ring
  have mono : ∀ j k, 1 ≤ j → j ≤ k → fin / (k*(n+1)) ≤ fin / (j*(n+1)) := by
    intro j k hj hjk
    exact Nat.div_le_div_left (Nat.mul_le_mul_right _ hjk) (by positivity)
  by_cases hc : pre + 1 ≤ q
  · exfalso
    have e := low (pre+1) (by omega) hc
    apply h0
    rw [hq0]
    have a := low (min (q-1) (preMax p) + 1) (by omega) (by omega)
    have b := mono (pre+1) (min (q-1) (preMax p) + 1) (by omega) (by omega)
    omega
  · have hq1' : probePre p fin t n 1 = q := by rw [hq1]; omega
    rw [hq1'] at h1
    have a := high (q+1) (by omega)
    have b := mono (q+1) (pre+1) (by omega) (by omega)
    have := h1 a
    omega

theorem round_good {p : PreWidth} {fin t n : Nat} {b : Search} (ht : 1 ≤ t) (h1 : 1 ≤ n) (h2 : n ≤ 63) (h : Good p fin t b) :
    let b' := probeSteps.foldl (probe p fin t n) b
    Good p fin t b' ∧ (b'.exact = false → b.bestF ≤ b'.bestF ∧ ∀ pre ≤ preMax p, fin / ((pre+1)*(n+1)) ≤ t → fin / ((pre+1)*(n+1)) ≤ b'.bestF) := by
  simp only [probeSteps, List.foldl_cons, List.foldl_nil]
  have a := probe_good (v := -1) h1 h2 h
  have c := probe_good (v := 0) h1 h2 a.1
  have d := probe_good (v := 1) h1 h2 c.1
  have e := probe_good (v := 2) h1 h2 d.1
  refine ⟨e.1, fun he => ?_⟩
  obtain ⟨e0, e1, -⟩ := e.2 he
  obtain ⟨d0, d1, d2, d3⟩ := d.2 e0
  obtain ⟨c0, c1, c2, c3⟩ := c.2 d0
  obtain ⟨a0, a1, -⟩ := a.2 c0
  refine ⟨by omega, fun pre hp hle => ?_⟩
  exact cover ht c2 (fun h => (d3 h).trans e1) pre hp hle

theorem search_good {p : PreWidth} {fin t : Nat} (ht : 1 ≤ t) : ∀ (ns : List Nat) (b : Search), (∀ n ∈ ns, 1 ≤ n ∧ n ≤ 63) → Good p fin t b → 
    Good p fin t (search p fin t ns b) ∧ ((search p fin t ns b).exact = false → b.bestF ≤ (search p fin t ns b).bestF ∧ 
      ∀ n ∈ ns, ∀ pre ≤ preMax p, fin / ((pre+1)*(n+1)) ≤ t → fin / ((pre+1)*(n+1)) ≤ (search p fin t ns b).bestF) := by
  intro ns
  induction ns with
  | nil => intro b _ h; exact ⟨h, fun _ => ⟨le_refl _, fun n hn => by simp at hn⟩⟩
  | cons n ns ih =>
    intro b hns h
    obtain ⟨h1, h2⟩ := hns n (by simp)
    have r := round_good ht h1 h2 h
    simp only [search]
    split
    · rename_i he
      exact ⟨r.1, fun h' => by rw [he] at h'; simp at h'⟩
    · rename_i he
      have he : (probeSteps.foldl (probe p fin t n) b).exact = false := by simpa using he
      have s := ih _ (fun m hm => hns m (by simp [hm])) r.1
      refine ⟨s.1, fun h' => ?_⟩
      obtain ⟨s1, s2⟩ := s.2 h'
      obtain ⟨r1, r2⟩ := r.2 he
      refine ⟨by omega, fun m hm pre hp hle => ?_⟩
      rcases List.mem_cons.mp hm with rfl | hm
      · exact (r2 pre hp hle).trans s1
      · exact s2 m hm pre hp hle

/-- Some searched pair runs at 1 Hz or more and at most the target (R148 (e)). -/
theorem exists_positive {p : PreWidth} {fin t : Nat} (ht : 1 ≤ t) (hf : 2 ≤ fin) (hm : minFreq p fin ≤ t) :
    ∃ n pre, 1 ≤ n ∧ n ≤ 63 ∧ pre ≤ preMax p ∧ 1 ≤ fin / ((pre+1)*(n+1)) ∧ fin / ((pre+1)*(n+1)) ≤ t := by
  by_cases h64 : fin ≤ 64
  · refine ⟨fin - 1, 0, by omega, by omega, by omega, ?_, ?_⟩
    · rw [show (0+1)*(fin-1+1) = fin by omega, Nat.div_self (by omega)]
    · rw [show (0+1)*(fin-1+1) = fin by omega, Nat.div_self (by omega)]; exact ht
  · by_cases hk : fin / 64 ≤ preMax p + 1
    · have hk1 : 1 ≤ fin / 64 := by omega
      have e : fin / ((fin/64 - 1 + 1) * (63+1)) = 1 := by
        rw [show fin/64 - 1 + 1 = fin/64 by omega]
        rw [Nat.div_eq_iff (by omega)]
        omega
      exact ⟨63, fin/64 - 1, by omega, by omega, by omega, by rw [e], by rw [e]; exact ht⟩
    · refine ⟨63, preMax p, by omega, by omega, le_refl _, ?_, hm⟩
      rw [Nat.le_div_iff_mul_le (by positivity)]
      omega

theorem solve_search {cfg : Cfg} {fin t : Nat} (ht : 1 ≤ t) (hm : minFreq cfg.preW fin ≤ t) (hlt : t < fin) :
    ∃ f, Searched cfg.preW fin (solveWord cfg fin t) f ∧ f ≤ t ∧ ∀ n pre, 1 ≤ n → n ≤ 63 → pre ≤ preMax cfg.preW → fin / ((pre + 1) * (n + 1)) ≤ t →
      fin / ((pre + 1) * (n + 1)) ≤ f := by
  unfold solveWord
  rw [if_neg (by omega), if_neg (by omega)]
  have hmem : ∀ n, n ∈ List.range' 1 63 ↔ 1 ≤ n ∧ n ≤ 63 := by intro n; simp [List.mem_range'_1]; omega
  have s := search_good (p := cfg.preW) (fin := fin) ht (List.range' 1 63) ⟨0,0,false⟩ (fun n hn => (hmem n).mp hn) ⟨fun h => by simp at h, fun _ => ⟨ht, .inl rfl⟩⟩
  generalize search cfg.preW fin t (List.range' 1 63) ⟨0,0,false⟩ = b at s
  cases hb : b.exact with
  | true => exact ⟨t, s.1.1 hb, le_refl _, fun n pre _ _ _ h => h⟩
  | false =>
    obtain ⟨-, s2⟩ := s.2 hb
    obtain ⟨g1, g2⟩ := s.1.2 hb
    obtain ⟨n, pre, a1, a2, a3, a4, a5⟩ := exists_positive ht (show 2 ≤ fin by omega) hm
    have := s2 n ((hmem n).mpr ⟨a1, a2⟩) pre a3 a5
    rcases g2 with g2 | g2
    · omega
    · exact ⟨b.bestF, g2, by omega, fun n pre h1 h2 h3 h4 => s2 n ((hmem n).mpr ⟨h1, h2⟩) pre h3 h4⟩

theorem Searched.freq {p : PreWidth} {fin : Nat} {w : Word} {f : Nat} (h : Searched p fin w f) : freqOf p fin w = f := by
  obtain ⟨n, pre, h1, h2, h3, rfl, rfl⟩ := h
  obtain ⟨_, _, e3, e4, e5⟩ := clk_fields (p := p) (h := 0) (l := (n+1)/2) (eq := 0) h3 (show n < 64 by omega) (by omega) (by omega) (by omega)
  simp [freqOf, e3, e4, e5]

theorem minCfgL_ok {cfg : Cfg} (h : cfgOk cfg = true) : cfg.minCfgL < 64 := by
  simp only [cfgOk, Bool.and_eq_true, Bool.or_eq_true, beq_iff_eq] at h
  omega

theorem minFreq_eq {cfg : Cfg} {fin : Nat} (hc : cfgOk cfg = true) : freqOf cfg.preW fin (minCfgWord cfg) = minFreq cfg.preW fin := by
  have hl := minCfgL_ok hc
  obtain ⟨_, _, e3, e4, e5⟩ := clk_fields (p := cfg.preW) (n := 63) (h := 0) (l := cfg.minCfgL) (eq := 0) (le_refl _) (by omega) (by omega) hl (by omega)
  simp only [minCfgWord, freqOf, e3, e4, e5, minFreq]; rfl

theorem minFreq_le (p : PreWidth) (fin : Nat) : minFreq p fin ≤ fin := Nat.div_le_self _ _

end Sys2Proof.Machine
end

