-- ==== Sys2Proof/Laws/Stuck.lean ====
section
/-! SUPPORT. Where an operation is stuck for good: the accesses of host memory outside the launch memory (R61) that WRITE,
TRANSFER, TRANSFER_BYTES and WRITE_PIXELS come to (R180, R181, R210, R215). -/

namespace Sys2Proof.Machine

/-- Every operation is `operate` on some opening. -/
theorem exec_operates (i : Instr) (s : State) : ∃ o, exec i s = operate s o := by
  cases i
  case divToFreq clk => exact ⟨taskOf 0 [.freq clk] 0 (.low 0xFFFFFFFF), rfl⟩
  all_goals exact ⟨_, rfl⟩

theorem memByte_none_congr {hm hm' : List Host.Cell} {a : Nat} (h : memByte hm a = none)
    (e : hm'.map Prod.fst = hm.map Prod.fst) : memByte hm' a = none := by
  have h1 := memByte_isSome hm a
  have h2 := memByte_isSome hm' a
  rw [e, ← h1, h] at h2
  simpa using h2

theorem memRead4_isSome (hm : List Host.Cell) (a : Nat) : (memRead4 hm a).isSome =
    ((memByte hm a).isSome && (memByte hm (a + 1)).isSome && (memByte hm (a + 2)).isSome &&
      (memByte hm (a + 3)).isSome) := by
  unfold memRead4
  cases memByte hm a <;> cases memByte hm (a + 1) <;> cases memByte hm (a + 2) <;> cases memByte hm (a + 3) <;> rfl

theorem memRead4_none_congr {hm hm' : List Host.Cell} {a : Nat} (h : memRead4 hm a = none)
    (e : hm'.map Prod.fst = hm.map Prod.fst) : memRead4 hm' a = none := by
  have h1 := memRead4_isSome hm a
  have h2 := memRead4_isSome hm' a
  simp only [memByte_isSome, e] at h1 h2
  rw [← h1, h] at h2
  simpa using h2

/-- A guarded operation whose micro-steps lead to an access that holds in every state with the launch memory's addresses
is stuck there (R61, R172). -/
theorem stuck_of {I : Instr} {op : UOp} {rest : List UOp} {s s1 : State} {nl : Bool} {i : Fin 4} {n : Nat}
    {body ops' : List UOp} {x x' y' : Word} {ret : Ret} (he : exec I s = operate s (guardedTask s nl i body x ret))
    (ha : Admits nl i s) (hr : Ready (n + 3) s)
    (hrun : RunsIn i n body x 0 (s.setOwner i (some s.cur)) ops' x' y' s1) (hs : settle s1.cfg ops' = op :: rest)
    (hc : s1.cfg = s.cfg) (hm : s1.hm.map Prod.fst = s.hm.map Prod.fst) (hpoll : op.isPoll = false)
    (hp : ∀ u x y, u.hm.map Prod.fst = s.hm.map Prod.fst → perform op i x y u = .hold u) : StuckAt I op s s1 := by
  have stays : ∀ (o : Task) (rest : List UOp), o.inst = i → settle s.cfg o.ops = op :: rest → ∀ u, Inside o u →
      u.cfg = s.cfg → u.hm.map Prod.fst = s.hm.map Prod.fst → exec I u = .next (u.save o) := by
    rintro o rest rfl hset u ⟨⟨c, hc, ht⟩, hst, hb⟩ hcu hmu
    obtain ⟨m, hm⟩ := Nat.exists_eq_add_of_le' hb
    obtain ⟨k, ek⟩ := exec_operates I u
    rw [ek]
    simp only [operate, hc, hst, hm, ht, Bool.false_eq_true, if_false]
    rw [runOps]
    simp only [hcu, hset, hp u _ _ hmu, hpoll, Bool.false_and, Bool.false_eq_true, if_false]
  rw [hc] at hs
  cases nl with
  | true =>
    have hg : (s.getBus i).owner = some s.cur := by simpa [Admits, GuardMine] using ha
    rw [State.setOwner_self hg] at hrun
    refine ⟨⟨i, ops', x', y', ret⟩, by rw [hc]; simp [hs], ?_, stays _ rest rfl hs⟩
    rw [he]
    simp only [guardedTask, if_true, guardCheck, if_pos hg, taskOf]
    exact operate_runs_hold (hr.mono (by omega)) hrun (by rw [hc]; exact hs) (hp s1 _ _ hm) (by simp [hpoll])
  | false =>
    have hf : GuardFree i s := by simpa [Admits] using ha
    have acq := RunsIn.one (x := x) (y := 0) (rest := body ++ [.release]) (perform_acquire hf)
    have run := acq.trans (hrun.append [.release])
    have hs' := Runs.settle_append (tail := [.release]) hs
    refine ⟨⟨i, ops' ++ [.release], x', y', ret⟩, by rw [hc]; simp [hs'], ?_, stays _ _ rfl hs'⟩
    rw [he]
    simp only [guardedTask, Bool.false_eq_true, if_false, taskOf]
    exact operate_runs_hold (n := 1 + n) (hr.mono (by omega)) run (by rw [hc]; exact hs') (hp s1 _ _ hm) (by simp [hpoll])

/-- Micro-steps that run up to a list that settles to a further one run on into it. -/
theorem RunsIn.into {i : Fin 4} {m n : Nat} {ops ops1 opsC rest : List UOp} {op : UOp} {x y x1 y1 x2 y2 : Word}
    {s s1 s2 : State} (h1 : RunsIn i m ops x y s ops1 x1 y1 s1) (hset : settle s1.cfg ops1 = settle s1.cfg opsC)
    (hc : s2.cfg = s1.cfg) (hop : settle s2.cfg (op :: rest) = op :: rest)
    (h2 : RunsIn i n opsC x1 y1 s1 (op :: rest) x2 y2 s2) :
    ∃ ops', RunsIn i (m + n) ops x y s ops' x2 y2 s2 ∧ settle s2.cfg ops' = op :: rest := by
  obtain ⟨k, hk, h2⟩ := h2
  cases k with
  | zero =>
    have e := h2.zero
    subst e
    generalize ho : op :: rest = o at h2
    cases h2
    subst ho
    exact ⟨ops1, h1.mono (by omega), by rw [hset, hop]⟩
  | succ k =>
    exact ⟨op :: rest, h1.trans ⟨k + 1, hk, Runs.of_settle hset h2⟩, hop⟩

/-! ### WRITE and TRANSFER -/

/-- Loading words up to word k of c. -/
theorem loadWords_split {c k : Nat} (hk : k < c) (p : Nat) :
    ∃ rest, loadWords c p = loadWords k p ++ .memRd4 (p + 4 * k) :: rest := by
  obtain ⟨m, rfl⟩ : ∃ m, c = k + 1 + m := ⟨c - (k + 1), by omega⟩
  apply Exists.intro
  unfold loadWords
  rw [List.range_add, List.flatMap_append, List.range_succ, List.flatMap_append]
  simp only [List.flatMap_cons, List.flatMap_nil, List.append_assoc, List.cons_append, List.nil_append]
  rfl

theorem perform_memRd4_none {i : Fin 4} {a : Nat} {x y : Word} {s u : State} (h : memRead4 s.hm a = none)
    (e : u.hm.map Prod.fst = s.hm.map Prod.fst) : perform (.memRd4 a) i x y u = .hold u := by
  simp only [perform, memRead4_none_congr h e]

/-- Both forms of an operation that begins by loading c words are stuck at the first word outside the launch memory. -/
theorem words_stuck {I : Instr} {s : State} {nl : Bool} {i : Fin 4} {c k p : Nat} {tail : List UOp} {ret : Ret}
    (he : exec I s = operate s (guardedTask s nl i (loadWords c p ++ tail) 0 ret)) (ha : Admits nl i s)
    (hr : Ready (2 * c + 3) s) (hc : c ≤ 16) (hk : k < c) (hq : Quiet i s) (hm : Mapped s.hm p (4 * k))
    (hn : memRead4 s.hm (p + 4 * k) = none) :
    StuckAt I (.memRd4 (p + 4 * k)) s (s.updBus i fun b => { b with
      owner := some s.cur, w := loadedFrom s.hm p k b.w }) := by
  obtain ⟨rest, e⟩ := loadWords_split hk p
  obtain ⟨x', r⟩ := loadWords_run (i := i) (x := 0) (y := 0) (s := s.setOwner i (some s.cur)) (p := p) (c := k) (by omega)
    hm hq.setOwner
  have r := (r.append (.memRd4 (p + 4 * k) :: rest)).append tail
  rw [← e] at r
  have hst : (s.setOwner i (some s.cur)).loadedWords i p k = s.updBus i fun b => { b with
      owner := some s.cur, w := loadedFrom s.hm p k b.w } := by
    simp [State.loadedWords, State.setOwner]
  rw [hst] at r
  exact stuck_of (n := 2 * k) he ha (hr.mono (by omega)) r rfl rfl rfl rfl fun u x y e => perform_memRd4_none hn e

/-! ### Inside a chunk -/

theorem perform_memRd1_none {i : Fin 4} {a j : Nat} {x y : Word} {s u : State} (h : memByte s.hm a = none)
    (e : u.hm.map Prod.fst = s.hm.map Prod.fst) : perform (.memRd1 a j) i x y u = .hold u := by
  simp only [perform, memByte_none_congr h e]

theorem perform_memWr1_none {i : Fin 4} {a j : Nat} {x y : Word} {s u : State} (h : memByte s.hm a = none)
    (e : u.hm.map Prod.fst = s.hm.map Prod.fst) : perform (.memWr1 a j) i x y u = .hold u := by
  simp only [perform, memWrite1, memByte_none_congr h e]

theorem range_split {k n : Nat} (h : k < n) : ∃ m, List.range n = List.range k ++ k :: (List.range m).map (k + 1 + ·) := by
  refine ⟨n - (k + 1), ?_⟩
  have e : n = k + 1 + (n - (k + 1)) := by omega
  conv_lhs => rw [e, List.range_add, List.range_succ]
  simp

/-- The bytes of a word up to byte m. -/
theorem loadBytes_split {a len w m : Nat} (h : 4 * w + m < len) (hm : m < 4) :
    ∃ rest, loadBytes a len w = loadBytes a (4 * w + m) w ++ .memRd1 (a + (4 * w + m)) m :: rest := by
  obtain ⟨k, e⟩ := range_split (k := m) (n := min 4 (len - 4 * w)) (by omega)
  apply Exists.intro
  unfold loadBytes
  rw [validBytes_eq, validBytes_eq, e, show min 4 (4 * w + m - 4 * w) = m by omega]
  simp only [List.map_append, List.map_cons, Nat.add_assoc]
  rfl

theorem loadBytes_full {a len n w : Nat} (h : 4 * w + 4 ≤ len) (h' : 4 * w + 4 ≤ n) : loadBytes a len w = loadBytes a n w := by
  unfold loadBytes
  rw [validBytes_eq, validBytes_eq, show min 4 (len - 4 * w) = min 4 (n - 4 * w) by omega]

theorem flatMap_congr_range {α : Type} {f g : Nat → List α} {n : Nat} (h : ∀ k < n, f k = g k) :
    (List.range n).flatMap f = (List.range n).flatMap g := by
  induction n with
  | zero => rfl
  | succ n ih => simp only [List.range_succ, List.flatMap_append, ih fun k hk => h k (by omega), List.flatMap_cons, h n (by omega),
    List.flatMap_nil]

/-- Loading a chunk runs up to its byte b when the bytes before it are mapped (R210, R215). -/
theorem loads_to {i : Fin 4} {a len b : Nat} {g : Word → Word} {st : Nat → UOp} {x y : Word} {s : State}
    (h64 : len ≤ 64) (hb : b < len) (hm : Mapped s.hm a b)
    (hst : ∀ n < 16, ∀ u x, u.cfg = s.cfg → (u.getBus i).phase = (s.getBus i).phase → perform (st n) i x y u =
      .done (u.updBus i fun c => c.store (.w (Fin.ofNat 16 n)) (g x)) x y)
    (hset : ∀ n tail, settle s.cfg (st n :: tail) = st n :: tail) :
    ∃ x' rest, RunsIn i (5 * (b / 4) + 4) ((chunkWords len).flatMap fun w => loadBytes a len w ++ [st w]) x y s
      (.memRd1 (a + b) (b % 4) :: rest) x' y (s.chunkLoaded i g (memBytes s.hm a) (4 * (b / 4)) (b / 4)) := by
  obtain ⟨m, e⟩ := range_split (k := b / 4) (n := (len + 3) / 4) (by omega)
  obtain ⟨rest, el⟩ := loadBytes_split (a := a) (len := len) (w := b / 4) (m := b % 4) (by omega) (by omega)
  obtain ⟨x1, r⟩ := chunk_load_run (i := i) (g := g) (f := memBytes s.hm a) (len := 4 * (b / 4)) (y := y) (s := s)
    (load := fun w => loadBytes a (4 * (b / 4)) w ++ [st w]) (by omega) (by
    rintro n hn x u rfl
    have r := loadBytes_run (i := i) (x := x) (y := y)
      (s := s.chunkLoaded i g (memBytes s.hm a) (4 * (b / 4)) n) hn (hm.mono (by omega))
    refine ⟨_, (r.append _).trans (RunsIn.one (rest := [])
      (hst n (by omega) _ _ rfl (by simp [State.chunkLoaded])) (hset n []))⟩)
    (b / 4) (by omega) x
  have hfull := flatMap_congr_range (n := b / 4) (f := fun w => loadBytes a len w ++ [st w])
    (g := fun w => loadBytes a (4 * (b / 4)) w ++ [st w]) fun k hk => by
      rw [loadBytes_full (n := 4 * (b / 4)) (by omega) (by omega)]
  have part : ∃ x2, RunsIn i 4 (loadBytes a (4 * (b / 4) + b % 4) (b / 4)) x1 y
      (s.chunkLoaded i g (memBytes s.hm a) (4 * (b / 4)) (b / 4)) [] x2 y
      (s.chunkLoaded i g (memBytes s.hm a) (4 * (b / 4)) (b / 4)) := by
    by_cases h0 : b % 4 = 0
    · refine ⟨x1, ?_⟩
      have : loadBytes a (4 * (b / 4) + b % 4) (b / 4) = [] := by
        unfold loadBytes
        rw [validBytes_eq, h0, show min 4 (4 * (b / 4) + 0 - 4 * (b / 4)) = 0 by omega]
        rfl
      rw [this]
      exact RunsIn.refl.mono (by omega)
    · exact ⟨_, loadBytes_run (by omega) (hm.mono (by omega))⟩
  obtain ⟨x2, r2⟩ := part
  rw [show 4 * (b / 4) + b % 4 = b by omega] at el r2
  let rest' := rest ++ (st (b / 4) ::
    ((List.range m).map (b / 4 + 1 + ·)).flatMap fun w => loadBytes a len w ++ [st w])
  have run := (r.append _).trans (r2.append (.memRd1 (a + b) (b % 4) :: rest'))
  refine ⟨x2, rest', ?_⟩
  unfold chunkWords
  rw [e, List.flatMap_append, List.flatMap_cons, el, hfull]
  simpa only [List.append_assoc, List.cons_append, List.nil_append, List.singleton_append, List.append_eq, rest'] using run

/-- The stores of a word up to byte m. -/
theorem storeWord_split {a len w m : Nat} (h : 4 * w + m < len) (hm : m < 4) : ∃ rest,
    ((validBytes len w).map fun j => UOp.memWr1 (a + 4 * w + j) j) =
      ((validBytes (4 * w + m) w).map fun j => UOp.memWr1 (a + 4 * w + j) j) ++ .memWr1 (a + (4 * w + m)) m :: rest := by
  obtain ⟨k, e⟩ := range_split (k := m) (n := min 4 (len - 4 * w)) (by omega)
  apply Exists.intro
  rw [validBytes_eq, validBytes_eq, e, show min 4 (4 * w + m - 4 * w) = m by omega]
  simp only [List.map_append, List.map_cons, Nat.add_assoc]
  rfl

/-- Storing a chunk runs up to its byte b when the bytes before it are mapped (R210). -/
theorem stores_to {i : Fin 4} {a len b : Nat} {x y : Word} {s : State} (h64 : len ≤ 64) (hb : b < len)
    (hm : Mapped s.hm a b) (hq : Quiet i s) : ∃ x' rest hm',
      RunsIn i (5 * (b / 4) + 5) (storeChunk a len ((len + 3) / 4)) x y s (.memWr1 (a + b) (b % 4) :: rest) x' y
        (s.setHm hm') ∧ hm'.map Prod.fst = s.hm.map Prod.fst := by
  obtain ⟨m, e⟩ := range_split (k := b / 4) (n := (len + 3) / 4) (by omega)
  obtain ⟨rest, el⟩ := storeWord_split (a := a) (len := len) (w := b / 4) (m := b % 4) (by omega) (by omega)
  rw [show 4 * (b / 4) + b % 4 = b by omega] at el
  let sw := fun (n w : Nat) =>
    UOp.rd (.w (Fin.ofNat 16 w)) .x :: (validBytes n w).map fun j => UOp.memWr1 (a + 4 * w + j) j
  have hfull : (List.range (b / 4)).flatMap (sw len) = (List.range (b / 4)).flatMap (sw b) :=
    flatMap_congr_range fun k hk => by
      simp only [sw]
      rw [validBytes_eq, validBytes_eq, show min 4 (len - 4 * k) = min 4 (b - 4 * k) by omega]
  have split : storeChunk a len ((len + 3) / 4) = (List.range (b / 4)).flatMap (sw b) ++ sw b (b / 4) ++
      .memWr1 (a + b) (b % 4) :: (rest ++ ((List.range m).map (b / 4 + 1 + ·)).flatMap (sw len)) := by
    unfold storeChunk
    rw [e, List.flatMap_append, List.flatMap_cons]
    rw [show ((List.range (b / 4)).flatMap fun w =>
      UOp.rd (.w (Fin.ofNat 16 w)) .x :: (validBytes len w).map fun j => UOp.memWr1 (a + 4 * w + j) j) =
      (List.range (b / 4)).flatMap (sw b) from hfull, el]
    simp only [sw, List.append_assoc, List.cons_append]
  have front : ∃ x' hm', RunsIn i (5 * (b / 4) + 5) ((List.range (b / 4)).flatMap (sw b) ++ sw b (b / 4)) x y s [] x' y
      (s.setHm hm') ∧ hm'.map Prod.fst = s.hm.map Prod.fst := by
    by_cases h0 : b % 4 = 0
    · have hv : validBytes b (b / 4) = [] := by
        rw [validBytes_eq, show min 4 (b - 4 * (b / 4)) = 0 by omega]
        rfl
      obtain ⟨x1, r⟩ := storeChunk_run (i := i) (y := y) (len := b) (by omega) hm hq (b / 4) (by omega) x
      have rd := RunsIn.one (i := i) (x := x1) (y := y) (rest := [])
        (s := s.setHm (storedBytes s.hm a (s.getBus i).w (min b (4 * (b / 4)))))
        (perform_rd_x_quiet (r := .w (Fin.ofNat 16 (b / 4))) hq)
      have run := ((r.append [.rd (.w (Fin.ofNat 16 (b / 4))) .x]).trans rd).mono (n := 5 * (b / 4) + 5) (by omega)
      have hs : sw b (b / 4) = [.rd (.w (Fin.ofNat 16 (b / 4))) .x] := by simp only [sw, hv, List.map_nil]
      rw [hs]
      exact ⟨_, _, run, storedBytes_addresses s.hm a (s.getBus i).w (min b (4 * (b / 4)))⟩
    · obtain ⟨x1, r⟩ := storeChunk_run (i := i) (y := y) (len := b) (by omega) hm hq (b / 4 + 1) (by omega) x
      unfold storeChunk at r
      rw [List.range_succ, List.flatMap_append] at r
      refine ⟨x1, _, ?_, storedBytes_addresses s.hm a (s.getBus i).w (min b (4 * (b / 4 + 1)))⟩
      simpa [sw] using r.mono (n := 5 * (b / 4) + 5) (by omega)
  obtain ⟨x', hm', r, hadd⟩ := front
  refine ⟨x', rest ++ ((List.range m).map (b / 4 + 1 + ·)).flatMap (sw len), hm', ?_, hadd⟩
  rw [split]
  exact r.append _

/-! ### TRANSFER_BYTES and WRITE_PIXELS -/

theorem settle_bytes {cfg : Cfg} {inp outp size n : Nat} (h : 64 * n < size) (tail : List UOp) :
    settle cfg (.bytes inp outp (64 * n) size :: tail) = bytesChunk cfg inp outp (64 * n) (min 64 (size - 64 * n)) ++
      .bytes inp outp (64 * n + min 64 (size - 64 * n)) size :: tail := by
  simp only [settle, if_pos h]

theorem settle_pixels {cfg : Cfg} {p size n : Nat} (h : 64 * n < size) (tail : List UOp) :
    settle cfg (.pixels p (64 * n) size :: tail) = pixelsChunk cfg p (64 * n) (min 64 (size - 64 * n)) ++
      .pixels p (64 * n + min 64 (size - 64 * n)) size :: tail := by
  simp only [settle, if_pos h]

/-- The whole chunks of TRANSFER_BYTES before byte 64 n, when their bytes are mapped (R210). -/
theorem bytes_front {i : Fin 4} {inp outp size n : Nat} {s : State} (hc : cfgOk s.cfg = true) (hq : Quiet i s)
    (he : EngineServes i s) (hn : 64 * n ≤ size) (hi : inp ≠ 0 → Mapped s.hm inp (64 * n))
    (ho : outp ≠ 0 → Mapped s.hm outp (64 * n)) (x : Word) :
    ∃ x' u events, RunsIn i (20 * (64 * n)) [.bytes inp outp 0 size] x 0 s [.bytes inp outp (64 * n) size] x' 0 u ∧
      ChunkInv i s.cfg (s.hm.map Prod.fst) u ∧ u.wire = s.wire ++ events ∧ events.length = n ∧ u.cur = s.cur ∧
      (u.getBus i).owner = (s.getBus i).owner := by
  obtain ⟨x', r, hp⟩ := chunk_loop (i := i) (size := 64 * n) (y := 0) (s := s)
    (header := fun off => .bytes inp outp off size) (chunk := bytesChunk s.cfg inp outp)
    (M := fun off len u => u.bytesMoved i inp outp off len) (P := ChunkInv i s.cfg (s.hm.map Prod.fst))
    ⟨rfl, hq, he, rfl⟩
    (fun m tail h => by
      rw [settle_bytes (show 64 * m < size by omega), show min 64 (64 * n - 64 * m) = 64 by omega,
        show min 64 (size - 64 * m) = 64 by omega])
    (fun u h => h.cfg) (fun off len h1 => bytesChunk_cons s.cfg inp outp off h1)
    (fun off len x u hsz h1 h64 hu => bytes_loop_step hc hi ho hsz h1 h64 hu x)
    n (by unfold chunkCount; omega) x
  obtain ⟨events, d⟩ := bytesDone (i := i) (inp := inp) (size := 64 * n) hc ho n (by unfold chunkCount; omega)
  rw [Nat.min_self] at r
  exact ⟨x', _, events, r, hp, d.wire, d.count,
    chunkIter_keeps State.cur (fun off len u => bytesMoved_cur i inp outp off len u) _ _ _,
    chunkIter_keeps (fun u => (u.getBus i).owner) (fun off len u => bytesMoved_owner i inp outp off len u) _ _ _⟩

/-- A loop that has come to a header runs on into the next chunk, up to a micro-step of it. -/
theorem RunsIn.into_chunk {i : Fin 4} {m n : Nat} {ops chunk rest : List UOp} {header next op : UOp}
    {x y x1 y1 x2 y2 : Word} {s s1 s2 : State} (h1 : RunsIn i m ops x y s [header] x1 y1 s1)
    (hset : settle s1.cfg [header] = chunk ++ [next])
    (hch : ∃ op' rest', chunk = op' :: rest' ∧ ∀ tail, settle s1.cfg (op' :: tail) = op' :: tail)
    (hc : s2.cfg = s1.cfg) (hop : ∀ tail, settle s2.cfg (op :: tail) = op :: tail)
    (h2 : RunsIn i n chunk x1 y1 s1 (op :: rest) x2 y2 s2) :
    ∃ ops', RunsIn i (m + n) ops x y s ops' x2 y2 s2 ∧ settle s2.cfg ops' = op :: (rest ++ [next]) := by
  obtain ⟨op', rest', rfl, hop'⟩ := hch
  refine h1.into ?_ hc (hop _) (h2.append [next])
  rw [hset, List.cons_append, hop']

/-- A chunk of TRANSFER_BYTES runs up to its input byte b. -/
theorem bytesChunk_load_to {i : Fin 4} {inp outp off len b : Nat} {x y : Word} {s : State} (h64 : len ≤ 64) (hb : b < len)
    (h0 : inp ≠ 0) (hm : Mapped s.hm (inp + off) b) (hq : Quiet i s) : ∃ x' rest,
      RunsIn i (5 * (b / 4) + 4) (bytesChunk s.cfg inp outp off len) x y s (.memRd1 (inp + off + b) (b % 4) :: rest) x' y
        (s.chunkLoaded i id (memBytes s.hm (inp + off)) (4 * (b / 4)) (b / 4)) := by
  obtain ⟨x', rest, r⟩ := loads_to (i := i) (g := id) (st := fun w => .wrX (.w (Fin.ofNat 16 w))) (x := x) (y := y)
    h64 hb hm
    (fun n hn v x hcv hp => by rw [perform_wrX (by simp) (show Quiet i v from hp.trans hq), wmask_w]; rfl)
    (fun _ _ => rfl)
  unfold bytesChunk
  simp only [h0, if_false, List.append_assoc]
  exact ⟨x', _, r.append _⟩

/-- A chunk of TRANSFER_BYTES runs, its transaction included, up to its output byte b. -/
theorem bytesChunk_store_to {i : Fin 4} {inp outp off len b : Nat} {x y : Word} {s : State} (hc : cfgOk s.cfg = true)
    (h64 : len ≤ 64) (hb : b < len) (hq : Quiet i s) (he : EngineServes i s)
    (hi : inp ≠ 0 → Mapped s.hm (inp + off) len) (h0 : outp ≠ 0) (hm : Mapped s.hm (outp + off) b) : ∃ x' rest hm',
      RunsIn i (20 * len) (bytesChunk s.cfg inp outp off len) x y s (.memWr1 (outp + off + b) (b % 4) :: rest) x' y
        ((s.chunkSent i id (inputBytes s.hm inp off) true len).setHm hm') ∧
      hm'.map Prod.fst = s.hm.map Prod.fst := by
  obtain ⟨x1, front⟩ := bytesFront_run (x := x) (y := y) hc (by omega) h64 hq he hi
  obtain ⟨x2, rest, hm', st, hadd⟩ := stores_to (i := i) (a := outp + off) (x := x1) (y := y)
    (s := s.chunkSent i id (inputBytes s.hm inp off) true len) h64 hb (by rw [chunkSent_hm]; exact hm)
    (chunkSent_quiet hc (by omega) h64)
  unfold bytesChunk
  simp only [h0, if_false]
  exact ⟨x2, rest, hm', ((front.append _).trans st).mono (by omega), by rw [hadd, chunkSent_hm]⟩

/-- A chunk of WRITE_PIXELS runs up to its byte b. -/
theorem pixelsChunk_load_to {i : Fin 4} {p off len b : Nat} {x y : Word} {s : State} (h64 : len ≤ 64) (hb : b < len)
    (hm : Mapped s.hm (p + off) b) (hq : Quiet i s) : ∃ x' rest,
      RunsIn i (5 * (b / 4) + 4) (pixelsChunk s.cfg p off len) x y s (.memRd1 (p + off + b) (b % 4) :: rest) x' y
        (s.chunkLoaded i (fun v => if swapcond s.cfg (wrOrder y) then pix v else v) (memBytes s.hm (p + off))
          (4 * (b / 4)) (b / 4)) := by
  obtain ⟨x', rest, r⟩ := loads_to (i := i) (g := fun v => if swapcond s.cfg (wrOrder y) then pix v else v)
    (st := fun w => .wrPix (Fin.ofNat 16 w)) (x := x) (y := y) h64 hb hm
    (fun n hn v x hcv hp => by
      simp only [perform]
      rw [writeReg_store (by simp) (show Quiet i v from hp.trans hq), wmask_w, hcv])
    (fun _ _ => rfl)
  unfold pixelsChunk
  exact ⟨x', _, r.append _⟩

/-- Both forms of TRANSFER_BYTES are stuck at the first input byte outside the launch memory (R61, R210). -/
theorem bytes_load_stuck {I : Instr} {nl : Bool} {i : Fin 4} {inp outp size b : Nat} {s : State}
    (hx : exec I s = operate s (guardedTask s nl i [.bytes inp outp 0 size] 0 (.const 0)))
    (hr : Ready (20 * size + 3) s) (ha : Admits nl i s) (hq : Quiet i s) (he : EngineServes i s)
    (hc : cfgOk s.cfg = true) (hb : b < size) (h0 : inp ≠ 0) (hi : Mapped s.hm inp b)
    (hn : memByte s.hm (inp + b) = none) (ho : outp ≠ 0 → Mapped s.hm outp (64 * (b / 64))) :
    ∃ (t : State) (events : List WireEvent), StuckAt I (.memRd1 (inp + b) (b % 4)) s t ∧ t.wire = s.wire ++ events ∧
      events.length = b / 64 ∧ GuardMine i t ∧ Quiet i t := by
  obtain ⟨x1, u, events, r, inv, hw, hl, hcur, hown⟩ := bytes_front (i := i) (inp := inp) (outp := outp) (size := size)
    (n := b / 64) (s := s.setOwner i (some s.cur)) hc hq.setOwner he.setOwner (by omega) (fun _ => hi.mono (by omega)) ho 0
  have hcu : u.cfg = s.cfg := inv.cfg
  have hmu : u.hm.map Prod.fst = s.hm.map Prod.fst := inv.addrs
  obtain ⟨x2, rest, r2⟩ := bytesChunk_load_to (i := i) (outp := outp) (off := 64 * (b / 64))
    (len := min 64 (size - 64 * (b / 64))) (b := b % 64) (x := x1) (y := 0) (s := u) (by omega) (by omega) h0
    (hi.off (by omega) hmu) inv.quiet
  rw [show inp + 64 * (b / 64) + b % 64 = inp + b by omega, show b % 64 % 4 = b % 4 by omega] at r2
  obtain ⟨ops', run, hs⟩ := r.into_chunk (settle_bytes (by omega) []) (bytesChunk_cons _ _ _ _ (by omega))
    (by simp [State.chunkLoaded]) (fun _ => rfl) r2
  exact ⟨_, events, stuck_of hx ha (hr.mono (by omega)) run hs (by simp [State.chunkLoaded, hcu])
    (by simpa [State.chunkLoaded] using hmu) rfl fun v x y e => perform_memRd1_none hn e, by simpa [State.chunkLoaded, State.setOwner] using hw, hl,
    by simp [GuardMine, State.chunkLoaded, hown, hcur, State.setOwner], inv.quiet.chunkLoaded⟩

/-- Both forms of TRANSFER_BYTES are stuck at the first output byte outside the launch memory (R61, R210). -/
theorem bytes_store_stuck {I : Instr} {nl : Bool} {i : Fin 4} {inp outp size b : Nat} {s : State}
    (hx : exec I s = operate s (guardedTask s nl i [.bytes inp outp 0 size] 0 (.const 0)))
    (hr : Ready (20 * size + 3) s) (ha : Admits nl i s) (hq : Quiet i s) (he : EngineServes i s)
    (hc : cfgOk s.cfg = true) (hb : b < size) (h0 : outp ≠ 0) (ho : Mapped s.hm outp b)
    (hn : memByte s.hm (outp + b) = none) (hi : inp ≠ 0 → Mapped s.hm inp (min size (64 * (b / 64 + 1)))) :
    ∃ (t : State) (events : List WireEvent), StuckAt I (.memWr1 (outp + b) (b % 4)) s t ∧ t.wire = s.wire ++ events ∧
      events.length = b / 64 + 1 ∧ GuardMine i t ∧ Quiet i t := by
  obtain ⟨x1, u, events, r, inv, hw, hl, hcur, hown⟩ := bytes_front (i := i) (inp := inp) (outp := outp) (size := size)
    (n := b / 64) (s := s.setOwner i (some s.cur)) hc hq.setOwner he.setOwner (by omega)
    (fun h => (hi h).mono (by omega)) (fun _ => ho.mono (by omega)) 0
  have hcu : u.cfg = s.cfg := inv.cfg
  have hmu : u.hm.map Prod.fst = s.hm.map Prod.fst := inv.addrs
  have hok : cfgOk u.cfg = true := by rw [hcu]; exact hc
  have h64 : min 64 (size - 64 * (b / 64)) ≤ 64 := by omega
  obtain ⟨x2, rest, hm', r2, hadd⟩ := bytesChunk_store_to (i := i) (inp := inp) (off := 64 * (b / 64))
    (len := min 64 (size - 64 * (b / 64))) (b := b % 64) (x := x1) (y := 0) (s := u) hok h64 (by omega) inv.quiet
    inv.serves (fun h => (hi h).off (by omega) hmu) h0 (ho.off (by omega) hmu)
  rw [show outp + 64 * (b / 64) + b % 64 = outp + b by omega, show b % 64 % 4 = b % 4 by omega] at r2
  obtain ⟨ops', run, hs⟩ := r.into_chunk (settle_bytes (by omega) []) (bytesChunk_cons _ _ _ _ (by omega))
    (by simp) (fun _ => rfl) r2
  obtain ⟨-, -, -, e, ew, -⟩ := chunkSent_event (i := i) (g := id) (f := inputBytes u.hm inp (64 * (b / 64)))
    (fd := true) (s := u) hok (show 1 ≤ min 64 (size - 64 * (b / 64)) by omega) h64
  exact ⟨_, events ++ [e], stuck_of hx ha (hr.mono (by omega)) run hs (by simp [hcu]) (hadd.trans hmu) rfl
    fun v x y e => perform_memWr1_none hn e, by rw [State.setHm_wire, ew, hw, List.append_assoc]; rfl, by simp [hl],
    by simp [GuardMine, chunkSent_owner, hown, hcur, State.setOwner], chunkSent_quiet hok (by omega) h64⟩

/-- Both forms of WRITE_PIXELS are stuck at the first byte outside the launch memory (R61, R215). -/
theorem pixels_load_stuck {I : Instr} {nl : Bool} {i : Fin 4} {p size b : Nat} {s : State}
    (hx : exec I s = operate s (guardedTask s nl i [.rd .ctrl .y, .pixels p 0 size] 0 (.const 0)))
    (hr : Ready (20 * size + 4) s) (ha : Admits nl i s) (hq : Quiet i s) (he : EngineServes i s)
    (hc : cfgOk s.cfg = true) (hb : b < size) (hm : Mapped s.hm p b) (hn : memByte s.hm (p + b) = none) :
    ∃ (t : State) (events : List WireEvent), StuckAt I (.memRd1 (p + b) (b % 4)) s t ∧ t.wire = s.wire ++ events ∧
      events.length = b / 64 ∧ t.hm = s.hm ∧ GuardMine i t ∧ Quiet i t := by
  let v := s.setOwner i (some s.cur)
  let y := (v.getBus i).view v.cfg .ctrl
  have rd := RunsIn.one (x := 0) (y := 0) (rest := [.pixels p (64 * 0) size])
    (perform_rd_y_quiet (i := i) (r := .ctrl) (s := v) hq.setOwner)
  let M := fun (off len : Nat) (u : State) => u.pixelsMoved i (swapcond s.cfg (wrOrder y)) p off len
  obtain ⟨x1, r, inv⟩ := chunk_loop (i := i) (size := 64 * (b / 64)) (y := y) (s := v)
    (header := fun off => .pixels p off size) (chunk := pixelsChunk s.cfg p) (M := M)
    (P := ChunkInv i s.cfg (s.hm.map Prod.fst)) ⟨rfl, hq.setOwner, he.setOwner, rfl⟩
    (fun m tail h => by
      rw [settle_pixels (show 64 * m < size by omega), show min 64 (64 * (b / 64) - 64 * m) = 64 by omega,
        show min 64 (size - 64 * m) = 64 by omega]
      rfl)
    (fun u h => h.cfg) (fun off len h1 => pixelsChunk_cons s.cfg p off h1)
    (fun off len x u hsz h1 h64 hu => pixels_loop_step hc (hm.mono (by omega)) rfl hsz h1 h64 hu x)
    (b / 64) (by unfold chunkCount; omega) 0
  rw [Nat.min_self] at r
  obtain ⟨events, d⟩ := pixelsDone (i := i) (swap := swapcond s.cfg (wrOrder y)) (p := p) (size := 64 * (b / 64)) (s := v)
    hc (b / 64) (by unfold chunkCount; omega)
  have hcur := chunkIter_keeps (M := M) State.cur (fun off len u => chunkSent_cur ..) (64 * (b / 64)) (b / 64) v
  have hown := chunkIter_keeps (M := M) (fun u => (u.getBus i).owner) (fun off len u => chunkSent_owner ..)
    (64 * (b / 64)) (b / 64) v
  generalize chunkIter M (64 * (b / 64)) (b / 64) v = u at r inv d hcur hown
  have hmu : u.hm.map Prod.fst = s.hm.map Prod.fst := inv.addrs
  obtain ⟨x2, rest, r2⟩ := pixelsChunk_load_to (i := i) (off := 64 * (b / 64)) (len := min 64 (size - 64 * (b / 64)))
    (b := b % 64) (x := x1) (y := y) (s := u) (by omega) (by omega) (hm.off (by omega) hmu) inv.quiet
  rw [show p + 64 * (b / 64) + b % 64 = p + b by omega, show b % 64 % 4 = b % 4 by omega] at r2
  obtain ⟨ops', run, hs⟩ := (rd.trans r).into_chunk (settle_pixels (by omega) []) (pixelsChunk_cons _ _ _ (by omega))
    (by simp [State.chunkLoaded]) (fun _ => rfl) r2
  exact ⟨_, events, stuck_of hx ha (hr.mono (by omega)) run hs (by simpa [State.chunkLoaded] using inv.cfg)
    (by simpa [State.chunkLoaded] using hmu) rfl fun v x y e => perform_memRd1_none hn e,
    by simpa [State.chunkLoaded, v, State.setOwner] using d.wire, d.count,
    by simpa [State.chunkLoaded, v, State.setOwner] using d.hm,
    by simp [GuardMine, State.chunkLoaded, hown, hcur, v, State.setOwner], inv.quiet.chunkLoaded⟩

end Sys2Proof.Machine
end

