-- ==== Sys2Proof/Machine/Assembler.lean ====
section
/-! DEFINITION. The assembler syntax of the operations (R89), and the pseudo-instructions with their expansions (R90) and
what their agent runs of them. Neither is state: a program is a list of descriptors, and a pseudo-instruction names
operations that its agent runs in order. -/

namespace Sys2Proof.Machine

/-- A hexadecimal digit. -/
def hexDigit (n : Nat) : Char :=
  (['0', '1', '2', '3', '4', '5', '6', '7', '8', '9', 'A', 'B', 'C', 'D', 'E', 'F'][n % 16]?).getD '0'

/-- The hexadecimal digits of n, at most `fuel` of them, before the digits `acc`. -/
def hexDigits (fuel n : Nat) (acc : List Char) : List Char :=
  match fuel with
  | 0 => acc
  | fuel + 1 => if n < 16 then hexDigit n :: acc else hexDigits fuel (n / 16) (hexDigit (n % 16) :: acc)

/-- A number as `0x` and its hexadecimal digits (R89). -/
def hexText (n : Nat) : String := "0x" ++ String.ofList (hexDigits 8 n [])

/-- An instance number, 0 to 3. -/
def instText (i : Fin 4) : String := String.ofList [hexDigit i.val]

/-- `h`: an instance number, or `null` for the null handle; an instance under NULLH has no text of its own (R89). -/
def handleText (h : Handle) : String := if h.null then "null" else instText h.inst

/-- `order`: `msb` or `lsb`. -/
def orderText : BitOrder → String
  | .msbFirst => "msb"
  | .lsbFirst => "lsb"

/-- `fd` or `wo`. -/
def duplexText (fd : Word) : String := if fd.getLsbD 0 then "fd" else "wo"

/-- A pointer operand that may be `null`. -/
def pointerText (p : Word) : String := if p = 0 then "null" else hexText p.toNat

/-- A mnemonic and its operands. -/
def line (mnemonic : String) (operands : List String) : String :=
  match operands with
  | [] => mnemonic
  | o :: os => os.foldl (fun t o => t ++ ", " ++ o) (mnemonic ++ " " ++ o)

/-- The assembler line of an operation (R89). -/
def asm : Instr → String
  | .regRd i off => line "reg.rd" [instText i, hexText off.toNat]
  | .regWr i off v => line "reg.wr" [instText i, hexText off.toNat, hexText v.toNat]
  | .regPoll i off mask => line "reg.poll" [instText i, hexText off.toNat, hexText mask.toNat]
  | .guardAcq i => line "guard.acq" [instText i]
  | .guardRel i => line "guard.rel" [instText i]
  | .xferNl i nbits fd => line "xfer.nl" [instText i, hexText nbits.toNat, duplexText fd]
  | .start idx mode order clk => line "start" [hexText idx.toNat, hexText clk.toNat, instText mode, orderText order]
  | .stop h => line "stop" [handleText h]
  | .setClock h clk => line "set.clock" [handleText h, hexText clk.toNat]
  | .getClock h => line "get.clock" [handleText h]
  | .setMode h mode => line "set.mode" [handleText h, instText mode]
  | .getMode h => line "get.mode" [handleText h]
  | .setOrder h order => line "set.order" [handleText h, orderText order]
  | .getOrder h => line "get.order" [handleText h]
  | .csEnable h mask => line "cs.enable" [handleText h, hexText mask.toNat]
  | .csDisable h mask => line "cs.disable" [handleText h, hexText mask.toNat]
  | .write h count p => line "write" [handleText h, hexText p.toNat, hexText count.toNat]
  | .writeNl h count p => line "write.nl" [handleText h, hexText p.toNat, hexText count.toNat]
  | .transfer h count p => line "transfer" [handleText h, hexText p.toNat, hexText count.toNat]
  | .transferNl h count p => line "transfer.nl" [handleText h, hexText p.toNat, hexText count.toNat]
  | .writeByte h v => line "write.byte" [handleText h, hexText v.toNat]
  | .writeByteNl h v => line "write.byte.nl" [handleText h, hexText v.toNat]
  | .transferByte h v => line "transfer.byte" [handleText h, hexText v.toNat]
  | .transferByteNl h v => line "transfer.byte.nl" [handleText h, hexText v.toNat]
  | .writeWord h v => line "write.word" [handleText h, hexText v.toNat]
  | .writeWordNl h v => line "write.word.nl" [handleText h, hexText v.toNat]
  | .transferWord h v => line "transfer.word" [handleText h, hexText v.toNat]
  | .transferWordNl h v => line "transfer.word.nl" [handleText h, hexText v.toNat]
  | .writeLong h v => line "write.long" [handleText h, hexText v.toNat]
  | .writeLongNl h v => line "write.long.nl" [handleText h, hexText v.toNat]
  | .transferLong h v => line "transfer.long" [handleText h, hexText v.toNat]
  | .transferLongNl h v => line "transfer.long.nl" [handleText h, hexText v.toNat]
  | .transferBytes h size inp outp =>
    line "transfer.bytes" [handleText h, pointerText inp, pointerText outp, hexText size.toNat]
  | .transferBytesNl h size inp outp =>
    line "transfer.bytes.nl" [handleText h, pointerText inp, pointerText outp, hexText size.toNat]
  | .transferBits h nbits data => line "transfer.bits" [handleText h, hexText data.toNat, hexText nbits.toNat]
  | .transferBitsNl h nbits data => line "transfer.bits.nl" [handleText h, hexText data.toNat, hexText nbits.toNat]
  | .writePixels h size p => line "write.pixels" [handleText h, hexText p.toNat, hexText size.toNat]
  | .writePixelsNl h size p => line "write.pixels.nl" [handleText h, hexText p.toNat, hexText size.toNat]
  | .freqToDiv t => line "freq2div" [hexText t.toNat]
  | .divToFreq clk => line "div2freq" [hexText clk.toNat]
  | .beginTxn h clk mode order => line "begin.txn" [handleText h, hexText clk.toNat, instText mode, orderText order]
  | .endTxn h => line "end.txn" [handleText h]
  | .clkBefore i old new => line "clk.before" [instText i, hexText old.toNat, hexText new.toNat]
  | .clkAfter i old new => line "clk.after" [instText i, hexText old.toNat, hexText new.toNat]

/-- The pseudo-instructions of R90. A chip-select index is 0 to 15: one of 16 or more cannot be written. -/
inductive Pseudo where
  | commit (i : Fin 4)
  | trigger (i : Fin 4)
  | ssEnable (h : Handle) (k : Fin 16)
  | ssDisable (h : Handle) (k : Fin 16)
  | freqSet (h : Handle) (f : Word)
  deriving DecidableEq, Repr

/-- The first operation of a pseudo-instruction's expansion (R90); none where the pseudo-instruction does not exist:
`commit` on a variant without HAS_COMMIT. -/
def Pseudo.first (cfg : Cfg) : Pseudo → Option Instr
  | .commit i => if cfg.hasCommit then some (.regWr i 0x00 0x2) else none
  | .trigger i => some (.regWr i 0x00 0x1)
  | .ssEnable h k => some (.csEnable h (BitVec.ofNat 16 (2 ^ k.val)))
  | .ssDisable h k => some (.csDisable h (BitVec.ofNat 16 (2 ^ k.val)))
  | .freqSet _ f => some (.freqToDiv f)

/-- The second operation of a pseudo-instruction's expansion, from the RES and STS its first one left in its agent (R90);
none where the expansion has no second, and for `freq.set` where the first one's status is not OK. -/
def Pseudo.second (c : Ctx) : Pseudo → Option Instr
  | .commit i => some (.regPoll i 0x00 0x2)
  | .trigger i => some (.regPoll i 0x00 0x1)
  | .ssEnable _ _ => none
  | .ssDisable _ _ => none
  | .freqSet h _ => if c.sts = .ok then some (.setClock h c.res) else none

/-- The operation a pseudo-instruction begun at place `start` is at, when its agent's sequencing state is c: the first at
`start`, the second when the first has ended, which moves pc by 1 and writes RES and STS (R36); none when nothing of it
is left to run. -/
def Pseudo.current (cfg : Cfg) (start : Nat) (c : Ctx) (p : Pseudo) : Option Instr :=
  match p.first cfg with
  | none => none
  | some i => if c.pc = start then some i else if c.pc = start + 1 then p.second c else none

/-- The running agent's turn on a pseudo-instruction it began at place `start` (R90): its turn on the operation the
expansion is at; nothing when the expansion is done. -/
def execPseudo (start : Nat) (p : Pseudo) (s : State) : Host.Outcome State Fault Refusal :=
  match s.ctx?.bind fun c => p.current s.cfg start c with
  | some i => exec i s
  | none => .next s

end Sys2Proof.Machine
end

