-- ==== Sys2Proof/Tests/Slice0.lean ====
section
/-! SUPPORT. Tests: each check of `Instr.wellFormed`, words written out from the spec's encodings, at most two single
steps per operation, and a witness for the hypotheses of every statement. Expected results are from 95_test_vectors.md
(named T-…), 30_encoding.md R91 and the worked examples of the rules, or calculated by hand from them. -/

open Sys2Proof Sys2Proof.Machine

set_option Elab.async false

namespace Sys2Proof.Tests

/-! ### Well-formedness: one ill-formed term for each check -/

theorem test_wellFormed_fd : (Instr.xferNl 0 8 2).wellFormed = false ∧ (Instr.xferNl 0 8 1).wellFormed = true := by decide
theorem test_wellFormed_byte :
    (Instr.writeByte ⟨0, false⟩ 0x100).wellFormed = false ∧ (Instr.writeByteNl ⟨0, false⟩ 0x100).wellFormed = false ∧
    (Instr.transferByte ⟨0, false⟩ 0x1A5).wellFormed = false ∧
    (Instr.transferByteNl ⟨0, false⟩ 0x80000000).wellFormed = false ∧
    (Instr.transferByteNl ⟨0, false⟩ 0xFF).wellFormed = true := by decide
theorem test_wellFormed_word :
    (Instr.writeWord ⟨0, false⟩ 0x10000).wellFormed = false ∧ (Instr.writeWordNl ⟨0, false⟩ 0x10000).wellFormed = false ∧
    (Instr.transferWord ⟨0, false⟩ 0x10000).wellFormed = false ∧
    (Instr.transferWordNl ⟨0, false⟩ 0x80000000).wellFormed = false ∧
    (Instr.transferWordNl ⟨0, false⟩ 0xFFFF).wellFormed = true := by decide

/-! ### Decoding: every constructor by a word of the spec (L2.1, R91; the others from R80 to R83) -/

/-- The words decode to i, and i encodes to the words. -/
def means (d0 d1 d2 d3 : Word) (i : Instr) : Bool :=
  decide (decode ⟨d0, d1, d2, d3⟩ = .ok i) && decide (encode i = ⟨d0, d1, d2, d3⟩)

/-- The words are ILLEGAL under the given clause of R84. -/
def rejects (d0 d1 d2 d3 : Word) (r : Reject) : Bool := decide (decode ⟨d0, d1, d2, d3⟩ = .illegal r)

theorem test_decode_register :
    means 0x00400101 0 0 0 (.regRd 1 0x40) ∧ means 0x00400102 0xC3A5 0 0 (.regWr 1 0x40 0xC3A5) ∧
    means 0x00000003 1 0 0 (.regPoll 0 0 1) ∧ means 0x00000104 0 0 0 (.guardAcq 1) ∧
    means 0x00000105 0 0 0 (.guardRel 1) ∧ means 0x00100508 1 0 0 (.xferNl 1 16 1) := by decide
theorem test_decode_lifecycle :
    means 0x00000010 0x009C1001 0 0 (.start 0 0 .msbFirst 0x009C1001) ∧
    means 0x07020010 0x80000000 0 0 (.start 2 3 .lsbFirst 0x80000000) ∧ means 0x00000811 0 0 0 (.stop ⟨0, true⟩) ∧
    means 0x00000050 0x000C1001 0 0 (.beginTxn ⟨0, false⟩ 0x000C1001 0 .msbFirst) ∧
    means 0x06000350 1 0 0 (.beginTxn ⟨3, false⟩ 1 2 .lsbFirst) ∧ means 0x00000051 0 0 0 (.endTxn ⟨0, false⟩) := by decide
theorem test_decode_configuration :
    means 0x00000020 0x80000000 0 0 (.setClock ⟨0, false⟩ 0x80000000) ∧ means 0x00000121 0 0 0 (.getClock ⟨1, false⟩) ∧
    means 0x02000022 0 0 0 (.setMode ⟨0, false⟩ 2) ∧ means 0x01000022 0 0 0 (.setMode ⟨0, false⟩ 1) ∧
    means 0x00000023 0 0 0 (.getMode ⟨0, false⟩) ∧ means 0x04000024 0 0 0 (.setOrder ⟨0, false⟩ .lsbFirst) ∧
    means 0x00000025 0 0 0 (.getOrder ⟨0, false⟩) ∧ means 0x00020026 0 0 0 (.csEnable ⟨0, false⟩ 2) ∧
    means 0x00070027 0 0 0 (.csDisable ⟨0, false⟩ 7) := by decide
theorem test_decode_words :
    means 0x00020030 0 0x2000 0 (.write ⟨0, false⟩ 2 0x2000) ∧ means 0x00020430 0 0x2000 0 (.writeNl ⟨0, false⟩ 2 0x2000) ∧
    means 0x00010031 0 0x2000 0 (.transfer ⟨0, false⟩ 1 0x2000) ∧
    means 0x00010731 0 0x2000 0 (.transferNl ⟨3, false⟩ 1 0x2000) := by decide
theorem test_decode_scalars :
    means 0x00000032 0x35 0 0 (.writeByte ⟨0, false⟩ 0x35) ∧ means 0x00000432 0x55 0 0 (.writeByteNl ⟨0, false⟩ 0x55) ∧
    means 0x00000033 0xA5 0 0 (.transferByte ⟨0, false⟩ 0xA5) ∧
    means 0x00000533 0xA5 0 0 (.transferByteNl ⟨1, false⟩ 0xA5) ∧
    means 0x00000034 0x1234 0 0 (.writeWord ⟨0, false⟩ 0x1234) ∧
    means 0x00000434 0x1234 0 0 (.writeWordNl ⟨0, false⟩ 0x1234) ∧
    means 0x00000035 0xBEEF 0 0 (.transferWord ⟨0, false⟩ 0xBEEF) ∧
    means 0x00000435 0xBEEF 0 0 (.transferWordNl ⟨0, false⟩ 0xBEEF) ∧
    means 0x00000036 0x12345678 0 0 (.writeLong ⟨0, false⟩ 0x12345678) ∧
    means 0x00000436 0x12345678 0 0 (.writeLongNl ⟨0, false⟩ 0x12345678) ∧
    means 0x00000037 0xCAFEF00D 0 0 (.transferLong ⟨0, false⟩ 0xCAFEF00D) ∧
    means 0x00000437 0xCAFEF00D 0 0 (.transferLongNl ⟨0, false⟩ 0xCAFEF00D) ∧
    means 0x000C0039 0xABC 0 0 (.transferBits ⟨0, false⟩ 12 0xABC) ∧
    means 0x000C0439 0xABC 0 0 (.transferBitsNl ⟨0, false⟩ 12 0xABC) := by decide
theorem test_decode_chunks :
    means 0x00000038 0x46 0x2000 0x3000 (.transferBytes ⟨0, false⟩ 70 0x2000 0x3000) ∧
    means 0x00000838 5 0x2000 0x3000 (.transferBytes ⟨0, true⟩ 5 0x2000 0x3000) ∧
    means 0x00000438 5 0x2000 0x3000 (.transferBytesNl ⟨0, false⟩ 5 0x2000 0x3000) ∧
    means 0x0000003A 4 0x2000 0 (.writePixels ⟨0, false⟩ 4 0x2000) ∧
    means 0x0000043A 4 0x2000 0 (.writePixelsNl ⟨0, false⟩ 4 0x2000) := by decide
theorem test_decode_clock :
    means 0x00000040 0x000F4240 0 0 (.freqToDiv 1000000) ∧ means 0x00000041 0x009C1001 0 0 (.divToFreq 0x009C1001) ∧
    means 0x00000060 0x04C4B400 0x02625A00 0 (.clkBefore 0 80000000 40000000) ∧
    means 0x00000160 0x04C4B400 0x02625A00 0 (.clkBefore 1 80000000 40000000) ∧
    means 0x00000061 0x04C4B400 0x02625A00 0 (.clkAfter 0 80000000 40000000) := by decide
theorem test_decode_rejects :
    rejects 0x00000000 0 0 0 .opcode ∧ rejects 0x00000062 0 0 0 .opcode ∧ rejects 0x000000FF 0 0 0 .opcode ∧
    rejects 0x00000006 0 0 0 .opcode ∧ rejects 0x00000008 0 0 0 .noLock ∧ rejects 0x00000420 0 0 0 .noLock ∧
    rejects 0x00000410 0 0 0 .noLock ∧ rejects 0x00001033 0 0 0 .reserved ∧ rejects 0x00008033 0 0 0 .reserved ∧
    rejects 0x00000110 0 0 0 .inst ∧ rejects 0x00000804 0 0 0 .nullHandle ∧ rejects 0x00000840 0 0 0 .nullHandle ∧
    rejects 0x08000010 0 0 0 .imm16 ∧ rejects 0x00010021 0 0 0 .imm16 ∧ rejects 0x00010022 0 0 0 .imm16 ∧
    rejects 0x04000022 0 0 0 .imm16 ∧ rejects 0x00000033 0x1A5 0 0 .argument ∧
    rejects 0x00000035 0x10000 0 0 .argument ∧ rejects 0x00100508 2 0 0 .argument ∧
    rejects 0x00000001 1 0 0 .argument ∧ rejects 0x00000033 0 1 0 .argument := by decide
theorem test_decodeTableWord :
    decodeTableWord 128 0x00003000000020000000004600000038 = some (.transferBytes ⟨0, false⟩ 70 0x2000 0x3000) ∧
    decodeTableWord 128 0x33 = some (.transferByte ⟨0, false⟩ 0) := by decide

/-! ### Assembler text (R89, R90) -/

theorem test_asm :
    asm (.transferBytes ⟨0, true⟩ 5 0x2000 0x3000) = "transfer.bytes null, 0x2000, 0x3000, 0x5" ∧
    asm (.start 2 3 .lsbFirst 0x80000000) = "start 0x2, 0x80000000, 3, lsb" ∧ asm (.xferNl 1 16 1) = "xfer.nl 1, 0x10, fd" := by
  decide +kernel
theorem test_pseudo :
    Pseudo.first Cfg.ref (.ssEnable ⟨0, false⟩ 3) = some (.csEnable ⟨0, false⟩ 8) ∧
    Pseudo.first Cfg.ref (.freqSet ⟨0, false⟩ 1000000) = some (.freqToDiv 1000000) ∧
    Pseudo.second ⟨1, 0x009C1001, .ok, none⟩ (.freqSet ⟨0, false⟩ 1000000) = some (.setClock ⟨0, false⟩ 0x009C1001) ∧
    Pseudo.second ⟨1, 0, .invalidArgument, none⟩ (.freqSet ⟨0, false⟩ 0) = none := by
  decide
theorem test_pseudo_commit :
    Pseudo.first Cfg.ref (.commit 0) = none ∧ Pseudo.first Cfg.refN (.commit 0) = some (.regWr 0 0x00 0x2) ∧
    Pseudo.second ⟨1, 0, .ok, none⟩ (.commit 0) = some (.regPoll 0 0x00 0x2) := by
  decide

/-! ### Small states -/

/-- An instance as START 0x009C1001, mode 0, msb leaves it (T-LC1), with the given guard holder, CTRL and phase. -/
def bus (owner : Option Agent) (ctrl : Word) (phase : Phase) : Bus where
  conf := ⟨0x009C1001, ctrl, 1, 0, 0, 0⟩
  clkGate := 0
  w := words16 fun _ => 0
  act := RegCfg.zero
  phase := phase
  guardExists := true
  owner := owner
  started := true
  registered := true

/-- A started instance nothing holds and with nothing in flight. -/
def idle : Bus := bus none 0 .idle

/-- The same, its guard held by caller 0. -/
def held : Bus := bus (some (.caller 0)) 0 .idle

/-- An instance that was never started. -/
def fresh : Bus := { idle with conf := RegCfg.zero, guardExists := false, started := false, registered := false }

/-- A long turn of an agent; the engine it polls is prompt. -/
def turnOf (a : Agent) : Turn := ⟨a, 2000, true, 0⟩

/-- A state with the given instance 0, instances 1 to 3 started and free, in a turn of agent a. -/
def board (cfg : Cfg) (b : Bus) (a : Agent) (hm : List Host.Cell) : State :=
  { State.powerOn cfg [] hm [] with bus := #v[b, idle, idle, idle], turn := turnOf a }

/-- The bytes of a launch memory from address a on. -/
def cells (a : Nat) (bytes : List Nat) : List Host.Cell := bytes.zipIdx.map fun p => (a + p.2, BitVec.ofNat 8 p.1)

/-- Caller 0's turn on instance 0 as given, REF. -/
def host (b : Bus) (hm : List Host.Cell) : State := board Cfg.ref b (.caller 0) hm

/-- The state an outcome answers. -/
def out (o : Host.Outcome State Fault Refusal) : State :=
  match o with
  | .next t => t
  | .fault _ => State.reset
  | .refused _ => State.reset

/-- RES, STS and pc of the running agent. -/
def latch (s : State) : Option (Word × Status × Nat) := s.ctx?.map fun c => (c.res, c.sts, c.pc)

/-- The running agent is inside an operation whose next micro-step is op. -/
def holds (s : State) (op : UOp) : Bool :=
  match s.ctx?.bind Ctx.task with
  | none => false
  | some t => decide (t.ops.head? = some op)

/-- The transmitted bits of every wire event. -/
def sent (s : State) : List (List Nat) := s.wire.map fun e => e.tx.map Bool.toNat

/-- The bits of bytes in order, each least significant bit first. -/
def lsbBits (bytes : List Nat) : List Nat := bytes.flatMap fun b => (List.range 8).map fun k => b / 2 ^ k % 2

/-- The faults recorded. -/
def causes (s : State) : List FaultCause := s.faults.map FaultRecord.cause

/-- The handle of instance 0. -/
def h0 : Handle := ⟨0, false⟩

/-- HM[0x2000..0x2007] = 01 .. 08 (L2.5). -/
def hm8 : List Host.Cell := cells 0x2000 [1, 2, 3, 4, 5, 6, 7, 8]

/-! ### Registers and the guard (L2.4) -/

theorem test_regRd : latch (out (exec (.regRd 0 0x04) (host idle []))) = some (0x009C1001, .ok, 1) := by decide +kernel
theorem test_regRd_misaligned :
    (out (exec (.regRd 0 0x02) (host idle []))).faults = [⟨.misaligned 2, .caller 0, some 0⟩] := by decide +kernel
theorem test_regWr : ((out (exec (.regWr 0 0x10 0xFFFFFFFF) (host idle []))).getBus 0).conf.pin = 0xF := by decide +kernel
theorem test_regWr_busy :
    causes (out (exec (.regWr 0 0x04 0) (host (bus none 0 .busy) []))) = [.busyWrite 0 .clock] := by decide +kernel
theorem test_regPoll_holds :
    holds (out (exec (.regPoll 0 0 1) { host (bus none 0 .busy) [] with turn := ⟨.caller 0, 9, false, 0⟩ }))
      (.poll .cmd 1) = true := by decide +kernel
theorem test_regPoll_engine :
    latch (out (exec (.regPoll 0 0 1) (host (bus none 0 .busy) []))) = some (0, .ok, 1) := by decide +kernel
theorem test_guardAcq_reentrant :
    holds (out (exec (.guardAcq 0) (host held []))) .acquire = true := by decide +kernel
theorem test_guardAcq_uncreated : causes (out (exec (.guardAcq 0) (host fresh []))) = [.notStarted 0] := by decide +kernel
theorem test_guardRel : ((out (exec (.guardRel 0) (host held []))).getBus 0).owner = none := by decide +kernel
theorem test_guardRel_free : causes (out (exec (.guardRel 0) (host idle []))) = [.notOwner 0] := by decide +kernel

/-! ### One transaction (L2.5) -/

theorem test_xferNl :
    let t := out (exec (.xferNl 0 1 0) (host { held with w := words16 fun _ => 0x80 } []))
    sent t = [[1]] ∧ latch t = some (0, .ok, 1) ∧ (t.getBus 0).conf.misoDlen = 0 := by decide +kernel
theorem test_xferNl_range :
    latch (out (exec (.xferNl 0 513 1) (host held []))) = some (0, .invalidArgument, 1) := by decide +kernel
theorem test_write :
    let t := out (exec (.write h0 2 0x2000) (host (bus none 3 .idle) hm8))
    sent t = [lsbBits [1, 2, 3, 4, 5, 6, 7, 8]] ∧ (t.getBus 0).conf.mosiDlen = 63 ∧ (t.getBus 0).owner = none := by
  decide +kernel
theorem test_write_misaligned :
    causes (out (exec (.write h0 1 0x2002) (host idle hm8))) = [.misaligned 0x2002] := by decide +kernel
theorem test_writeNl :
    let t := out (exec (.writeNl h0 1 0x2000) (host held hm8))
    sent t = [[0,0,0,0,0,0,0,1, 0,0,0,0,0,0,1,0, 0,0,0,0,0,0,1,1, 0,0,0,0,0,1,0,0]] ∧
    (t.getBus 0).owner = some (.caller 0) := by decide +kernel
theorem test_writeNl_count :
    latch (out (exec (.writeNl h0 17 0x2000) (host held hm8))) = some (0, .invalidArgument, 1) := by decide +kernel
theorem test_transfer_mixed_orders :
    (out (exec (.transfer h0 1 0x2000) (host (bus none 2 .idle) hm8))).hm =
      cells 0x2000 [0x80, 0x40, 0xC0, 0x20, 5, 6, 7, 8] := by decide +kernel
theorem test_transferNl :
    (out (exec (.transferNl h0 1 0x2000) (host held hm8))).hm = hm8 := by decide +kernel
theorem test_writeByte :
    let t := out (exec (.writeByte h0 0x35) (host (bus none 3 .idle) []))
    sent t = [[1,0,1,0,1,1,0,0]] ∧ (t.getBus 0).conf.misoDlen = 0 := by decide +kernel
theorem test_writeByteNl : sent (out (exec (.writeByteNl h0 0x35) (host held []))) = [[0,0,1,1,0,1,0,1]] := by
  decide +kernel
theorem test_transferByte :
    let t := out (exec (.transferByte h0 0xA5) (host idle []))
    sent t = [[1,0,1,0,0,1,0,1]] ∧ (t.getBus 0).conf.misoDlen = 7 := by decide +kernel
theorem test_transferByteNl_unguarded :
    (out (exec (.transferByteNl h0 0x55) (host idle []))).faults = [⟨.unguarded 0, .caller 0, some 0⟩] := by decide +kernel
theorem test_writeWord :
    sent (out (exec (.writeWord h0 0x1234) (host (bus none 3 .idle) []))) = [lsbBits [0x12, 0x34]] := by decide +kernel
theorem test_writeWordNl :
    sent (out (exec (.writeWordNl h0 0x1234) (host held []))) = [[0,0,1,1,0,1,0,0, 0,0,0,1,0,0,1,0]] := by decide +kernel
theorem test_transferWord :
    let t := out (exec (.transferWord h0 0x1234) (host (bus none 1 .idle) []))
    sent t = [lsbBits [0x12, 0x34]] ∧ (t.getBus 0).conf.misoDlen = 15 := by decide +kernel
theorem test_transferWordNl :
    sent (out (exec (.transferWordNl h0 0xBEEF) (host held []))) = [[1,1,1,0,1,1,1,1, 1,0,1,1,1,1,1,0]] := by
  decide +kernel
theorem test_writeLong :
    sent (out (exec (.writeLong h0 0x12345678) (host (bus none 3 .idle) []))) = [lsbBits [0x12, 0x34, 0x56, 0x78]] := by
  decide +kernel
theorem test_writeLongNl :
    sent (out (exec (.writeLongNl h0 0x00000080) (host held []))) = [1 :: List.replicate 31 0] := by decide +kernel
theorem test_transferLong :
    latch (out (exec (.transferLong h0 0xCAFEF00D) (host (bus none 3 .idle) []))) = some (0xCAFEF00D, .ok, 1) := by
  decide +kernel
theorem test_transferLongNl :
    latch (out (exec (.transferLongNl h0 0xCAFEF00D) (host held []))) = some (0xCAFEF00D, .ok, 1) := by decide +kernel
theorem test_transferBits :
    let t := out (exec (.transferBits h0 12 0xABC) (host (bus none 3 .idle) []))
    sent t = [[0,1,0,1,0,0,0,0, 0,0,1,1]] ∧ (t.getBus 0).conf.misoDlen = 11 := by decide +kernel
theorem test_transferBits_range :
    latch (out (exec (.transferBits h0 33 1) (host idle []))) = some (0, .invalidArgument, 1) := by decide +kernel
theorem test_transferBitsNl :
    latch (out (exec (.transferBitsNl h0 32 0xDEADBEEF) (host (bus (some (.caller 0)) 3 .idle) []))) =
      some (0xDEADBEEF, .ok, 1) := by decide +kernel

/-! ### Chunks (L2.6) -/

theorem test_transferBytes :
    let t := out (exec (.transferBytes h0 4 0x2000 0x3000)
      (host idle (cells 0x2000 [0x11, 0x22, 0x33, 0x44, 0x55] ++ cells 0x3000 [0, 0, 0, 0, 0])))
    t.hm = cells 0x2000 [0x11, 0x22, 0x33, 0x44, 0x55] ++ cells 0x3000 [0x11, 0x22, 0x33, 0x44, 0] ∧
    (t.getBus 0).conf.mosiDlen = 31 := by decide +kernel
theorem test_transferBytes_trailing :
    let t := out (exec (.transferBytes h0 5 0x2000 0) (host idle (cells 0x2000 [0x11, 0x22, 0x33, 0x44, 0x55])))
    sent t = [[0,0,0,1,0,0,0,1, 0,0,1,0,0,0,1,0, 0,0,1,1,0,0,1,1, 0,1,0,0,0,1,0,0, 0,1,0,1,0,1,0,1]] ∧
    latch t = some (0, .ok, 1) := by decide +kernel
theorem test_transferBytesNl_null :
    let t := out (exec (.transferBytesNl h0 4 0 0x3100) (host held (cells 0x3100 [0, 0, 0, 0, 0])))
    t.hm = cells 0x3100 [0xFF, 0xFF, 0xFF, 0xFF, 0] ∧ sent t = [List.replicate 32 1] := by decide +kernel
theorem test_writePixels :
    sent (out (exec (.writePixels h0 5 0x2000)
      (host (bus none 3 .idle) (cells 0x2000 [0x12, 0x34, 0x56, 0x78, 0x9A, 0xBC])))) =
      [lsbBits [0x34, 0x12, 0x78, 0x56, 0x00]] := by decide +kernel
theorem test_writePixels_null :
    latch (out (exec (.writePixels h0 4 0) (host idle []))) = some (0, .invalidArgument, 1) := by decide +kernel
theorem test_writePixelsNl :
    sent (out (exec (.writePixelsNl h0 6 0x2000)
      (host (bus (some (.caller 0)) 3 .idle) (cells 0x2000 [0x12, 0x34, 0x56, 0x78, 0x9A, 0xBC])))) =
      [lsbBits [0x34, 0x12, 0x78, 0x56, 0xBC, 0x9A]] := by decide +kernel

/-! ### Lifecycle and configuration (L2.7) -/

theorem test_start :
    let t := out (exec (.start 0 2 .lsbFirst 0x000C1001) (host fresh []))
    (t.getBus 0).conf = ⟨0x000C1001, 3, 3, 1, 0, 0⟩ ∧ (t.getBus 0).started = true ∧ (t.getBus 0).owner = none := by
  decide +kernel
theorem test_start_range :
    latch (out (exec (.start 4 0 .msbFirst 0x009C1001) (host fresh []))) = some (0, .invalidInstance, 1) := by decide +kernel
theorem test_stop :
    let t := out (exec (.stop h0) (host { idle with w := words16 fun _ => 7 } []))
    (t.getBus 0).conf = RegCfg.zero ∧ (t.getBus 0).w[15] = 7 ∧ (t.getBus 0).started = false ∧
    (t.getBus 0).guardExists = true := by decide +kernel
theorem test_stop_in_bracket : holds (out (exec (.stop h0) (host held []))) .acquire = true := by decide +kernel
theorem test_setClock :
    ((out (exec (.setClock h0 0xFFFFFFFF) (board Cfg.refN idle (.caller 0) []))).getBus 0).conf.clock = 0x803FFFFF := by
  decide +kernel
theorem test_getClock : latch (out (exec (.getClock h0) (host held []))) = some (0x009C1001, .ok, 1) := by decide +kernel
theorem test_getClock_null :
    latch (out (exec (.getClock ⟨0, true⟩) (host fresh []))) = some (0, .ok, 1) := by decide +kernel
theorem test_setMode :
    ((out (exec (.setMode h0 1) (host { idle with conf := ⟨0, 0, 1, 0xF, 0, 0⟩ } []))).getBus 0).conf =
      ⟨0, 0, 3, 0xE, 0, 0⟩ := by decide +kernel
theorem test_getMode :
    latch (out (exec (.getMode h0) (host { idle with conf := ⟨0, 0, 1, 0xF, 0, 0⟩ } []))) = some (3, .ok, 1) := by
  decide +kernel
theorem test_setOrder : ((out (exec (.setOrder h0 .lsbFirst) (host idle []))).getBus 0).conf.ctrl = 3 := by decide +kernel
theorem test_getOrder : latch (out (exec (.getOrder h0) (host (bus none 2 .idle) []))) = some (0, .ok, 1) := by
  decide +kernel
theorem test_csEnable :
    ((out (exec (.csEnable h0 2) (host { idle with conf := ⟨0, 0, 1, 0xE, 0, 0⟩ } []))).getBus 0).conf.pin = 0xA := by
  decide +kernel
theorem test_csEnable_range :
    latch (out (exec (.csEnable h0 8) (host idle []))) = some (0, .invalidArgument, 1) := by decide +kernel
theorem test_csDisable : ((out (exec (.csDisable h0 1) (host idle []))).getBus 0).conf.pin = 2 := by decide +kernel
theorem test_beginTxn :
    let t := out (exec (.beginTxn h0 0x003C4002 0 .msbFirst) (board Cfg.refN idle (.caller 0) []))
    (t.getBus 0).act = ⟨0x003C4002, 0, 1, 0, 0, 0⟩ ∧ (t.getBus 0).owner = some (.caller 0) := by decide +kernel
theorem test_endTxn : ((out (exec (.endTxn h0) (host held []))).getBus 0).owner = none := by decide +kernel
theorem test_endTxn_free : causes (out (exec (.endTxn h0) (host idle []))) = [.notOwner 0] := by decide +kernel

/-! ### The calculator and the clock change (L2.2, L2.7) -/

theorem test_freqToDiv :
    latch (out (exec (.freqToDiv 3000000) (host idle []))) = some (0x00202001, .ok, 1) := by decide +kernel
theorem test_freqToDiv_zero :
    latch (out (exec (.freqToDiv 0) (host idle []))) = some (0, .invalidArgument, 1) := by decide +kernel
/-- freq.set (R90): its second turn loads the RES of its first; a frequency of 0 leaves CLOCK. -/
theorem test_execPseudo :
    let turns := fun f => out (execPseudo 0 (.freqSet h0 f) (out (execPseudo 0 (.freqSet h0 f) (host idle []))))
    ((turns 500000).getBus 0).conf.clock = 0x013C1001 ∧ latch (turns 500000) = some (0, .ok, 2) ∧
    ((turns 0).getBus 0).conf.clock = 0x009C1001 ∧ latch (turns 0) = some (0, .invalidArgument, 1) := by decide +kernel
theorem test_divToFreq :
    latch (out (exec (.divToFreq 0x009C1001) (host idle []))) = some (1000000, .ok, 1) := by decide +kernel
theorem test_clkBefore :
    ((out (exec (.clkBefore 0 80000000 40000000) (board Cfg.ref idle .notifier []))).getBus 0).owner =
      some .notifier := by decide +kernel
theorem test_clkBefore_host :
    causes (out (exec (.clkBefore 0 80000000 40000000) (host idle []))) = [.illegalOp 0x60] := by decide +kernel
theorem test_clkAfter :
    let t := out (exec (.clkAfter 0 80000000 40000000) (board Cfg.ref (bus (some .notifier) 0 .idle) .notifier []))
    (t.getBus 0).conf.clock = 0x004C1001 ∧ (t.getBus 0).owner = none := by decide +kernel
theorem test_clkAfter_not_restored :
    ((out (exec (.clkAfter 0 40000000 80000000) (board Cfg.ref
      { bus (some .notifier) 0 .idle with conf := ⟨0x00181001, 0, 1, 0, 0, 0⟩ } .notifier []))).getBus 0).conf.clock =
      0x00341001 := by decide +kernel
theorem test_solver :
    solveWord Cfg.ref 80000000 115200 = 0x02284002 ∧ solveWord Cfg.ref 80000000 153 = 0x7F9FF020 ∧
    solveWord Cfg.ref 80000000 151 = 0x7FFFF020 ∧ solveWord Cfg.refN 80000000 100000 = 0x003F1019 := by decide +kernel

/-! ### Steps -/

/-- A descriptor placed at reset runs in the very next step (R36). -/
theorem test_withFetchWord :
    latch (out (step (State.reset.withFetchWord 128 0x000F424000000040))) = some (0x009C1001, .ok, 1) := by decide +kernel
theorem test_withFetchWord_callback :
    causes (out (step (State.reset.withFetchWord 128 0x61))) = [.notOwner 0] := by decide +kernel
/-- An illegal descriptor (T: D0 = 0x00001033) raises ILLEGAL_OP with its D0 (R84). -/
theorem test_illegal :
    (out (step (State.reset.withFetchWord 128 0x1033))).faults = [⟨.illegalOp 0x1033, .caller 0, some 0⟩] := by
  decide +kernel

/-! ### Witnesses: states and operands that meet the hypotheses of every statement, for each of its clauses -/

/-- As `host`, with only two instances. -/
def host2 (b : Bus) : State := board { Cfg.ref with nInst := 2 } b (.caller 0) []

/-- A caller's turn in which no engine is prompt. -/
def alone (cfg : Cfg) (b : Bus) : State := { board cfg b (.caller 0) [] with turn := ⟨.caller 0, 2000, false, 0⟩ }

/-- A started instance with a transaction in flight, its guard free or held by caller 0. -/
def busy : Bus := bus none 0 .busy
def heldBusy : Bus := bus (some (.caller 0)) 0 .busy

/-- `host` with caller 0 inside the operation t. -/
def inside (b : Bus) (t : Task) : State :=
  { host b [] with callers := [⟨[], ⟨0, 0, .ok, some t⟩⟩, ⟨[], Ctx.powerOn⟩] }

/-- 64 bytes at 0x2000, and 65 bytes at 0x2000 and at 0x3000. -/
def hm64 : List Host.Cell := cells 0x2000 (List.range 64)
def hm65 : List Host.Cell := cells 0x2000 (List.range 65) ++ cells 0x3000 (List.replicate 65 0)

theorem ready_host (b : Bus) (hm : List Host.Cell) (n : Nat) (h : n ≤ 2000) : Ready n (host b hm) :=
  ⟨⟨_, rfl, rfl⟩, rfl, h⟩
theorem ready_host2 (b : Bus) (n : Nat) (h : n ≤ 2000) : Ready n (host2 b) := ⟨⟨_, rfl, rfl⟩, rfl, h⟩
theorem ready_alone (b : Bus) (n : Nat) (h : n ≤ 2000) :
    Ready n (alone Cfg.ref b) ∧ Ready n (alone Cfg.refN b) :=
  ⟨⟨⟨_, rfl, rfl⟩, rfl, h⟩, ⟨⟨_, rfl, rfl⟩, rfl, h⟩⟩
theorem ready_notifier (b : Bus) (n : Nat) (h : n ≤ 2000) : Ready n (board Cfg.ref b .notifier []) :=
  ⟨⟨_, rfl, rfl⟩, rfl, h⟩
theorem ready_notifier2 (b : Bus) (n : Nat) (h : n ≤ 2000) :
    Ready n (board { Cfg.ref with nInst := 2 } b .notifier []) := ⟨⟨_, rfl, rfl⟩, rfl, h⟩
theorem inside_inside (b : Bus) (t : Task) : Inside t (inside b t) :=
  ⟨⟨_, rfl, rfl⟩, rfl, by show 1 ≤ 2000; decide⟩
theorem usable_idle (hm : List Host.Cell) : Usable h0 (host idle hm) := ⟨rfl, by show 0 < 4; decide, rfl⟩
theorem usable_held (hm : List Host.Cell) : Usable h0 (host held hm) := ⟨rfl, by show 0 < 4; decide, rfl⟩
theorem free_idle (hm : List Host.Cell) : GuardFree 0 (host idle hm) := ⟨rfl, rfl⟩
theorem mine_held (hm : List Host.Cell) : GuardMine 0 (host held hm) := rfl
theorem admits_idle (hm : List Host.Cell) : Admits false h0.inst (host idle hm) := free_idle hm
theorem admits_held (hm : List Host.Cell) : Admits true h0.inst (host held hm) := mine_held hm
theorem quiet_idle (hm : List Host.Cell) : Quiet 0 (host idle hm) := rfl
theorem quiet_held (hm : List Host.Cell) : Quiet 0 (host held hm) := rfl
theorem serves_host (b : Bus) (hm : List Host.Cell) (i : Fin 4) : EngineServes i (host b hm) := ⟨rfl, rfl⟩
theorem loops_idle (hm : List Host.Cell) : LoopsBack 0 (host idle hm) :=
  ⟨rfl, by show doutdin (1 : Word) = true; decide, by show wrOrder (0 : Word) = rdOrder (0 : Word); decide⟩
theorem loops_held (hm : List Host.Cell) : LoopsBack 0 (host held hm) :=
  ⟨rfl, by show doutdin (1 : Word) = true; decide, by show wrOrder (0 : Word) = rdOrder (0 : Word); decide⟩
theorem mapped_hm64 : Mapped hm64 0x2000 64 := by unfold Mapped; decide +kernel
theorem mapped_in : Mapped hm65 0x2000 65 := by unfold Mapped; decide +kernel
theorem mapped_out : Mapped hm65 0x3000 65 := by unfold Mapped; decide +kernel
theorem mapped_words : Mapped hm64 0x2004 60 := by unfold Mapped; decide +kernel
/-- Both 65-byte blocks end a byte too early for 65 bytes from their second byte on. -/
theorem mapped_short : (Mapped hm65 0x2001 64 ∧ memByte hm65 (0x2001 + 64) = none) ∧
    Mapped hm65 0x3001 64 ∧ memByte hm65 (0x3001 + 64) = none := by unfold Mapped; decide +kernel
theorem ok_ref : cfgOk Cfg.ref = true ∧ cfgOk Cfg.refN = true := by decide +kernel

theorem witness_RegRdReadsOneRegister :
    Ready 2 (host2 idle) ∧ (host2 idle).cfg.nInst ≤ (2 : Fin 4).val ∧
    Ready 2 (host idle []) ∧ (3 : Fin 4).val < Cfg.ref.nInst ∧ (0x02 : BitVec 16).toNat % 4 ≠ 0 ∧
    regAt Cfg.ref 0x1C = none ∧ regAt Cfg.ref 0x20 = none ∧ regAt Cfg.ref 0x80 = none ∧ regAt Cfg.ref 0 = some .cmd ∧
    regAt Cfg.ref 0x18 = some .misoDlen ∧ ((host idle []).getBus 0).phase ≠ .busy ∧
    regAt Cfg.refN 0x1C = some .clkGate ∧
    Ready 2 (host busy []) ∧ regAt Cfg.ref 0x7C = some (.w 15) ∧ ((host busy []).getBus 0).phase = .busy := by
  refine ⟨ready_host2 _ _ (by decide), ?_, ready_host _ _ _ (by decide), ?_, ?_, ?_, ?_, ?_, ?_, ?_, ?_, ?_,
    ready_host _ _ _ (by decide), ?_, ?_⟩ <;> decide +kernel

theorem witness_RegWrWritesOneRegister :
    Ready 2 (host2 idle) ∧ (host2 idle).cfg.nInst ≤ (2 : Fin 4).val ∧ Ready 2 (host idle []) ∧
    (3 : Fin 4).val < Cfg.ref.nInst ∧ (0x02 : BitVec 16).toNat % 4 ≠ 0 ∧ regAt Cfg.ref 0x20 = none ∧
    regAt Cfg.ref 0x04 = some .clock ∧ regAt Cfg.ref 0 = some .cmd ∧ Quiet 0 (host idle []) ∧
    Ready 2 (host busy []) ∧ ¬ Quiet 0 (host busy []) :=
  ⟨ready_host2 _ _ (by decide), by decide, ready_host _ _ _ (by decide), by decide, by decide, rfl, rfl, rfl, rfl,
    ready_host _ _ _ (by decide), by unfold Quiet; decide⟩

theorem witness_RegPollHoldsUntilClear :
    (Ready 4 (host2 idle) ∧ (host2 idle).cfg.nInst ≤ (2 : Fin 4).val) ∧
    (Ready 4 (host idle []) ∧ (0x02 : BitVec 16).toNat % 4 ≠ 0 ∧ regAt Cfg.ref 0x20 = none) ∧
    (regAt Cfg.ref 0 = some .cmd ∧ (readReg 0 .cmd (host idle [])).1 &&& 1 = 0) ∧
    (Ready 4 (alone Cfg.ref busy) ∧ (readReg 0 .cmd (alone Cfg.ref busy)).1 &&& 1 ≠ 0 ∧
      ((alone Cfg.ref busy).turn.prompt && (alone Cfg.ref busy).engineReady 0) = false) ∧
    (Inside ⟨0, [.poll .cmd 1], 0, 0, .const 0⟩ (inside idle ⟨0, [.poll .cmd 1], 0, 0, .const 0⟩) ∧
      (readReg 0 .cmd (inside idle ⟨0, [.poll .cmd 1], 0, 0, .const 0⟩)).1 &&& 1 = 0) ∧
    (Ready 4 (host { busy with conf := ⟨0, 0, 1, 0, 511, 0⟩ } []) ∧
      EngineServes 0 (host { busy with conf := ⟨0, 0, 1, 0, 511, 0⟩ } []) ∧
      (((host { busy with conf := ⟨0, 0, 1, 0, 511, 0⟩ } []).getBus 0).txnCfg Cfg.ref).mosiDlen.toNat < 512) ∧
    (let c := board Cfg.refN (bus none 0 .commit) (.caller 0) []
     Ready 4 c ∧ (0 : Fin 4).val < c.cfg.nInst ∧ (c.getBus 0).phase = .commit ∧ EngineServes 0 c) :=
  ⟨⟨ready_host2 _ _ (by decide), by decide⟩, ⟨ready_host _ _ _ (by decide), by decide, rfl⟩,
    ⟨rfl, by decide +kernel⟩, ⟨(ready_alone _ _ (by decide)).1, by decide +kernel, rfl⟩,
    ⟨inside_inside _ _, by decide +kernel⟩, ⟨ready_host _ _ _ (by decide), serves_host _ _ _, by decide +kernel⟩,
    ⟨⟨_, rfl, rfl⟩, rfl, by show 4 ≤ 2000; decide⟩, by decide, rfl, ⟨rfl, rfl⟩⟩

theorem witness_GuardAcqTakesTheGuard :
    (Ready 2 (host2 idle) ∧ (host2 idle).cfg.nInst ≤ (2 : Fin 4).val) ∧
    (Ready 2 (host fresh []) ∧ ((host fresh []).getBus 0).guardExists = false) ∧
    (Ready 2 (host idle []) ∧ GuardFree 0 (host idle [])) ∧
    (Ready 2 (host held []) ∧ ((host held []).getBus 0).guardExists = true ∧
      ((host held []).getBus 0).owner = some (host held []).cur) ∧
    (Inside ⟨0, [.acquire], 0, 0, .const 0⟩ (inside idle ⟨0, [.acquire], 0, 0, .const 0⟩) ∧
      GuardFree 0 (inside idle ⟨0, [.acquire], 0, 0, .const 0⟩)) :=
  ⟨⟨ready_host2 _ _ (by decide), by decide⟩, ⟨ready_host _ _ _ (by decide), rfl⟩,
    ⟨ready_host _ _ _ (by decide), free_idle _⟩, ⟨ready_host _ _ _ (by decide), rfl, rfl⟩,
    ⟨inside_inside _ _, ⟨rfl, rfl⟩⟩⟩

theorem witness_GuardRelFreesTheGuard :
    (Ready 2 (host2 idle) ∧ (host2 idle).cfg.nInst ≤ (2 : Fin 4).val) ∧
    (Ready 2 (host held []) ∧ GuardMine 0 (host held [])) ∧ (Ready 2 (host idle []) ∧ ¬ GuardMine 0 (host idle [])) :=
  ⟨⟨ready_host2 _ _ (by decide), by decide⟩, ⟨ready_host _ _ _ (by decide), mine_held _⟩,
    ⟨ready_host _ _ _ (by decide), by unfold GuardMine; decide +kernel⟩⟩

theorem witness_EngineCommitsTheRegisters :
    let q := board Cfg.refN idle (.engine 0) []
    let c := board Cfg.refN (bus none 0 .commit) (.engine 0) []
    let f := (board Cfg.refN busy (.engine 0) []).record (.dlenOverflow 0 512) (.engine 0) none
    (q.turn.agent = .engine 0 ∧ q.turn.burst ≠ 0 ∧ Quiet 0 q) ∧
    (f.turn.agent = .engine 0 ∧ f.turn.burst ≠ 0 ∧ f.stopped (.engine 0) = true) ∧
    (c.turn.agent = .engine 0 ∧ c.turn.burst ≠ 0 ∧ c.stopped (.engine 0) = false ∧ (c.getBus 0).phase = .commit) :=
  ⟨⟨rfl, by decide, rfl⟩, ⟨rfl, by decide, by decide⟩, ⟨rfl, by decide, by decide, rfl⟩⟩

theorem witness_EngineCompletesATransaction :
    let s := fun (mosi : Word) => board Cfg.ref { busy with conf := ⟨0, 0, 1, 0, mosi, mosi⟩ } (.engine 0) []
    (∀ mosi, (s mosi).turn.agent = .engine 0 ∧ (s mosi).turn.burst ≠ 0 ∧ (s mosi).stopped (.engine 0) = false ∧
      ((s mosi).getBus 0).phase = .busy) ∧
    512 < (((s 512).getBus 0).conf.masked Cfg.ref).mosiDlen.toNat + 1 ∧
    (((s 511).getBus 0).conf.masked Cfg.ref).mosiDlen.toNat + 1 ≤ 512 ∧
    doutdin (((s 511).getBus 0).conf.masked Cfg.ref).user = true ∧
    (((s 511).getBus 0).conf.masked Cfg.ref).misoDlen.toNat + 1 = 512 ∧
    ¬ doutdin ((board Cfg.ref { busy with conf := ⟨0, 0, 0, 0, 7, 7⟩ } (.engine 0) []).getBus 0).conf.user = true :=
  ⟨fun _ => ⟨rfl, by show 2000 ≠ 0; decide, rfl, rfl⟩, by decide +kernel, by decide +kernel, by decide +kernel, by decide +kernel,
    by decide +kernel⟩

theorem witness_XferNlRunsOneTransaction :
    (Ready 9 (host2 idle) ∧ (host2 idle).cfg.nInst ≤ (2 : Fin 4).val) ∧
    (Ready 9 (host idle []) ∧ (0 : BitVec 16).toNat < 1 ∧ 512 < (513 : BitVec 16).toNat ∧
      1 ≤ (1 : BitVec 16).toNat ∧ ¬ GuardMine 0 (host idle [])) ∧
    (Ready 9 (host heldBusy []) ∧ GuardMine 0 (host heldBusy []) ∧ ¬ Quiet 0 (host heldBusy [])) ∧
    (Ready 9 (host held []) ∧ (512 : BitVec 16).toNat ≤ 512 ∧ GuardMine 0 (host held []) ∧ Quiet 0 (host held []) ∧
      EngineServes 0 (host held []) ∧ cfgOk (host held []).cfg = true) :=
  ⟨⟨ready_host2 _ _ (by decide), by decide⟩,
    ⟨ready_host _ _ _ (by decide), by decide, by decide, by decide, by unfold GuardMine; decide +kernel⟩,
    ⟨ready_host _ _ _ (by decide), rfl, by unfold Quiet; decide⟩,
    ⟨ready_host _ _ _ (by decide), by decide, mine_held _, quiet_held _, serves_host _ _ _, ok_ref.1⟩⟩

theorem witness_XferWaitsForItsEngine :
    Ready 6 (alone Cfg.ref held) ∧ Ready 6 (alone Cfg.refN held) ∧ (3 : Fin 4).val < (alone Cfg.ref held).cfg.nInst ∧
    1 ≤ (1 : BitVec 16).toNat ∧ (512 : BitVec 16).toNat ≤ 512 ∧ GuardMine 0 (alone Cfg.ref held) ∧
    GuardMine 0 (alone Cfg.refN held) ∧ Quiet 0 (alone Cfg.ref held) ∧ Quiet 0 (alone Cfg.refN held) ∧
    cfgOk Cfg.ref = true ∧ cfgOk Cfg.refN = true ∧ (alone Cfg.ref held).turn.prompt = false ∧
    (alone Cfg.ref held).cfg.hasCommit = false ∧ (alone Cfg.refN held).cfg.hasCommit = true :=
  ⟨(ready_alone _ _ (by decide)).1, (ready_alone _ _ (by decide)).2, by decide, by decide, by decide, rfl, rfl, rfl, rfl,
    ok_ref.1, ok_ref.2, rfl, rfl, rfl⟩

theorem witness_TransactionLeaves :
    cfgOk (host idle []).cfg = true ∧ (host idle []).cfg.link = .loopback ∧
    doutdin ((host idle []).getBus 0).conf.user = true ∧
    (({ ((host idle []).getBus 0).conf with mosiDlen := 511, misoDlen := 511 } : RegCfg).masked Cfg.ref).misoDlen.toNat
      + 1 = 512 := by
  refine ⟨ok_ref.1, rfl, rfl, ?_⟩
  decide +kernel

/-- What the scalar, bit and chunk statements ask of a state, for the locked and for the no-lock form. -/
theorem witness_forms (hm : List Host.Cell) (n : Nat) (h : n ≤ 2000) :
    (Ready n (host idle hm) ∧ Usable h0 (host idle hm) ∧ Admits false h0.inst (host idle hm) ∧
      Quiet h0.inst (host idle hm) ∧ EngineServes h0.inst (host idle hm) ∧ cfgOk (host idle hm).cfg = true ∧
      LoopsBack h0.inst (host idle hm)) ∧
    (Ready n (host held hm) ∧ Usable h0 (host held hm) ∧ Admits true h0.inst (host held hm) ∧
      Quiet h0.inst (host held hm) ∧ EngineServes h0.inst (host held hm) ∧ cfgOk (host held hm).cfg = true ∧
      LoopsBack h0.inst (host held hm)) :=
  ⟨⟨ready_host _ _ _ h, usable_idle _, admits_idle _, quiet_idle _, serves_host _ _ _, ok_ref.1, loops_idle _⟩,
    ⟨ready_host _ _ _ h, usable_held _, admits_held _, quiet_held _, serves_host _ _ _, ok_ref.1, loops_held _⟩⟩

theorem witness_ScalarWritesSendTheirValue :
    Ready 16 (host idle []) ∧ Usable h0 (host idle []) ∧ Admits false h0.inst (host idle []) ∧
    Quiet h0.inst (host idle []) ∧ EngineServes h0.inst (host idle []) ∧ cfgOk (host idle []).cfg = true ∧
    Ready 16 (host held []) ∧ Usable h0 (host held []) ∧ Admits true h0.inst (host held []) ∧
    Quiet h0.inst (host held []) ∧ EngineServes h0.inst (host held []) :=
  have w := witness_forms [] 16 (by decide)
  ⟨w.1.1, w.1.2.1, w.1.2.2.1, w.1.2.2.2.1, w.1.2.2.2.2.1, w.1.2.2.2.2.2.1, w.2.1, w.2.2.1, w.2.2.2.1, w.2.2.2.2.1,
    w.2.2.2.2.2.1⟩

theorem witness_ScalarTransfersReturnTheReadback :
    Ready 16 (host idle []) ∧ Usable h0 (host idle []) ∧ Admits false h0.inst (host idle []) ∧
    Quiet h0.inst (host idle []) ∧ EngineServes h0.inst (host idle []) ∧ cfgOk (host idle []).cfg = true ∧
    Ready 16 (host held []) ∧ Usable h0 (host held []) ∧ Admits true h0.inst (host held []) ∧
    Quiet h0.inst (host held []) ∧ EngineServes h0.inst (host held []) := witness_ScalarWritesSendTheirValue

theorem witness_TransferBitsMovesNbits :
    (0 : BitVec 16).toNat = 0 ∧ 32 < (33 : BitVec 16).toNat ∧ 1 ≤ (1 : BitVec 16).toNat ∧ (32 : BitVec 16).toNat ≤ 32 ∧
    Ready 16 (host idle []) ∧ Usable h0 (host idle []) ∧ Admits false h0.inst (host idle []) ∧
    Quiet h0.inst (host idle []) ∧ EngineServes h0.inst (host idle []) ∧ cfgOk (host idle []).cfg = true ∧
    Ready 16 (host held []) ∧ Usable h0 (host held []) ∧ Admits true h0.inst (host held []) ∧
    Quiet h0.inst (host held []) ∧ EngineServes h0.inst (host held []) :=
  ⟨by decide, by decide, by decide, by decide, witness_ScalarWritesSendTheirValue⟩

theorem witness_ScalarTransfersRoundTrip :
    (Ready 16 (host idle []) ∧ Usable h0 (host idle []) ∧ Admits false h0.inst (host idle []) ∧
      Quiet h0.inst (host idle []) ∧ EngineServes h0.inst (host idle []) ∧ cfgOk (host idle []).cfg = true ∧
      LoopsBack h0.inst (host idle [])) ∧
    (Ready 16 (host held []) ∧ Usable h0 (host held []) ∧ Admits true h0.inst (host held []) ∧
      Quiet h0.inst (host held []) ∧ EngineServes h0.inst (host held []) ∧ cfgOk (host held []).cfg = true ∧
      LoopsBack h0.inst (host held [])) := witness_forms [] 16 (by decide)

theorem witness_WriteSendsItsWords :
    (Ready 48 (host idle hm64) ∧ Usable h0 (host idle hm64) ∧ Admits false h0.inst (host idle hm64) ∧
      Quiet h0.inst (host idle hm64) ∧ EngineServes h0.inst (host idle hm64) ∧ cfgOk (host idle hm64).cfg = true) ∧
    (Ready 48 (host held hm64) ∧ Usable h0 (host held hm64) ∧ Admits true h0.inst (host held hm64) ∧
      Quiet h0.inst (host held hm64)) ∧
    (0 : BitVec 16).toNat < 1 ∧ 16 < (17 : BitVec 16).toNat ∧ 1 ≤ (1 : BitVec 16).toNat ∧
    (0x2002 : Word).toNat % 4 ≠ 0 ∧ (0x2000 : Word) ≠ 0 ∧ (0x2000 : Word).toNat % 4 = 0 ∧
    memRead4 (host idle hm64).hm (0x2040 : Word).toNat = none ∧
    Mapped (host idle hm64).hm (0x2000 : Word).toNat (4 * (16 : BitVec 16).toNat) ∧
    15 < (16 : BitVec 16).toNat ∧ (0x2004 : Word).toNat % 4 = 0 ∧
    Mapped (host idle hm64).hm (0x2004 : Word).toNat (4 * 15) ∧
    memRead4 (host idle hm64).hm ((0x2004 : Word).toNat + 4 * 15) = none := by
  obtain ⟨⟨a1, a2, a3, a4, a5, a6, -⟩, b1, b2, b3, b4, -⟩ := witness_forms hm64 48 (by decide)
  exact ⟨⟨a1, a2, a3, a4, a5, a6⟩, ⟨b1, b2, b3, b4⟩, by decide, by decide, by decide, by decide, by decide, by decide,
    by decide +kernel, mapped_hm64, by decide, by decide, mapped_words, by decide +kernel⟩

theorem witness_TransferExchangesItsWords :
    (Ready 80 (host idle hm64) ∧ Usable h0 (host idle hm64) ∧ Admits false h0.inst (host idle hm64) ∧
      Quiet h0.inst (host idle hm64) ∧ EngineServes h0.inst (host idle hm64) ∧ cfgOk (host idle hm64).cfg = true) ∧
    (Ready 80 (host held hm64) ∧ Usable h0 (host held hm64) ∧ Admits true h0.inst (host held hm64) ∧
      Quiet h0.inst (host held hm64)) ∧
    (0 : BitVec 16).toNat < 1 ∧ 16 < (17 : BitVec 16).toNat ∧ 1 ≤ (1 : BitVec 16).toNat ∧
    (0x2002 : Word).toNat % 4 ≠ 0 ∧ (0x2000 : Word) ≠ 0 ∧ (0x2000 : Word).toNat % 4 = 0 ∧
    Mapped (host idle hm64).hm (0x2000 : Word).toNat (4 * (16 : BitVec 16).toNat) ∧
    15 < (16 : BitVec 16).toNat ∧ (0x2004 : Word).toNat % 4 = 0 ∧
    Mapped (host idle hm64).hm (0x2004 : Word).toNat (4 * 15) ∧
    memRead4 (host idle hm64).hm ((0x2004 : Word).toNat + 4 * 15) = none := by
  obtain ⟨⟨a1, a2, a3, a4, a5, a6, -⟩, b1, b2, b3, b4, -⟩ := witness_forms hm64 80 (by decide)
  exact ⟨⟨a1, a2, a3, a4, a5, a6⟩, ⟨b1, b2, b3, b4⟩, by decide, by decide, by decide, by decide, by decide, by decide,
    mapped_hm64, by decide, by decide, mapped_words, by decide +kernel⟩

theorem witness_TransferLoopbackKeepsMemory :
    Ready 80 (host idle hm64) ∧ Usable h0 (host idle hm64) ∧ 1 ≤ (1 : BitVec 16).toNat ∧ (16 : BitVec 16).toNat ≤ 16 ∧
    (0x2000 : Word) ≠ 0 ∧ (0x2000 : Word).toNat % 4 = 0 ∧ Admits false h0.inst (host idle hm64) ∧
    Quiet h0.inst (host idle hm64) ∧ EngineServes h0.inst (host idle hm64) ∧ cfgOk (host idle hm64).cfg = true ∧
    Mapped (host idle hm64).hm (0x2000 : Word).toNat (4 * (16 : BitVec 16).toNat) ∧ LoopsBack h0.inst (host idle hm64) ∧
    Admits true h0.inst (host held hm64) ∧ LoopsBack h0.inst (host held hm64) := by
  obtain ⟨⟨a1, a2, a3, a4, a5, a6, a7⟩, b1, b2, b3, b4, b5, b6, b7⟩ := witness_forms hm64 80 (by decide)
  exact ⟨a1, a2, by decide, by decide, by decide, by decide, a3, a4, a5, a6, mapped_hm64, a7, b3, b7⟩

theorem witness_TransferBytesMovesEveryChunk :
    Ready (20 * (65 : Word).toNat + 3) (host idle hm65) ∧ Usable h0 (host idle hm65) ∧
    Admits false h0.inst (host idle hm65) ∧ Quiet h0.inst (host idle hm65) ∧ EngineServes h0.inst (host idle hm65) ∧
    cfgOk (host idle hm65).cfg = true ∧ Mapped (host idle hm65).hm (0x2000 : Word).toNat (65 : Word).toNat ∧
    Mapped (host idle hm65).hm (0x3000 : Word).toNat (65 : Word).toNat ∧
    (0x2000 : Word).toNat + (65 : Word).toNat ≤ (0x3000 : Word).toNat ∧ (host idle hm65).cfg.link = .loopback ∧
    doutdin ((host idle hm65).getBus 0).conf.user = true ∧ Ready (20 * (0 : Word).toNat + 3) (host held []) ∧
    Admits true h0.inst (host held []) ∧
    (64 < (65 : Word).toNat ∧ (0x2001 : Word) ≠ 0 ∧ Mapped (host idle hm65).hm (0x2001 : Word).toNat 64 ∧
      memByte (host idle hm65).hm ((0x2001 : Word).toNat + 64) = none ∧
      Mapped (host idle hm65).hm (0x3000 : Word).toNat (64 * (64 / 64))) ∧
    ((0x3001 : Word) ≠ 0 ∧ Mapped (host idle hm65).hm (0x3001 : Word).toNat 64 ∧
      memByte (host idle hm65).hm ((0x3001 : Word).toNat + 64) = none ∧
      Mapped (host idle hm65).hm (0x2000 : Word).toNat (min (65 : Word).toNat (64 * (64 / 64 + 1)))) := by
  obtain ⟨⟨a1, a2, a3, a4, a5, a6, a7⟩, -⟩ := witness_forms hm65 1303 (by decide)
  exact ⟨a1, a2, a3, a4, a5, a6, mapped_in, mapped_out, by decide, rfl, rfl, ready_host _ _ _ (by decide),
    admits_held _, ⟨by decide, by decide, mapped_short.1.1, mapped_short.1.2, fun j hj => mapped_out j (by omega)⟩,
    by decide, mapped_short.2.1, mapped_short.2.2, mapped_in⟩

theorem witness_TransferBytesRoundTrip :
    Ready (20 * (65 : Word).toNat + 3) (host idle hm65) ∧ Usable h0 (host idle hm65) ∧
    Admits false h0.inst (host idle hm65) ∧ Quiet h0.inst (host idle hm65) ∧ EngineServes h0.inst (host idle hm65) ∧
    cfgOk (host idle hm65).cfg = true ∧ LoopsBack h0.inst (host idle hm65) ∧ (0x2000 : Word) ≠ 0 ∧ (0x3000 : Word) ≠ 0 ∧
    Mapped (host idle hm65).hm (0x2000 : Word).toNat (65 : Word).toNat ∧
    Mapped (host idle hm65).hm (0x3000 : Word).toNat (65 : Word).toNat ∧
    (0x2000 : Word).toNat + (65 : Word).toNat ≤ (0x3000 : Word).toNat ∧ Admits true h0.inst (host held hm65) := by
  obtain ⟨⟨a1, a2, a3, a4, a5, a6, a7⟩, -⟩ := witness_forms hm65 1303 (by decide)
  exact ⟨a1, a2, a3, a4, a5, a6, a7, by decide, by decide, mapped_in, mapped_out, by decide, admits_held _⟩

theorem witness_WritePixelsSendsEveryChunk :
    Ready (20 * (65 : Word).toNat + 4) (host idle hm65) ∧ Usable h0 (host idle hm65) ∧ (0x2000 : Word) ≠ 0 ∧
    Admits false h0.inst (host idle hm65) ∧ Quiet h0.inst (host idle hm65) ∧ EngineServes h0.inst (host idle hm65) ∧
    cfgOk (host idle hm65).cfg = true ∧ Mapped (host idle hm65).hm (0x2000 : Word).toNat (65 : Word).toNat ∧
    Admits true h0.inst (host held hm65) ∧
    (64 < (65 : Word).toNat ∧ Mapped (host idle hm65).hm (0x2001 : Word).toNat 64 ∧
      memByte (host idle hm65).hm ((0x2001 : Word).toNat + 64) = none) := by
  obtain ⟨⟨a1, a2, a3, a4, a5, a6, a7⟩, -⟩ := witness_forms hm65 1304 (by decide)
  exact ⟨a1, a2, by decide, a3, a4, a5, a6, mapped_in, admits_held _, by decide, mapped_short.1⟩

theorem witness_StartInitialisesTheInstance :
    (Ready 50 (host fresh []) ∧ (host fresh []).cfg.nInst ≤ (4 : BitVec 8).toNat) ∧
    ((0 : BitVec 8).toNat = (0 : Fin 4).val ∧ (0 : Fin 4).val < (host fresh []).cfg.nInst ∧ Quiet 0 (host fresh []) ∧
      ((host fresh []).getBus 0).guardExists = false) ∧
    ((3 : BitVec 8).toNat = (3 : Fin 4).val ∧ (3 : Fin 4).val < (host idle []).cfg.nInst ∧ Quiet 3 (host idle []) ∧
      Ready 50 (host idle []) ∧ GuardFree 3 (host idle [])) :=
  ⟨⟨ready_host _ _ _ (by decide), by decide⟩, ⟨rfl, by decide, rfl, rfl⟩,
    ⟨rfl, by decide, rfl, ready_host _ _ _ (by decide), ⟨rfl, rfl⟩⟩⟩

theorem witness_StartForgetsThePast :
    (host fresh []).cfg = (host idle []).cfg ∧ (0 : BitVec 8).toNat = (0 : Fin 4).val ∧
    (0 : Fin 4).val < (host fresh []).cfg.nInst ∧ Ready 50 (host fresh []) ∧ Ready 50 (host idle []) ∧
    Quiet 0 (host fresh []) ∧ Quiet 0 (host idle []) ∧ ((host fresh []).getBus 0).guardExists = false ∧
    GuardFree 0 (host idle []) ∧ regAt Cfg.ref 0x7C = some (.w 15) :=
  ⟨rfl, rfl, by decide, ready_host _ _ _ (by decide), ready_host _ _ _ (by decide), rfl, rfl, rfl, free_idle _, rfl⟩

theorem witness_StopZeroesTheConfiguration :
    (Ready 14 (host idle []) ∧ Usable h0 (host idle []) ∧ GuardFree h0.inst (host idle []) ∧
      Quiet h0.inst (host idle [])) ∧
    (Ready 14 (host held []) ∧ Usable h0 (host held []) ∧ ((host held []).getBus 0).guardExists = true ∧
      ((host held []).getBus 0).owner = some (.caller 0)) ∧
    (Ready 14 (host busy []) ∧ Usable h0 (host busy []) ∧ GuardFree h0.inst (host busy []) ∧
      ¬ Quiet h0.inst (host busy [])) :=
  ⟨⟨ready_host _ _ _ (by decide), usable_idle _, free_idle _, quiet_idle _⟩,
    ⟨ready_host _ _ _ (by decide), usable_held _, rfl, rfl⟩,
    ⟨ready_host _ _ _ (by decide), ⟨rfl, by decide, rfl⟩, ⟨rfl, rfl⟩, by unfold Quiet; decide⟩⟩

theorem witness_SettersWriteTheirFields :
    Ready 6 (host idle []) ∧ Usable h0 (host idle []) ∧ GuardFree h0.inst (host idle []) ∧ Quiet h0.inst (host idle []) :=
  ⟨ready_host _ _ _ (by decide), usable_idle _, free_idle _, quiet_idle _⟩

theorem witness_GettersReadTheirFields :
    Ready 3 (host heldBusy []) ∧ Usable h0 (host heldBusy []) :=
  ⟨ready_host _ _ _ (by decide), ⟨rfl, by decide, rfl⟩⟩

theorem witness_ChipSelectLinesFollowTheMask :
    Ready 5 (host idle []) ∧ Usable h0 (host idle []) ∧ 7 < (8 : BitVec 16).toNat ∧ (7 : BitVec 16).toNat ≤ 7 ∧
    GuardFree h0.inst (host idle []) ∧ Quiet h0.inst (host idle []) :=
  ⟨ready_host _ _ _ (by decide), usable_idle _, by decide, by decide, free_idle _, quiet_idle _⟩

theorem witness_BeginTxnConfiguresUnderTheGuard :
    (Ready 10 (host idle []) ∧ Usable h0 (host idle []) ∧ GuardFree h0.inst (host idle []) ∧
      Quiet h0.inst (host idle []) ∧ EngineServes h0.inst (host idle [])) ∧
    (Ready 10 (host held []) ∧ Usable h0 (host held []) ∧ ((host held []).getBus 0).guardExists = true ∧
      ((host held []).getBus 0).owner = some (.caller 0)) :=
  ⟨⟨ready_host _ _ _ (by decide), usable_idle _, free_idle _, quiet_idle _, serves_host _ _ _⟩,
    ⟨ready_host _ _ _ (by decide), usable_held _, rfl, rfl⟩⟩

theorem witness_EndTxnFreesTheGuard :
    (Ready 2 (host held []) ∧ Usable h0 (host held []) ∧ GuardMine h0.inst (host held [])) ∧
    (Ready 2 (host idle []) ∧ Usable h0 (host idle []) ∧ ¬ GuardMine h0.inst (host idle [])) :=
  ⟨⟨ready_host _ _ _ (by decide), usable_held _, mine_held _⟩,
    ⟨ready_host _ _ _ (by decide), usable_idle _, by unfold GuardMine; decide +kernel⟩⟩

theorem witness_ClkBeforeTakesTheGuard :
    let b := { busy with conf := ⟨0, 0, 1, 0, 511, 0⟩ }
    (Ready 4 (board { Cfg.ref with nInst := 2 } idle .notifier []) ∧ 2 ≤ (2 : Fin 4).val) ∧
    (Ready 4 (board Cfg.ref fresh .notifier []) ∧ (board Cfg.ref fresh .notifier []).cur = .notifier ∧
      ((board Cfg.ref fresh .notifier []).getBus 0).guardExists = false) ∧
    (Ready 4 (board Cfg.ref held .notifier []) ∧ ((board Cfg.ref held .notifier []).getBus 0).guardExists = true ∧
      ((board Cfg.ref held .notifier []).getBus 0).owner = some (.caller 0)) ∧
    (Ready 4 (board Cfg.ref (bus none 0 .commit) .notifier []) ∧ GuardFree 0 (board Cfg.ref (bus none 0 .commit) .notifier []) ∧
      ((board Cfg.ref (bus none 0 .commit) .notifier []).getBus 0).phase ≠ .busy) ∧
    (Ready 4 (board Cfg.ref b .notifier []) ∧ GuardFree 0 (board Cfg.ref b .notifier []) ∧
      ((board Cfg.ref b .notifier []).getBus 0).phase = .busy ∧ EngineServes 0 (board Cfg.ref b .notifier []) ∧
      (((board Cfg.ref b .notifier []).getBus 0).txnCfg Cfg.ref).mosiDlen.toNat < 512) :=
  ⟨⟨ready_notifier2 _ _ (by decide), by decide⟩, ⟨ready_notifier _ _ (by decide), rfl, rfl⟩,
    ⟨ready_notifier _ _ (by decide), rfl, rfl⟩, ⟨ready_notifier _ _ (by decide), ⟨rfl, rfl⟩, by decide⟩,
    ⟨ready_notifier _ _ (by decide), ⟨rfl, rfl⟩, rfl, ⟨rfl, rfl⟩, by decide +kernel⟩⟩

theorem witness_ClkAfterRetunesAndReleases :
    let mine := fun (clk : Word) (p : Phase) =>
      board Cfg.ref { bus (some .notifier) 0 p with conf := ⟨clk, 0, 1, 0, 0, 0⟩ } .notifier []
    (Ready 4 (board { Cfg.ref with nInst := 2 } idle .notifier []) ∧ 2 ≤ (2 : Fin 4).val) ∧
    (Ready 4 (board Cfg.ref idle .notifier []) ∧ ¬ GuardMine 0 (board Cfg.ref idle .notifier [])) ∧
    (∀ clk p, Ready 4 (mine clk p) ∧ (mine clk p).cur = .notifier ∧ GuardMine 0 (mine clk p)) ∧
    freqOf Cfg.ref.preW (1000 : Word).toNat (((mine 0x7FFFF020 .idle).getBus 0).conf.clock &&& wmask Cfg.ref .clock) = 0 ∧
    freqOf Cfg.ref.preW (80000000 : Word).toNat
      (((mine 0x009C1001 .idle).getBus 0).conf.clock &&& wmask Cfg.ref .clock) ≠ 0 ∧
    Quiet 0 (mine 0x009C1001 .idle) ∧ ¬ Quiet 0 (mine 0x009C1001 .busy) :=
  ⟨⟨ready_notifier2 _ _ (by decide), by decide⟩,
    ⟨ready_notifier _ _ (by decide), by unfold GuardMine; decide +kernel⟩,
    fun _ _ => ⟨ready_notifier _ _ (by decide), rfl, rfl⟩, by decide +kernel, by decide +kernel, rfl,
    by unfold Quiet; decide⟩

theorem witness_CallbacksAreIllegalForCallers :
    (host idle []).cur = .caller 0 ∧ Ready 1 (host idle []) := ⟨rfl, ready_host _ _ _ (by decide)⟩

theorem witness_CalculatorReadsTheClock : Ready 2 (host idle []) ∧ (0 : Word) = 0 ∧ (1 : Word) ≠ 0 :=
  ⟨ready_host _ _ _ (by decide), rfl, by decide⟩

theorem witness_SolverClampsAtBothEnds :
    cfgOk Cfg.ref = true ∧ 1 ≤ 1 ∧ 80000000 ≤ 80000000 ∧ 151 < minFreq Cfg.ref.preW 80000000 ∧ 80000000 < 2 ^ 32 :=
  ⟨ok_ref.1, by decide, by decide, by decide +kernel, by decide⟩

theorem witness_SolverIsOptimal :
    cfgOk Cfg.ref = true ∧ 80000000 < 2 ^ 32 ∧ minFreq Cfg.ref.preW 80000000 ≤ 152 ∧ 79999999 < 80000000 ∧
    80000000 / ((8167 + 1) * (63 + 1)) ≤ 153 := ⟨ok_ref.1, by decide, by decide +kernel, by decide, by decide⟩

theorem witness_SolverAnswersFillTheFields :
    cfgOk Cfg.ref = true ∧ 80000000 < 2 ^ 32 ∧ clkEquSysclk (solveWord Cfg.ref 80000000 80000000) = true ∧
    clkEquSysclk (solveWord Cfg.ref 80000000 1) = false ∧ clkEquSysclk (solveWord Cfg.ref 80000000 79999999) = false :=
  ⟨ok_ref.1, by decide, by decide +kernel, by decide +kernel, by decide +kernel⟩

theorem witness_ClockChangeKeepsTheFrequency :
    let s := board Cfg.ref (bus (some .notifier) 0 .idle) .notifier []
    let p := freqOf s.cfg.preW (80000000 : Word).toNat ((s.getBus 0).conf.clock &&& wmask s.cfg .clock)
    s.cur = .notifier ∧ Ready 4 s ∧ (0 : Fin 4).val < s.cfg.nInst ∧ cfgOk s.cfg = true ∧ GuardMine 0 s ∧ Quiet 0 s ∧
    1 ≤ p ∧ (1000000 : Word).toNat ≤ p ∧
    (minFreq s.cfg.preW (40000000 : Word).toNat ≤ p ∧ p < (40000000 : Word).toNat) ∧
    (let u := board Cfg.ref { bus (some .notifier) 0 .idle with conf := ⟨0x7FFFF020, 0, 1, 0, 0, 0⟩ } .notifier []
     let q := freqOf u.cfg.preW (80000000 : Word).toNat ((u.getBus 0).conf.clock &&& wmask u.cfg .clock)
     u.cur = .notifier ∧ Ready 4 u ∧ GuardMine 0 u ∧ Quiet 0 u ∧ 1 ≤ q ∧
      q < minFreq u.cfg.preW (160000000 : Word).toNat) :=
  ⟨rfl, ready_notifier _ _ (by decide), by decide, ok_ref.1, rfl, rfl, by decide +kernel, by decide +kernel,
    by decide +kernel, rfl, ready_notifier _ _ (by decide), rfl, rfl, by decide +kernel, by decide +kernel⟩

theorem witness_PermutationsAreInvolutions : (0xFFFF : Word).toNat < 2 ^ 16 ∧ (0xFFFFFF : Word).toNat < 2 ^ 24 := by decide

theorem witness_HandleChecksComeFirst :
    handleOf (.transferByte ⟨0, true⟩ 0xA5) = some ⟨0, true⟩ ∧ Ready 1 (host fresh []) ∧
    handleOf (.transferByte ⟨2, false⟩ 0xA5) = some ⟨2, false⟩ ∧ Ready 1 (host2 idle) ∧
    (host2 idle).cfg.nInst ≤ (2 : Fin 4).val ∧ handleOf (.stop h0) = some h0 ∧ h0.null = false ∧
    h0.inst.val < (host fresh []).cfg.nInst ∧ ((host fresh []).getBus 0).started = false :=
  ⟨rfl, ready_host _ _ _ (by decide), rfl, ready_host2 _ _ (by decide), by decide, rfl, rfl, by decide, rfl⟩

theorem witness_NoLockFormsNeedTheGuard :
    handleOf (.writeNl h0 16 0x2000) = some h0 ∧ isNoLock (.writeNl h0 16 0x2000) = true ∧ Ready 1 (host idle []) ∧
    Usable h0 (host idle []) ∧ ArgsValid (.writeNl h0 16 0x2000) ∧ ¬ GuardMine h0.inst (host idle []) :=
  ⟨rfl, rfl, ready_host _ _ _ (by decide), usable_idle _, by unfold ArgsValid; decide,
    by unfold GuardMine; decide +kernel⟩

theorem witness_LockedFormsWaitForTheGuard :
    handleOf (.csEnable h0 7) = some h0 ∧ isLocked (.csEnable h0 7) = true ∧ Ready 2 (host held []) ∧
    Usable h0 (host held []) ∧ ArgsValid (.csEnable h0 7) ∧ ((host held []).getBus h0.inst).guardExists = true ∧
    ((host held []).getBus h0.inst).owner = some (.caller 0) ∧
    (let t : Task := ⟨0, [.acquire, .rmw .pin 14 0, .release], 0, 0, .const 0⟩
     Inside t (inside held t) ∧ ((inside held t).getBus 0).guardExists = true ∧ ((inside held t).getBus 0).owner ≠ none) ∧
    (Ready 3 (host held []) ∧ (0 : BitVec 8).toNat = (0 : Fin 4).val ∧ (0 : Fin 4).val < (host held []).cfg.nInst) :=
  ⟨rfl, rfl, ready_host _ _ _ (by decide), usable_held _, by unfold ArgsValid; decide, rfl, rfl,
    ⟨inside_inside _ _, rfl, by decide +kernel⟩, ready_host _ _ _ (by decide), rfl, by decide⟩

/-- The bytes a form loads before its first write are there, for each form that loads any. -/
theorem loads_hm65 (s : State) (hm : s.hm = hm65) :
    (∀ a, firstLoads (.write h0 1 0x2000) a → (memByte s.hm a).isSome) ∧
    (∀ a, firstLoads (.transferBytesNl h0 65 0x2000 0) a → (memByte s.hm a).isSome) ∧
    (∀ a, firstLoads (.writePixels h0 3 0x2000) a → (memByte s.hm a).isSome) := by
  have m (a : Nat) (h1 : 0x2000 ≤ a) (h2 : a < 0x2004) : (memByte s.hm a).isSome := by
    rw [hm, show a = 0x2000 + (a - 0x2000) by omega]
    exact mapped_in _ (by omega)
  refine ⟨fun a h => m a h.1 h.2, fun a h => m a h.2.1 h.2.2, fun a h => m a h.1 ?_⟩
  have h2 : a < 0x2000 + 3 := h.2
  omega

theorem witness_WritesFaultWhileInFlight :
    (handleOf (.setClock h0 1) = some h0 ∧ firstWrite (.setClock h0 1) = some .clock ∧
      Ready (writeRoom (.setClock h0 1)) (host busy []) ∧ Usable h0 (host busy []) ∧ ArgsValid (.setClock h0 1) ∧
      (∀ a, firstLoads (.setClock h0 1) a → (memByte (host busy []).hm a).isSome) ∧
      Admits (isNoLock (.setClock h0 1)) h0.inst (host busy []) ∧ ¬ Quiet h0.inst (host busy [])) ∧
    (firstWrite (.write h0 1 0x2000) = some (.w 0) ∧ Ready (writeRoom (.write h0 1 0x2000)) (host busy hm65) ∧
      ArgsValid (.write h0 1 0x2000) ∧ Admits (isNoLock (.write h0 1 0x2000)) h0.inst (host busy hm65)) ∧
    (firstWrite (.transferBytesNl h0 65 0x2000 0) = some (.w 0) ∧
      Ready (writeRoom (.transferBytesNl h0 65 0x2000 0)) (host heldBusy hm65) ∧
      Admits (isNoLock (.transferBytesNl h0 65 0x2000 0)) h0.inst (host heldBusy hm65)) ∧
    (firstWrite (.writePixels h0 3 0x2000) = some (.w 0) ∧ Ready (writeRoom (.writePixels h0 3 0x2000)) (host busy hm65) ∧
      ArgsValid (.writePixels h0 3 0x2000)) ∧
    (Ready 4 (host busy []) ∧ (0 : BitVec 8).toNat = (0 : Fin 4).val ∧ (0 : Fin 4).val < (host busy []).cfg.nInst ∧
      GuardFree 0 (host busy [])) :=
  ⟨⟨rfl, rfl, ready_host _ _ _ (by decide), ⟨rfl, by decide, rfl⟩, trivial, fun _ h => h.elim,
    (⟨rfl, rfl⟩ : GuardFree 0 (host busy [])), by unfold Quiet; decide⟩,
    ⟨rfl, ready_host _ _ _ (by decide), by unfold ArgsValid; decide, (⟨rfl, rfl⟩ : GuardFree 0 (host busy hm65))⟩,
    ⟨rfl, ready_host _ _ _ (by decide), (rfl : GuardMine 0 (host heldBusy hm65))⟩,
    ⟨rfl, ready_host _ _ _ (by decide), by unfold ArgsValid; decide⟩,
    ready_host _ _ _ (by decide), rfl, by decide, ⟨rfl, rfl⟩⟩

theorem witness_DecodeInvertsEncode : (Instr.transferByte h0 0xFF).wellFormed = true := by decide

theorem witness_EncodeInvertsDecode : decode ⟨0x07020010, 0x80000000, 0, 0⟩ = .ok (.start 2 3 .lsbFirst 0x80000000) := by
  decide

theorem witness_DecodeFollowsTheTable :
    (rowOf (.getClock ⟨1, false⟩)).Fits ⟨0x00000121, 0, 0, 0⟩ ∧ decode ⟨0x00000121, 0, 0, 0⟩ = .ok (.getClock ⟨1, false⟩) :=
  ⟨by unfold TableRow.Fits; decide, by decide⟩

/-! ### Witnesses over steps and runs -/

/-- A state whose next turn is caller 0's (its program one `guard.rel 0`, one ILLEGAL descriptor), the notifier's or an
engine's, as listed. -/
def stepping (b : Bus) (turns : List Turn) : State :=
  { board { Cfg.ref with finChanges := [40000000] } b (.caller 0) [] with
    callers := [⟨[⟨5, 0, 0, 0⟩, ⟨0x1033, 0, 0, 0⟩], Ctx.powerOn⟩, ⟨[], Ctx.powerOn⟩]
    sched := turns }

/-- `stepping`, with the notifier about to run a callback on instance 0. -/
def calling (p : NotifierPhase) : State :=
  { stepping idle [turnOf .notifier] with
    notifier := { (stepping idle []).notifier with phase := p, pending := some ⟨80000000, 40000000, []⟩ } }

/-- A turn of an engine that completes its transaction takes its step; a turn of no micro-steps does not, and a prompt turn
on instance 0 has no step of the engine of instance 1 (R121). -/
theorem test_engine_takes :
    (stepping busy [turnOf (.engine 0)]).engineTakes 0 ∧ ¬ (stepping busy [⟨.engine 0, 0, true, 0⟩]).engineTakes 0 ∧
    ¬ (stepping held [turnOf (.caller 0)]).engineMoves 1 := by
  refine ⟨⟨0, by decide, _, _, rfl, rfl, by decide +kernel, by decide +kernel⟩, ?_, ?_⟩
  · rintro ⟨k, hk, -⟩
    exact absurd hk (Nat.not_lt_zero k)
  · rintro (h | ⟨-, i, hi, hj⟩)
    · cases h
    · cases hi
      exact absurd hj (by decide)

theorem witness_StepRunsDecodedInstruction :
    let s := stepping held [turnOf (.caller 0)]
    (∃ k, cfgOk s.cfg = true ∧ s.takeTurn.turn.agent = .caller 0 ∧ s.callers[0]? = some k ∧
      k.current = some ⟨5, 0, 0, 0⟩ ∧ decode ⟨5, 0, 0, 0⟩ = .ok (.guardRel 0)) ∧
    (let n := calling (.before [0])
     n.takeTurn.turn.agent = .notifier ∧ n.takeTurn.turn.burst ≠ 0 ∧ n.stopped .notifier = false ∧
      n.notifier.pending = some ⟨80000000, 40000000, []⟩ ∧ visitOrder n.takeTurn [0] = [0] ∧
      n.notifier.phase = .before [0] ∧ (calling (.after [0])).notifier.phase = .after [0]) ∧
    (let e := stepping busy [turnOf (.engine 0)]
     e.takeTurn.turn.agent = .engine 0 ∧ e.takeTurn.turn.burst ≠ 0) ∧
    (let c := stepping idle [turnOf (.caller 1)]
     c.takeTurn.turn.agent = .caller 1 ∧ ∀ k, c.callers[1]? = some k → k.current = none) ∧
    cfgOk { Cfg.ref with nInst := 5 } = false := by
  refine ⟨⟨_, by decide +kernel, rfl, rfl, rfl, by decide⟩, ⟨rfl, by decide, rfl, rfl, rfl, rfl, rfl⟩,
    ⟨rfl, by decide⟩, ⟨rfl, ?_⟩, by decide +kernel⟩
  rintro k hk
  cases hk
  rfl

theorem witness_IllegalDescriptorsFault :
    let s : State := { stepping idle [turnOf (.caller 0)] with
      callers := [⟨[⟨0x1033, 0, 0, 0⟩], Ctx.powerOn⟩, ⟨[], Ctx.powerOn⟩] }
    ∃ k, cfgOk s.cfg = true ∧ s.takeTurn.turn.agent = .caller 0 ∧ s.takeTurn.turn.burst ≠ 0 ∧ s.callers[0]? = some k ∧
      k.ctx.task = none ∧ s.stopped (.caller 0) = false ∧ k.current = some ⟨0x1033, 0, 0, 0⟩ ∧
      decode ⟨0x1033, 0, 0, 0⟩ = .illegal .reserved :=
  ⟨_, by decide +kernel, rfl, by decide, rfl, rfl, rfl, rfl, by decide⟩

theorem witness_InvHoldsAtReset : cfgOk Cfg.refN = true ∧ Memory.wf hm64 = true := by decide +kernel

theorem inv_started (owner : Option Agent) (engineStopped : Bool) (h : engineStopped = false) :
    (bus owner 0 .idle).Inv Cfg.ref engineStopped where
  reserved r hr := by
    have e : (bus owner 0 .idle).stored r = (bus none 0 .idle).stored r := by cases r <;> rfl
    rw [e]
    cases r with
    | cmd => exact absurd rfl hr
    | w k => fin_cases k <;> decide +kernel
    | clock | ctrl | user | pin | mosiDlen | misoDlen | clkGate => decide +kernel
  owned _ := rfl
  commits h := by cases h
  stuck h' := by rw [h] at h'; cases h'

/-- The invariant holds in the states of these witnesses, whatever turns are listed. -/
theorem inv_stepping (owner : Option Agent) (turns : List Turn) : (stepping (bus owner 0 .idle) turns).Inv where
  memory := rfl
  buses j := by
    have h : (stepping (bus owner 0 .idle) turns).stopped (.engine j) = false := rfl
    have c (o : Option Agent) : (bus o 0 .idle).Inv (stepping (bus owner 0 .idle) turns).cfg
        ((stepping (bus owner 0 .idle) turns).stopped (.engine j)) := by
      obtain ⟨a, b, c, d⟩ := inv_started o _ h
      exact ⟨a, b, c, d⟩
    fin_cases j
    · exact c owner
    · exact c none
    · exact c none
    · exact c none
  wire e he := by cases he
  callers k hk := by
    rcases List.mem_cons.mp hk with rfl | hk
    · exact ⟨by decide, fun t ht => by cases ht⟩
    · rcases List.mem_cons.mp hk with rfl | hk
      · exact ⟨by decide, fun t ht => by cases ht⟩
      · cases hk
  notifier := ⟨by show 0 ≤ 1; decide, rfl, rfl⟩
  clock := by show (80000000 : Word) ≠ 0; decide
  faults := by show ([] : List Agent).Nodup; decide

theorem witness_EveryStepKeepsInv :
    let s := stepping held [turnOf (.caller 0)]
    s.Inv ∧ ∃ t, step s = .next t ∧ (t.getBus 0).owner = none := ⟨inv_stepping _ _, _, rfl, by decide +kernel⟩

theorem witness_AccessMatrix :
    let s := stepping held [turnOf (.caller 0)]
    s.Inv ∧ ∃ t, step s = .next t ∧ (t.getBus 0).owner ≠ (s.getBus 0).owner :=
  ⟨inv_stepping _ _, _, rfl, by decide +kernel⟩

theorem witness_FrameOfEveryOperation :
    Resumes (.setClock h0 1) (host idle []) ∧ ∃ t, exec (.setClock h0 1) (host idle []) = .next t ∧
      (t.getBus 0).conf.clock = 1 := by
  refine ⟨fun c k hc hk => ?_, _, rfl, by decide +kernel⟩
  cases hc
  cases hk

theorem witness_GuardsPassOnlyThroughTheirHolder :
    let s := stepping (bus (some (.caller 1)) 0 .idle) [turnOf .notifier]
    (∃ t, step s = .next t) ∧ (s.getBus 0).guardExists = true ∧ (s.getBus 0).owner = some (.caller 1) ∧
      Agent.caller 1 ≠ s.mover := ⟨⟨_, rfl⟩, rfl, rfl, by decide +kernel⟩

theorem witness_ReentrantAcquireDeadlocks :
    let o : Task := ⟨0, [.acquire], 0, 0, .const 0⟩
    let s : State := { stepping held [turnOf (.caller 0), turnOf .notifier] with
      callers := [⟨[⟨4, 0, 0, 0⟩], ⟨0, 0, .ok, some o⟩⟩] }
    ∃ t k, Run 2 s t ∧ s.callers[0]? = some k ∧ k.ctx.task = some o ∧ o.ops.head? = some .acquire ∧
      (s.getBus o.inst).guardExists = true ∧ (s.getBus o.inst).owner = some (.caller 0) :=
  ⟨_, _, .next (.next (.refl _) rfl) rfl, rfl, rfl, rfl, rfl, rfl⟩

theorem witness_FaultedAgentsStop :
    let s := (stepping { held with phase := .busy } [turnOf (.engine 0), turnOf .notifier]).record
      (.dlenOverflow 0 512) (.engine 0) none
    (∃ t, Run 2 s t) ∧ s.stopped (.engine 0) = true ∧ ¬ Quiet 0 s ∧
    (let u := (stepping held [turnOf (.caller 0)]).record (.notOwner 1) (.caller 0) (some 0)
     (∃ t, Run 1 u t) ∧ u.stopped (.caller 0) = true ∧ (u.getBus 0).guardExists = true ∧
      (u.getBus 0).owner = some (.caller 0)) ∧
    (let n := (calling (.after [0])).record (.notOwner 0) .notifier (some 0)
     (∃ t, Run 1 n t) ∧ n.stopped .notifier = true) :=
  ⟨⟨_, .next (.next (.refl _) rfl) rfl⟩, by decide +kernel, by unfold Quiet; decide +kernel,
    ⟨⟨_, .next (.refl _) rfl⟩, by decide +kernel, rfl, rfl⟩, ⟨_, .next (.refl _) rfl⟩, by decide +kernel⟩

theorem witness_BookkeepingOnlyGrows :
    ∃ t, Run 1 (stepping busy [turnOf (.engine 0)]) t ∧ t.wire.length = 1 :=
  ⟨_, .next (.refl _) rfl, by decide +kernel⟩

theorem witness_PcAdvancesByOne :
    let s := stepping held [turnOf (.caller 0)]
    ∃ t k l, step s = .next t ∧ s.callers[0]? = some k ∧ t.callers[0]? = some l ∧ l.ctx.pc = k.ctx.pc + 1 ∧
      s.callers[1]? = some ⟨[], Ctx.powerOn⟩ ∧ s.mover ≠ .caller 1 :=
  ⟨_, _, _, rfl, rfl, rfl, by decide +kernel, rfl, by decide +kernel⟩

theorem witness_NotifierFollowsProtocol :
    let s := stepping idle [turnOf .notifier]
    NotifierInv s ∧ ∃ t, step s = .next t ∧ t.notifier.phase = .snapped 80000000 40000000 s.regset :=
  ⟨(inv_stepping _ _).notifier, _, rfl, by decide +kernel⟩

theorem witness_EndedRunStaysEnded :
    let s : State := { stepping idle [turnOf (.caller 0), turnOf .notifier] with
      callers := [], notifier := { (stepping idle []).notifier with applied := 1 } }
    s.Inv ∧ RunEnded s ∧ ∃ t, Run 2 s t := by
  have i := inv_stepping none [turnOf (.caller 0), turnOf .notifier]
  refine ⟨⟨i.memory, i.buses, i.wire, (fun k hk => by cases hk), ⟨by decide, rfl, rfl⟩, i.clock, i.faults⟩,
    ⟨(fun k hk => by cases hk), ⟨rfl, rfl⟩, (fun j => by fin_cases j <;> rfl), rfl⟩,
    _, .next (.next (.refl _) rfl) rfl⟩

theorem witness_EveryStepAnswers : cfgOk (stepping idle []).cfg = true := by decide +kernel

end Sys2Proof.Tests
end

section
/-! SUPPORT. What the scope of the machine rests on (00_scope.md): which operation a turn runs (`runTurn_caller`,
`runTurn_callback`), that every turn answers (`runTurn_answers`), and what a run only adds to (`Grown`). -/

namespace Sys2Proof.Machine

/-! ### Taking a turn leaves everything a turn looks at -/

@[simp] theorem State.takeTurn_cfg (s : State) : s.takeTurn.cfg = s.cfg := (takeTurn_kept s).1

@[simp] theorem State.takeTurn_callers (s : State) : s.takeTurn.callers = s.callers := by
  obtain ⟨-, -, -, h, -⟩ := takeTurn_kept s; exact h

@[simp] theorem State.takeTurn_notifier (s : State) : s.takeTurn.notifier = s.notifier := by
  obtain ⟨-, -, -, -, h, -⟩ := takeTurn_kept s; exact h

@[simp] theorem State.stopped_takeTurn (a : Agent) (s : State) : s.takeTurn.stopped a = s.stopped a := by
  obtain ⟨-, -, -, -, -, -, h, -⟩ := takeTurn_kept s
  simp [State.stopped, h]

/-! ### What a turn fetches and runs -/

section turn
variable {s u p : State} {c : Nat} {k : Caller} {d : Desc} {i : Instr} {r : Reject} {j : Fin 4} {ph : NotifierPhase}
  {todo rest : List (Fin 4)} {q : Pending}

theorem step_accepted (h : cfgOk s.cfg = true) : step s = runTurn s.takeTurn := if_pos h

theorem step_refused (h : cfgOk s.cfg = false) : step s = .refused .badConfiguration := by
  simp [step, h]

theorem fetch_caller (ha : u.turn.agent = .caller c) (hk : u.callers[c]? = some k) (hd : k.current = some d) :
    fetch u = fetchDesc d u := by
  simp only [fetch, ha, hk, hd]

/-- A caller past the end of its program, or outside CALLERS, has nothing to run (R36). -/
theorem fetch_caller_nothing (ha : u.turn.agent = .caller c) (h : ∀ k, u.callers[c]? = some k → k.current = none) :
    fetch u = .nothing := by
  cases hk : u.callers[c]? with
  | none => simp only [fetch, ha, hk]
  | some k => simp only [fetch, ha, hk, h k hk]

theorem fetch_engine (ha : u.turn.agent = .engine j) (hb : u.turn.burst ≠ 0) : fetch u = .engine j := by
  simp only [fetch, ha, if_neg hb]

theorem fetch_notifier (ha : u.turn.agent = .notifier) (hb : u.turn.burst ≠ 0) (hs : u.stopped .notifier = false) :
    fetch u = fetchNotifier u := by
  simp [fetch, ha, hb, hs]

theorem fetchNotifier_before (hph : u.notifier.phase = .before todo) (hq : u.notifier.pending = some q)
    (hv : visitOrder u todo = j :: rest) :
    fetchNotifier u = .instr (.clkBefore j q.old q.new) (u.atPhase (.before (j :: rest))) := by
  simp only [fetchNotifier, hph, hq, hv, fetchDesc, decode_clkBefore]

theorem fetchNotifier_after (hph : u.notifier.phase = .after todo) (hq : u.notifier.pending = some q)
    (hv : visitOrder u todo = j :: rest) :
    fetchNotifier u = .instr (.clkAfter j q.old q.new) (u.atPhase (.after (j :: rest))) := by
  simp only [fetchNotifier, hph, hq, hv, fetchDesc, decode_clkAfter]

theorem runTurn_nothing (h : fetch u = .nothing) : runTurn u = .next u := by
  simp only [runTurn, h]

theorem runTurn_engine (h : fetch u = .engine j) : runTurn u = .next (engineStep j u) := by
  simp only [runTurn, h]

theorem runTurn_protocol (h : fetch u = .protocol p) : runTurn u = .next p := by
  simp only [runTurn, h]

/-- A caller's turn runs the operation its current descriptor decodes to. -/
theorem runTurn_caller (ha : u.turn.agent = .caller c) (hk : u.callers[c]? = some k) (hd : k.current = some d)
    (hi : decode d = .ok i) : runTurn u = exec i u := by
  simp only [runTurn, fetch_caller ha hk hd, fetchDesc, hi, ha]

theorem runTurn_illegal (ha : u.turn.agent = .caller c) (hk : u.callers[c]? = some k) (hd : k.current = some d)
    (hr : decode d = .illegal r) : runTurn u = operate u (.trap (.illegalOp d.d0)) := by
  simp only [runTurn, fetch_caller ha hk hd, fetchDesc, hr]

/-- The notifier's turn runs its callback and then moves the protocol past it if it has completed (R251). -/
theorem runTurn_callback (ha : u.turn.agent = .notifier) (h : fetch u = .instr i (u.atPhase ph)) :
    runTurn u = afterOp u.notifier.ctx.pc (exec i (u.atPhase ph)) := by
  have ha' : (u.atPhase ph).turn.agent = .notifier := ha
  simp only [runTurn, h, ha']
  rfl

/-! ### Every turn answers (R273, R276) -/

/-- An agent that runs descriptors never stops the machine, whatever its operation begins with: `Fault.noContext` is
for the others. -/
theorem operate_answers (o : Opening) (h : u.ctx? ≠ none) : ∃ t, operate u o = .next t := by
  obtain ⟨x, hx⟩ := Option.ne_none_iff_exists'.mp h
  cases hs : u.stopped u.cur with
  | true => exact ⟨u, by simp only [operate, hx, hs, if_true]⟩
  | false =>
    cases hb : u.turn.burst with
    | zero => exact ⟨u, by simp [operate, hx, hs, hb]⟩
    | succ n =>
      cases ht : x.task with
      | some t => exact ⟨runOps (n + 1) t u, by simp [operate, hx, hs, hb, ht]⟩
      | none => cases o <;> exact ⟨_, by simp only [operate, hx, hs, hb, ht, Bool.false_eq_true, if_false]; rfl⟩

theorem exec_answers (i : Instr) (h : u.ctx? ≠ none) : ∃ t, exec i u = .next t := by
  rw [exec_eq]; exact operate_answers _ h

theorem ctx_caller (ha : u.turn.agent = .caller c) (hk : u.callers[c]? = some k) : u.ctx? ≠ none := by
  simp [State.ctx?, ha, hk]

theorem ctx_notifier (ha : u.turn.agent = .notifier) : u.ctx? ≠ none := by
  simp [State.ctx?, ha]

theorem runTurn_callback_answers (ha : u.turn.agent = .notifier) (h : fetch u = .instr i (u.atPhase ph)) :
    ∃ t, runTurn u = .next t := by
  obtain ⟨t, ht⟩ := exec_answers (u := u.atPhase ph) i (ctx_notifier ha)
  exact ⟨afterCallback u.notifier.ctx.pc t, by rw [runTurn_callback ha h, ht]; rfl⟩

theorem runTurn_caller_answers (ha : u.turn.agent = .caller c) : ∃ t, runTurn u = .next t := by
  by_cases h : ∃ k d, u.callers[c]? = some k ∧ k.current = some d
  · obtain ⟨k, d, hk, hd⟩ := h
    cases hi : decode d with
    | ok i => rw [runTurn_caller ha hk hd hi]; exact exec_answers i (ctx_caller ha hk)
    | illegal r => rw [runTurn_illegal ha hk hd hi]; exact operate_answers _ (ctx_caller ha hk)
  · have hn : ∀ k, u.callers[c]? = some k → k.current = none := fun k hk =>
      Option.eq_none_iff_forall_ne_some.mpr fun d hd => h ⟨k, d, hk, hd⟩
    exact ⟨u, runTurn_nothing (fetch_caller_nothing ha hn)⟩

theorem runTurn_notifier_answers (ha : u.turn.agent = .notifier) : ∃ t, runTurn u = .next t := by
  by_cases hn : u.turn.burst = 0 ∨ u.stopped .notifier = true
  · exact ⟨u, runTurn_nothing (by simp [fetch, ha, hn])⟩
  · simp only [not_or, Bool.not_eq_true] at hn
    have hf := fetch_notifier ha hn.1 hn.2
    rcases fetchNotifier_cases u with e | ⟨p, e⟩ | ⟨_, _, _, _, -, -, -, e⟩ | ⟨_, _, _, _, -, -, -, e⟩
    · exact ⟨u, runTurn_nothing (hf.trans e)⟩
    · exact ⟨p, runTurn_protocol (hf.trans e)⟩
    · exact runTurn_callback_answers ha (hf.trans e)
    · exact runTurn_callback_answers ha (hf.trans e)

theorem runTurn_answers (u : State) : ∃ t, runTurn u = .next t := by
  cases ha : u.turn.agent with
  | caller c => exact runTurn_caller_answers ha
  | notifier => exact runTurn_notifier_answers ha
  | engine j =>
    by_cases hb : u.turn.burst = 0
    · exact ⟨u, runTurn_nothing (by simp only [fetch, ha, if_pos hb])⟩
    · exact ⟨_, runTurn_engine (fetch_engine ha hb)⟩

end turn

/-! ### What a run only adds to, and what it never changes -/

/-- The lists and the counter grow; the parameters, the programs and the addresses of host memory stay. -/
structure Grown (s t : State) : Prop where
  faults : s.faults <+: t.faults
  wire : s.wire <+: t.wire
  draws : s.draws ≤ t.draws
  cfg : t.cfg = s.cfg
  progs : t.callers.map Caller.prog = s.callers.map Caller.prog
  addresses : t.hm.map Prod.fst = s.hm.map Prod.fst

theorem Grown.refl (s : State) : Grown s s :=
  ⟨List.prefix_rfl, List.prefix_rfl, Nat.le_refl _, rfl, rfl, rfl⟩

theorem Grown.trans {s m t : State} (h : Grown s m) (g : Grown m t) : Grown s t :=
  ⟨h.faults.trans g.faults, h.wire.trans g.wire, h.draws.trans g.draws, g.cfg.trans h.cfg, g.progs.trans h.progs,
    g.addresses.trans h.addresses⟩

theorem takeTurn_grown (s : State) : Grown s s.takeTurn := by
  obtain ⟨hcfg, -, -, hcallers, -, hhm, hfaults, hwire, hdraws⟩ := takeTurn_kept s
  exact ⟨by rw [hfaults], by rw [hwire], hdraws.ge, hcfg, by rw [hcallers], by rw [hhm]⟩

/-- Beyond micro-steps and engine steps a turn adds at most one fault record and moves the place of one caller, whose
program stays. -/
theorem Reached.grown {u t : State} (h : Reached u t) : Grown u t := by
  obtain ⟨m, hm, hcfg, -, hhm, hwire, hdraws, hfaults⟩ := h.machine
  refine ⟨?_, by rw [hwire]; exact hm.wire, by rw [hdraws]; exact hm.draws, hcfg.trans hm.cfg, ?_, by
    rw [hhm]; exact hm.addresses⟩
  · rcases hfaults with e | ⟨-, c, q, e⟩
    · rw [e]; exact hm.faults
    · rw [e]; exact hm.faults.trans (List.prefix_append _ _)
  · rcases h.callers with e | ⟨c, f, ha, -, -, -, e⟩
    · rw [e]
    · have hu : t.callers = (u.updCtx f).callers := by simp only [State.updCtx, ha, e]
      rw [hu, State.updCtx_progs]

theorem step_grown {s t : State} (h : step s = .next t) : Grown s t :=
  (takeTurn_grown s).trans (step_turned h).2.reached.grown

theorem Run.grown {n : Nat} {s t : State} (h : Run n s t) : Grown s t := by
  induction h with
  | refl s => exact .refl s
  | next _ hs ih => exact ih.trans (step_grown hs)

/-! ### The statements -/

/-- Settles O56: every step is `Grown` (`step_grown`), and `Grown` composes along a run; which addresses read as a byte
depends on the addresses host memory lists alone (`memByte_isSome`). -/
theorem bookkeepingOnlyGrows : Obligations.BookkeepingOnlyGrows := by
  intro n s t h
  have g := h.grown
  exact ⟨g.faults, g.wire, g.draws, g.cfg, g.progs, fun a => by rw [memByte_isSome, memByte_isSome, g.addresses]⟩

/-- Settles O60: an accepted record lets the turn be taken, and every turn answers, since only agents that run
descriptors come to `operate`. -/
theorem everyStepAnswers : Obligations.EveryStepAnswers := by
  intro s hc
  obtain ⟨t, ht⟩ := runTurn_answers s.takeTurn
  have hs : step s = .next t := (step_accepted hc).trans ht
  exact ⟨t, hs, (step_grown hs).cfg⟩

/-- Settles O46: taking the turn leaves the callers and the notifier, so the turn fetches from them what the statement
names, and runs it. -/
theorem stepRunsDecodedInstruction : Obligations.StepRunsDecodedInstruction := by
  intro s u
  refine ⟨step_refused, ?caller, ?notifier, ?engine, ?done⟩
  case caller =>
    intro c k d i hc ha hk hd hi
    exact (step_accepted hc).trans (runTurn_caller ha (by rwa [State.takeTurn_callers]) hd hi)
  case notifier =>
    intro todo j rest p hc ha hb hs hp hv
    have hf : fetch u = fetchNotifier u := fetch_notifier ha hb (by rwa [State.stopped_takeTurn])
    have hn : u.notifier = s.notifier := s.takeTurn_notifier
    rw [← hn] at hp ⊢
    exact ⟨fun hph => (step_accepted hc).trans (runTurn_callback ha (hf.trans (fetchNotifier_before hph hp hv))),
      fun hph => (step_accepted hc).trans (runTurn_callback ha (hf.trans (fetchNotifier_after hph hp hv)))⟩
  case engine =>
    intro j hc ha hb
    exact (step_accepted hc).trans (runTurn_engine (fetch_engine ha hb))
  case done =>
    intro c hc ha hk
    exact (step_accepted hc).trans (runTurn_nothing (fetch_caller_nothing ha (by rwa [State.takeTurn_callers])))

end Sys2Proof.Machine
end

section
/-! SUPPORT. The statements of the state (10_state.md): what one engine step leaves of every instance
(`EngineMove.touches`), the frame of a turn on an operation read off its moves (`Framed.frame`, `Frame.raise`), and the
power-on state of an instance (`getBus_powerOn`, `Bus.powerOn_inv`). -/

namespace Sys2Proof.Machine

/-! ### Taking a turn leaves every instance, fin, host memory and the bus log -/

@[simp] theorem State.takeTurn_fin (s : State) : s.takeTurn.fin = s.fin := by
  obtain ⟨-, h, -⟩ := takeTurn_kept s; exact h

@[simp] theorem State.takeTurn_hm (s : State) : s.takeTurn.hm = s.hm := by
  obtain ⟨-, -, -, -, -, h, -⟩ := takeTurn_kept s; exact h

@[simp] theorem State.takeTurn_wire (s : State) : s.takeTurn.wire = s.wire := by
  obtain ⟨-, -, -, -, -, -, -, h, -⟩ := takeTurn_kept s; exact h

@[simp] theorem State.getBus_takeTurn (j : Fin 4) (s : State) : s.takeTurn.getBus j = s.getBus j := by
  obtain ⟨-, -, h, -⟩ := takeTurn_kept s
  simp [State.getBus, h]

theorem State.getBus_congr {s t : State} (h : t.bus = s.bus) (j : Fin 4) : t.getBus j = s.getBus j := by
  simp [State.getBus, h]

/-! ### What an engine's step writes: its instance's buffer, ACT and phase (R44, R118, R119) -/

/-- From b to c only what an engine writes of its instance has changed, and the buffer only if `landed`. -/
structure EngineWrites (landed : Prop) (b c : Bus) : Prop where
  registers : ∀ r, r ≠ .cmd → c.stored r ≠ b.stored r → (∃ k, r = .w k) ∧ landed
  guard : c.guardExists = b.guardExists ∧ c.owner = b.owner
  lifecycle : c.started = b.started ∧ c.registered = b.registered

theorem EngineWrites.refl (p : Prop) (b : Bus) : EngineWrites p b b :=
  ⟨fun _ _ h => absurd rfl h, ⟨rfl, rfl⟩, ⟨rfl, rfl⟩⟩

theorem EngineWrites.commit (p : Prop) (b : Bus) : EngineWrites p b { b with act := b.conf, phase := .idle } :=
  ⟨fun r hr h => by
    cases r with
    | cmd => exact absurd rfl hr
    | _ => exact absurd rfl h, ⟨rfl, rfl⟩, ⟨rfl, rfl⟩⟩

theorem EngineWrites.complete {p : Prop} (hp : p) (b : Bus) (w : Vector Word 16) :
    EngineWrites p b { b with w := w, phase := .idle } :=
  ⟨fun r hr h => by
    cases r with
    | w k => exact ⟨⟨k, rfl⟩, hp⟩
    | cmd => exact absurd rfl hr
    | _ => exact absurd rfl h, ⟨rfl, rfl⟩, ⟨rfl, rfl⟩⟩

/-- A step of the engine of n touches no other instance, neither fin nor host memory, and of n the buffer only as it
appends to the bus log. -/
structure EngineTouches (n : Fin 4) (s t : State) : Prop where
  others : ∀ j, j ≠ n → t.getBus j = s.getBus j
  own : EngineWrites (t.wire ≠ s.wire) (s.getBus n) (t.getBus n)
  rest : t.fin = s.fin ∧ t.hm = s.hm

theorem EngineMove.touches {n : Fin 4} {s t : State} (h : EngineMove n s t) : EngineTouches n s t := by
  cases h with
  | none => exact ⟨fun _ _ => rfl, .refl _ _, ⟨rfl, rfl⟩⟩
  | commit =>
    unfold commitStep
    refine ⟨fun j hj => State.getBus_updBus_ne n j _ s hj, ?_, ⟨rfl, rfl⟩⟩
    rw [State.getBus_updBus_same]
    exact .commit _ _
  | complete =>
    by_cases hn : ((s.getBus n).txnCfg s.cfg).mosiDlen.toNat + 1 ≤ 512
    · rw [completeStep_eq n s hn]
      refine ⟨fun j hj => ?_, ?_, ⟨rfl, rfl⟩⟩
      · simp [hj]
      · simp only [State.getBus_addDraws, State.getBus_addWire, State.getBus_updBus_same]
        exact .complete (by simp) _ _
    · unfold completeStep
      rw [if_pos (by omega)]
      exact ⟨fun _ _ => rfl, .refl _ _, ⟨rfl, rfl⟩⟩

/-! ### The access matrix over one step (R44) -/

/-- The operation that runs is on instance j and satisfies p. -/
def State.RanOn (s : State) (j : Fin 4) (p : Instr → Prop) : Prop :=
  ∃ i, s.running = some i ∧ instOf i = some j ∧ p i

/-- The access matrix of R44 for instance j, b before and c after a step from s; `landed`: the bus log grew. -/
structure BusMatrix (s : State) (j : Fin 4) (landed : Prop) (b c : Bus) : Prop where
  registers : ∀ r, r ≠ .cmd → c.stored r ≠ b.stored r →
    s.RanOn j (fun i => mayWrite s.cfg i r) ∨ ((∃ k, r = .w k) ∧ s.engineMoves j ∧ landed)
  phase : c.phase ≠ b.phase → s.RanOn j (fun i => mayWrite s.cfg i .cmd) ∨ s.engineMoves j
  active : c.act ≠ b.act → s.engineMoves j
  created : c.guardExists ≠ b.guardExists → s.RanOn j fun i => createsGuard i = true
  owner : c.owner ≠ b.owner → s.RanOn j fun i => takesGuard i = true ∨ freesGuard i = true
  lifecycle : c.started ≠ b.started ∨ c.registered ≠ b.registered → s.RanOn j fun i => setsLifecycle i = true

theorem BusMatrix.refl (s : State) (j : Fin 4) (p : Prop) (b : Bus) : BusMatrix s j p b b :=
  ⟨fun _ _ h => absurd rfl h, fun h => absurd rfl h, fun h => absurd rfl h, fun h => absurd rfl h,
    fun h => absurd rfl h, fun h => by simp at h⟩

/-- The engine's own turn. -/
theorem EngineWrites.matrix {s : State} {j : Fin 4} {p : Prop} {b c : Bus} (h : EngineWrites p b c)
    (ha : s.mover = .engine j) : BusMatrix s j p b c where
  registers r hr hne := by
    obtain ⟨hk, hp⟩ := h.registers r hr hne
    exact .inr ⟨hk, .inl ha, hp⟩
  phase _ := .inr (.inl ha)
  active _ := .inl ha
  created hne := absurd h.guard.1 hne
  owner hne := absurd h.guard.2 hne
  lifecycle hne := by simp [h.lifecycle] at hne

/-- A turn on operation i: a change shows that j is the instance of i and that the matrix lets i, or the polled engine,
make it. -/
theorem Framed.matrix {i : Instr} {s m : State} (hr : s.running = some i) (h : Framed i s.takeTurn m) (j : Fin 4) :
    BusMatrix s j (m.wire ≠ s.wire) (s.getBus j) (m.getBus j) := by
  by_cases hij : instOf i = some j
  case neg =>
    have e := h.others j hij
    rw [State.getBus_takeTurn] at e
    rw [e]
    exact .refl _ _ _ _
  case pos =>
    have on {p : Instr → Prop} (hp : p i) : s.RanOn j p := ⟨i, hr, hij, hp⟩
    have moves (hp : s.takeTurn.turn.prompt ≠ false) : s.engineMoves j :=
      .inr ⟨by simpa using hp, i, hr, hij⟩
    have hregs := h.registers j
    have hcmd := h.command j
    have hact := h.active j
    have hcreated := h.guardExists j
    have howner := h.owner j
    have hlife := h.lifecycle j
    have hwire := h.wire
    simp only [State.getBus_takeTurn, State.takeTurn_cfg] at hregs hcmd hact hcreated howner hlife
    rw [State.takeTurn_wire] at hregs hwire
    refine ⟨fun r hrc hne => ?_, fun hne => ?_, fun hne => ?_, fun hne => ?_, fun hne => ?_, fun hne => ?_⟩
    · by_cases hw : mayWrite s.cfg i r
      · exact .inl (on hw)
      · obtain ⟨hk, hlanded⟩ := Classical.not_imp.mp (mt (hregs r hrc hw) hne)
        exact .inr ⟨hk, moves (mt hwire hlanded), hlanded⟩
    · by_cases hw : mayWrite s.cfg i .cmd
      · exact .inl (on hw)
      · exact .inr (moves (mt (hcmd hw) hne))
    · exact moves (mt hact hne)
    · exact on (by simpa using mt hcreated hne)
    · apply on
      by_contra hno
      simp only [not_or, Bool.not_eq_true] at hno
      exact hne (howner hno.1 hno.2)
    · apply on
      by_contra hno
      have := hlife (by simpa using hno)
      simp [this] at hne

theorem Went.matrix {s t : State} (h : Went s t) (j : Fin 4) :
    BusMatrix s j (t.wire ≠ s.wire) (s.getBus j) (t.getBus j) := by
  cases h with
  | still hb => rw [State.getBus_congr hb]; exact .refl _ _ _ _
  | engine n ha =>
    have h := (engineStep_cases n s.takeTurn).touches
    have hown := h.own
    rw [State.getBus_takeTurn, State.takeTurn_wire] at hown
    by_cases hj : j = n
    · subst hj; exact hown.matrix ha
    · rw [h.others j hj, State.getBus_takeTurn]; exact .refl _ _ _ _
  | ran hr h hb hh hw => rw [State.getBus_congr hb, hw]; exact h.matrix hr j

theorem Went.fin {s t : State} (h : Went s t) (hne : t.fin ≠ s.fin) : s.mover = .notifier := by
  cases h with
  | still _ _ hf => exact hf hne
  | engine n =>
    obtain ⟨hf, -⟩ := (engineStep_cases n s.takeTurn).touches.rest
    exact absurd (hf.trans s.takeTurn_fin) hne
  | ran _ _ _ _ _ hf => exact absurd hf hne

theorem Went.memory {s t : State} (h : Went s t) (a : Nat) (hne : memByte t.hm a ≠ memByte s.hm a) :
    ∃ i, s.running = some i ∧ mayStore i a := by
  cases h with
  | still _ hh => rw [hh] at hne; exact absurd rfl hne
  | engine n =>
    obtain ⟨-, hh⟩ := (engineStep_cases n s.takeTurn).touches.rest
    rw [hh, State.takeTurn_hm] at hne
    exact absurd rfl hne
  | @ran i m _ hr h _ hh =>
    refine ⟨i, hr, ?_⟩
    by_contra hno
    have := h.memory a hno
    rw [State.takeTurn_hm] at this
    rw [hh] at hne
    exact hne this

/-! ### The frame of a turn on an operation -/

theorem Kept.ctx {s t : State} (h : Kept s t) : t.ctx? = s.ctx? := by
  simp only [State.ctx?, h.turn, h.callers, h.notifier]

theorem State.updCtx_notifier (f : Ctx → Ctx) (s : State) : (s.updCtx f).notifier.phase = s.notifier.phase ∧
    (s.updCtx f).notifier.pending = s.notifier.pending ∧ (s.updCtx f).notifier.applied = s.notifier.applied := by
  unfold State.updCtx
  split <;> exact ⟨rfl, rfl, rfl⟩

/-- The moves of operation i and then the running agent's place stay in the frame of i. -/
theorem Framed.frame {i : Instr} {s m : State} {f : Ctx → Ctx} (h : Framed i s m) (hf : Placed f) :
    Frame i s (m.updCtx f) where
  params := by simp [h.kept.cfg, h.kept.fin, h.kept.turn, h.kept.sched]
  others := by simpa using h.others
  registers := by simpa using h.registers
  command := by simpa using h.command
  active := by simpa using h.active
  guardExists := by simpa using h.guardExists
  owner := by simpa using h.owner
  lifecycle := by simpa using h.lifecycle
  memory := by simpa using h.memory
  wire := by simpa using ⟨h.kept.wire, h.wire⟩
  faults := by
    rw [State.updCtx_faults]
    exact ⟨h.kept.faults, fun g hg => (h.faults g hg).imp_right .inr⟩
  agents := by
    obtain ⟨hphase, hpending, happlied⟩ := m.updCtx_notifier f
    refine ⟨fun c hc => ?_, fun hn => ?_, ?_, ?_, ?_⟩
    · rw [State.updCtx_other_caller f m c (by rwa [h.kept.cur]), h.kept.callers]
    · rw [State.updCtx_other_notifier f m (by rwa [h.kept.cur]), h.kept.notifier]
    · rw [hphase, h.kept.notifier]
    · rw [hpending, h.kept.notifier]
    · rw [happlied, h.kept.notifier]
  place c hc := ⟨f c, by rw [State.ctx_updCtx, h.kept.ctx, hc]; rfl, hf c⟩

/-- A fault of the running agent adds its record and nothing else (R273). -/
theorem Frame.raise {i : Instr} {s t : State} (h : Frame i s t) (c : FaultCause) : Frame i s (t.raise c) :=
  { h with
    faults := by
      obtain ⟨hgrow, hwho⟩ := h.faults
      obtain ⟨-, -, hturn, -⟩ := h.params
      rw [State.raise_faults]
      refine ⟨hgrow.trans (List.prefix_append _ _), fun f hf => ?_⟩
      simp only [List.mem_append, List.mem_cons, List.not_mem_nil, or_false] at hf
      rcases hf with hf | rfl
      · exact hwho f hf
      · exact .inr (.inl (by simp only [State.cur, hturn])) }

theorem Ran.frame {i : Instr} {s t : State} (h : Ran i s t) : Frame i s t := by
  cases h with
  | none =>
    have h := (Framed.refl i s).frame (f := id) fun _ => .inl ⟨rfl, rfl, rfl⟩
    rwa [State.updCtx_id] at h
  | moved f h _ _ hf => exact h.frame hf
  | faulted f c h _ _ hf => exact (h.frame fun c => .inl (hf c)).raise c

/-! ### One caller's place over a turn (R36) -/

theorem Caller.current_none {k : Caller} (h : k.prog.length ≤ k.ctx.pc) : k.current = none :=
  List.getElem?_eq_none h

theorem Reached.caller {u t : State} {c : Nat} {k : Caller} (h : Reached u t) (hk : u.callers[c]? = some k) :
    t.callers[c]? = some k ∨ u.turn.agent = .caller c ∧ k.current ≠ none ∧
      ∃ f, Placed f ∧ t.callers[c]? = some { k with ctx := f k.ctx } := by
  rcases h.callers with e | ⟨c', f, ha, -, hf, ⟨k', d, hk', hd⟩, e⟩
  · exact .inl (by rw [e, hk])
  · by_cases hc : c' = c
    · subst hc
      rw [hk] at hk'
      cases hk'
      exact .inr ⟨ha, by simp [hd], f, hf, by simp [e, hk]⟩
    · exact .inl (by simp [e, hc, hk])

/-! ### Power-on -/

@[simp] theorem getBus_powerOn (cfg : Cfg) (progs : List (List Desc)) (hm : List Host.Cell) (sched : List Turn)
    (i : Fin 4) : (State.powerOn cfg progs hm sched).getBus i = Bus.powerOn i := by
  fin_cases i <;> rfl

theorem powerOn_caller {cfg : Cfg} {c : Nat} (progs : List (List Desc)) (hm : List Host.Cell) (sched : List Turn)
    (h : c < cfg.callers) :
    (State.powerOn cfg progs hm sched).callers[c]? = some ⟨progs.getD c [], Ctx.powerOn⟩ := by
  simp [State.powerOn, List.getElem?_range h]

theorem Bus.powerOn_inv (cfg : Cfg) (i : Fin 4) : (Bus.powerOn i).Inv cfg false where
  reserved r hr := by
    cases r with
    | cmd => exact absurd rfl hr
    | w k => simp [wmask]
    | _ => exact BitVec.zero_and
  owned h := absurd rfl h
  commits h := by cases h
  stuck h := by cases h

theorem cfgOk_fin0 {cfg : Cfg} (h : cfgOk cfg = true) : cfg.fin0 ≠ 0 := by
  simp only [cfgOk, Bool.and_eq_true, bne_iff_ne] at h
  obtain ⟨⟨⟨⟨-, hfin⟩, -⟩, -⟩, -⟩ := h
  exact hfin

theorem powerOn_inv {cfg : Cfg} (progs : List (List Desc)) {hm : List Host.Cell} (sched : List Turn)
    (hc : cfgOk cfg = true) (hw : Memory.wf hm = true) : (State.powerOn cfg progs hm sched).Inv where
  memory := hw
  buses j := by rw [getBus_powerOn]; exact Bus.powerOn_inv cfg j
  wire e he := by cases he
  callers k hk := by
    obtain ⟨c, -, rfl⟩ := List.mem_map.mp hk
    exact ⟨Nat.zero_le _, fun _ ht => by cases ht⟩
  notifier := ⟨Nat.zero_le _, rfl, rfl⟩
  clock := cfgOk_fin0 hc
  faults := List.nodup_nil

/-! ### The statements -/

/-- Settles O51: a step from a state of the invariant goes one of the ways of `Went`, and each stays inside the matrix
(`Went.matrix`, `Went.fin`, `Went.memory`). -/
theorem accessMatrix : Obligations.AccessMatrix := by
  intro s t hi h
  have hw := step_went hi h
  refine ⟨fun j => ?_, hw.fin, hw.memory⟩
  have hm := hw.matrix j
  exact ⟨hm.registers, hm.phase, hm.active, hm.created, hm.owner, hm.lifecycle⟩

/-- Settles O52: every way `exec` can go (`exec_ran`) stays in the frame. -/
theorem frameOfEveryOperation : Obligations.FrameOfEveryOperation :=
  fun _ _ _ hr h => (exec_ran hr h).frame

/-- Settles O53: the machine's moves keep guards and their holders (`Kept`), and beyond them a turn leaves every
guard as it is. -/
theorem guardsPassOnlyThroughTheirHolder : Obligations.GuardsPassOnlyThroughTheirHolder := by
  intro s t j h
  obtain ⟨m, hm, -, hb, -⟩ := (step_turned h).2.reached.machine
  have hcreated := hm.created j
  have hheld := hm.held j
  have htaken := hm.taken j
  rw [State.getBus_takeTurn] at hcreated hheld htaken
  rw [State.getBus_congr hb]
  exact ⟨hcreated, hheld, htaken⟩

/-- Settles O57: a turn leaves a caller or, in the caller's own turn and with a descriptor at its pc, moves its place as
`Placed` says (`Reached.caller`). -/
theorem pcAdvancesByOne : Obligations.PcAdvancesByOne := by
  intro s t c k h hk
  have hr := (step_turned h).2.reached
  rcases hr.caller (by rwa [State.takeTurn_callers]) with e | ⟨ha, hd, f, hf, e⟩
  · exact ⟨k, e, rfl, fun _ => rfl, fun _ => rfl, .inl ⟨rfl, rfl, rfl⟩⟩
  · exact ⟨_, e, rfl, fun hm => absurd ha hm, fun hpast => absurd (Caller.current_none hpast) hd, hf k.ctx⟩

/-- Settles O48: the instances from `getBus_powerOn`, the callers from `powerOn_caller`, the rest as it is written in
`State.powerOn`. -/
theorem powerOnState : Obligations.PowerOnState := by
  intro cfg progs hm sched s
  refine ⟨fun i => ?_, fun c hc => powerOn_caller progs hm sched hc, ?_, rfl, rfl, rfl, rfl, rfl, rfl, rfl⟩
  · rw [getBus_powerOn]
    exact ⟨rfl, rfl, rfl, rfl, fun k => words16_getElem _ _ _, rfl, rfl, rfl, rfl, rfl⟩
  · simp [s, State.powerOn]

/-- Settles O49: `powerOn_inv`, of which the reset state is the instance under REF. -/
theorem invHoldsAtReset : Obligations.InvHoldsAtReset :=
  ⟨rfl, powerOn_inv [] [] (by decide) rfl, fun _ progs _ sched hc hw => powerOn_inv progs sched hc hw⟩

end Sys2Proof.Machine
end

section
/-! SUPPORT. Every step keeps the invariant (20_memory.md): the machine's part of it over a turn on an operation
(`Ran.inv`), the place of the running agent (`PlacedBy`), and the notifier's protocol line by line (`ProtocolMove`). -/

namespace Sys2Proof.Machine

/-! ### The parts of the invariant -/

section parts
variable {s t : State}

theorem State.Inv.machine (h : s.Inv) : MachineInv s :=
  ⟨h.memory, h.buses, h.wire, h.clock, h.faults⟩

theorem MachineInv.with_agents (h : MachineInv t) (hk : ∀ k ∈ t.callers, k.Inv t.cfg) (hn : NotifierInv t) : t.Inv :=
  ⟨h.memory, h.buses, h.wire, hk, hn, h.clock, h.faults⟩

theorem MachineInv.setFin {v : Word} (h : MachineInv s) (hv : v ≠ 0) : MachineInv (s.setFin v) :=
  ⟨h.memory, h.buses, h.wire, hv, h.faults⟩

theorem MachineInv.updCtx (h : MachineInv s) (f : Ctx → Ctx) : MachineInv (s.updCtx f) :=
  h.congr (s.updCtx_hm f) (s.updCtx_bus f) (s.updCtx_cfg f) (s.updCtx_faults f) (s.updCtx_wire f) (s.updCtx_fin f)

/-- An agent that runs descriptors is not an engine (R35). -/
theorem cur_ne_engine (h : s.ctx? ≠ none) (j : Fin 4) : s.cur ≠ .engine j := by
  rintro (e : s.turn.agent = .engine j)
  simp [State.ctx?, e] at h

/-- The record of a fault of an agent that had not faulted and is not an engine (R273). -/
theorem MachineInv.raise (h : MachineInv s) (hs : s.stopped s.cur = false) (hx : ∀ j, s.cur ≠ .engine j)
    (c : FaultCause) : MachineInv (s.raise c) where
  memory := h.memory
  buses j := by
    have e : (s.raise c).stopped (.engine j) = s.stopped (.engine j) := by
      simp [State.raise, State.stopped_record, hx j]
    rw [e]
    exact h.buses j
  wire := h.wire
  clock := h.clock
  faults := nodup_record h.faults hs

end parts

/-! ### A turn on an operation: the machine, then the running agent's place -/

section turn
variable {i : Instr} {f : Ctx → Ctx} {u t m : State}

/-- The moves of an operation record faults of its polled engine only, so the running agent goes on. -/
theorem Framed.runs (h : Framed i u m) (hs : u.stopped u.cur = false) (hx : u.ctx? ≠ none) :
    m.stopped m.cur = false := by
  rw [h.kept.cur]
  simp only [State.stopped, List.any_eq_false, beq_iff_eq] at hs ⊢
  intro r hr ha
  rcases h.faults r hr with hold | ⟨-, j, -, hj⟩
  · exact hs r hold ha
  · exact cur_ne_engine hx j (ha.symm.trans hj)

theorem Ran.inv (h : Ran i u t) (hi : MachineInv u) : MachineInv t := by
  cases h with
  | none => exact hi
  | moved f h => exact (h.inv hi).updCtx f
  | @faulted m f c h hs hx =>
    refine ((h.inv hi).updCtx f).raise ?_ (fun j => ?_) c
    · rw [State.cur_updCtx, State.stopped_updCtx]; exact h.runs hs hx
    · rw [State.cur_updCtx, h.kept.cur]; exact cur_ne_engine hx j

/-- Of the agents a turn on operation i changes the place of the running one, by f, and leaves it between operations or
inside i. -/
structure PlacedBy (i : Instr) (f : Ctx → Ctx) (u t : State) : Prop where
  place : Placed f
  task : ∀ c k, u.ctx? = some c → (f c).task = some k → k.Of u.cfg i
  callers : t.callers = (u.updCtx f).callers
  notifier : t.notifier = (u.updCtx f).notifier
  cfg : t.cfg = u.cfg
  fin : t.fin = u.fin

theorem Kept.updCtx_agents (h : Kept u m) (f : Ctx → Ctx) :
    (m.updCtx f).callers = (u.updCtx f).callers ∧ (m.updCtx f).notifier = (u.updCtx f).notifier := by
  unfold State.updCtx
  rw [h.turn]
  split <;> simp [h.callers, h.notifier]

/-- The moves of operation i, then the running agent's place. -/
theorem Framed.placedBy (h : Framed i u m) (hf : Placed f)
    (ht : ∀ c k, u.ctx? = some c → (f c).task = some k → k.Of u.cfg i) : PlacedBy i f u (m.updCtx f) := by
  obtain ⟨hcallers, hnotifier⟩ := h.kept.updCtx_agents f
  exact ⟨hf, ht, hcallers, hnotifier, by rw [State.updCtx_cfg, h.kept.cfg], by rw [State.updCtx_fin, h.kept.fin]⟩

theorem PlacedBy.raise (h : PlacedBy i f u t) (c : FaultCause) : PlacedBy i f u (t.raise c) :=
  ⟨h.place, h.task, h.callers, h.notifier, h.cfg, h.fin⟩

theorem Ran.placedBy (hr : Resumes i u) (h : Ran i u t) : ∃ f, PlacedBy i f u t := by
  cases h with
  | none =>
    have h := (Framed.refl i u).placedBy (f := id) (fun _ => .inl ⟨rfl, rfl, rfl⟩) hr
    rw [State.updCtx_id] at h
    exact ⟨id, h⟩
  | moved f h _ _ hf ht => exact ⟨f, h.placedBy hf ht⟩
  | faulted f c h _ _ hf ht => exact ⟨f, (h.placedBy (fun c => .inl (hf c)) ht).raise c⟩

end turn

/-! ### A caller's turn -/

section caller
variable {i : Instr} {f : Ctx → Ctx} {u t : State} {c : Nat} {k : Caller} {d : Desc}

/-- A caller with a descriptor at its pc stays inside its program, and inside an operation of its own. -/
theorem Caller.Inv.moved {cfg : Cfg} (h : k.Inv cfg) (hf : Placed f) (hd : k.current = some d) (hi : decode d = .ok i)
    (ht : ∀ o, (f k.ctx).task = some o → o.Of cfg i) : Caller.Inv cfg { k with ctx := f k.ctx } := by
  rcases hf k.ctx with ⟨hpc, -, -⟩ | ⟨hpc, hnone⟩
  · have hcur : Caller.current { k with ctx := f k.ctx } = some d := by
      rw [← hd]; simp only [Caller.current, hpc]
    exact ⟨by rw [hpc]; exact h.inside, fun o ho => ⟨d, i, hcur, hi, ht o ho⟩⟩
  · obtain ⟨hlt, -⟩ := List.getElem?_eq_some_iff.mp hd
    exact ⟨by rw [hpc]; exact hlt, fun _ ho => nomatch hnone.symm.trans ho⟩

theorem updCtx_callers (ha : u.turn.agent = .caller c) (f : Ctx → Ctx) :
    (u.updCtx f).callers = u.callers.modify c fun k => { k with ctx := f k.ctx } := by
  simp only [State.updCtx, ha]

theorem PlacedBy.callers_inv (h : PlacedBy i f u t) (ha : u.turn.agent = .caller c) (hk : u.callers[c]? = some k)
    (hd : k.current = some d) (hi : decode d = .ok i) (hinv : ∀ k ∈ u.callers, k.Inv u.cfg) :
    ∀ l ∈ t.callers, l.Inv t.cfg := by
  intro l hl
  rw [h.cfg]
  rw [h.callers, updCtx_callers ha] at hl
  obtain ⟨n, hn⟩ := List.mem_iff_getElem?.mp hl
  by_cases hc : c = n
  case pos =>
    subst hc
    obtain rfl : { k with ctx := f k.ctx } = l := by simpa [hk] using hn
    exact (hinv k (List.mem_of_getElem? hk)).moved h.place hd hi fun o ho =>
      h.task k.ctx o (by simp [State.ctx?, ha, hk]) ho
  case neg =>
    have hn : u.callers[n]? = some l := by simpa [hc] using hn
    exact hinv l (List.mem_of_getElem? hn)

end caller

/-! ### The notifier's part of the invariant, place by place -/

section notifier
variable {u t p : State} {q : Pending} {j : Fin 4} {todo rest : List (Fin 4)} {old new : Word}
  {f : Ctx → Ctx}

/-- The notifier's part is about its place, fin and the parameters alone. -/
theorem NotifierInv.congr (h : NotifierInv u) (hn : t.notifier = u.notifier) (hf : t.fin = u.fin)
    (hc : t.cfg = u.cfg) : NotifierInv t := by
  unfold NotifierInv at h ⊢
  rw [hn, hf, hc]
  exact h

theorem notifierInv_idle (hph : u.notifier.phase = .idle) : NotifierInv u ↔
    u.notifier.applied ≤ u.cfg.finChanges.length ∧ u.notifier.pending = none ∧ u.notifier.ctx.task = none := by
  unfold NotifierInv
  rw [hph]

theorem notifierInv_snapped (hph : u.notifier.phase = .snapped old new todo) : NotifierInv u ↔
    u.notifier.applied ≤ u.cfg.finChanges.length ∧ u.notifier.pending = none ∧ u.notifier.ctx.task = none ∧
      old = u.fin ∧ u.cfg.finChanges[u.notifier.applied]? = some new := by
  unfold NotifierInv
  rw [hph]

theorem notifierInv_before (hph : u.notifier.phase = .before todo) (hq : u.notifier.pending = some q) :
    NotifierInv u ↔ u.notifier.applied ≤ u.cfg.finChanges.length ∧ q.old = u.fin ∧
      u.cfg.finChanges[u.notifier.applied]? = some q.new ∧
      ∀ k, u.notifier.ctx.task = some k → ∃ i rest, todo = i :: rest ∧ k.Of u.cfg (.clkBefore i q.old q.new) := by
  unfold NotifierInv
  rw [hph, hq]

theorem notifierInv_marking (hph : u.notifier.phase = .marking j todo) (hq : u.notifier.pending = some q) :
    NotifierInv u ↔ u.notifier.applied ≤ u.cfg.finChanges.length ∧ q.old = u.fin ∧
      u.cfg.finChanges[u.notifier.applied]? = some q.new ∧ u.notifier.ctx.task = none := by
  unfold NotifierInv
  rw [hph, hq]

theorem notifierInv_after (hph : u.notifier.phase = .after todo) (hq : u.notifier.pending = some q) :
    NotifierInv u ↔ u.notifier.applied ≤ u.cfg.finChanges.length ∧ u.fin = q.new ∧
      u.cfg.finChanges[u.notifier.applied]? = some q.new ∧
      ∀ k, u.notifier.ctx.task = some k → ∃ i rest, todo = i :: rest ∧ k.Of u.cfg (.clkAfter i q.old q.new) := by
  unfold NotifierInv
  rw [hph, hq]

/-! ### A micro-step of the notifier's protocol (R251) -/

/-- Every micro-step of the notifier's own protocol, from the place it is at. -/
inductive ProtocolMove (u : State) : State → Prop
  | snap (new : Word) (hph : u.notifier.phase = .idle) (hnew : u.cfg.finChanges[u.notifier.applied]? = some new) :
    ProtocolMove u (u.atPhase (.snapped u.fin new u.regset))
  | opened (old new : Word) (regset : List (Fin 4)) (hph : u.notifier.phase = .snapped old new regset) :
    ProtocolMove u { u with notifier := { u.notifier with phase := .before regset, pending := some ⟨old, new, []⟩ } }
  | changed (todo : List (Fin 4)) (q : Pending) (hph : u.notifier.phase = .before todo)
      (hq : u.notifier.pending = some q) (hv : visitOrder u todo = []) :
    ProtocolMove u ((u.setFin q.new).atPhase (.after q.done))
  | marked (i : Fin 4) (todo : List (Fin 4)) (q : Pending) (hph : u.notifier.phase = .marking i todo)
      (hq : u.notifier.pending = some q) :
    ProtocolMove u { u with
      notifier := { u.notifier with phase := .before todo, pending := some { q with done := addOnce q.done i } } }
  | closed (todo : List (Fin 4)) (q : Pending) (hph : u.notifier.phase = .after todo)
      (hq : u.notifier.pending = some q) (hv : visitOrder u todo = []) :
    ProtocolMove u { u with
      notifier := { u.notifier with phase := .idle, pending := none, applied := u.notifier.applied + 1 } }

theorem fetchNotifier_protocol (h : fetchNotifier u = .protocol p) : ProtocolMove u p := by
  unfold fetchNotifier at h
  split at h
  next hph =>
    split at h
    next => cases h
    next new hnew => cases h; exact .snap new hph hnew
  next old new regset hph => cases h; exact .opened old new regset hph
  next todo q hph hq =>
    split at h
    next hv => cases h; exact .changed todo q hph hq hv
    next => rw [fetchDesc, decode_clkBefore] at h; cases h
  next i todo q hph hq => cases h; exact .marked i todo q hph hq
  next todo q hph hq =>
    split at h
    next hv => cases h; exact .closed todo q hph hq hv
    next => rw [fetchDesc, decode_clkAfter] at h; cases h
  next => cases h

/-- With no instance left to visit no callback is in progress: one in progress would be on the first of `todo`. -/
theorem no_task_of_none_left {P : Task → Fin 4 → Prop} (hv : visitOrder u todo = [])
    (h : ∀ k, u.notifier.ctx.task = some k → ∃ i rest, todo = i :: rest ∧ P k i) : u.notifier.ctx.task = none := by
  cases ht : u.notifier.ctx.task with
  | none => rfl
  | some k =>
    obtain ⟨i, rest, rfl, -⟩ := h k ht
    simp [visitOrder, ht] at hv

theorem ProtocolMove.notifierInv (h : ProtocolMove u p) (hn : NotifierInv u) : NotifierInv p := by
  cases h with
  | snap new hph hnew =>
    obtain ⟨happlied, hq, htask⟩ := (notifierInv_idle hph).mp hn
    exact (notifierInv_snapped rfl).mpr ⟨happlied, hq, htask, rfl, hnew⟩
  | opened old new regset hph =>
    obtain ⟨happlied, -, htask, hold, hnew⟩ := (notifierInv_snapped hph).mp hn
    exact (notifierInv_before rfl rfl).mpr ⟨happlied, hold, hnew, fun _ hk => nomatch htask.symm.trans hk⟩
  | changed todo q hph hq hv =>
    obtain ⟨happlied, -, hnew, htask⟩ := (notifierInv_before hph hq).mp hn
    have hnone := no_task_of_none_left hv htask
    exact (notifierInv_after (u := (u.setFin q.new).atPhase _) rfl hq).mpr
      ⟨happlied, rfl, hnew, fun _ hk => nomatch hnone.symm.trans hk⟩
  | marked i todo q hph hq =>
    obtain ⟨happlied, hold, hnew, hnone⟩ := (notifierInv_marking hph hq).mp hn
    exact (notifierInv_before (q := { q with done := addOnce q.done i }) rfl rfl).mpr
      ⟨happlied, hold, hnew, fun _ hk => nomatch hnone.symm.trans hk⟩
  | closed todo q hph hq hv =>
    obtain ⟨-, -, hnew, htask⟩ := (notifierInv_after hph hq).mp hn
    obtain ⟨hlt, -⟩ := List.getElem?_eq_some_iff.mp hnew
    exact (notifierInv_idle rfl).mpr ⟨hlt, rfl, no_task_of_none_left hv htask⟩

/-- No entry of FIN_CHANGES of an accepted parameter record is 0 (R6). -/
theorem cfgOk_finChanges {cfg : Cfg} {v : Word} (h : cfgOk cfg = true) (hv : v ∈ cfg.finChanges) : v ≠ 0 := by
  simp only [cfgOk, Bool.and_eq_true, List.all_eq_true, bne_iff_ne] at h
  obtain ⟨⟨⟨-, hall⟩, -⟩, -⟩ := h
  exact hall v hv

/-- The protocol changes fin only to an entry of FIN_CHANGES, and nothing else of the machine. -/
theorem ProtocolMove.machineInv (h : ProtocolMove u p) (hc : cfgOk u.cfg = true) (hn : NotifierInv u)
    (hi : MachineInv u) : MachineInv p := by
  cases h with
  | snap => exact hi.congr rfl rfl rfl rfl rfl rfl
  | opened => exact hi.congr rfl rfl rfl rfl rfl rfl
  | changed todo q hph hq hv =>
    obtain ⟨-, -, hnew, -⟩ := (notifierInv_before hph hq).mp hn
    have hne : q.new ≠ 0 := cfgOk_finChanges hc (List.mem_of_getElem? hnew)
    exact (hi.setFin hne).congr rfl rfl rfl rfl rfl rfl
  | marked => exact hi.congr rfl rfl rfl rfl rfl rfl
  | closed => exact hi.congr rfl rfl rfl rfl rfl rfl

/-! ### A turn on a callback (R251) -/

theorem updCtx_notifier_of (ha : u.turn.agent = .notifier) (f : Ctx → Ctx) :
    (u.updCtx f).notifier = { u.notifier with ctx := f u.notifier.ctx } ∧ (u.updCtx f).callers = u.callers := by
  simp only [State.updCtx, ha, and_self]

/-- The notifier after a turn on a callback, before the protocol moves past it. -/
theorem PlacedBy.callback {i : Instr} {ph : NotifierPhase} (h : PlacedBy i f (u.atPhase ph) t)
    (ha : u.turn.agent = .notifier) :
    t.notifier = { u.notifier with ctx := f u.notifier.ctx, phase := ph } ∧ t.callers = u.callers ∧
      ∀ k, (f u.notifier.ctx).task = some k → k.Of u.cfg i := by
  obtain ⟨hn, hc⟩ := updCtx_notifier_of (u := u.atPhase ph) ha f
  exact ⟨h.notifier.trans hn, h.callers.trans hc, fun k => h.task _ k (by simp only [State.ctx?, State.atPhase, ha])⟩

/-- A turn on CLK_BEFORE: it goes on, or has completed and the protocol marks its instance next. -/
theorem PlacedBy.clkBefore_notifierInv
    (h : PlacedBy (.clkBefore j q.old q.new) f (u.atPhase (.before (j :: rest))) t) (ha : u.turn.agent = .notifier)
    (hph : u.notifier.phase = .before todo) (hq : u.notifier.pending = some q) (hn : NotifierInv u) :
    NotifierInv (afterCallback u.notifier.ctx.pc t) := by
  obtain ⟨happlied, hold, hnew, -⟩ := (notifierInv_before hph hq).mp hn
  obtain ⟨hnt, -, htask⟩ := h.callback ha
  have hcfg : t.cfg = u.cfg := h.cfg
  have hfin : t.fin = u.fin := h.fin
  have hpht : t.notifier.phase = .before (j :: rest) := by rw [hnt]
  have hqt : t.notifier.pending = some q := by rw [hnt]; exact hq
  rcases h.place u.notifier.ctx with ⟨hpc, -, -⟩ | ⟨hpc, hnone⟩
  · rw [afterCallback_same (by rw [hnt]; exact hpc), notifierInv_before hpht hqt, hcfg, hfin, hnt]
    exact ⟨happlied, hold, hnew, fun k hk => ⟨j, rest, rfl, htask k hk⟩⟩
  · rw [afterCallback_before (by rw [hnt]; simp [hpc]) hpht, notifierInv_marking (State.atPhase_phase _ t) hqt]
    simp only [State.atPhase, hcfg, hfin, hnt]
    exact ⟨happlied, hold, hnew, hnone⟩

/-- A turn on CLK_AFTER: it goes on, or has completed and the protocol goes on to the instances left. -/
theorem PlacedBy.clkAfter_notifierInv
    (h : PlacedBy (.clkAfter j q.old q.new) f (u.atPhase (.after (j :: rest))) t) (ha : u.turn.agent = .notifier)
    (hph : u.notifier.phase = .after todo) (hq : u.notifier.pending = some q) (hn : NotifierInv u) :
    NotifierInv (afterCallback u.notifier.ctx.pc t) := by
  obtain ⟨happlied, hfinNew, hnew, -⟩ := (notifierInv_after hph hq).mp hn
  obtain ⟨hnt, -, htask⟩ := h.callback ha
  have hcfg : t.cfg = u.cfg := h.cfg
  have hfin : t.fin = u.fin := h.fin
  have hpht : t.notifier.phase = .after (j :: rest) := by rw [hnt]
  have hqt : t.notifier.pending = some q := by rw [hnt]; exact hq
  rcases h.place u.notifier.ctx with ⟨hpc, -, -⟩ | ⟨hpc, hnone⟩
  · rw [afterCallback_same (by rw [hnt]; exact hpc), notifierInv_after hpht hqt, hcfg, hfin, hnt]
    exact ⟨happlied, hfinNew, hnew, fun k hk => ⟨j, rest, rfl, htask k hk⟩⟩
  · rw [afterCallback_after (by rw [hnt]; simp [hpc]) hpht, notifierInv_after (State.atPhase_phase _ t) hqt]
    simp only [State.atPhase, hcfg, hfin, hnt]
    exact ⟨happlied, hfinNew, hnew, fun _ hk => nomatch hnone.symm.trans hk⟩

end notifier

/-! ### Every way a turn can go -/

section turned
variable {u t : State} {c : FaultCause}

/-- An opening that faults, for an agent between operations: nothing, or the fault's record (R273). -/
theorem operate_trap_cases {x : Ctx} (hx : u.ctx? = some x) (hn : x.task = none) (h : operate u (.trap c) = .next t) :
    t = u ∨ u.stopped u.cur = false ∧ t = u.raise c := by
  unfold operate at h
  simp only [hx, hn] at h
  split at h
  next => cases h; exact .inl rfl
  next hs =>
    split at h
    next => cases h; exact .inl rfl
    next => cases h; exact .inr ⟨by simpa using hs, rfl⟩

theorem State.Inv.raise (h : u.Inv) (hs : u.stopped u.cur = false) (hx : u.ctx? ≠ none) (c : FaultCause) :
    (u.raise c).Inv :=
  (h.machine.raise hs (cur_ne_engine hx) c).with_agents h.callers (h.notifier.congr rfl rfl rfl)

theorem EngineMove.state_inv {n : Fin 4} (h : EngineMove n u t) (hi : u.Inv) : t.Inv := by
  have hk := h.kept
  exact (h.inv hi.machine).with_agents (by rw [hk.callers, hk.cfg]; exact hi.callers)
    (hi.notifier.congr hk.notifier hk.fin hk.cfg)

theorem ProtocolMove.state_inv (h : ProtocolMove u t) (hc : cfgOk u.cfg = true) (hi : u.Inv) : t.Inv := by
  obtain ⟨hcallers, hcfg⟩ : t.callers = u.callers ∧ t.cfg = u.cfg := by cases h <;> exact ⟨rfl, rfl⟩
  exact (h.machineInv hc hi.notifier hi.machine).with_agents (by rw [hcallers, hcfg]; exact hi.callers)
    (h.notifierInv hi.notifier)

/-- A caller's turn on an operation leaves the notifier and fin. -/
theorem Ran.caller_inv {i : Instr} {n : Nat} {k : Caller} {d : Desc} (h : Ran i u t) (hr : Resumes i u)
    (ha : u.turn.agent = .caller n) (hk : u.callers[n]? = some k) (hd : k.current = some d) (hdec : decode d = .ok i)
    (hi : u.Inv) : t.Inv := by
  obtain ⟨f, hp⟩ := h.placedBy hr
  have hn : t.notifier = u.notifier :=
    hp.notifier.trans (u.updCtx_other_notifier f fun (e : u.turn.agent = _) => by rw [ha] at e; cases e)
  exact (h.inv hi.machine).with_agents (hp.callers_inv ha hk hd hdec hi.callers) (hi.notifier.congr hn hp.fin hp.cfg)

/-- A turn on a callback leaves the callers, and the protocol's move past it the machine. -/
theorem Ran.callback_inv {i : Instr} {f : Ctx → Ctx} {ph : NotifierPhase} (h : Ran i (u.atPhase ph) t)
    (hp : PlacedBy i f (u.atPhase ph) t) (ha : u.turn.agent = .notifier) (hi : u.Inv)
    (hn : NotifierInv (afterCallback u.notifier.ctx.pc t)) : (afterCallback u.notifier.ctx.pc t).Inv := by
  obtain ⟨hcfg, hbus, hhm, hwire, -, hfaults, hcallers, hfin⟩ := afterCallback_other u.notifier.ctx.pc t
  obtain ⟨-, hct, -⟩ := hp.callback ha
  have hm : MachineInv t := h.inv (hi.machine.congr rfl rfl rfl rfl rfl rfl)
  refine (hm.congr hhm hbus hcfg hfaults hwire hfin).with_agents ?_ hn
  rw [hcallers, hct, hcfg, hp.cfg]
  exact hi.callers

theorem Turned.inv (h : Turned u t) (hc : cfgOk u.cfg = true) (hi : u.Inv) : t.Inv := by
  cases h with
  | idle => exact hi
  | engine j => exact (engineStep_cases j u).state_inv hi
  | protocol ha hs hp => exact (fetchNotifier_protocol hp).state_inv hc hi
  | @illegal c k d r _ ha hk hd hr ho =>
    have hx : u.ctx? = some k.ctx := by simp [State.ctx?, ha, hk]
    rcases operate_trap_cases hx (hi.no_task_of_illegal hk hd hr) ho with rfl | ⟨hs, rfl⟩
    · exact hi
    · exact hi.raise hs (by simp [hx]) _
  | caller ha hk hd hdec he =>
    have hr := hi.resumes_caller ha hk hd hdec
    exact (exec_ran hr he).caller_inv hr ha hk hd hdec hi
  | before ha hs hb hph hq hv he =>
    have hr := hi.resumes_before ha hph hq hv
    have hran := exec_ran hr he
    obtain ⟨f, hp⟩ := hran.placedBy hr
    exact hran.callback_inv hp ha hi (hp.clkBefore_notifierInv ha hph hq hi.notifier)
  | after ha hs hb hph hq hv he =>
    have hr := hi.resumes_after ha hph hq hv
    have hran := exec_ran hr he
    obtain ⟨f, hp⟩ := hran.placedBy hr
    exact hran.callback_inv hp ha hi (hp.clkAfter_notifierInv ha hph hq hi.notifier)

end turned

/-! ### The statement -/

/-- Settles O50: taking the turn keeps the invariant, and so does every way the turn can go (`Turned.inv`). -/
theorem everyStepKeepsInv : Obligations.EveryStepKeepsInv := by
  intro s t hi h
  obtain ⟨hc, ht⟩ := step_turned h
  exact ht.inv (by rwa [State.takeTurn_cfg]) hi.takeTurn

end Sys2Proof.Machine
end

section
/-! SUPPORT. The statements of the encoding (30_encoding.md): a row of spec/opcode_table.json written from a row of the
opcode map (`tableRow`), where each operation stands in both (`Instr.onRow`), and the decoder and the encoder inverse to
each other row by row (`build_encode`, `encodeFields_build`). -/

namespace Sys2Proof

open Machine

section table
variable {i : Instr} {e : RowEntry} {h : Header} {a b c : Word} {d : Desc}

/-! ### The two forms of the opcode table (R83, R84) -/

/-- The row of spec/opcode_table.json that an opcode-map row stands for at one NL value: `mask` keeps OPC, NL, the
reserved bits, and of INST, NULLH and IMM16 the bits that must be 0. -/
def tableRow (opc : BitVec 8) (nl : Bool) (r : RowForm) : TableRow where
  mask := ~~~r.imm ++ 15#4 ++ BitVec.ofBool (!r.nullOk) ++ 1#1 ++ (if r.instUsed then 0#2 else 3#2) ++ 255#8
  value := 0#16 ++ 0#4 ++ 0#1 ++ BitVec.ofBool nl ++ 0#2 ++ opc
  arg1 := r.arg1
  arg2 := r.arg2
  arg3 := r.arg3

theorem inst_match (n : Fin 4) (used : Bool) :
    BitVec.ofNat 2 n.val &&& (if used then 0#2 else 3#2) = 0#2 ↔ used = true ∨ n = 0 := by
  revert n used; decide

theorem nullh_match (null ok : Bool) : BitVec.ofBool null &&& BitVec.ofBool (!ok) = 0#1 ↔ ok = true ∨ null = false := by
  revert null ok; decide

theorem nl_match (n m : Bool) : BitVec.ofBool n &&& 1#1 = BitVec.ofBool m ↔ n = m := by
  revert n m; decide

/-- Fitting a row by mask and value is having its OPC and NL, no reserved bit, and nothing the row refuses: the clauses
(a) to (f) of R84. -/
theorem tableRow_fits_iff {opc : BitVec 8} {nl : Bool} {r : RowForm} (hn : (if nl then r.nl1 else r.nl0) = true) :
    (tableRow opc nl r).Fits d ↔ (Header.unpack d.d0).opc = opc ∧ (Header.unpack d.d0).nl = nl ∧
      (Header.unpack d.d0).rsv = 0 ∧ r.refuses (Header.unpack d.d0) d.d1 d.d2 d.d3 = none := by
  obtain ⟨d0, a, b, c⟩ := d
  obtain ⟨h, rfl⟩ : ∃ h : Header, h.pack = d0 := ⟨_, Header.pack_unpack d0⟩
  obtain ⟨m0, m8, m10, m11, m12, m16⟩ := packed_fields (~~~r.imm) 15#4 (BitVec.ofBool !r.nullOk) 1#1
    (if r.instUsed then 0#2 else 3#2) 255#8
  obtain ⟨v0, v8, v10, v11, v12, v16⟩ := packed_fields 0#16 0#4 0#1 (BitVec.ofBool nl) 0#2 opc
  have hopc : h.opc &&& 255#8 = h.opc := BitVec.and_allOnes
  have hrsv : h.rsv &&& 15#4 = h.rsv := BitVec.and_allOnes
  rw [TableRow.Fits, RowForm.refuses_none, Header.pack_match, Header.unpack_pack]
  simp only [tableRow, m0, m8, m10, m11, m12, m16, v0, v8, v10, v11, v12, v16, hopc, hrsv, inst_match, nullh_match,
    nl_match]
  constructor
  · rintro ⟨⟨ho, hi, rfl, hnull, hr, himm⟩, hargs⟩
    exact ⟨ho, rfl, hr, hn, hi, hnull, himm, hargs⟩
  · rintro ⟨ho, rfl, hr, -, hi, hnull, himm, hargs⟩
    exact ⟨⟨ho, hi, rfl, hnull, hr, himm⟩, hargs⟩

/-! ### Where an operation stands in the table -/

/-- The header fields of an operation (R80). -/
def Instr.header (i : Instr) : Header := (encodeFields i).1

@[simp] theorem unpack_encode (i : Instr) : Header.unpack (encode i).d0 = i.header := Header.unpack_pack _

/-- The operation's row in the opcode map is e: e is at its OPC, admits its NL, is its row of the opcode table, and
builds operations of that row alone from headers with its NL. -/
structure Instr.OnRow (i : Instr) (e : RowEntry) : Prop where
  mapped : opcodeMap i.header.opc = some e
  admits : (if i.header.nl then e.1.nl1 else e.1.nl0) = true
  row : rowOf i = tableRow i.header.opc i.header.nl e.1
  kind : ∀ (h : Header) a b c, rowOf (e.2 { h with nl := i.header.nl } a b c) = rowOf i

theorem Instr.onRow (i : Instr) : ∃ e, i.OnRow e := by
  cases i
  all_goals
    refine ⟨_, rfl, rfl, ?_, fun _ _ _ _ => rfl⟩
    simp only [rowOf, Instr.header, encodeFields, rawHeader, handleHeader]
    rfl

/-- A row builds an operation back from the fields the encoder gives it (R82, R86). -/
theorem build_encode (he : opcodeMap i.header.opc = some e) :
    e.2 i.header (encode i).d1 (encode i).d2 (encode i).d3 = i := by
  cases i <;> cases he
  case start => simp [Instr.header, encodeFields, encode, rawHeader, immIdx_packImm, immMode_packImm, immOrder_packImm]
  case setMode => simp [Instr.header, encodeFields, handleHeader, Header.handle, immMode_packImm]
  case setOrder => simp [Instr.header, encodeFields, handleHeader, Header.handle, immOrder_packImm]
  case beginTxn =>
    simp [Instr.header, encodeFields, encode, handleHeader, Header.handle, immMode_packImm, immOrder_packImm]
  all_goals rfl

/-- What a row can refuse of an encoded operation is a bit of ARG1: INST, NULLH and IMM16 are as it admits them
(R84). -/
theorem wellFormed_iff (he : opcodeMap i.header.opc = some e) :
    i.wellFormed = true ↔ e.1.refuses i.header (encode i).d1 (encode i).d2 (encode i).d3 = none := by
  rw [RowForm.refuses_none]
  cases i <;> cases he
  all_goals
    simp [Instr.header, encode, encodeFields, handleHeader, rawHeader, Instr.wellFormed, argFits, packImm_and,
      packImm_and0, packImm_andm, packImm_ando]

/-- The operation a row builds keeps every bit of the fields the row admits (R84): a field it does not read is 0, and
the IMM16 of START, SET_MODE, SET_ORDER and BEGIN_TXN is packed from what it reads. -/
theorem encodeFields_build (he : opcodeMap h.opc = some e) (hv : h.rsv = 0) (hr : e.1.refuses h a b c = none) :
    encodeFields (e.2 h a b c) = (h, a, b, c) := by
  obtain ⟨opc, inst, nl, null, rsv, imm⟩ := h
  subst hv
  rw [RowForm.refuses_none] at hr
  unfold opcodeMap at he
  split at he
  case h_34 => cases he
  all_goals
    rename opc.toNat = _ => ho
    obtain rfl := (BitVec.toNat_eq_nat.mp ho).2
    cases he
    cases nl
  all_goals
    simp_all [encodeFields, handleHeader, rawHeader, Header.handle, packImm_fields, packImm_mode, packImm_order,
      packImm_order_mode, and_ones16]

/-! ### The decoder by its parts (R84) -/

theorem decode_ok_iff : decode d = .ok i ↔ (Header.unpack d.d0).rsv = 0 ∧
    ∃ e, opcodeMap (Header.unpack d.d0).opc = some e ∧ e.1.refuses (Header.unpack d.d0) d.d1 d.d2 d.d3 = none ∧
      e.2 (Header.unpack d.d0) d.d1 d.d2 d.d3 = i := by
  unfold decode decodeFields
  by_cases hr : (Header.unpack d.d0).rsv = 0
  · cases opcodeMap (Header.unpack d.d0).opc with
    | none => simp [hr]
    | some e => cases hf : e.1.refuses (Header.unpack d.d0) d.d1 d.d2 d.d3 <;> simp [hr, hf]
  · simp only [if_pos (bne_iff_ne.mpr hr), reduceCtorEq, hr, false_and]

theorem Instr.OnRow.fits_iff (he : i.OnRow e) : (rowOf i).Fits d ↔ (Header.unpack d.d0).opc = i.header.opc ∧
    (Header.unpack d.d0).nl = i.header.nl ∧ (Header.unpack d.d0).rsv = 0 ∧
      e.1.refuses (Header.unpack d.d0) d.d1 d.d2 d.d3 = none := by
  rw [he.row, tableRow_fits_iff he.admits]

theorem Instr.OnRow.decode_of_fits (he : i.OnRow e) (hf : (rowOf i).Fits d) :
    decode d = .ok (e.2 (Header.unpack d.d0) d.d1 d.d2 d.d3) := by
  obtain ⟨ho, -, hv, hr⟩ := he.fits_iff.mp hf
  exact decode_ok_iff.mpr ⟨hv, e, ho ▸ he.mapped, hr, rfl⟩

theorem header_rsv (i : Instr) : i.header.rsv = 0 := by
  cases i <;> rfl

/-- A well-formed operation's descriptor fits its row. -/
theorem fits_encode (hw : i.wellFormed = true) : (rowOf i).Fits (encode i) := by
  obtain ⟨e, he⟩ := i.onRow
  rw [he.fits_iff, unpack_encode]
  exact ⟨rfl, rfl, header_rsv i, (wellFormed_iff he.mapped).mp hw⟩

/-- What fits an operation's row decodes to an operation of that row. -/
theorem decodes_of_fits (hf : (rowOf i).Fits d) : ∃ j, decode d = .ok j ∧ rowOf j = rowOf i := by
  obtain ⟨e, he⟩ := i.onRow
  obtain ⟨-, hn, -, -⟩ := he.fits_iff.mp hf
  exact ⟨_, he.decode_of_fits hf, by rw [← he.kind (Header.unpack d.d0) d.d1 d.d2 d.d3, ← hn]⟩

end table

/-! ### The statements -/

/-- Settles O43: the encoding fits its row (`fits_encode`), and the row builds the operation back (`build_encode`). -/
theorem decodeInvertsEncode : Obligations.DecodeInvertsEncode := by
  intro i hw
  obtain ⟨e, he⟩ := i.onRow
  rw [he.decode_of_fits (fits_encode hw), unpack_encode, build_encode he.mapped]

/-- Settles O44: what a row builds keeps every bit of the descriptor (`encodeFields_build`), and is well-formed because
the row refuses nothing of it (`wellFormed_iff`). -/
theorem encodeInvertsDecode : Obligations.EncodeInvertsDecode := by
  intro d i h
  obtain ⟨hv, e, he, hr, rfl⟩ := decode_ok_iff.mp h
  have hf := encodeFields_build he hv hr
  have hd : encode (e.2 (Header.unpack d.d0) d.d1 d.d2 d.d3) = d := by
    simp only [encode, hf, Header.pack_unpack]
  have hh : (e.2 (Header.unpack d.d0) d.d1 d.d2 d.d3).header = Header.unpack d.d0 := congrArg Prod.fst hf
  exact ⟨(wellFormed_iff (by rwa [hh])).mpr (by rwa [hh, hd]), hd⟩

/-- Settles O45: a descriptor that decodes is an encoding (O44), which fits its row (`fits_encode`); one that fits a row
decodes to that row (`decodes_of_fits`). -/
theorem decodeFollowsTheTable : Obligations.DecodeFollowsTheTable := by
  intro d
  have fits : ∀ i, decode d = .ok i → (rowOf i).Fits d := fun i h => by
    obtain ⟨hw, rfl⟩ := encodeInvertsDecode d i h
    exact fits_encode hw
  refine ⟨fits, fun i => decodes_of_fits, ?_⟩
  cases h : decode d with
  | ok i => simpa using ⟨i, fits i h⟩
  | illegal r =>
    refine iff_of_true (fun i hf => ?_) ⟨r, rfl⟩
    obtain ⟨j, hj, -⟩ := decodes_of_fits hf
    rw [h] at hj
    cases hj

/-- Settles O42: every word of R91 computed by the decoder. -/
theorem workedEncodingsDecode : Obligations.WorkedEncodingsDecode := by
  refine ⟨?_, ?_, ?_, ?_, ?_, ?_, ?_, ⟨.reserved, ?_⟩, ⟨.noLock, ?_⟩⟩ <;> decide

end Sys2Proof

namespace Sys2Proof.Machine

/-! ### Running what the decoder rejects (R84, R273) -/

theorem notifierOnly_caller {s : State} {c : Nat} (h : s.cur = .caller c) (i : Instr) (k : Opening) :
    notifierOnly s i k = .trap (.illegalOp (encode i).d0) :=
  if_neg (by simp [h])

theorem clkBefore_d0 (i : Fin 4) (old new : Word) :
    (encode (.clkBefore i old new)).d0 = 0x60 + 0x100 * BitVec.ofNat 32 i.val := by
  fin_cases i <;> rfl

theorem clkAfter_d0 (i : Fin 4) (old new : Word) :
    (encode (.clkAfter i old new)).d0 = 0x61 + 0x100 * BitVec.ofNat 32 i.val := by
  fin_cases i <;> rfl

/-- Settles O31: for a caller the callbacks open with the trap of R84 (g) (`notifierOnly_caller`). -/
theorem callbacksAreIllegalForCallers : Obligations.CallbacksAreIllegalForCallers := by
  intro c i old new s hc hs
  constructor
  · rw [← clkBefore_d0 i old new, ← operate_trap hs, ← notifierOnly_caller hc]
    rfl
  · rw [← clkAfter_d0 i old new, ← operate_trap hs, ← notifierOnly_caller hc]
    rfl

theorem stopped_raise (x : FaultCause) (s : State) : (s.raise x).stopped s.cur = true := by
  simp [State.raise, State.stopped_record]

/-- Settles O47: the turn comes to `operate` with a trap (`runTurn_illegal`), which a caller between operations takes at
once (`operate_trap`). -/
theorem illegalDescriptorsFault : Obligations.IllegalDescriptorsFault := by
  intro s c k d r u hc ha hb hk ht hs hd hr
  have hku : u.callers[c]? = some k := by rwa [State.takeTurn_callers]
  have hx : u.ctx? = some k.ctx := by simp [State.ctx?, ha, hku]
  have hcur : u.cur = .caller c := ha
  have hready : Ready 1 u :=
    ⟨⟨_, hx, ht⟩, by rwa [hcur, State.stopped_takeTurn], Nat.one_le_iff_ne_zero.mpr hb⟩
  have hfaults : u.faults = s.faults := by
    obtain ⟨-, -, -, -, -, -, h, -⟩ := takeTurn_kept s; exact h
  refine ⟨u.raise (.illegalOp d.d0), ?_, ?_, hcur ▸ stopped_raise _ u⟩
  · rw [step_accepted hc, runTurn_illegal ha hku hd hr, operate_trap hready]
  · rw [State.raise, State.record, hx, hcur, hfaults]
    rfl

end Sys2Proof.Machine
end

section
/-! SUPPORT. The statements of one register and of the guard (R110 to R115): operations of one micro-step (`operate_one`,
`operate_one_traps`), and what that micro-step does in each state of its register or guard. -/

namespace Sys2Proof.Machine

/-! ### An operation of one micro-step -/

section one
variable {s s' : State} {i : Fin 4} {op : UOp} {x x' y' : Word} {ret : Ret} {c : FaultCause}

theorem operate_one (h : Ready 2 s) (hs : settle s.cfg [op] = [op]) (hp : perform op i x 0 s = .done s' x' y') :
    operate s (taskOf i [op] x ret) = .next (s'.finish .ok (retValue s'.cfg ret x' y')) :=
  operate_runs h (RunsIn.one hp hs)

theorem operate_one_traps (h : Ready 2 s) (hs : settle s.cfg [op] = [op]) (hp : perform op i x 0 s = .trap c) :
    ∃ t, operate s (taskOf i [op] x ret) = .next t ∧ Trapped c s t :=
  ⟨_, operate_traps h hs hp, .of_save⟩

end one

/-! ### Reading and writing one register (R110, R111) -/

theorem Bus.view_of_ne_cmd {b : Bus} {cfg : Cfg} {r : Reg} (h : r ≠ .cmd) : b.view cfg r = b.stored r &&& wmask cfg r := by
  cases r with
  | cmd => exact absurd rfl h
  | _ => rfl

theorem readReg_w_busy {i : Fin 4} {k : Fin 16} {s : State} (h : (s.getBus i).phase = .busy) :
    readReg i (.w k) s = (Config.freeWord s.draws, s.addDraws 1) := by
  simp only [readReg, h]

/-- REG_RD past its checks is one read (R110). -/
theorem exec_regRd_reads {i : Fin 4} {off : BitVec 16} {r : Reg} {s : State} (h : Ready 2 s) (hi : i.val < s.cfg.nInst)
    (ha : off.toNat % 4 = 0) (hr : regAt s.cfg off.toNat = some r) :
    exec (.regRd i off) s = .next ((readReg i r s).2.finish .ok (readReg i r s).1) := by
  rw [exec_eq, openingOf, regOpening_eq hi ha hr, operate_one h rfl perform_rd_x]
  simp [retValue]

/-- A write while a commit or a transaction is in flight (R111). -/
theorem writeReg_inFlight {i : Fin 4} {r : Reg} {v x y : Word} {s : State} (hq : ¬ Quiet i s) :
    writeReg i r v x y s = .trap (.busyWrite i r) := if_pos hq

/-- A write of CMD with nothing in flight (R111). -/
theorem writeReg_cmd {i : Fin 4} {v x y : Word} {s : State} (hq : Quiet i s) : writeReg i .cmd v x y s =
    if cmdUsr v && cmdUpdate s.cfg v then .trap (.cmdConflict v)
    else if cmdUsr v then .done (s.updBus i fun b => { b with phase := .busy }) x y
    else if cmdUpdate s.cfg v then .done (s.updBus i fun b => { b with phase := .commit }) x y
    else .done s x y := if_neg (not_not_intro hq)

section write
variable {i : Fin 4} {off : BitVec 16} {r : Reg} {v : Word} {s s' : State} {c : FaultCause} (h : Ready 2 s)
  (hi : i.val < s.cfg.nInst) (ha : off.toNat % 4 = 0) (hr : regAt s.cfg off.toNat = some r)
include h hi ha hr

/-- REG_WR past its checks is one write (R111). -/
theorem exec_regWr_writes (hw : writeReg i r v 0 0 s = .done s' 0 0) :
    exec (.regWr i off v) s = .next (s'.finish .ok 0) := by
  rw [exec_eq, openingOf, regOpening_eq hi ha hr]
  exact operate_one h rfl hw

theorem exec_regWr_traps (hw : writeReg i r v 0 0 s = .trap c) :
    ∃ t, exec (.regWr i off v) s = .next t ∧ Trapped c s t := by
  rw [exec_eq, openingOf, regOpening_eq hi ha hr]
  exact operate_one_traps h rfl hw

end write

/-! ### Polling one register (R112) -/

theorem perform_poll_clear {i : Fin 4} {r : Reg} {mask x y : Word} {s : State} (h : (readReg i r s).1 &&& mask = 0) :
    perform (.poll r mask) i x y s = .done (readReg i r s).2 x y := if_pos h

theorem perform_poll_set {i : Fin 4} {r : Reg} {mask x y : Word} {s : State} (h : (readReg i r s).1 &&& mask ≠ 0) :
    perform (.poll r mask) i x y s = .hold (readReg i r s).2 := if_neg h

/-- A read leaves what decides whether a polled engine takes its step. -/
theorem readReg_serves (i j : Fin 4) (r : Reg) (s : State) :
    ((readReg i r s).2.turn.prompt && (readReg i r s).2.engineReady j) = (s.turn.prompt && s.engineReady j) := by
  rcases readReg_cases i r s with h | ⟨-, h⟩
  · rw [h]
  · simp [h, State.engineReady]

theorem regAt_cmd {cfg : Cfg} {n : Nat} (h : n = 0) : regAt cfg n = some .cmd := by
  subst h; rfl

/-! ### The guard (R114, R115) -/

theorem perform_acquire_absent {i : Fin 4} {x y : Word} {s : State} (h : (s.getBus i).guardExists = false) :
    perform .acquire i x y s = .trap (.notStarted i) := by
  simp [perform, acquireGuard, h]

theorem perform_acquire_held {i : Fin 4} {x y : Word} {s : State} (h : (s.getBus i).guardExists = true)
    (ho : (s.getBus i).owner ≠ none) : perform .acquire i x y s = .hold s := by
  obtain ⟨a, ha⟩ := Option.ne_none_iff_exists'.mp ho
  simp [perform, acquireGuard, h, ha]

theorem perform_release_notMine {i : Fin 4} {x y : Word} {s : State} (h : ¬ GuardMine i s) :
    perform .release i x y s = .trap (.notOwner i) := if_neg h

theorem rawOpening_unmapped {s : State} {i : Fin 4} (hi : s.cfg.nInst ≤ i.val) (off : Option (BitVec 16)) (k : Opening) :
    rawOpening s i off k = .trap (.unmapped i off) := if_pos hi

/-! ### The statements of one register and of the guard -/

/-- Settles O1: the checks by `regOpening_faults`, the value by what one read gives (`exec_regRd_reads`). -/
theorem regRdReadsOneRegister : Obligations.RegRdReadsOneRegister := by
  intro i off s h
  obtain ⟨unmapped, misaligned, noRegister⟩ :=
    regOpening_faults (i := i) (off := off) (h.mono (by omega)) fun r => taskOf i [.rd r .x] 0 (.low 0xFFFFFFFF)
  refine ⟨unmapped, misaligned, noRegister, ?cmd, ?value, ?drawn⟩
  case cmd =>
    intro hi ha hr
    rw [exec_regRd_reads h hi ha hr, readReg_cmd]
    cases (s.getBus i).phase <;> rfl
  case value =>
    intro r hi ha hr hc hd
    rw [exec_regRd_reads h hi ha hr, readReg_eq hd, Bus.view_of_ne_cmd hc]
  case drawn =>
    intro k hi ha hr hb
    rw [exec_regRd_reads h hi ha hr, readReg_w_busy hb]

/-- Settles O2: past the checks the operation is one write, which each clause's premises decide. -/
theorem regWrWritesOneRegister : Obligations.RegWrWritesOneRegister := by
  intro i off v s h
  obtain ⟨unmapped, misaligned, noRegister⟩ :=
    regOpening_faults (i := i) (off := off) (h.mono (by omega)) fun r => taskOf i [.wr r v] 0 (.const 0)
  refine ⟨unmapped, misaligned, noRegister, ?inFlight, ?stored, ?cmd⟩
  case inFlight =>
    intro r hi ha hr hq
    exact exec_regWr_traps h hi ha hr (writeReg_inFlight hq)
  case stored =>
    intro r hi ha hr hq hc
    exact exec_regWr_writes h hi ha hr (writeReg_store hc hq)
  case cmd =>
    intro hi ha hr hq
    have hw := writeReg_cmd (v := v) (x := 0) (y := 0) hq
    simp only [cmdUsr, cmdUpdate, Bool.and_eq_true] at hw
    split_ifs at hw ⊢
    · exact exec_regWr_traps h hi ha hr hw
    · exact exec_regWr_writes h hi ha hr hw
    · exact exec_regWr_writes h hi ha hr hw
    · exact exec_regWr_writes h hi ha hr hw

/-- Settles O3: one test is one read; a hold keeps the place (`operate_holds`), from which a later test ends it
(`operate_resumes`); the engine's step lifts the hold of CMD (`await_complete`, `await_commit`). -/
theorem regPollHoldsUntilClear : Obligations.RegPollHoldsUntilClear := by
  intro i off mask s h
  obtain ⟨unmapped, misaligned, noRegister⟩ :=
    regOpening_faults (i := i) (off := off) (h.mono (by omega)) fun r => taskOf i [.poll r mask] 0 (.const 0)
  have opens {r : Reg} (hi : i.val < s.cfg.nInst) (ha : off.toNat % 4 = 0) (hr : regAt s.cfg off.toNat = some r) :
      exec (.regPoll i off mask) s = operate s (taskOf i [.poll r mask] 0 (.const 0)) := by
    rw [exec_eq, openingOf, regOpening_eq hi ha hr]
  refine ⟨unmapped, misaligned, noRegister, ?clear, ?held, ?transaction, ?commit⟩
  case clear =>
    intro r hi ha hr hc
    rw [opens hi ha hr]
    exact operate_one (h.mono (by omega)) rfl (perform_poll_clear hc)
  case held =>
    intro r hi ha hr hc hw
    rw [opens hi ha hr]
    refine ⟨operate_holds (h.mono (by omega)) rfl (perform_poll_set hc) ((readReg_serves i i r s).trans hw), ?_⟩
    intro u hu hcu
    rw [exec_eq]
    exact operate_resumes _ hu rfl (perform_poll_clear hcu)
  case transaction =>
    rintro hi h0 rfl hb he hn
    rw [opens hi (by omega) (regAt_cmd h0)]
    exact operate_runs (h.mono (by omega)) (await_complete hb he hn)
  case commit =>
    rintro hi h0 rfl hb he
    rw [opens hi (by omega) (regAt_cmd h0)]
    exact operate_runs (h.mono (by omega)) (await_commit hb he)

/-- Settles O4: the one micro-step is the acquire, in each state of the guard. -/
theorem guardAcqTakesTheGuard : Obligations.GuardAcqTakesTheGuard := by
  intro i s h
  have opens (hi : i.val < s.cfg.nInst) : exec (.guardAcq i) s = operate s (taskOf i [.acquire] 0 (.const 0)) := by
    rw [exec_eq, openingOf, rawOpening_eq hi]
  refine ⟨?unmapped, ?absent, ?free, ?held⟩
  case unmapped =>
    intro hi
    rw [exec_eq, openingOf, rawOpening_unmapped hi, operate_trap (h.mono (by omega))]
  case absent =>
    intro hi hg
    rw [opens hi]
    exact operate_one_traps h rfl (perform_acquire_absent hg)
  case free =>
    intro hi hg
    rw [opens hi]
    exact operate_one h rfl (perform_acquire hg)
  case held =>
    intro a hi hg ho
    rw [opens hi]
    refine ⟨operate_holds h rfl (perform_acquire_held hg (by simp [ho])) rfl, ?_⟩
    intro u hu hf
    rw [exec_eq]
    exact operate_resumes _ hu rfl (perform_acquire hf)

/-- Settles O5: the one micro-step is the release. -/
theorem guardRelFreesTheGuard : Obligations.GuardRelFreesTheGuard := by
  intro i s h
  have opens (hi : i.val < s.cfg.nInst) : exec (.guardRel i) s = operate s (taskOf i [.release] 0 (.const 0)) := by
    rw [exec_eq, openingOf, rawOpening_eq hi]
  refine ⟨?unmapped, ?mine, ?notMine⟩
  case unmapped =>
    intro hi
    rw [exec_eq, openingOf, rawOpening_unmapped hi, operate_trap (h.mono (by omega))]
  case mine =>
    intro hi hg
    rw [opens hi]
    exact operate_one h rfl (perform_release hg)
  case notMine =>
    intro hi hg
    rw [opens hi]
    exact operate_one_traps h rfl (perform_release_notMine hg)

end Sys2Proof.Machine
end

section
/-! SUPPORT. The statements of the engine (R117 to R120): its turn in each phase, the buffer a transaction leaves bit by
bit (`bufBit_bufAfter_landed`, `bufBit_bufAfter_free`), and what one whole transaction leaves. -/

namespace Sys2Proof.Machine

/-! ### The engine's turn (R117) -/

section turn
variable {i : Fin 4} {s : State}

theorem engineStep_quiet (hq : Quiet i s) : engineStep i s = s := by
  simp [engineStep, State.engineReady, show (s.getBus i).phase = .idle from hq]

theorem engineStep_stopped (hs : s.stopped (.engine i) = true) : engineStep i s = s := by
  simp [engineStep, State.engineReady, hs]

theorem engineStep_commit (hs : s.stopped (.engine i) = false) (hp : (s.getBus i).phase = .commit) :
    engineStep i s = commitStep i s := by
  simp [engineStep, State.engineReady, hs, hp]

theorem engineStep_busy (hs : s.stopped (.engine i) = false) (hp : (s.getBus i).phase = .busy) :
    engineStep i s = completeStep i s := by
  simp [engineStep, State.engineReady, hs, hp]

/-- The completion step with a length past the buffer (R119). -/
theorem completeStep_overflow (h : 512 < ((s.getBus i).txnCfg s.cfg).mosiDlen.toNat + 1) :
    completeStep i s = s.record (.dlenOverflow i ((s.getBus i).txnCfg s.cfg).mosiDlen) (.engine i) none :=
  if_pos h

end turn

/-! ### The buffer after a transaction (R119, R120) -/

section buffer
variable {c : RegCfg} {n : Nat} {rx : Nat → Bool} {nb : BitVec 512}

/-- Received bit k is at its read-order position. -/
theorem bufBit_bufAfter_landed (hd : doutdin c.user = true) (hm : c.misoDlen.toNat + 1 = n) {k : Nat} (hk : k < n)
    (hn : n ≤ 512) : bufBit (bufAfter c n rx nb) (wirePos k (rdOrder c.ctrl)) = rx k := by
  rw [bufAfter, bufBit_bufOfBits _ _ (wirePos_lt _ (by omega))]
  simp [hd, hm, hk]

/-- A bit at no received bit's position is a draw. -/
theorem bufBit_bufAfter_free {b : Nat} (hb : b < 512)
    (hl : ¬ ((doutdin c.user = true ∧ c.misoDlen.toNat + 1 = n) ∧ ∃ k < n, b = wirePos k (rdOrder c.ctrl))) :
    bufBit (bufAfter c n rx nb) b = nb.getLsbD b := by
  rw [bufAfter, bufBit_bufOfBits _ _ hb]
  refine if_neg fun h => hl ?_
  simp only [Bool.and_eq_true, decide_eq_true_eq] at h
  exact ⟨h.1, _, h.2, (wirePos_wirePos b _).symm⟩

end buffer

/-! ### The statements of the engine -/

/-- Settles O6: the engine's turn is its step, which the phase and the faults decide. -/
theorem engineCommitsTheRegisters : Obligations.EngineCommitsTheRegisters := by
  intro i s ha hb
  have turn : runTurn s = .next (engineStep i s) := runTurn_engine (fetch_engine ha hb)
  refine ⟨?quiet, ?stopped, ?commits⟩
  case quiet =>
    intro hq
    rw [turn, engineStep_quiet hq]
  case stopped =>
    intro hs
    rw [turn, engineStep_stopped hs]
  case commits =>
    intro hs hp
    rw [turn, engineStep_commit hs hp]
    rfl

/-- Settles O7: in BUSY the engine's turn is the completion step; the buffer it leaves is `bufAfter`. -/
theorem engineCompletesATransaction : Obligations.EngineCompletesATransaction := by
  intro i s ha hb hs hp c n tx rx lands
  have turn : runTurn s = .next (completeStep i s) := by
    rw [runTurn_engine (fetch_engine ha hb), engineStep_busy hs hp]
  refine ⟨?overflow, ?completes⟩
  case overflow =>
    intro hn
    rw [turn, completeStep_overflow hn]
    rfl
  case completes =>
    intro hn
    refine ⟨bufAfter c n rx (Config.freeBits s.draws), ?_, ?_, ?_⟩
    · rw [turn, completeStep_eq i s hn]
      rfl
    · intro hl k hk
      exact bufBit_bufAfter_landed hl.1 hl.2 hk hn
    · intro b hb hl
      exact bufBit_bufAfter_free hb hl

/-- The configuration `xfer` writes (R170). -/
theorem triggered_conf (cfg : Cfg) (nbits : Nat) (fd : Bool) (b : Bus) : (b.triggered cfg nbits fd).conf =
    { b.conf with
      mosiDlen := BitVec.ofNat 32 (nbits - 1)
      misoDlen := if fd then BitVec.ofNat 32 (nbits - 1) else if cfg.woMiso = .zero then 0 else b.conf.misoDlen } := by
  cases h : cfg.woMiso <;> simp [Bus.triggered, h]

/-- Settles O10: one whole transaction in closed form (`transacted_eq`), read field by field. -/
theorem transactionLeaves : Obligations.TransactionLeaves := by
  intro i nbits fd s hc h1 hn t b conf c
  let tx := fun k => bufBit b.w (wirePos k (wrOrder c.ctrl))
  let rx := rxBit s.cfg.link tx (Config.freeBits (s.draws + 1))
  let w := bufAfter c nbits rx (Config.freeBits s.draws)
  have hconf : (b.triggered s.cfg nbits fd).conf = conf := triggered_conf ..
  have hcm : c = (b.triggered s.cfg nbits fd).conf.masked s.cfg := by rw [hconf]
  have hrd : rdOrder c.ctrl = rdOrder b.conf.ctrl := by rw [hcm, triggered_rdOrder]
  have hdd : doutdin c.user = doutdin b.conf.user := by rw [hcm, triggered_doutdin]
  have ht : t = ((s.updBus i fun b => { b.triggered s.cfg nbits fd with w := w, phase := .idle }).addWire
      ⟨i, s.fin, c, csDis c.pin, sentBits c nbits b.w, (List.range nbits).map rx⟩).addDraws 2 := by
    simp only [w, rx, tx, hcm]
    exact transacted_eq hc h1 hn
  rw [ht]
  refine ⟨w, (List.range nbits).map rx, ?bus, rfl, by simp, ?loopback, ?landed, ?others, fun _ => rfl, rfl, rfl, rfl,
    rfl, rfl⟩
  case bus =>
    simp only [State.getBus_addDraws, State.getBus_addWire, State.getBus_updBus_same]
    rw [← hconf]
    rfl
  case loopback =>
    intro hl
    have : rx = tx := by
      funext k
      simp only [rx, rxBit, hl]
    rw [this]
    rfl
  case landed =>
    intro hd hm k hk
    rw [← hrd, bufBit_bufAfter_landed (hdd.trans hd) hm hk hn]
    simp [hk]
  case others =>
    intro j hj
    simp [hj]

end Sys2Proof.Machine
end

section
/-! SUPPORT. The statements of the guarded operations (R114, R116, R172): what each handle form with a guard opens with
(`openingOf_guarded`), and where its micro-steps come to its first register write (`Faults`). -/

namespace Sys2Proof.Machine

/-! ### Micro-steps that come to a fault -/

/-- From the micro-steps `ops` with locals x, y in state s at most n micro-steps lead to state t, where the next one
raises fault c. -/
def Faults (i : Fin 4) (n : Nat) (ops : List UOp) (x y : Word) (s t : State) (c : FaultCause) : Prop :=
  ∃ ops' op rest x' y', RunsIn i n ops x y s ops' x' y' t ∧ settle t.cfg ops' = op :: rest ∧
    perform op i x' y' t = .trap c

namespace Faults

variable {i : Fin 4} {m n : Nat} {op : UOp} {ops ops' rest : List UOp} {x y x' y' : Word} {s s' t : State}
  {c : FaultCause}

theorem now (hp : perform op i x y s = .trap c) (hs : settle s.cfg (op :: rest) = op :: rest := by rfl) :
    Faults i n (op :: rest) x y s s c :=
  ⟨_, _, _, _, _, RunsIn.refl.mono (Nat.zero_le n), hs, hp⟩

theorem after (h : RunsIn i m ops x y s ops' x' y' s') (hf : Faults i n ops' x' y' s' t c) :
    Faults i (m + n) ops x y s t c := by
  obtain ⟨ops', op, rest, x', y', hr, hs, hp⟩ := hf
  exact ⟨ops', op, rest, x', y', h.trans hr, hs, hp⟩

theorem append (h : Faults i n ops x y s t c) (tail : List UOp) : Faults i n (ops ++ tail) x y s t c := by
  obtain ⟨ops', op, rest, x', y', hr, hs, hp⟩ := h
  exact ⟨ops' ++ tail, op, rest ++ tail, x', y', hr.append tail, Runs.settle_append hs, hp⟩

/-- An operation whose micro-steps come to a fault raises it there (R273). -/
theorem operate {ret : Ret} (h : Faults i n ops x y s t c) (hr : Ready (n + 2) s) :
    ∃ o, operate s (.task ⟨i, ops, x, y, ret⟩) = .next ((t.save o).raise c) := by
  obtain ⟨ops', op, rest, x', y', ⟨k, hk, run⟩, hs, hp⟩ := h
  obtain ⟨m, hm, e⟩ := operate_task (n := n + 1) hr ⟨i, ops, x, y, ret⟩
  obtain ⟨m, rfl⟩ := Nat.exists_eq_add_of_le' hm
  refine ⟨⟨i, ops', x', y', ret⟩, ?_⟩
  rw [e, show m + (n + 1) = (m + (n - k)) + 1 + k by omega, run.runOps, runOps]
  simp only [hs, hp]

end Faults

/-! ### First register writes in flight -/

section inFlight
variable {i : Fin 4} {s : State} {x y : Word} (hq : ¬ Quiet i s)
include hq

theorem perform_wr_inFlight (r : Reg) (v : Word) : perform (.wr r v) i x y s = .trap (.busyWrite i r) :=
  writeReg_inFlight hq

theorem perform_wrX_inFlight (r : Reg) : perform (.wrX r) i x y s = .trap (.busyWrite i r) :=
  writeReg_inFlight hq

theorem perform_wrScalar_inFlight (n : Nat) : perform (.wrScalar n) i x y s = .trap (.busyWrite i (.w 0)) :=
  writeReg_inFlight hq

theorem perform_wrPix_inFlight (k : Fin 16) : perform (.wrPix k) i x y s = .trap (.busyWrite i (.w k)) :=
  writeReg_inFlight hq

theorem perform_rmw_inFlight (r : Reg) (c v : Word) : perform (.rmw r c v) i x y s = .trap (.busyWrite i r) :=
  writeReg_inFlight hq

end inFlight

/-- A read of a configuration register is no draw, in flight too (R110). -/
theorem perform_rd_ctrl_y (i : Fin 4) (x y : Word) (s : State) :
    perform (.rd .ctrl .y) i x y s = .done s x ((s.getBus i).view s.cfg .ctrl) := by
  rw [perform_rd_y, readReg_eq (.inr (by simp))]

section body
variable {i : Fin 4} {s : State} {x y : Word} (hq : ¬ Quiet i s)
include hq

/-- A scalar is loaded after one read of CTRL (R184 to R188). -/
theorem scalarOps_faults (cfg : Cfg) (n b : Nat) (fd : Bool) :
    Faults i 1 (scalarOps cfg n b fd) x y s s (.busyWrite i (.w 0)) :=
  .after (n := 0) (RunsIn.one (perform_rd_ctrl_y i x y s)) (.now (perform_wrScalar_inFlight hq n))

/-- A word array is loaded after one access of host memory a word (R180, R181). -/
theorem loadWords_faults {c p : Nat} (hc : 1 ≤ c) (hm : Mapped s.hm p 4) :
    Faults i 1 (loadWords c p) x y s s (.busyWrite i (.w 0)) := by
  obtain ⟨k, rfl⟩ := Nat.exists_eq_add_of_le' hc
  obtain ⟨v, hv⟩ := memRead4_mapped hm (k := 0) (by omega)
  rw [loadWords, List.range_succ_eq_map, List.flatMap_cons]
  exact .after (n := 0) (RunsIn.one (s' := s) (x' := v) (y' := y) (by simp only [perform, hv]))
    (.now (perform_wrX_inFlight hq (.w 0)))

end body

/-! ### The loops (R210, R215) -/

/-- The bytes of a chunk's first word. -/
theorem loadBytes_first_run {i : Fin 4} {a len : Nat} {x y : Word} {s : State} (h1 : 1 ≤ len)
    (hm : Mapped s.hm a (min 4 len)) : ∃ x', RunsIn i 4 (loadBytes a len 0) x y s [] x' y s := by
  have e : loadBytes a len 0 = loadBytes a (min 4 len) 0 := by
    unfold loadBytes
    rw [validBytes_eq, validBytes_eq, show min 4 (min 4 len - 4 * 0) = min 4 (len - 4 * 0) by omega]
  rw [e]
  exact ⟨_, loadBytes_run (by omega) hm⟩

theorem chunkWords_cons {len : Nat} (h1 : 1 ≤ len) : ∃ ws, chunkWords len = 0 :: ws := by
  obtain ⟨k, hk⟩ : ∃ k, (len + 3) / 4 = k + 1 := ⟨(len + 3) / 4 - 1, by omega⟩
  exact ⟨_, by rw [chunkWords, hk, List.range_succ_eq_map]⟩

section loops
variable {i : Fin 4} {s : State} {x y : Word}

theorem bytesChunk_faults (hq : ¬ Quiet i s) {cfg : Cfg} {inp outp off len : Nat} (h1 : 1 ≤ len)
    (hm : inp ≠ 0 → Mapped s.hm (inp + off) (min 4 len)) :
    Faults i 4 (bytesChunk cfg inp outp off len) x y s s (.busyWrite i (.w 0)) := by
  obtain ⟨ws, hws⟩ := chunkWords_cons h1
  simp only [bytesChunk, hws, List.flatMap_cons, List.append_assoc]
  by_cases h0 : inp = 0
  · simp only [if_pos h0]
    exact .now (perform_wr_inFlight hq _ _)
  · simp only [if_neg h0, List.append_assoc]
    obtain ⟨x', r⟩ := loadBytes_first_run (i := i) (x := x) (y := y) h1 (hm h0)
    exact .after (n := 0) (r.append _) (.now (perform_wrX_inFlight hq _))

theorem pixelsChunk_faults (hq : ¬ Quiet i s) {cfg : Cfg} {p off len : Nat} (h1 : 1 ≤ len)
    (hm : Mapped s.hm (p + off) (min 4 len)) :
    Faults i 4 (pixelsChunk cfg p off len) x y s s (.busyWrite i (.w 0)) := by
  obtain ⟨ws, hws⟩ := chunkWords_cons h1
  simp only [pixelsChunk, hws, List.flatMap_cons, List.append_assoc]
  obtain ⟨x', r⟩ := loadBytes_first_run (i := i) (x := x) (y := y) h1 hm
  exact .after (n := 0) (r.append _) (.now (perform_wrPix_inFlight hq _))

/-- A loop header comes to the fault its first chunk comes to. -/
theorem Faults.of_header {n : Nat} {header next : UOp} {chunk : List UOp} {t : State} {c : FaultCause}
    (h : Faults i n chunk x y s t c) (hset : settle s.cfg [header] = chunk ++ [next])
    (hch : ∃ op rest, chunk = op :: rest ∧ ∀ tail, settle s.cfg (op :: tail) = op :: tail) :
    Faults i n [header] x y s t c := by
  obtain ⟨op', rest', hcons, hop'⟩ := hch
  have hs : settle s.cfg [header] = settle s.cfg (chunk ++ [next]) := by
    rw [hset, hcons, List.cons_append, hop']
  obtain ⟨ops', op, rest, x', y', ⟨k, hk, run⟩, hso, hp⟩ := h.append [next]
  cases k with
  | zero =>
    cases run
    exact ⟨_, _, _, _, _, RunsIn.refl.mono (Nat.zero_le n), hs.trans hso, hp⟩
  | succ k => exact ⟨_, _, _, _, _, ⟨k + 1, hk, run.of_settle hs⟩, hso, hp⟩

theorem bytes_faults (hq : ¬ Quiet i s) {inp outp size : Nat} (h1 : 1 ≤ size)
    (hm : inp ≠ 0 → Mapped s.hm inp (min 4 size)) :
    Faults i 4 [.bytes inp outp 0 size] x y s s (.busyWrite i (.w 0)) :=
  (bytesChunk_faults hq (off := 0) (len := min 64 size) (by omega) fun h => (hm h).mono (by omega)).of_header
    (settle_bytes (n := 0) h1 []) (bytesChunk_cons _ _ _ _ (by omega))

theorem pixels_faults (hq : ¬ Quiet i s) {p size : Nat} (h1 : 1 ≤ size) (hm : Mapped s.hm p (min 4 size)) :
    Faults i 4 [.pixels p 0 size] x y s s (.busyWrite i (.w 0)) :=
  (pixelsChunk_faults hq (off := 0) (len := min 64 size) (by omega) (hm.mono (by omega))).of_header
    (settle_pixels (n := 0) h1 []) (pixelsChunk_cons _ _ _ (by omega))

end loops

/-! ### What a guarded handle form opens with (R172) -/

/-- The opening of a guarded form past its other checks: the no-lock form checks ownership and runs `ops`, the locked
form takes the guard before them. -/
def underGuard (s : State) (nl : Bool) (i : Fin 4) (ops : List UOp) (x : Word) (ret : Ret) : Opening :=
  if nl then guardCheck s i (taskOf i ops x ret) else taskOf i (.acquire :: ops) x ret

theorem guardedTask_eq_underGuard (s : State) (nl : Bool) (i : Fin 4) (body : List UOp) (x : Word) (ret : Ret) :
    guardedTask s nl i body x ret = underGuard s nl i (body ++ if nl then [] else [.release]) x ret := by
  cases nl with
  | true => simp [guardedTask, underGuard]
  | false => rfl

/-- An opening on instance i whose micro-steps run under the guard; when the bytes `loads` are mapped and the instance is
in flight, they come within n to BUSY_WRITE of the register `first`, if any. -/
def OpensGuarded (s : State) (nl : Bool) (i : Fin 4) (n : Nat) (first : Option Reg) (loads : Nat → Prop)
    (o : Opening) : Prop :=
  ∃ ops x ret, o = underGuard s nl i ops x ret ∧
    ∀ r u, first = some r → (∀ a, loads a → (memByte u.hm a).isSome) → ¬ Quiet i u →
      Faults i n ops x 0 u u (.busyWrite i r)

section opens
variable {s : State} {nl : Bool} {i : Fin 4} {n : Nat} {r : Reg} {first : Option Reg} {loads : Nat → Prop}
  {body : List UOp} {x : Word} {ret : Ret}

theorem guardedTask_opens (hf : ∀ r u, first = some r → (∀ a, loads a → (memByte u.hm a).isSome) → ¬ Quiet i u →
    Faults i n body x 0 u u (.busyWrite i r)) : OpensGuarded s nl i n first loads (guardedTask s nl i body x ret) :=
  ⟨_, _, _, guardedTask_eq_underGuard .., fun r u h1 hl hq => (hf r u h1 hl hq).append _⟩

/-- A body whose first write needs no load. -/
theorem guardedTask_opens_write (hf : ∀ u, ¬ Quiet i u → Faults i n body x 0 u u (.busyWrite i r)) :
    OpensGuarded s nl i n (some r) loads (guardedTask s nl i body x ret) :=
  guardedTask_opens fun _ u h1 _ hq => Option.some.inj h1 ▸ hf u hq

end opens

theorem argCheck_pass {bad : Bool} (h : bad = false) (k : Opening) : argCheck bad k = k := by
  simp [argCheck, h]

theorem bitsCheck_pass {nbits : BitVec 16} (h1 : 1 ≤ nbits.toNat) (h32 : nbits.toNat ≤ 32) :
    (nbits.toNat == 0 || decide (32 < nbits.toNat)) = false := by
  rw [Bool.or_eq_false_iff, beq_eq_false_iff_ne, decide_eq_false_iff_not]
  omega

/-- The first write of a loop: none for no bytes (R210). -/
theorem loop_first {size : Word} {r : Reg} (h : (if size = 0 then none else some (Reg.w 0)) = some r) :
    1 ≤ size.toNat ∧ r = .w 0 := by
  by_cases h0 : size = 0
  · simp [h0] at h
  · rw [if_neg h0] at h
    exact ⟨Nat.one_le_iff_ne_zero.mpr fun e => h0 (BitVec.eq_of_toNat_eq e), (Option.some.inj h).symm⟩

section openings
variable {s : State} {h : Handle} (hu : Usable h s) (nl : Bool)
include hu

theorem byteOpening_opens (fd : Bool) (v : Word) (loads : Nat → Prop) :
    OpensGuarded s nl h.inst 1 (some (.w 0)) loads (byteOpening nl fd h v s) := by
  rw [byteOpening, handleOpening_eq hu]
  exact guardedTask_opens_write fun u hq => .now (perform_wr_inFlight hq _ _)

theorem scalarOpening_opens (fd : Bool) (n : Nat) (v : Word) (loads : Nat → Prop) :
    OpensGuarded s nl h.inst 1 (some (.w 0)) loads (scalarOpening nl fd n h v s) := by
  rw [scalarOpening, handleOpening_eq hu]
  exact guardedTask_opens_write fun u hq => scalarOps_faults hq _ _ _ _

theorem bitsOpening_opens {nbits : BitVec 16} (hv : 1 ≤ nbits.toNat ∧ nbits.toNat ≤ 32) (data : Word)
    (loads : Nat → Prop) : OpensGuarded s nl h.inst 1 (some (.w 0)) loads (bitsOpening nl h nbits data s) := by
  rw [bitsOpening, handleOpening_eq hu, argCheck_pass (bitsCheck_pass hv.1 hv.2)]
  exact guardedTask_opens_write fun u hq => scalarOps_faults hq _ _ _ _

section words
variable {count : BitVec 16} {p : Word} (hv : 1 ≤ count.toNat ∧ count.toNat ≤ 16 ∧ p ≠ 0 ∧ p.toNat % 4 = 0)
include hv

theorem writeOpening_opens : OpensGuarded s nl h.inst 1 (some (.w 0)) (fun a => p.toNat ≤ a ∧ a < p.toNat + 4)
    (writeOpening nl h count p s) := by
  obtain ⟨h1, h16, hp, ha⟩ := hv
  rw [writeOpening, handleOpening_eq hu, wordsChecks_eq h1 h16 hp ha]
  exact guardedTask_opens fun _ u h0 hl hq => Option.some.inj h0 ▸
    (loadWords_faults hq h1 fun j hj => hl _ ⟨by omega, by omega⟩).append _

theorem transferOpening_opens : OpensGuarded s nl h.inst 1 (some (.w 0)) (fun a => p.toNat ≤ a ∧ a < p.toNat + 4)
    (transferOpening nl h count p s) := by
  obtain ⟨h1, h16, hp, ha⟩ := hv
  rw [transferOpening, handleOpening_eq hu, wordsChecks_eq h1 h16 hp ha]
  exact guardedTask_opens fun _ u h0 hl hq => Option.some.inj h0 ▸
    ((loadWords_faults hq h1 fun j hj => hl _ ⟨by omega, by omega⟩).append _).append _

end words

theorem bytesOpening_opens (size inp outp : Word) :
    OpensGuarded s nl h.inst 4 (if size = 0 then none else some (.w 0))
      (fun a => inp ≠ 0 ∧ inp.toNat ≤ a ∧ a < inp.toNat + min 4 size.toNat) (bytesOpening nl h size inp outp s) := by
  rw [bytesOpening, handleOpening_eq hu]
  refine guardedTask_opens fun r u h0 hl hq => ?_
  obtain ⟨h1, rfl⟩ := loop_first h0
  exact bytes_faults hq h1 fun hi j hj => hl _ ⟨by rintro rfl; exact hi rfl, by omega, by omega⟩

theorem pixelsOpening_opens (size : Word) {p : Word} (hp : p ≠ 0) :
    OpensGuarded s nl h.inst 5 (if size = 0 then none else some (.w 0))
      (fun a => p.toNat ≤ a ∧ a < p.toNat + min 4 size.toNat) (pixelsOpening nl h size p s) := by
  rw [pixelsOpening, handleOpening_eq hu, argCheck_pass (by simpa using hp)]
  refine guardedTask_opens fun r u h0 hl hq => ?_
  obtain ⟨h1, rfl⟩ := loop_first h0
  exact .after (n := 4) (RunsIn.one (perform_rd_ctrl_y h.inst 0 0 u))
    (pixels_faults hq h1 fun j hj => hl _ ⟨by omega, by omega⟩)

end openings

/-- Every guarded handle form, past its checks, opens under the guard, and comes in flight to BUSY_WRITE of its first
register write. -/
theorem openingOf_guarded {i : Instr} {h : Handle} {s : State} (hh : handleOf i = some h) (hu : Usable h s)
    (hv : ArgsValid i) (hg : isNoLock i = true ∨ isLocked i = true) :
    OpensGuarded s (isNoLock i) h.inst (writeRoom i - 3) (firstWrite i) (firstLoads i) (openingOf i s) := by
  cases i with
  | setClock _ clk =>
    cases hh
    rw [openingOf, handleOpening_eq hu]
    exact guardedTask_opens_write (nl := false) fun u hq => .now (perform_wr_inFlight hq _ _)
  | setMode _ mode =>
    cases hh
    rw [openingOf, handleOpening_eq hu]
    exact guardedTask_opens_write (nl := false) fun u hq => .now (perform_rmw_inFlight hq _ _ _)
  | setOrder _ order =>
    cases hh
    rw [openingOf, handleOpening_eq hu]
    exact guardedTask_opens_write (nl := false) fun u hq => .now (perform_rmw_inFlight hq _ _ _)
  | csEnable _ mask =>
    cases hh
    rw [openingOf, handleOpening_eq hu, csCheck, argCheck_pass (csMask_small hv).1]
    exact guardedTask_opens_write (nl := false) fun u hq => .now (perform_rmw_inFlight hq _ _ _)
  | csDisable _ mask =>
    cases hh
    rw [openingOf, handleOpening_eq hu, csCheck, argCheck_pass (csMask_small hv).1]
    exact guardedTask_opens_write (nl := false) fun u hq => .now (perform_rmw_inFlight hq _ _ _)
  | beginTxn _ clk mode order =>
    cases hh
    rw [openingOf, handleOpening_eq hu]
    exact ⟨_, _, _, rfl, fun _ u h0 _ hq => Option.some.inj h0 ▸ .now (perform_wr_inFlight hq _ _)⟩
  | writeByte _ v | transferByte _ v | writeByteNl _ v | transferByteNl _ v =>
    cases hh
    exact byteOpening_opens hu _ _ v _
  | writeWord _ v | transferWord _ v | writeLong _ v | transferLong _ v
  | writeWordNl _ v | transferWordNl _ v | writeLongNl _ v | transferLongNl _ v =>
    cases hh
    exact scalarOpening_opens hu _ _ _ v _
  | transferBits _ nbits data | transferBitsNl _ nbits data =>
    cases hh
    exact bitsOpening_opens hu _ hv data _
  | write _ count p | writeNl _ count p =>
    cases hh
    exact writeOpening_opens hu _ hv
  | transfer _ count p | transferNl _ count p =>
    cases hh
    exact transferOpening_opens hu _ hv
  | transferBytes _ size inp outp | transferBytesNl _ size inp outp =>
    cases hh
    exact bytesOpening_opens hu _ size inp outp
  | writePixels _ size p | writePixelsNl _ size p =>
    cases hh
    exact pixelsOpening_opens hu _ size hv
  | _ => simp [isNoLock, isLocked] at hg

theorem isNoLock_of_isLocked {i : Instr} (h : isLocked i = true) : isNoLock i = false := by
  cases i <;> simp [isLocked, isNoLock] at h ⊢

theorem guarded_of_firstWrite {i : Instr} {r : Reg} (h : firstWrite i = some r) :
    isNoLock i = true ∨ isLocked i = true := by
  cases i <;> simp [firstWrite, isLocked, isNoLock] at h ⊢

theorem writeRoom_ge (i : Instr) : 4 ≤ writeRoom i := by
  unfold writeRoom
  split <;> omega

/-! ### Running under the guard -/

theorem underGuard_notMine {s : State} {i : Fin 4} {ops : List UOp} {x : Word} {ret : Ret} (h : ¬ GuardMine i s) :
    underGuard s true i ops x ret = .trap (.unguarded i) :=
  if_neg h

theorem underGuard_mine {s : State} {i : Fin 4} {ops : List UOp} {x : Word} {ret : Ret} (h : GuardMine i s) :
    underGuard s true i ops x ret = taskOf i ops x ret :=
  if_pos h

/-- Micro-steps under the guard that come to a fault raise it with the guard held (R273). -/
theorem underGuard_faults {s t : State} {nl : Bool} {i : Fin 4} {n : Nat} {ops : List UOp} {x : Word} {ret : Ret}
    {c : FaultCause} (ha : Admits nl i s) (hr : Ready (n + 3) s)
    (hf : Faults i n ops x 0 (s.setOwner i (some s.cur)) t c) :
    ∃ o, operate s (underGuard s nl i ops x ret) = .next ((t.save o).raise c) := by
  cases nl with
  | true =>
    have hm : GuardMine i s := ha
    rw [State.setOwner_self hm] at hf
    rw [underGuard_mine hm]
    exact hf.operate (hr.mono (by omega))
  | false =>
    exact (Faults.after (RunsIn.one (perform_acquire ha)) hf).operate (hr.mono (by omega))

/-- An operation in progress whose next micro-step holds, and no engine lifts the hold, keeps its place (R36). -/
theorem operate_keeps_place {s : State} {op : UOp} {t : Task} {rest : List UOp} (o : Opening) (h : Inside t s)
    (hs : settle s.cfg t.ops = op :: rest) (hp : perform op t.inst t.x t.y s = .hold s) (hw : op.isPoll = false) :
    operate s o = .next (s.save t) := by
  obtain ⟨⟨c, hc, ht⟩, hst, hb⟩ := h
  obtain ⟨m, hm⟩ := Nat.exists_eq_add_of_le' hb
  simp only [operate, hc, hst, hm, ht, Bool.false_eq_true, if_false]
  rw [runOps]
  simp only [hs, hp, hw, Bool.false_and, Bool.false_eq_true, if_false]

/-- An operation at an acquire keeps its place as long as the guard is held (R114). -/
theorem waits_at_acquire {i : Instr} {t : Task} {ops : List UOp} (ht : t.ops = .acquire :: ops) {u : State}
    (hu : Inside t u) (hg : (u.getBus t.inst).guardExists = true) (ho : (u.getBus t.inst).owner ≠ none) :
    exec i u = .next (u.save t) := by
  rw [exec_eq]
  exact operate_keeps_place (rest := ops) _ hu (by rw [ht]; rfl) (perform_acquire_held hg ho) rfl

/-! ### START (R230) -/

theorem startOps_cons (cfg : Cfg) (mode : Fin 4) (order : BitOrder) (clk : Word) :
    ∃ rest, startOps cfg mode order clk = .createGuard :: .acquire :: .wr .clock 0 :: rest :=
  ⟨_, rfl⟩

theorem exec_start {idx : BitVec 8} {mode : Fin 4} {order : BitOrder} {clk : Word} {j : Fin 4} {s : State}
    (hj : idx.toNat = j.val) (hn : j.val < s.cfg.nInst) : exec (.start idx mode order clk) s =
      operate s (taskOf j (startOps s.cfg mode order clk) 0 (.const (idx.setWidth 32))) := by
  have : Fin.ofNat 4 idx.toNat = j := by
    rw [hj]
    exact Fin.ext (Nat.mod_eq_of_lt j.isLt)
  rw [exec_eq, openingOf, if_neg (by omega), this]

theorem perform_createGuard_exists {i : Fin 4} {x y : Word} {s : State} (h : (s.getBus i).guardExists = true) :
    perform .createGuard i x y s = .done s x y :=
  if_pos h

theorem perform_createGuard_absent {i : Fin 4} {x y : Word} {s : State} (h : (s.getBus i).guardExists = false) :
    perform .createGuard i x y s = .done (s.updBus i fun b => { b with guardExists := true, owner := none }) x y :=
  if_neg (by simp [h])

/-- START creates the guard where there is none, and takes it (R230). -/
theorem start_takes_guard {j : Fin 4} {x y : Word} {s : State} {rest : List UOp}
    (hg : (s.getBus j).guardExists = false ∨ GuardFree j s) :
    RunsIn j 2 (.createGuard :: .acquire :: rest) x y s rest x y
      (s.updBus j fun b => { b with guardExists := true, owner := some s.cur }) := by
  rcases hg with habsent | hfree
  · have acq := perform_acquire (i := j) (x := x) (y := y)
      (s := s.updBus j fun b => { b with guardExists := true, owner := none }) ⟨by simp, by simp⟩
    rw [State.setOwner, State.updBus_updBus] at acq
    exact (RunsIn.one (perform_createGuard_absent habsent)).trans (RunsIn.one acq)
  · have run := (RunsIn.one (x := x) (y := y) (perform_createGuard_exists hfree.created)).trans
      (RunsIn.one (rest := rest) (perform_acquire hfree))
    refine run.to (State.updBus_congr ?_)
    simp [hfree.created]

/-! ### The statements of the guarded operations -/

/-- Settles O39: past its other checks every no-lock form checks ownership (`openingOf_guarded`). -/
theorem noLockFormsNeedTheGuard : Obligations.NoLockFormsNeedTheGuard := by
  intro i h s hh hnl hr hu hv hg
  obtain ⟨ops, x, ret, ho, -⟩ := openingOf_guarded hh hu hv (.inl hnl)
  rw [exec_eq, ho, hnl, underGuard_notMine hg, operate_trap hr]

/-- Settles O40: every locked form begins with the acquire (`openingOf_guarded`), START comes to it after the guard's
creation; there it keeps its place (`waits_at_acquire`). -/
theorem lockedFormsWaitForTheGuard : Obligations.LockedFormsWaitForTheGuard := by
  refine ⟨?locked, ?start⟩
  case locked =>
    intro i h s a hh hl hr hu hv hg ha
    obtain ⟨ops, x, ret, ho, -⟩ := openingOf_guarded hh hu hv (.inr hl)
    rw [isNoLock_of_isLocked hl] at ho
    refine ⟨⟨h.inst, .acquire :: ops, x, 0, ret⟩, rfl, rfl, ?_, fun _ => waits_at_acquire rfl⟩
    rw [exec_eq, ho]
    exact operate_holds hr rfl (perform_acquire_held hg (by simp [ha])) rfl
  case start =>
    intro idx mode order clk j s a hr hj hn hg ha
    obtain ⟨rest, hops⟩ := startOps_cons s.cfg mode order clk
    refine ⟨⟨j, .acquire :: .wr .clock 0 :: rest, 0, 0, .const (idx.setWidth 32)⟩, rfl, rfl, ?_,
      fun _ => waits_at_acquire rfl⟩
    rw [exec_start hj hn, hops]
    exact operate_runs_hold (n := 1) hr (RunsIn.one (perform_createGuard_exists hg)) rfl
      (perform_acquire_held hg (by simp [ha])) rfl

/-- Settles O41: the micro-steps under the guard come to the first write with nothing else changed
(`openingOf_guarded`), which faults in flight; START's come to it once it has the guard (`start_takes_guard`). -/
theorem writesFaultWhileInFlight : Obligations.WritesFaultWhileInFlight := by
  refine ⟨?guarded, ?start⟩
  case guarded =>
    intro i h r s hh hw hr hu hv hl ha hq
    obtain ⟨ops, x, ret, ho, hf⟩ := openingOf_guarded hh hu hv (guarded_of_firstWrite hw)
    have hq' : ¬ Quiet h.inst (s.setOwner h.inst (some s.cur)) := by simpa [Quiet, State.setOwner] using hq
    have hroom := writeRoom_ge i
    obtain ⟨o, e⟩ := underGuard_faults (ret := ret) ha (hr.mono (by omega)) (hf r _ hw hl hq')
    refine ⟨_, by rw [exec_eq, ho, e], ?_, ?_, ?_, ?_, ?_, ?_⟩
    · simp [State.setOwner, Function.comp_def]
    · simp [State.setOwner]
    · intro j hj
      simp [State.setOwner, hj]
    · simp [State.setOwner]
    · simp [State.setOwner]
    · simp [State.raise, State.stopped_record, State.setOwner]
  case start =>
    intro idx mode order clk j s hr hj hn hg hq
    obtain ⟨rest, hops⟩ := startOps_cons s.cfg mode order clk
    have hq' : ¬ Quiet j (s.updBus j fun b => { b with guardExists := true, owner := some s.cur }) := by
      simpa [Quiet] using hq
    obtain ⟨o, e⟩ := (Faults.after (start_takes_guard hg) (.now (n := 0) (perform_wr_inFlight hq' .clock 0))).operate
      (ret := .const (idx.setWidth 32)) hr
    refine ⟨_, by rw [exec_start hj hn, hops]; exact e, .of_save, ?_⟩
    simp [State.raise, State.stopped_record]

end Sys2Proof.Machine
end

section
/-! SUPPORT. The statements of the clock-divider calculator (R140 to R148): its operations of one micro-step, the three
answers of the solver (`solveWord_cases`) and the fields of a word that divides (`divider_fields`). -/

namespace Sys2Proof.Machine

/-! ### The calculator's operations (R146, R147) -/

/-- An operation whose one micro-step leaves the state answers what that micro-step computes, whole. -/
theorem operate_calculates {op : UOp} {v : Word} {s : State} (h : Ready 2 s) (hs : settle s.cfg [op] = [op])
    (hp : perform op 0 0 0 s = .done s v 0) :
    operate s (taskOf 0 [op] 0 (.low 0xFFFFFFFF)) = .next (s.finish .ok v) := by
  have hv : retValue s.cfg (.low 0xFFFFFFFF) v 0 = v := BitVec.and_allOnes
  rw [operate_one h hs hp, hv]

theorem exec_freqToDiv_zero {s : State} (h : Ready 1 s) :
    exec (.freqToDiv 0) s = .next (s.finish .invalidArgument 0) :=
  operate_status h .invalidArgument

theorem exec_freqToDiv {v : Word} {s : State} (h : Ready 2 s) (hv : v ≠ 0) :
    exec (.freqToDiv v) s = .next (s.finish .ok (solveWord s.cfg s.fin.toNat v.toNat)) := by
  rw [exec_eq, openingOf, argCheck_pass (beq_false_of_ne hv)]
  exact operate_calculates h rfl rfl

theorem exec_divToFreq {v : Word} {s : State} (h : Ready 2 s) :
    exec (.divToFreq v) s =
      .next (s.finish .ok (BitVec.ofNat 32 (freqOf s.cfg.preW s.fin.toNat (v &&& wmask s.cfg .clock)))) :=
  operate_calculates h rfl rfl

/-! ### The three answers of the solver (R143) -/

section solver
variable {cfg : Cfg} {fin t pre n l : Nat}

theorem solveWord_bypass (h : fin ≤ t) : solveWord cfg fin t = bypassWord := if_pos h

theorem solveWord_minCfg (h : t < minFreq cfg.preW fin) : solveWord cfg fin t = minCfgWord cfg := by
  have hlt : ¬ fin ≤ t := Nat.not_le.mpr (h.trans_le (minFreq_le _ _))
  rw [solveWord, if_neg hlt, if_pos h]

/-- At or above fin BYPASS, below the minimum MINCFG, between them a searched word. -/
theorem solveWord_cases (ht : 1 ≤ t) :
    fin ≤ t ∧ solveWord cfg fin t = bypassWord ∨
    t < minFreq cfg.preW fin ∧ solveWord cfg fin t = minCfgWord cfg ∨
    t < fin ∧ ∃ f, Searched cfg.preW fin (solveWord cfg fin t) f := by
  by_cases hfin : fin ≤ t
  · exact .inl ⟨hfin, solveWord_bypass hfin⟩
  · by_cases hmin : t < minFreq cfg.preW fin
    · exact .inr (.inl ⟨hmin, solveWord_minCfg hmin⟩)
    · obtain ⟨f, hf, -⟩ := solve_search ht (Nat.not_lt.mp hmin) (Nat.not_le.mp hfin)
      exact .inr (.inr ⟨Nat.not_le.mp hfin, f, hf⟩)

theorem freqOf_bypassWord (p : PreWidth) (fin : Nat) : freqOf p fin bypassWord = fin := if_pos rfl

theorem bypassWord_fields (cfg : Cfg) :
    bypassWord &&& wmask cfg .clock = bypassWord ∧ clkcntH bypassWord = 0 ∧
      clkdivPre cfg.preW bypassWord ≤ preMax cfg.preW ∧ clkEquSysclk bypassWord = true := by
  have hmask : bypassWord &&& wmask cfg .clock = bypassWord :=
    clk_masked (Nat.zero_le _) (by decide) (by decide) (by decide) (by decide)
  obtain ⟨-, hH, -, hp, hequ⟩ := clk_fields (n := 0) (h := 0) (l := 0) (eq := 1) (Nat.zero_le (preMax cfg.preW))
    (by decide) (by decide) (by decide) (by decide)
  exact ⟨hmask, hH, hp.trans_le (Nat.zero_le _), hequ⟩

/-- The fields of a CLOCK word that divides, with CLKCNT_H 0 (R86). -/
theorem divider_fields (hp : pre ≤ preMax cfg.preW) (hn : n < 64) (hl : l < 64) :
    let w := clockword pre n 0 l 0
    w &&& wmask cfg .clock = w ∧ clkcntH w = 0 ∧ clkdivPre cfg.preW w ≤ preMax cfg.preW ∧
      clkEquSysclk w = false ∧ clkcntN w = n ∧ clkcntL w = l := by
  obtain ⟨hL, hH, hN, hpre, hequ⟩ := clk_fields (h := 0) (eq := 0) hp hn (by decide) hl (by decide)
  exact ⟨clk_masked hp hn (by decide) hl (by decide), hH, hpre.trans_le hp, hequ, hN, hL⟩

end solver

/-! ### The statements of the calculator -/

/-- Settles O32: each operation past its check is the one micro-step that asks the solver or the decoder. -/
theorem calculatorReadsTheClock : Obligations.CalculatorReadsTheClock := by
  intro v s hr
  refine ⟨?zero, exec_freqToDiv hr, exec_divToFreq hr⟩
  case zero =>
    rintro rfl
    exact exec_freqToDiv_zero (hr.mono (by decide))

/-- Settles O33: each clamp is one branch of the solver, whose word `freqOf_bypassWord` and `minFreq_eq` decode. -/
theorem solverClampsAtBothEnds : Obligations.SolverClampsAtBothEnds := by
  intro cfg fin t hc _
  refine ⟨fun hfin => ?bypass, fun hmin _ => ?minimum⟩
  case bypass =>
    rw [solveWord_bypass hfin]
    exact ⟨rfl, freqOf_bypassWord _ _⟩
  case minimum =>
    rw [solveWord_minCfg hmin]
    exact ⟨rfl, minFreq_eq hc, hmin⟩

/-- Settles O34: the search finds the best searched word at most the target (`solve_search`), and that word decodes to
the frequency the search found for it (`Searched.freq`). -/
theorem solverIsOptimal : Obligations.SolverIsOptimal := by
  intro cfg fin t _ _ ht hmin hfin w
  obtain ⟨f, hf, hle, hbest⟩ := solve_search ht hmin hfin
  rw [hf.freq]
  obtain ⟨n, pre, h1, h63, hpre, hw, -⟩ := hf
  exact ⟨⟨n, pre, h1, h63, hpre, hw⟩, hle, hbest⟩

/-- Settles O35: BYPASS by its bits; MINCFG and a searched word both divide (`divider_fields`). -/
theorem solverAnswersFillTheFields : Obligations.SolverAnswersFillTheFields := by
  intro cfg fin t hc _ ht w
  rcases solveWord_cases (cfg := cfg) (fin := fin) ht with
    ⟨hfin, hw⟩ | ⟨hmin, hw⟩ | ⟨hfin, f, n, pre, h1, h63, hpre, hw, -⟩
  case inl =>
    obtain ⟨hmask, hH, hp, hequ⟩ := bypassWord_fields cfg
    rw [show w = bypassWord from hw, hequ]
    exact ⟨hmask, hH, hp, fun _ => ⟨rfl, hfin⟩, nofun⟩
  case inr.inl =>
    obtain ⟨hmask, hH, hp, hequ, hN, hL⟩ :=
      divider_fields (le_refl (preMax cfg.preW)) (n := 63) (by decide) (minCfgL_ok hc)
    rw [show w = clockword (preMax cfg.preW) 63 0 cfg.minCfgL 0 from hw, hequ, hN, hL]
    refine ⟨hmask, hH, hp, nofun, fun _ => ?_⟩
    exact ⟨hmin.trans_le (minFreq_le _ _), by decide, le_refl 63, .inr ⟨hmin, rfl, rfl⟩⟩
  case inr.inr =>
    obtain ⟨hmask, hH, hp, hequ, hN, hL⟩ :=
      divider_fields hpre (show n < 64 by omega) (show (n + 1) / 2 < 64 by omega)
    rw [show w = clockword pre n 0 ((n + 1) / 2) 0 from hw, hequ, hN, hL]
    exact ⟨hmask, hH, hp, nofun, fun _ => ⟨hfin, h1, h63, .inl rfl⟩⟩

end Sys2Proof.Machine
end

section
/-! SUPPORT. The statements of the checks every handle operation begins with (R172, R274, R275) and of the byte
permutations (R173, R175). -/

namespace Sys2Proof.Machine

/-! ### The checks of a handle (R172, R274, R275) -/

section handle
variable {s : State} {h : Handle}

theorem handleOpening_null (hn : h.null = true) (k : Opening) : handleOpening s h k = .ret 0 := if_pos hn

theorem handleOpening_outside (hn : h.null = false) (hi : s.cfg.nInst ≤ h.inst.val) (k : Opening) :
    handleOpening s h k = .status .invalidInstance := by
  simp only [handleOpening, hn, Bool.false_eq_true, if_false, if_pos hi]

theorem handleOpening_notStarted (hn : h.null = false) (hi : h.inst.val < s.cfg.nInst)
    (hs : (s.getBus h.inst).started = false) (k : Opening) : handleOpening s h k = .trap (.notStarted h.inst) := by
  simp only [handleOpening, hn, Bool.false_eq_true, if_false, if_neg (Nat.not_le.mpr hi), hs, Bool.not_false, if_true]

/-- Every handle operation opens with the checks of its handle. -/
theorem openingOf_handle {i : Instr} (hh : handleOf i = some h) : ∃ k, openingOf i s = handleOpening s h k := by
  cases i <;> cases hh <;> exact ⟨_, rfl⟩

end handle

/-! ### The byte permutations (R173, R175) -/

theorem and_lowMask_32 (v : Word) : v &&& lowMask 32 = v := and_lowMask (Nat.le_refl 32) v.isLt

theorem ofBytes_toNat (a b c d : Byte) :
    (ofBytes a b c d).toNat = a.toNat * 2 ^ 24 + b.toNat * 2 ^ 16 + c.toNat * 2 ^ 8 + d.toNat := by
  simp only [ofBytes, BitVec.toNat_append]
  rw [← Nat.shiftLeft_add_eq_or_of_lt b.isLt, ← Nat.shiftLeft_add_eq_or_of_lt c.isLt,
    ← Nat.shiftLeft_add_eq_or_of_lt d.isLt]
  simp only [Nat.shiftLeft_eq]
  omega

/-- A word is its two halves, the upper one at its place. -/
theorem ofBytes_halves (a b c d : Byte) :
    ofBytes a b c d = ofBytes 0 0 a b * (0x10000 : Word) + ofBytes 0 0 c d := by
  apply BitVec.eq_of_toNat_eq
  have ha := a.isLt
  have hb := b.isLt
  have hc := c.isLt
  have hd := d.isLt
  simp only [BitVec.toNat_add, BitVec.toNat_mul, ofBytes_toNat, BitVec.ofNat_eq_ofNat, BitVec.toNat_ofNat]
  omega

/-- The upper half of a word, shifted down, has its bytes. -/
theorem byteAt_upperHalf (v : Word) (k : Nat) : byteAt (v.ushiftRight 16) k = byteAt v (k + 2) := by
  apply BitVec.eq_of_getLsbD_eq
  intro j hj
  simp only [byteAt_getLsbD, BitVec.ushiftRight_eq, BitVec.getLsbD_ushiftRight]
  congr 2
  omega

/-- R175's formula for `pix`: `swap16` on each half. -/
theorem pix_eq_swap16_halves (v : Word) :
    pix v = swap16 (v.ushiftRight 16) * (0x10000 : Word) + swap16 (v &&& 0xFFFF) := by
  have hlow : swap16 (v &&& 0xFFFF) = swap16 v := swapN_and_lowMask v 2 (by decide) (by decide)
  rw [hlow, swap16, swap16, byteAt_upperHalf, byteAt_upperHalf]
  exact ofBytes_halves ..

theorem pix_pix (v : Word) : pix (pix v) = v := by
  simp only [pix, byteAt_ofBytes_0, byteAt_ofBytes_1, byteAt_ofBytes_2, byteAt_ofBytes_3]
  exact ofBytes_byteAt v

/-- A permutation of n bytes is its own inverse on the values that fit them. -/
theorem swapN_swapN_of_fits {v : Word} {n : Nat} (h1 : 1 ≤ n) (h4 : n ≤ 4) (hv : v.toNat < 2 ^ (8 * n)) :
    swapN (swapN v n) n = v := by
  rw [swapN_swapN v n h1 h4, and_lowMask (by omega) hv]

/-! ### The statements -/

/-- Settles O38: every handle operation opens with the checks of its handle (`openingOf_handle`), the first of which to
fail ends it. -/
theorem handleChecksComeFirst : Obligations.HandleChecksComeFirst := by
  intro i h s hh hr
  obtain ⟨k, hk⟩ := openingOf_handle (s := s) hh
  rw [exec_eq, hk]
  refine ⟨fun hn => ?null, fun hn hi => ?outside, fun hn hi hs => ?notStarted⟩
  case null => rw [handleOpening_null hn, operate_ret hr]
  case outside => rw [handleOpening_outside hn hi, operate_status hr]
  case notStarted => rw [handleOpening_notStarted hn hi hs, operate_trap hr]

/-- Settles O37: `swapN_swapN_of_fits` for two, three and four bytes, `pix_pix` and R175's formula
(`pix_eq_swap16_halves`); the two example values by computing them. -/
theorem permutationsAreInvolutions : Obligations.PermutationsAreInvolutions := fun v =>
  ⟨swapN_swapN_of_fits (n := 2) (by decide) (by decide), swapN_swapN_of_fits (n := 3) (by decide) (by decide),
    swapN_swapN_of_fits (n := 4) (by decide) (by decide) v.isLt, pix_pix v, pix_eq_swap16_halves v, by decide,
    by decide⟩

end Sys2Proof.Machine
end

section
/-! SUPPORT. The statements of one transaction and of the scalar operations (R170, R182 to R189): what each form opens
with, the value a full-duplex scalar reads back (`scalar_readback`), and the scalar round trip (`scalar_roundTrip`). -/

namespace Sys2Proof.Machine

/-! ### XFER_NL (R170) -/

theorem argCheck_stop {bad : Bool} (h : bad = true) (k : Opening) : argCheck bad k = .status .invalidArgument := by
  simp [argCheck, h]

/-- The check of a count, 1 to m, lets it through. -/
theorem rangeCheck_pass {n m : Nat} (h1 : 1 ≤ n) (hm : n ≤ m) : (decide (n < 1) || decide (m < n)) = false := by
  rw [Bool.or_eq_false_iff, decide_eq_false_iff_not, decide_eq_false_iff_not]
  omega

theorem guardCheck_mine {s : State} {i : Fin 4} (h : GuardMine i s) (k : Opening) : guardCheck s i k = k := if_pos h

theorem guardCheck_notMine {s : State} {i : Fin 4} (h : ¬ GuardMine i s) (k : Opening) :
    guardCheck s i k = .trap (.unguarded i) := if_neg h

section xferNl
variable {s : State} {i : Fin 4} {nbits : BitVec 16} {fd : Word}

theorem openingOf_xferNl (hi : i.val < s.cfg.nInst) (h1 : 1 ≤ nbits.toNat) (hn : nbits.toNat ≤ 512) :
    openingOf (.xferNl i nbits fd) s =
      guardCheck s i (taskOf i (xferOps s.cfg nbits.toNat (fd.getLsbD 0)) 0 (.const 0)) := by
  rw [openingOf, rawOpening_eq hi, argCheck_pass (rangeCheck_pass h1 hn)]

/-- Past its checks XFER_NL is the micro-steps of `xfer`. -/
theorem exec_xferNl (hi : i.val < s.cfg.nInst) (h1 : 1 ≤ nbits.toNat) (hn : nbits.toNat ≤ 512) (hg : GuardMine i s) :
    exec (.xferNl i nbits fd) s =
      operate s (.task ⟨i, xferOps s.cfg nbits.toNat (fd.getLsbD 0), 0, 0, .const 0⟩) := by
  rw [exec_eq, openingOf_xferNl hi h1 hn, guardCheck_mine hg, taskOf]

end xferNl

/-- The micro-steps of `xfer` after the lengths (R170, R171). -/
def afterLengths (cfg : Cfg) : List UOp :=
  (if cfg.hasCommit then [.wr .cmd 2, .poll .cmd 2] else []) ++ [.wr .cmd 1, .poll .cmd 1]

section xfer
variable {s : State} {i : Fin 4} {nbits : Nat} {fd : Bool} {x y : Word}

theorem xferOps_lengths (hc : cfgOk s.cfg = true) (hn : nbits ≤ 512) (hq : Quiet i s) :
    RunsIn i 2 (xferOps s.cfg nbits fd) x y s (afterLengths s.cfg) x y
      (s.updBus i fun b => b.lengths s.cfg nbits fd) := by
  unfold xferOps
  rw [List.append_assoc]
  exact lengths_run hc hn hq

theorem Quiet.lengths (hq : Quiet i s) : Quiet i (s.updBus i fun b => b.lengths s.cfg nbits fd) := by
  simpa [Quiet, Bus.lengths] using hq

/-- `xfer` up to the poll it awaits the engine at: the commit's where the variant has it, else the trigger's. -/
theorem xferOps_to_poll (hc : cfgOk s.cfg = true) (hn : nbits ≤ 512) (hq : Quiet i s) :
    RunsIn i 3 (xferOps s.cfg nbits fd) x y s
      (if s.cfg.hasCommit then [.poll .cmd 2, .wr .cmd 1, .poll .cmd 1] else [.poll .cmd 1]) x y
      (s.updBus i fun b => { b.lengths s.cfg nbits fd with
        phase := if s.cfg.hasCommit then .commit else .busy }) := by
  have hlen := xferOps_lengths (x := x) (y := y) (fd := fd) hc hn hq
  cases hcm : s.cfg.hasCommit with
  | false =>
    simp only [afterLengths, hcm, Bool.false_eq_true, if_false, List.nil_append] at hlen ⊢
    exact (hlen.trans (RunsIn.one (perform_trigger hq.lengths))).to (State.updBus_updBus ..)
  | true =>
    simp only [afterLengths, hcm, if_true, List.cons_append, List.nil_append] at hlen ⊢
    exact (hlen.trans (RunsIn.one (perform_commit hq.lengths hcm))).to (State.updBus_updBus ..)

end xfer

/-! ### What the scalar operations run (R182 to R188) -/

section forms
variable (nl : Bool) (h : Handle) (v : Word) (nbits : BitVec 16) (s : State)

theorem exec_writeByte :
    exec (if nl then .writeByteNl h v else .writeByte h v) s = operate s (byteOpening nl false h v s) := by
  cases nl <;> rfl

theorem exec_transferByte :
    exec (if nl then .transferByteNl h v else .transferByte h v) s = operate s (byteOpening nl true h v s) := by
  cases nl <;> rfl

theorem exec_writeWord :
    exec (if nl then .writeWordNl h v else .writeWord h v) s = operate s (scalarOpening nl false 2 h v s) := by
  cases nl <;> rfl

theorem exec_transferWord :
    exec (if nl then .transferWordNl h v else .transferWord h v) s = operate s (scalarOpening nl true 2 h v s) := by
  cases nl <;> rfl

theorem exec_writeLong :
    exec (if nl then .writeLongNl h v else .writeLong h v) s = operate s (scalarOpening nl false 4 h v s) := by
  cases nl <;> rfl

theorem exec_transferLong :
    exec (if nl then .transferLongNl h v else .transferLong h v) s = operate s (scalarOpening nl true 4 h v s) := by
  cases nl <;> rfl

theorem exec_transferBits : exec (if nl then .transferBitsNl h nbits v else .transferBits h nbits v) s =
    operate s (bitsOpening nl h nbits v s) := by
  cases nl <;> rfl

end forms

section openings
variable {s : State} {h : Handle} (hu : Usable h s) (nl fd : Bool)
include hu

theorem byteOpening_eq (v : Word) : byteOpening nl fd h v s =
    guardedTask s nl h.inst (.wr (.w 0) (v &&& 0xFF) :: xferOps s.cfg 8 fd ++ if fd then [.rd (.w 0) .x] else [])
      0 (if fd then .low 0xFF else .const 0) :=
  handleOpening_eq hu _

theorem scalarOpening_eq (n : Nat) (v : Word) : scalarOpening nl fd n h v s =
    guardedTask s nl h.inst (scalarOps s.cfg n (8 * n) fd) (v &&& lowMask (8 * n))
      (if fd then .scalar n (lowMask (8 * n)) else .const 0) :=
  handleOpening_eq hu _

theorem bitsOpening_eq {nbits : BitVec 16} (h1 : 1 ≤ nbits.toNat) (h32 : nbits.toNat ≤ 32) (data : Word) :
    bitsOpening nl h nbits data s = guardedTask s nl h.inst
      (scalarOps s.cfg ((nbits.toNat + 7) / 8) nbits.toNat true) (data &&& lowMask nbits.toNat)
      (.scalar ((nbits.toNat + 7) / 8) (lowMask nbits.toNat)) := by
  rw [bitsOpening, handleOpening_eq hu, argCheck_pass (bitsCheck_pass h1 h32)]

end openings

/-- Both forms of a byte operation end in their turn, with the readback's value (R182, R183). -/
theorem byte_completes {nl fd : Bool} {i : Fin 4} {v : Word} {s : State} (hr : Ready 16 s) (ha : Admits nl i s)
    (hq : Quiet i s) (he : EngineServes i s) (hc : cfgOk s.cfg = true) :
    let t := (s.loaded i v).transacted i 8 fd
    operate s (guardedTask s nl i (.wr (.w 0) v :: xferOps s.cfg 8 fd ++ if fd then [.rd (.w 0) .x] else []) 0
      (if fd then .low 0xFF else .const 0)) =
    .next (t.finish .ok (if fd then (t.getBus i).w[0] &&& 0xFF else 0)) := by
  intro t
  have commutes (o : Option Agent) : ((s.setOwner i o).loaded i v).transacted i 8 fd = t.setOwner i o := by
    rw [loaded_setOwner, transacted_setOwner]
  refine guarded_completes (n := 10) (G := fun u => (u.loaded i v).transacted i 8 fd) ha (hr.mono (by omega))
    (fun o => ?_) commutes (by simp [transacted_cur]) (by simp [transacted_owner])
  have run := (load_xfer_runs (v := v) (fd := fd) (x := 0) (y := 0) (nbits := 8) (s := s.setOwner i o) hc (by omega)
    (by omega) hq.setOwner he.setOwner).append (if fd then [.rd (.w 0) .x] else [])
  rw [commutes] at run ⊢
  cases fd with
  | false => exact ⟨_, _, run.mono (by omega), rfl⟩
  | true =>
    have hq' : Quiet i (t.setOwner i o) := (quiet_transacted (s := s.loaded i v) hc (by omega) (by omega)).setOwner
    have read := RunsIn.one (x := 0) (y := 0) (rest := []) (perform_rd_x_quiet (r := .w 0) hq')
    refine ⟨_, _, run.trans read, ?_⟩
    simp [retValue, view_w, State.setOwner, t]

/-- What a full-duplex scalar of n bytes answers, from the bits it keeps (R185, R187, R188). -/
def State.readback (i : Fin 4) (n : Nat) (mask : Word) (o : BitOrder) (t : State) : Word :=
  permuted t.cfg o n (t.getBus i).w[0] &&& mask

section scalar
variable {nl : Bool} {i : Fin 4} {n nbits : Nat} {x mask : Word} {s : State}

@[simp] theorem scalarSent_cfg (fd : Bool) : (s.scalarSent i n nbits fd x).cfg = s.cfg := by simp [State.scalarSent]

theorem scalarSent_ctx (fd : Bool) : (s.scalarSent i n nbits fd x).ctx? = s.ctx? := by
  rw [State.scalarSent, transacted_ctx, State.loaded, State.ctx_updBus]

variable (hr : Ready 16 s) (ha : Admits nl i s) (hq : Quiet i s) (he : EngineServes i s) (hc : cfgOk s.cfg = true)
include hr ha hq he hc

theorem scalar_writes (h1 : 1 ≤ nbits) (hn : nbits ≤ 512) :
    operate s (guardedTask s nl i (scalarOps s.cfg n nbits false) x (.const 0)) =
      .next ((s.scalarSent i n nbits false x).finish .ok 0) :=
  scalar_completes hr ha hq he hc h1 hn

/-- A full-duplex scalar answers W[0] un-permuted in the read order CTRL had, since no transaction writes CTRL. -/
theorem scalar_readback (h1 : 1 ≤ nbits) (hn : nbits ≤ 512) :
    operate s (guardedTask s nl i (scalarOps s.cfg n nbits true) x (.scalar n mask)) =
      .next ((s.scalarSent i n nbits true x).finish .ok
        ((s.scalarSent i n nbits true x).readback i n mask (rdOrder (s.getBus i).conf.ctrl))) := by
  have hctrl : ((s.scalarSent i n nbits true x).getBus i).conf.ctrl = (s.getBus i).conf.ctrl := by
    rw [State.scalarSent, transacted_ctrl (s := s.loaded i _) hc h1 hn, loaded_conf]
  rw [scalar_completes hr ha hq he hc h1 hn]
  simp only [if_true, retValue, (view_ctrl_orders _ _).2, hctrl, State.readback, permuted, scalarSent_cfg]

end scalar

/-! ### Values of whole bytes -/

section bytes
variable {cfg : Cfg} {o : BitOrder} {n : Nat} {v w : Word} (h1 : 1 ≤ n) (h4 : n ≤ 4)
include h1 h4

/-- A value cut to its width before it is permuted. -/
theorem permuted_cut : permuted cfg o n (v &&& lowMask (8 * n)) =
    if swapcond cfg o then swapN v n else v &&& lowMask (8 * n) := by
  rw [permuted, swapN_and_lowMask v n h1 h4]

/-- A value permuted before it is cut to its width. -/
theorem permuted_and_lowMask : permuted cfg o n v &&& lowMask (8 * n) =
    if swapcond cfg o then swapN v n else v &&& lowMask (8 * n) := by
  unfold permuted
  split
  · exact swapN_fits v n h1 h4
  · rfl

/-- Permuting twice in one order gives the value back, cut to its width. -/
theorem permuted_permuted : permuted cfg o n (permuted cfg o n v) &&& lowMask (8 * n) = v &&& lowMask (8 * n) := by
  unfold permuted
  split
  · rw [swapN_fits _ n h1 h4, swapN_swapN v n h1 h4]
  · rfl

/-- Of a permuted value only the bytes it permutes count. -/
theorem permuted_congr (h : v &&& lowMask (8 * n) = w &&& lowMask (8 * n)) :
    permuted cfg o n v &&& lowMask (8 * n) = permuted cfg o n w &&& lowMask (8 * n) := by
  rw [permuted_and_lowMask h1 h4, permuted_and_lowMask h1 h4, ← swapN_and_lowMask v n h1 h4, h,
    swapN_and_lowMask w n h1 h4]

end bytes

theorem and_lowMask_congr {v w : Word} {n : Nat} (h : ∀ k < n, byteAt v k = byteAt w k) :
    v &&& lowMask (8 * n) = w &&& lowMask (8 * n) := by
  apply word_ext_bytes
  intro k hk
  rw [byteAt_and_lowMask v n k hk, byteAt_and_lowMask w n k hk]
  split
  · exact h k ‹_›
  · rfl

/-! ### The round trip (R189) -/

section roundTrip
variable {i : Fin 4} {n : Nat} {x : Word} {s : State} (hc : cfgOk s.cfg = true) (h1 : 1 ≤ n) (h4 : n ≤ 4)
  (hl : LoopsBack i s)
include hc h1 h4 hl

/-- On a loopback the bytes sent come back in W[0]. -/
theorem loaded_loopback : (((s.loaded i x).transacted i (8 * n) true).getBus i).w[0] &&& lowMask (8 * n) =
    x &&& lowMask (8 * n) := by
  have hl' : LoopsBack i (s.loaded i x) := ⟨hl.link, by rw [loaded_conf, hl.duplex], by rw [loaded_conf, hl.order]⟩
  have hx : ((s.loaded i x).getBus i).w[0] = x := by simp [State.loaded, Bus.store]
  refine and_lowMask_congr fun k hk => ?_
  rw [transacted_loopback_byte (s := s.loaded i x) hc h1 h4 hl' k hk, hx]

/-- On a loopback a scalar of n bytes reads back the value sent. -/
theorem scalarSent_readback : (s.scalarSent i n (8 * n) true x).readback i n (lowMask (8 * n))
    (rdOrder (s.getBus i).conf.ctrl) = x &&& lowMask (8 * n) := by
  rw [State.readback, State.scalarSent, permuted_congr h1 h4 (loaded_loopback hc h1 h4 hl), hl.order,
    transacted_cfg, loaded_cfg, permuted_permuted h1 h4]

end roundTrip

/-- The running agent's operation ended in its turn with RES r (R36). -/
def Answers (s : State) (o : Host.Outcome State Fault Refusal) (r : Word) : Prop :=
  ∃ t c, o = .next t ∧ s.ctx? = some c ∧ t.ctx? = some ⟨c.pc + 1, r, .ok, none⟩

theorem Answers.of_finish {s t : State} {o : Host.Outcome State Fault Refusal} {r : Word} {n : Nat} (hr : Ready n s)
    (h : o = .next (t.finish .ok r)) (ht : t.ctx? = s.ctx?) : Answers s o r := by
  obtain ⟨c, hc, -⟩ := hr.between
  exact ⟨_, c, h, hc, by rw [State.ctx_finish, ht, hc]; rfl⟩

section answers
variable {nl : Bool} {i : Fin 4} {n : Nat} {v : Word} {s : State} (hr : Ready 16 s) (ha : Admits nl i s)
  (hq : Quiet i s) (he : EngineServes i s) (hc : cfgOk s.cfg = true) (hl : LoopsBack i s)
include hr ha hq he hc hl

theorem byte_roundTrip : Answers s (operate s (guardedTask s nl i
    (.wr (.w 0) (v &&& 0xFF) :: xferOps s.cfg 8 true ++ [.rd (.w 0) .x]) 0 (.low 0xFF))) (v &&& 0xFF) := by
  have e := byte_completes (fd := true) (v := v &&& 0xFF) hr ha hq he hc
  have back : (((s.loaded i (v &&& 0xFF)).transacted i 8 true).getBus i).w[0] &&& 0xFF = v &&& 0xFF &&& 0xFF :=
    loaded_loopback (n := 1) hc (by omega) (by omega) hl
  simp only [if_true, back, BitVec.and_assoc, BitVec.and_self] at e
  exact .of_finish hr e (by rw [transacted_ctx, State.loaded, State.ctx_updBus])

theorem scalar_roundTrip (h1 : 1 ≤ n) (h4 : n ≤ 4) : Answers s (operate s (guardedTask s nl i
    (scalarOps s.cfg n (8 * n) true) (v &&& lowMask (8 * n)) (.scalar n (lowMask (8 * n)))))
    (v &&& lowMask (8 * n)) := by
  have e := scalar_readback (n := n) (x := v &&& lowMask (8 * n)) (mask := lowMask (8 * n)) hr ha hq he hc
    (show 1 ≤ 8 * n by omega) (by omega)
  simp only [scalarSent_readback hc h1 h4 hl, BitVec.and_assoc, BitVec.and_self] at e
  exact .of_finish hr e (scalarSent_ctx _)

end answers

/-! ### The statements -/

/-- Settles O8: the checks in their order (`openingOf_xferNl`), BUSY_WRITE at the first length, and `xfer_runs`. -/
theorem xferNlRunsOneTransaction : Obligations.XferNlRunsOneTransaction := by
  intro i nbits fd s hr
  refine ⟨?unmapped, ?range, ?unguarded, ?inFlight, ?completes⟩
  case unmapped =>
    intro hi
    rw [exec_eq, openingOf, rawOpening_unmapped hi, operate_trap (hr.mono (by omega))]
  case range =>
    intro hi hn
    rw [exec_eq, openingOf, rawOpening_eq hi, argCheck_stop (by simpa using hn), operate_status (hr.mono (by omega))]
  case unguarded =>
    intro hi h1 hn hg
    rw [exec_eq, openingOf_xferNl hi h1 hn, guardCheck_notMine hg, operate_trap (hr.mono (by omega))]
  case inFlight =>
    intro hi h1 hn hg hq
    rw [exec_xferNl hi h1 hn hg]
    exact ⟨_, operate_traps (hr.mono (by omega)) rfl (perform_wr_inFlight hq _ _), .of_save⟩
  case completes =>
    intro hi h1 hn hg hq he hc
    rw [exec_xferNl hi h1 hn hg]
    exact operate_runs hr (xfer_runs hc h1 hn hq he)

/-- Settles O9: `xfer` comes to its first poll (`xferOps_to_poll`), which the phase holds and no engine lifts. -/
theorem xferWaitsForItsEngine : Obligations.XferWaitsForItsEngine := by
  intro i nbits fd s hr hi h1 hn hg hq hc hp
  have run := xferOps_to_poll (fd := fd.getLsbD 0) (x := 0) (y := 0) hc hn hq
  rw [exec_xferNl hi h1 hn hg]
  refine ⟨fun hcm => ?trigger, fun hcm => ?commit⟩
  case trigger =>
    simp only [hcm, Bool.false_eq_true, if_false] at run
    exact operate_runs_hold (hr.mono (by omega)) run rfl (perform_poll_set (by simp [readReg_cmd, cmdValue]))
      (by simp [hp])
  case commit =>
    simp only [hcm, if_true] at run
    exact operate_runs_hold (hr.mono (by omega)) run rfl (perform_poll_set (by simp [readReg_cmd, cmdValue]))
      (by simp [hp])

/-- Settles O11: a byte as it is (`byte_completes`), a word and a long permuted (`scalar_writes`, `permuted_cut`). -/
theorem scalarWritesSendTheirValue : Obligations.ScalarWritesSendTheirValue := by
  intro nl h v s hr hu ha hq he hc swap sends
  refine ⟨?byte, ?word, ?long⟩
  case byte =>
    rw [exec_writeByte, byteOpening_eq hu]
    exact byte_completes (fd := false) hr ha hq he hc
  case word =>
    have e := scalar_writes (n := 2) (x := v &&& lowMask (8 * 2)) hr ha hq he hc (show 1 ≤ 8 * 2 by omega) (by omega)
    rw [State.scalarSent, permuted_cut (by omega) (by omega)] at e
    rw [exec_writeWord, scalarOpening_eq hu]
    exact e
  case long =>
    have e := scalar_writes (n := 4) (x := v &&& lowMask (8 * 4)) hr ha hq he hc (show 1 ≤ 8 * 4 by omega) (by omega)
    rw [State.scalarSent, permuted_cut (by omega) (by omega), and_lowMask_32] at e
    rw [exec_writeLong, scalarOpening_eq hu, and_lowMask_32]
    exact e

/-- Settles O12: as the writes, and W[0] read back (`byte_completes`, `scalar_readback`), which a permuted value
needs no cut for (`permuted_and_lowMask`). -/
theorem scalarTransfersReturnTheReadback : Obligations.ScalarTransfersReturnTheReadback := by
  intro nl h v s hr hu ha hq he hc swap unswap after w0
  refine ⟨?byte, ?word, ?long⟩
  case byte =>
    rw [exec_transferByte, byteOpening_eq hu]
    exact byte_completes (fd := true) hr ha hq he hc
  case word =>
    have e := scalar_readback (n := 2) (x := v &&& lowMask (8 * 2)) (mask := lowMask (8 * 2)) hr ha hq he hc
      (show 1 ≤ 8 * 2 by omega) (by omega)
    rw [State.readback, permuted_and_lowMask (by omega) (by omega), scalarSent_cfg, State.scalarSent,
      permuted_cut (by omega) (by omega)] at e
    rw [exec_transferWord, scalarOpening_eq hu]
    exact e
  case long =>
    have e := scalar_readback (n := 4) (x := v &&& lowMask (8 * 4)) (mask := lowMask (8 * 4)) hr ha hq he hc
      (show 1 ≤ 8 * 4 by omega) (by omega)
    rw [State.readback, permuted_and_lowMask (by omega) (by omega), scalarSent_cfg, State.scalarSent,
      permuted_cut (by omega) (by omega), and_lowMask_32, and_lowMask_32] at e
    rw [exec_transferLong, scalarOpening_eq hu, and_lowMask_32]
    exact e

/-- Settles O13: the NBITS check stops the opening before the guard; past it the operation is a full-duplex scalar
(`scalar_readback`). -/
theorem transferBitsMovesNbits : Obligations.TransferBitsMovesNbits := by
  intro nl h nbits data s hr hu
  rw [exec_transferBits]
  refine ⟨?range, ?completes⟩
  case range =>
    intro hn
    rw [bitsOpening, handleOpening_eq hu, argCheck_stop (by simpa using hn), operate_status (hr.mono (by omega))]
  case completes =>
    intro h1 h32 ha hq he hc bytes mask x t r
    have e := scalar_readback (n := bytes) (x := data &&& mask) (mask := mask) hr ha hq he hc h1 (by omega)
    rw [State.readback, scalarSent_cfg] at e
    rw [bitsOpening_eq hu nl h1 h32]
    exact e

/-- Settles O14: each scalar transfer is one of a byte (`byte_roundTrip`) or of n bytes (`scalar_roundTrip`),
TRANSFER_BITS of 8 n bits as well. -/
theorem scalarTransfersRoundTrip : Obligations.ScalarTransfersRoundTrip := by
  intro nl h v s hr hu ha hq he hc hl answers
  refine ⟨?byte, ?word, ?long, ?bits⟩
  case byte =>
    show Answers s (exec _ s) _
    rw [exec_transferByte, byteOpening_eq hu]
    exact byte_roundTrip hr ha hq he hc hl
  case word =>
    show Answers s (exec _ s) _
    rw [exec_transferWord, scalarOpening_eq hu]
    exact scalar_roundTrip (n := 2) hr ha hq he hc hl (by omega) (by omega)
  case long =>
    show Answers s (exec _ s) _
    rw [exec_transferLong, scalarOpening_eq hu]
    have e := scalar_roundTrip (n := 4) (v := v) (nl := nl) hr ha hq he hc hl (by omega) (by omega)
    rw [and_lowMask_32] at e
    rw [and_lowMask_32]
    exact e
  case bits =>
    intro b hb
    obtain ⟨n, h1, h4, rfl⟩ : ∃ n, 1 ≤ n ∧ n ≤ 4 ∧ b = 8 * n := by
      simp only [List.mem_cons, List.not_mem_nil, or_false] at hb
      exact ⟨b / 8, by omega, by omega, by omega⟩
    have hb : (BitVec.ofNat 16 (8 * n)).toNat = 8 * n := by
      rw [BitVec.toNat_ofNat]
      omega
    show Answers s (exec _ s) _
    rw [exec_transferBits, bitsOpening_eq hu nl (by omega) (by omega), hb, show (8 * n + 7) / 8 = n by omega]
    exact scalar_roundTrip hr ha hq he hc hl h1 h4

end Sys2Proof.Machine
end

section
/-! SUPPORT. The statements of the word arrays (R180, R181): the checks of WRITE and TRANSFER (`wordsChecks_eq` and the
checks that stop), where they are stuck, and what TRANSFER leaves of host memory (`State.exchanged`). -/

namespace Sys2Proof.Machine

/-! ### The checks (R180) -/

section checks
variable {count : BitVec 16} {p : Word} (k : Opening)

theorem wordsChecks_count (h : count.toNat < 1 ∨ 16 < count.toNat) :
    wordsChecks count p k = .status .invalidArgument :=
  argCheck_stop (by simpa using h) _

variable (h1 : 1 ≤ count.toNat) (h16 : count.toNat ≤ 16)
include h1 h16

theorem wordsChecks_null : wordsChecks count 0 k = .status .invalidArgument := by
  rw [wordsChecks, argCheck_pass (rangeCheck_pass h1 h16)]
  exact argCheck_stop rfl _

theorem wordsChecks_misaligned (hp : p ≠ 0) (ha : p.toNat % 4 ≠ 0) :
    wordsChecks count p k = .trap (.misaligned p.toNat) := by
  rw [wordsChecks, argCheck_pass (rangeCheck_pass h1 h16), argCheck_pass (beq_false_of_ne hp)]
  exact if_pos ha

end checks

/-- The micro-steps of WRITE and TRANSFER under the guard: `fd` for TRANSFER, which stores the words back (R180,
R181). -/
def wordsBody (cfg : Cfg) (fd : Bool) (c p : Nat) : List UOp :=
  loadWords c p ++ (xferOps cfg (32 * c) fd ++ if fd then storeWords c p else [])

/-- What WRITE and TRANSFER open with. -/
def wordsOpening (nl fd : Bool) (h : Handle) (count : BitVec 16) (p : Word) (s : State) : Opening :=
  handleOpening s h <| wordsChecks count p <|
    guardedTask s nl h.inst (wordsBody s.cfg fd count.toNat p.toNat) 0 (.const 0)

/-- WRITE or TRANSFER, in its form. -/
def wordsInstr (nl fd : Bool) (h : Handle) (count : BitVec 16) (p : Word) : Instr :=
  if fd then if nl then .transferNl h count p else .transfer h count p
  else if nl then .writeNl h count p else .write h count p

theorem exec_wordsInstr (nl fd : Bool) (h : Handle) (count : BitVec 16) (p : Word) (s : State) :
    exec (wordsInstr nl fd h count p) s = operate s (wordsOpening nl fd h count p s) := by
  rw [exec_eq]
  cases fd <;> cases nl <;> simp [wordsInstr, openingOf, writeOpening, transferOpening, wordsOpening, wordsBody]

/-! ### Both operations up to their stores -/

section words
variable {nl fd : Bool} {h : Handle} {count : BitVec 16} {p : Word} {s : State}

/-- The checks of WRITE and TRANSFER that stop them, in their order (R180). -/
theorem words_checks (hr : Ready 1 s) (hu : Usable h s) :
    let i := wordsInstr nl fd h count p
    (count.toNat < 1 ∨ 16 < count.toNat → exec i s = .next (s.finish .invalidArgument 0)) ∧
    (1 ≤ count.toNat → count.toNat ≤ 16 → p = 0 → exec i s = .next (s.finish .invalidArgument 0)) ∧
    (1 ≤ count.toNat → count.toNat ≤ 16 → p ≠ 0 → p.toNat % 4 ≠ 0 →
      exec i s = .next (s.raise (.misaligned p.toNat))) := by
  dsimp only
  rw [exec_wordsInstr, wordsOpening, handleOpening_eq hu]
  refine ⟨fun hc => ?range, fun h1 h16 hp => ?null, fun h1 h16 hp ha => ?misaligned⟩
  case range => rw [wordsChecks_count _ hc, operate_status hr]
  case null => rw [hp, wordsChecks_null _ h1 h16, operate_status hr]
  case misaligned => rw [wordsChecks_misaligned _ h1 h16 hp ha, operate_trap hr]

variable (hu : Usable h s) (h1 : 1 ≤ count.toNat) (h16 : count.toNat ≤ 16) (hp : p ≠ 0) (hal : p.toNat % 4 = 0)
  (ha : Admits nl h.inst s)
include hu h1 h16 hp hal

theorem exec_words : exec (wordsInstr nl fd h count p) s =
    operate s (guardedTask s nl h.inst (wordsBody s.cfg fd count.toNat p.toNat) 0 (.const 0)) := by
  rw [exec_wordsInstr, wordsOpening, handleOpening_eq hu, wordsChecks_eq h1 h16 hp hal]

include ha

/-- With its first word unmapped the operation holds before any write, an instance in flight or not. -/
theorem words_first_stuck (hr : Ready 3 s) (hn : memRead4 s.hm p.toNat = none) :
    StuckAt (wordsInstr nl fd h count p) (.memRd4 p.toNat) s (s.setOwner h.inst (some s.cur)) := by
  obtain ⟨rest, e⟩ := loadWords_split (k := 0) h1 p.toNat
  have body : wordsBody s.cfg fd count.toNat p.toNat =
      .memRd4 p.toNat :: (rest ++ (xferOps s.cfg (32 * count.toNat) fd ++
        if fd then storeWords count.toNat p.toNat else [])) := by
    rw [wordsBody, e]
    rfl
  refine stuck_of (n := 0) (exec_words hu h1 h16 hp hal) ha hr (by rw [body]; exact RunsIn.refl) rfl rfl rfl rfl ?_
  exact fun u x y hm => perform_memRd4_none hn hm

theorem words_stuck_at (hr : Ready 35 s) (hq : Quiet h.inst s) {k : Nat} (hk : k < count.toNat)
    (hm : Mapped s.hm p.toNat (4 * k)) (hn : memRead4 s.hm (p.toNat + 4 * k) = none) :
    StuckAt (wordsInstr nl fd h count p) (.memRd4 (p.toNat + 4 * k)) s (s.updBus h.inst fun b => { b with
      owner := some s.cur, w := loadedFrom s.hm p.toNat k b.w }) :=
  words_stuck (exec_words hu h1 h16 hp hal) ha (hr.mono (by omega)) h16 hk hq hm hn

end words

/-! ### What they leave -/

/-- The words loaded and sent (R180). -/
def State.wordsSent (i : Fin 4) (p c : Nat) (fd : Bool) (s : State) : State :=
  (s.loadedWords i p c).transacted i (32 * c) fd

/-- The words exchanged: those received stored back in place (R181). -/
def State.exchanged (i : Fin 4) (p c : Nat) (s : State) : State :=
  let u := s.wordsSent i p c true
  u.setHm (storedTo s.hm p (u.getBus i).w c)

section sent
variable {i : Fin 4} {p c : Nat} {fd : Bool} {o : Option Agent} {s : State}

@[simp] theorem wordsSent_cfg : (s.wordsSent i p c fd).cfg = s.cfg := by simp [State.wordsSent, State.loadedWords]

@[simp] theorem wordsSent_hm : (s.wordsSent i p c fd).hm = s.hm := by simp [State.wordsSent, State.loadedWords]

@[simp] theorem wordsSent_cur : (s.wordsSent i p c fd).cur = s.cur := by
  simp [State.wordsSent, State.loadedWords, transacted_cur]

theorem wordsSent_owner : ((s.wordsSent i p c fd).getBus i).owner = (s.getBus i).owner := by
  simp [State.wordsSent, State.loadedWords, transacted_owner]

theorem wordsSent_setOwner : (s.setOwner i o).wordsSent i p c fd = (s.wordsSent i p c fd).setOwner i o := by
  rw [State.wordsSent, loadedWords_setOwner, transacted_setOwner, State.wordsSent]

theorem exchanged_setOwner : (s.setOwner i o).exchanged i p c = (s.exchanged i p c).setOwner i o := by
  have hw : (((s.wordsSent i p c true).setOwner i o).getBus i).w = ((s.wordsSent i p c true).getBus i).w := by
    simp [State.setOwner]
  rw [State.exchanged, wordsSent_setOwner, hw]
  rfl

variable {x y : Word} (hc : cfgOk s.cfg = true) (h1 : 1 ≤ c) (h16 : c ≤ 16) (hm : Mapped s.hm p (4 * c))
  (hq : Quiet i s) (he : EngineServes i s)
include hc h1 h16 hm hq he

theorem words_sent_run (tail : List UOp) : ∃ x', RunsIn i (2 * c + 8)
    (loadWords c p ++ (xferOps s.cfg (32 * c) fd ++ tail)) x y s tail x' y (s.wordsSent i p c fd) := by
  obtain ⟨x', load⟩ := loadWords_run (i := i) (x := x) (y := y) h16 hm hq
  have send := xfer_runs (i := i) (nbits := 32 * c) (fd := fd) (x := x') (y := y) (s := s.loadedWords i p c) hc
    (by omega) (by omega) hq.loadedWords he.updBus
  exact ⟨x', (load.append _).trans (send.append tail)⟩

theorem write_run : ∃ x', RunsIn i 40 (wordsBody s.cfg false c p) x y s [] x' y (s.wordsSent i p c false) := by
  obtain ⟨x', run⟩ := words_sent_run (fd := false) (x := x) (y := y) hc h1 h16 hm hq he []
  exact ⟨x', run.mono (by omega)⟩

theorem transfer_run : ∃ x', RunsIn i 72 (wordsBody s.cfg true c p) x y s [] x' y (s.exchanged i p c) := by
  obtain ⟨x1, sent⟩ := words_sent_run (fd := true) (x := x) (y := y) hc h1 h16 hm hq he (storeWords c p)
  obtain ⟨x2, stored⟩ := storeWords_run (i := i) (x := x1) (y := y) (s := s.wordsSent i p c true) h16
    (by rwa [wordsSent_hm]) (quiet_transacted (s := s.loadedWords i p c) hc (by omega) (by omega))
  rw [wordsSent_hm] at stored
  exact ⟨x2, (sent.trans stored).mono (by omega)⟩

end sent

section completes
variable {nl : Bool} {h : Handle} {count : BitVec 16} {p : Word} {s : State} (hu : Usable h s)
  (h1 : 1 ≤ count.toNat) (h16 : count.toNat ≤ 16) (hp : p ≠ 0) (hal : p.toNat % 4 = 0) (ha : Admits nl h.inst s)
  (hq : Quiet h.inst s) (he : EngineServes h.inst s) (hc : cfgOk s.cfg = true)
  (hm : Mapped s.hm p.toNat (4 * count.toNat))
include hu h1 h16 hp hal ha hq he hc hm

theorem write_completes (hr : Ready 43 s) : exec (wordsInstr nl false h count p) s =
    .next ((s.wordsSent h.inst p.toNat count.toNat false).finish .ok 0) := by
  rw [exec_words hu h1 h16 hp hal]
  refine guarded_completes (n := 40) (G := State.wordsSent h.inst p.toNat count.toNat false) ha hr (fun o => ?_)
    (fun _ => wordsSent_setOwner) wordsSent_cur wordsSent_owner
  obtain ⟨x', run⟩ := write_run (x := 0) (y := 0) (s := s.setOwner h.inst o) hc h1 h16 hm hq.setOwner he.setOwner
  exact ⟨x', 0, run, rfl⟩

theorem transfer_completes (hr : Ready 75 s) : exec (wordsInstr nl true h count p) s =
    .next ((s.exchanged h.inst p.toNat count.toNat).finish .ok 0) := by
  rw [exec_words hu h1 h16 hp hal]
  refine guarded_completes (n := 72) (G := State.exchanged h.inst p.toNat count.toNat) ha hr (fun o => ?_)
    (fun _ => exchanged_setOwner) wordsSent_cur wordsSent_owner
  obtain ⟨x', run⟩ := transfer_run (x := 0) (y := 0) (s := s.setOwner h.inst o) hc h1 h16 hm hq.setOwner he.setOwner
  exact ⟨x', 0, run, rfl⟩

end completes

/-! ### On a loopback -/

section loopback
variable {i : Fin 4} {p c : Nat} {s : State}

/-- A loaded word holds the bytes of host memory it was loaded from (R62). -/
theorem memByte_of_loadedFrom {hm : List Host.Cell} {k j : Nat} {w : Vector Word 16} (hm4 : Mapped hm p (4 * c))
    (hk : k < c) (h16 : k < 16) (hj : j < 4) :
    memByte hm (p + 4 * k + j) = some (byteAt ((loadedFrom hm p c w)[k]'h16) j) := by
  obtain ⟨v, hv⟩ := memRead4_mapped hm4 (k := 4 * k) (by omega)
  obtain ⟨b0, b1, b2, b3, e0, e1, e2, e3, rfl⟩ := memRead4_some hv
  simp only [loadedFrom, words16_getElem, hk, if_true, hv, Option.getD_some]
  interval_cases j
  · simpa using e0
  · simpa using e1
  · simpa using e2
  · simpa using e3

variable (hc : cfgOk s.cfg = true) (h1 : 1 ≤ c) (h16 : c ≤ 16) (hl : LoopsBack i s)
include hc h1 h16 hl

/-- On a loopback the words sent come back to their places. -/
theorem wordsSent_loopback {k : Nat} (hk : k < c) (hk16 : k < 16) :
    (((s.wordsSent i p c true).getBus i).w[k]'hk16) = ((s.loadedWords i p c).getBus i).w[k]'hk16 := by
  have hl' : LoopsBack i (s.loadedWords i p c) := by
    obtain ⟨link, duplex, order⟩ := hl
    exact ⟨link, by simpa [State.loadedWords] using duplex, by simpa [State.loadedWords] using order⟩
  apply BitVec.eq_of_getLsbD_eq
  intro j hj
  have := transacted_loopback (len := 4 * c) (s := s.loadedWords i p c) hc (by omega) (by omega) hl' (32 * k + j)
    (by omega)
  rw [bufBit_word _ _ _ hk16 hj, bufBit_word _ _ _ hk16 hj, show 8 * (4 * c) = 32 * c by omega] at this
  exact this

theorem exchanged_loopback (hm : Mapped s.hm p (4 * c)) (a : Nat) :
    memByte (s.exchanged i p c).hm a = memByte s.hm a := by
  obtain ⟨inside, outside⟩ := storedTo_spec (w := ((s.wordsSent i p c true).getBus i).w) h16 hm
  by_cases ha : a < p ∨ p + 4 * c ≤ a
  case pos => exact outside a ha
  case neg =>
    obtain ⟨k, j, hk, hj, rfl⟩ : ∃ k j, k < c ∧ j < 4 ∧ a = p + 4 * k + j :=
      ⟨(a - p) / 4, (a - p) % 4, by omega, by omega, by omega⟩
    have hk16 : k < 16 := by omega
    have back := wordsSent_loopback (p := p) hc h1 h16 hl hk hk16
    rw [State.loadedWords, State.getBus_updBus_same] at back
    calc memByte (s.exchanged i p c).hm (p + 4 * k + j)
        = some (byteAt (((s.wordsSent i p c true).getBus i).w[k]'hk16) j) := inside k hk16 hk j hj
      _ = memByte s.hm (p + 4 * k + j) := by rw [back]; exact (memByte_of_loadedFrom hm hk hk16 hj).symm

end loopback

/-! ### The statements -/

/-- Settles O15: the checks (`words_checks`), the words sent (`write_completes`), and the words it is stuck at
(`words_first_stuck`, in flight too, and `words_stuck_at`). -/
theorem writeSendsItsWords : Obligations.WriteSendsItsWords := by
  intro nl h count p s hr hu i c
  obtain ⟨range, null, misaligned⟩ := words_checks (nl := nl) (fd := false) (count := count) (p := p)
    (hr.mono (by omega)) hu
  refine ⟨range, null, misaligned, ?firstUnmapped, ?completes, ?stuck⟩
  case firstUnmapped =>
    intro h1 h16 hp hal ha hn
    obtain ⟨o, -, e, -⟩ := words_first_stuck (fd := false) hu h1 h16 hp hal ha (hr.mono (by omega)) hn
    exact ⟨o, e⟩
  case completes =>
    intro h1 h16 hp hal ha hq he hc hm
    exact write_completes hu h1 h16 hp hal ha hq he hc hm (hr.mono (by omega))
  case stuck =>
    intro k hk h16 hp hal ha hq hm hn
    exact words_stuck_at (fd := false) hu (by omega) h16 hp hal ha (hr.mono (by omega)) hq hk hm hn

/-- Settles O16: the checks (`words_checks`), the words exchanged (`transfer_completes`, `storedTo_spec`), and the word
it is stuck at (`words_stuck_at`). -/
theorem transferExchangesItsWords : Obligations.TransferExchangesItsWords := by
  intro nl h count p s hr hu i c
  obtain ⟨range, null, misaligned⟩ := words_checks (nl := nl) (fd := true) (count := count) (p := p)
    (hr.mono (by omega)) hu
  refine ⟨range, null, misaligned, ?completes, ?stuck⟩
  case completes =>
    intro h1 h16 hp hal ha hq he hc hm u
    exact ⟨_, transfer_completes hu h1 h16 hp hal ha hq he hc hm (hr.mono (by omega)), storedTo_spec h16 hm⟩
  case stuck =>
    intro k hk h16 hp hal ha hq hm hn
    exact words_stuck_at (fd := true) hu (by omega) h16 hp hal ha (hr.mono (by omega)) hq hk hm hn

/-- Settles O17: TRANSFER ends with the words exchanged, which on a loopback are those loaded (`exchanged_loopback`). -/
theorem transferLoopbackKeepsMemory : Obligations.TransferLoopbackKeepsMemory := by
  intro nl h count p s hr hu h1 h16 hp hal ha hq he hc hm hl
  refine ⟨_, transfer_completes hu h1 h16 hp hal ha hq he hc hm (hr.mono (by omega)), fun a => ?_⟩
  rw [State.finish_hm]
  exact exchanged_loopback hc h1 h16 hl hm a

end Sys2Proof.Machine
end

section
/-! SUPPORT. The statements of the chunked operations (R210 to R216): where TRANSFER_BYTES and WRITE_PIXELS end
(`transferBytes_done`, `writePixels_done`), from the loops' laws, and the round trip of TRANSFER_BYTES, which rests on the
bits on the wire giving their bytes back (`CarriesBytes.unique`). -/

namespace Sys2Proof.Machine

/-- A pointer is null, as a word, when its address is 0 (R210). -/
theorem word_toNat_eq_zero {p : Word} : p.toNat = 0 ↔ p = 0 := BitVec.toNat_inj (y := 0)

/-- TRANSFER_BYTES, in its form. -/
def bytesInstr (nl : Bool) (h : Handle) (size inp outp : Word) : Instr :=
  if nl then .transferBytesNl h size inp outp else .transferBytes h size inp outp

/-- WRITE_PIXELS, in its form. -/
def pixelsInstr (nl : Bool) (h : Handle) (size p : Word) : Instr :=
  if nl then .writePixelsNl h size p else .writePixels h size p

theorem exec_bytesInstr (nl : Bool) (h : Handle) (size inp outp : Word) (s : State) :
    exec (bytesInstr nl h size inp outp) s = operate s (bytesOpening nl h size inp outp s) := by
  rw [exec_eq]
  cases nl <;> rfl

theorem exec_pixelsInstr (nl : Bool) (h : Handle) (size p : Word) (s : State) :
    exec (pixelsInstr nl h size p) s = operate s (pixelsOpening nl h size p s) := by
  rw [exec_eq]
  cases nl <;> rfl

/-! ### What they run, their checks made -/

section forms
variable {nl : Bool} {h : Handle} {size inp outp p : Word} {s : State} (hu : Usable h s)
include hu

theorem exec_bytes : exec (bytesInstr nl h size inp outp) s = operate s
    (guardedTask s nl h.inst [.bytes inp.toNat outp.toNat 0 size.toNat] 0 (.const 0)) := by
  rw [exec_bytesInstr, bytesOpening, handleOpening_eq hu]

theorem exec_pixels_null (hr : Ready 1 s) : exec (pixelsInstr nl h size 0) s =
    .next (s.finish .invalidArgument 0) := by
  rw [exec_pixelsInstr, pixelsOpening, handleOpening_eq hu, argCheck_stop (beq_self_eq_true _), operate_status hr]

theorem exec_pixels (hp : p ≠ 0) : exec (pixelsInstr nl h size p) s = operate s
    (guardedTask s nl h.inst [.rd .ctrl .y, .pixels p.toNat 0 size.toNat] 0 (.const 0)) := by
  rw [exec_pixelsInstr, pixelsOpening, handleOpening_eq hu, argCheck_pass (beq_false_of_ne hp)]

variable (ha : Admits nl h.inst s) (hq : Quiet h.inst s) (he : EngineServes h.inst s) (hc : cfgOk s.cfg = true)
include ha hq he hc

/-- With both buffers in the launch memory TRANSFER_BYTES ends, all its chunks done (R210). -/
theorem transferBytes_done (hr : Ready (20 * size.toNat + 3) s)
    (hi : inp ≠ 0 → Mapped s.hm inp.toNat size.toNat) (ho : outp ≠ 0 → Mapped s.hm outp.toNat size.toNat) :
    ∃ t events, exec (bytesInstr nl h size inp outp) s = .next (t.finish .ok 0) ∧
      ChunksLeave h.inst size.toNat true s t ∧
      BytesDone h.inst inp.toNat outp.toNat size.toNat s (chunkCount size.toNat) t events := by
  simp only [ne_eq, ← word_toNat_eq_zero] at hi ho
  obtain ⟨events, done⟩ := bytesDone (i := h.inst) (inp := inp.toNat) hc ho _ (le_refl _)
  exact ⟨_, events, (exec_bytes hu).trans (bytes_completes hr ha hq he hc hi ho), bytes_leave hc, done⟩

/-- With its buffer in the launch memory WRITE_PIXELS ends, all its chunks sent (R215). -/
theorem writePixels_done (hp : p ≠ 0) (hr : Ready (20 * size.toNat + 4) s) (hm : Mapped s.hm p.toNat size.toNat) :
    ∃ t events, exec (pixelsInstr nl h size p) s = .next (t.finish .ok 0) ∧
      ChunksLeave h.inst size.toNat false s t ∧
      PixelsDone h.inst (swapcond s.cfg (wrOrder (s.getBus h.inst).conf.ctrl)) p.toNat size.toNat s
        (chunkCount size.toNat) t events := by
  obtain ⟨events, done⟩ := pixelsDone (i := h.inst) (swap := swapcond s.cfg (wrOrder (s.getBus h.inst).conf.ctrl))
    (p := p.toNat) hc _ (le_refl (chunkCount size.toNat))
  exact ⟨_, events, (exec_pixels hu hp).trans (pixels_completes hr ha hq he hc hm), pixels_leave hc, done⟩

end forms

/-! ### The round trip (R211 (b)) -/

/-- The bits on the wire give their bytes back: each bit of each byte has its wire position (R64). -/
theorem CarriesBytes.unique {o : BitOrder} {len j : Nat} {f g : Nat → Byte} {bits : List Bool}
    (hf : CarriesBytes o len f bits) (hg : CarriesBytes o len g bits) (hj : j < len) : f j = g j := by
  apply BitVec.eq_of_getLsbD_eq
  intro k hk
  have position : wirePos (8 * j + k) o < 8 * len := (wirePos_lt_bytes o).mpr (by omega)
  have same := (hf.2 _ position).symm.trans (hg.2 _ position)
  rwa [wirePos_wirePos, wirePos_div, show (8 * j + k) / 8 = j by omega, show (8 * j + k) % 8 = k by omega,
    Option.some_inj] at same

theorem memByte_eq_memBytes {hm : List Host.Cell} {a n j : Nat} (h : Mapped hm a n) (hj : j < n) :
    memByte hm (a + j) = some (memBytes hm a j) := by
  obtain ⟨b, hb⟩ := Option.isSome_iff_exists.mp (h j hj)
  rw [memBytes, hb, Option.getD_some]

/-- On a loopback every output byte ends as its input byte was: its chunk's bits are those sent and those received. -/
theorem BytesDone.roundTrip {i : Fin 4} {inp outp size b : Nat} {s u : State} {events : List WireEvent}
    (done : BytesDone i inp outp size s (chunkCount size) u events) (hl : LoopsBack i s) (hi0 : inp ≠ 0) (ho0 : outp ≠ 0)
    (hi : Mapped s.hm inp size) (ho : Mapped s.hm outp size)
    (apart : inp = outp ∨ inp + size ≤ outp ∨ outp + size ≤ inp) (hb : b < size) :
    memByte u.hm (outp + b) = memByte s.hm (inp + b) := by
  have hc : b / 64 < events.length := by rw [done.count, chunkCount]; omega
  obtain ⟨-, -, -, -, -, -, sent, loops, received⟩ := done.event (b / 64) _ (List.getElem?_eq_getElem hc)
  have sent := sent hi0 (.inr apart)
  have received := received ho0 hl.duplex
  rw [loops hl.link, ← hl.order] at received
  have same := received.unique sent (j := b % 64) (by omega)
  rw [memBytes, memBytes, show outp + 64 * (b / 64) + b % 64 = outp + b by omega,
    show inp + 64 * (b / 64) + b % 64 = inp + b by omega] at same
  rw [memByte_eq_memBytes (ho.congr done.addrs) hb, memByte_eq_memBytes hi hb]
  exact congrArg some same

/-! ### The statements -/

/-- Settles O18: the chunks done (`transferBytes_done`), and the input and the output byte it is stuck at
(`bytes_load_stuck`, `bytes_store_stuck`). -/
theorem transferBytesMovesEveryChunk : Obligations.TransferBytesMovesEveryChunk := by
  intro nl h size inp outp s hr hu ha hq he hc i user ctrl
  have runs : exec i s = _ := exec_bytes hu
  refine ⟨fun hi ho => ?completes, fun b hb h0 hi hn ho => ?inputStuck, fun b hb h0 ho hn hi => ?outputStuck⟩
  case completes =>
    obtain ⟨t, events, ends, leaves, done⟩ := transferBytes_done hu ha hq he hc hr hi ho
    refine ⟨t, events, ends, leaves, done.wire, done.count, fun c e hce => ?event, fun a hout => ?memory⟩
    case event => simpa only [ne_eq, word_toNat_eq_zero, BitVec.toNat_inj] using done.event c e hce
    case memory =>
      refine done.mem a (hout.imp word_toNat_eq_zero.mpr fun outside => ?_)
      rwa [show min (64 * chunkCount size.toNat) size.toNat = size.toNat by rw [chunkCount]; omega]
  case inputStuck =>
    exact bytes_load_stuck runs hr ha hq he hc hb (mt word_toNat_eq_zero.mp h0) hi hn
      fun h => ho (mt word_toNat_eq_zero.mpr h)
  case outputStuck =>
    exact bytes_store_stuck runs hr ha hq he hc hb (mt word_toNat_eq_zero.mp h0) ho hn
      fun h => hi (mt word_toNat_eq_zero.mpr h)

/-- Settles O19: the chunks done (`transferBytes_done`) on a loopback (`BytesDone.roundTrip`). -/
theorem transferBytesRoundTrip : Obligations.TransferBytesRoundTrip := by
  intro nl h size inp outp s hr hu ha hq he hc hl hi0 ho0 hi ho apart
  obtain ⟨t, events, ends, -, done⟩ := transferBytes_done hu ha hq he hc hr (fun _ => hi) fun _ => ho
  refine ⟨t, ends, fun b hb => ?same, fun a outside => done.mem a (.inr (by omega))⟩
  exact done.roundTrip hl (mt word_toNat_eq_zero.mp hi0) (mt word_toNat_eq_zero.mp ho0) hi ho
    (apart.imp_left (congrArg _)) hb

/-- Settles O20: the null pointer (`exec_pixels_null`), the chunks sent (`writePixels_done`), and the byte it is stuck at
(`pixels_load_stuck`). -/
theorem writePixelsSendsEveryChunk : Obligations.WritePixelsSendsEveryChunk := by
  intro nl h size p s hr hu i
  refine ⟨fun h0 => ?null, fun hp ha hq he hc => ⟨fun hm => ?completes, fun b hb hm hn => ?stuck⟩⟩
  case null =>
    subst h0
    exact exec_pixels_null hu (hr.mono (by omega))
  case completes =>
    obtain ⟨t, events, ends, leaves, done⟩ := writePixels_done hu ha hq he hc hp hr hm
    exact ⟨t, events, ends, leaves, done.wire, done.count, done.event, fun a => by rw [done.hm]⟩
  case stuck => exact pixels_load_stuck (exec_pixels hu hp) hr ha hq he hc hb hm hn

end Sys2Proof.Machine
end

section
/-! SUPPORT. The statements of the lifecycle and configuration operations (R230 to R241): START and STOP as one change
of their instance (`start_run`, `stop_run`), the setters as locked changes, the reads of the getters, and the bracket of
BEGIN_TXN and END_TXN. -/

namespace Sys2Proof.Machine

/-! ### Changes of one instance -/

section changes
variable {i : Fin 4} {f : Bus → Bus} {s : State}

theorem GuardFree.updBus (h : GuardFree i s) (hf : ∀ b, (f b).guardExists = b.guardExists ∧ (f b).owner = b.owner) :
    GuardFree i (s.updBus i f) := by
  obtain ⟨hcreated, hfree⟩ := h
  obtain ⟨hg, ho⟩ := hf (s.getBus i)
  exact ⟨by rw [State.getBus_updBus_same, hg, hcreated], by rw [State.getBus_updBus_same, ho, hfree]⟩

theorem Quiet.updBus (h : Quiet i s) (hf : ∀ b, (f b).phase = b.phase) : Quiet i (s.updBus i f) := by
  rw [Quiet, State.getBus_updBus_same, hf]
  exact h

end changes

/-- The CLOCK register written (R232). -/
def Bus.withClock (cfg : Cfg) (clk : Word) (b : Bus) : Bus :=
  { b with conf := { b.conf with clock := clk &&& wmask cfg .clock } }

theorem setClock_run {i : Fin 4} {clk x y : Word} {s : State} (hq : Quiet i s) :
    RunsIn i 1 [.wr .clock clk] x y s [] x y (s.updBus i (Bus.withClock s.cfg clk)) :=
  RunsIn.one (perform_wr (by simp) hq)

/-! ### START (R230, R243) -/

/-- An instance whose guard was created, nobody holding it, as START leaves it. -/
def Bus.configured (cfg : Cfg) (mode : Fin 4) (order : BitOrder) (clk : Word) (b : Bus) : Bus :=
  (((b.init cfg).withMode mode).withOrder order).withClock cfg clk

section start
variable {i : Fin 4} {mode : Fin 4} {order : BitOrder} {clk x y : Word} {s : State}

theorem startOps_blocks (cfg : Cfg) (mode : Fin 4) (order : BitOrder) (clk : Word) : startOps cfg mode order clk =
    .createGuard :: (locked (initOps cfg) ++ (locked (setModeOps mode) ++ (locked (setOrderOps order) ++
      (locked [.wr .clock clk] ++ [.setRegistered true, .setStarted true])))) := by
  simp only [startOps, initOps, List.append_assoc, List.cons_append, List.nil_append]

/-- The guard created where there is none (R246). -/
theorem createGuard_run {rest : List UOp} (hg : (s.getBus i).guardExists = false ∨ GuardFree i s) :
    RunsIn i 1 (.createGuard :: rest) x y s rest x y
      (s.updBus i fun b => { b with guardExists := true, owner := none }) := by
  rcases hg with habsent | ⟨hcreated, hfree⟩
  · exact RunsIn.one (perform_createGuard_absent habsent)
  · refine (RunsIn.one (perform_createGuard_exists hcreated)).to (State.updBus_self ?_).symm
    rw [← hcreated, ← hfree]

/-- The four blocks of START under the guard, one after another. -/
theorem configure_run {rest : List UOp} (hg : GuardFree i s) (hq : Quiet i s) :
    RunsIn i 37 (locked (initOps s.cfg) ++ (locked (setModeOps mode) ++ (locked (setOrderOps order) ++
      (locked [.wr .clock clk] ++ rest)))) x y s rest x y (s.updBus i (Bus.configured s.cfg mode order clk)) := by
  have init := locked_change (x := x) (y := y) (f := Bus.init s.cfg) (fun _ _ => rfl) hg hq
    fun u hc hq => hc ▸ init_run hq
  have hg1 := hg.updBus (f := Bus.init s.cfg) fun _ => ⟨rfl, rfl⟩
  have hq1 := hq.updBus (f := Bus.init s.cfg) fun _ => rfl
  have setMode := locked_change (x := x) (y := y) (f := Bus.withMode mode) (fun _ _ => rfl) hg1 hq1
    fun u _ hq => setMode_run hq
  have hg2 := hg1.updBus (f := Bus.withMode mode) fun _ => ⟨rfl, rfl⟩
  have hq2 := hq1.updBus (f := Bus.withMode mode) fun _ => rfl
  have setOrder := locked_change (x := x) (y := y) (f := Bus.withOrder order) (fun _ _ => rfl) hg2 hq2
    fun u _ hq => setOrder_run hq
  have hg3 := hg2.updBus (f := Bus.withOrder order) fun _ => ⟨rfl, rfl⟩
  have hq3 := hq2.updBus (f := Bus.withOrder order) fun _ => rfl
  have setClock := locked_change (x := x) (y := y) (f := Bus.withClock s.cfg clk) (fun _ _ => rfl) hg3 hq3
    fun u hc hq => (show u.cfg = s.cfg from hc) ▸ setClock_run hq
  refine ((((init.append _).trans (setMode.append _)).trans (setOrder.append _)).trans
    (setClock.append rest)).to ?_
  simp only [State.updBus_updBus]
  rfl

/-- START past its index check, as one change of its instance. -/
theorem start_run (hg : (s.getBus i).guardExists = false ∨ GuardFree i s) (hq : Quiet i s) :
    RunsIn i 40 (startOps s.cfg mode order clk) x y s [] x y (s.updBus i fun b =>
      { Bus.configured s.cfg mode order clk { b with guardExists := true, owner := none } with
        registered := true, started := true }) := by
  rw [startOps_blocks]
  have created := createGuard_run (x := x) (y := y) hg (rest := locked (initOps s.cfg) ++ (locked (setModeOps mode) ++
    (locked (setOrderOps order) ++ (locked [.wr .clock clk] ++ [.setRegistered true, .setStarted true]))))
  have configured := configure_run (x := x) (y := y) (i := i) (mode := mode) (order := order) (clk := clk)
    (s := s.updBus i fun b => { b with guardExists := true, owner := none })
    (rest := [.setRegistered true, .setStarted true]) ⟨by simp, by simp⟩ (hq.updBus fun _ => rfl)
  refine ((created.trans configured).trans
    ((RunsIn.one (op := .setRegistered true) rfl).trans (RunsIn.one (op := .setStarted true) rfl))).to ?_
  simp only [State.updBus_updBus]
  rfl

/-- START of an instance that exists leaves it as R243's table says. -/
theorem exec_start_completes {idx : BitVec 8} (hr : Ready 50 s) (hi : idx.toNat = i.val) (hn : i.val < s.cfg.nInst)
    (hq : Quiet i s) (hg : (s.getBus i).guardExists = false ∨ GuardFree i s) :
    exec (.start idx mode order clk) s = .next ((s.updBus i fun b => {
      conf := {
        clock := clk &&& wmask s.cfg .clock
        ctrl := if order = .lsbFirst then 3 else 0
        user := if mode = 1 ∨ mode = 2 then 3 else 1
        pin := if mode = 2 ∨ mode = 3 then 1 else 0
        mosiDlen := 0
        misoDlen := 0 }
      clkGate := if s.cfg.hasClkGate then s.cfg.clkGateStart else b.clkGate
      w := words16 fun _ => 0
      act := b.act
      phase := .idle
      guardExists := true
      owner := none
      started := true
      registered := true }).finish .ok (BitVec.ofNat 32 idx.toNat)) := by
  rw [exec_start hi hn, taskOf, operate_runs (n := 40) (hr.mono (by omega)) (start_run hg hq)]
  have huser : (1 &&& 1 ||| outBit mode : Word) = if mode = 1 ∨ mode = 2 then 3 else 1 := by fin_cases mode <;> rfl
  have hpin : (0 &&& 0xE ||| idleBit mode : Word) = if mode = 2 ∨ mode = 3 then 1 else 0 := by fin_cases mode <;> rfl
  rw [retValue, BitVec.ofNat_toNat]
  congr 2
  apply State.updBus_congr
  have hphase : (s.getBus i).phase = .idle := hq
  rw [← huser, ← hpin, ← hphase]
  rfl

end start

/-- Settles O21: the index check, and START as one change of its instance (`exec_start_completes`). -/
theorem startInitialisesTheInstance : Obligations.StartInitialisesTheInstance := by
  intro idx mode order clk s hr
  refine ⟨fun hi => ?outside, fun i hi hn hq hg => exec_start_completes hr hi hn hq hg⟩
  case outside =>
    rw [exec_eq, openingOf, if_pos hi, operate_status (hr.mono (by omega))]

/-- The registers that have an offset (R21): CLK_GATE only on a variant that has it. -/
theorem hasClkGate_of_regAt {cfg : Cfg} {off : Nat} (h : regAt cfg off = some .clkGate) : cfg.hasClkGate = true := by
  unfold regAt at h
  split at h <;> simp_all

/-- Settles O22: what START leaves of its instance (`exec_start_completes`) has its operands in every register that has
an offset, and nothing is in flight, so no read is a draw. -/
theorem startForgetsThePast : Obligations.StartForgetsThePast := by
  intro idx mode order clk i s u hcfg hi hn hrs hru hqs hqu hgs hgu
  refine ⟨_, _, exec_start_completes hrs hi hn hqs hgs, exec_start_completes hru hi (hcfg ▸ hn) hqu hgu, ?_⟩
  intro off r hr
  rw [readReg_eq (.inl (by simp)), readReg_eq (.inl (by simp))]
  simp only [State.getBus_finish, State.getBus_updBus_same, State.finish_cfg, State.updBus_cfg, ← hcfg]
  cases r with
  | clkGate => simp only [Bus.view, Bus.stored, hasClkGate_of_regAt hr, if_true]
  | _ => rfl

/-! ### STOP (R231) -/

section stop
variable {i : Fin 4} {x y : Word} {s : State}

theorem stopOps_blocks (cfg : Cfg) : stopOps cfg =
    .setRegistered false :: (locked ((cfgRegs cfg).map fun r => .wr r 0) ++ [.setStarted false]) := by
  simp only [stopOps, List.cons_append, List.nil_append]

/-- STOP past its handle's checks, as one change of its instance. -/
theorem stop_run (hg : GuardFree i s) (hq : Quiet i s) :
    RunsIn i 11 (stopOps s.cfg) x y s [] x y (s.updBus i fun b =>
      { Bus.zeroed s.cfg b with registered := false, started := false }) := by
  rw [stopOps_blocks]
  have deregistered := RunsIn.one (i := i) (x := x) (y := y) (s := s) (op := .setRegistered false)
    (rest := locked ((cfgRegs s.cfg).map fun r => .wr r 0) ++ [.setStarted false]) rfl
  have zeroed := locked_change (x := x) (y := y) (f := Bus.zeroed s.cfg) (fun _ _ => rfl)
    (hg.updBus (f := fun b => { b with registered := false }) fun _ => ⟨rfl, rfl⟩)
    (hq.updBus (f := fun b => { b with registered := false }) fun _ => rfl)
    fun u hc hq => (show u.cfg = s.cfg from hc) ▸ cfgRegs_run hq
  refine ((deregistered.trans (zeroed.append [.setStarted false])).trans
    (RunsIn.one (op := .setStarted false) rfl)).to ?_
  simp only [State.updBus_updBus]
  rfl

end stop

/-- Settles O23: one change of the instance (`stop_run`); the acquire holds with the instance already deregistered, and
in flight the first write, of CLOCK, faults under the guard. -/
theorem stopZeroesTheConfiguration : Obligations.StopZeroesTheConfiguration := by
  intro h s hr hu
  have opens : exec (.stop h) s = operate s (.task ⟨h.inst, stopOps s.cfg, 0, 0, .const 0⟩) := by
    rw [exec_eq, openingOf, handleOpening_eq hu, taskOf]
  obtain ⟨rest, hops⟩ : ∃ rest, stopOps s.cfg = .setRegistered false :: .acquire :: .wr .clock 0 :: rest := ⟨_, rfl⟩
  have deregistered := RunsIn.one (i := h.inst) (x := 0) (y := 0) (s := s) (op := .setRegistered false)
    (rest := .acquire :: .wr .clock 0 :: rest) rfl
  rw [opens]
  refine ⟨fun hg hq => ?completes, fun a hg ho => ?waits, fun hg hq => ?inFlight⟩
  case completes => exact operate_runs (hr.mono (by omega)) (stop_run hg hq)
  case waits =>
    rw [hops]
    exact ⟨_, operate_runs_hold (n := 1) (hr.mono (by omega)) deregistered rfl
      (perform_acquire_held (by simpa using hg) (by simp [ho])) rfl⟩
  case inFlight =>
    have acquired := deregistered.trans (RunsIn.one (rest := .wr .clock 0 :: rest)
      (perform_acquire (hg.updBus (f := fun b => { b with registered := false }) fun _ => ⟨rfl, rfl⟩)))
    rw [State.setOwner, State.updBus_updBus] at acquired
    have hq' : ¬ Quiet h.inst (s.updBus h.inst fun b => { b with registered := false, owner := some s.cur }) := by
      simpa [Quiet] using hq
    obtain ⟨o, e⟩ := (Faults.after acquired (.now (n := 0) (perform_wr_inFlight hq' .clock 0))).operate
      (ret := .const 0) (hr.mono (by omega))
    rw [hops]
    exact ⟨_, e, .of_save, by simp [State.raise, State.stopped_record]⟩

/-! ### The setters and getters (R232 to R237) -/

/-- Settles O24: each setter is a change of its instance taken under the guard (`locked_completes`). -/
theorem settersWriteTheirFields : Obligations.SettersWriteTheirFields := by
  intro h clk mode order s hr hu hg hq
  refine ⟨?clock, ?mode, ?order⟩
  case clock =>
    rw [exec_eq, openingOf, handleOpening_eq hu]
    exact locked_completes (f := Bus.withClock s.cfg clk) (fun _ _ => rfl) (hr.mono (by omega)) hg
      (fun u hc hq => hc ▸ setClock_run hq) hq
  case mode =>
    rw [exec_eq, openingOf, handleOpening_eq hu]
    exact locked_completes (f := Bus.withMode mode) (fun _ _ => rfl) (hr.mono (by omega)) hg
      (fun u _ hq => setMode_run hq) hq
  case order =>
    rw [exec_eq, openingOf, handleOpening_eq hu]
    exact locked_completes (f := Bus.withOrder order) (fun _ _ => rfl) (hr.mono (by omega)) hg
      (fun u _ hq => setOrder_run hq) hq

/-- Only the buffer draws when read (R110), so any other read leaves the state, in flight too. -/
theorem perform_rd_x_stored {i : Fin 4} {r : Reg} {x y : Word} {s : State} (hw : ∀ k, r ≠ .w k) :
    perform (.rd r .x) i x y s = .done s ((s.getBus i).view s.cfg r) y := by
  rw [perform_rd_x, readReg_eq (.inr hw)]

theorem perform_rd_y_stored {i : Fin 4} {r : Reg} {x y : Word} {s : State} (hw : ∀ k, r ≠ .w k) :
    perform (.rd r .y) i x y s = .done s x ((s.getBus i).view s.cfg r) := by
  rw [perform_rd_y, readReg_eq (.inr hw)]

theorem modeOf_eq (idle out : Bool) :
    modeOf idle out = if idle then if out then 2 else 3 else if out then 1 else 0 := by
  cases idle <;> cases out <;> rfl

theorem ckIdleEdge_view (b : Bus) (cfg : Cfg) : ckIdleEdge (b.view cfg .pin) = b.conf.pin.getLsbD 0 := by
  simp [ckIdleEdge, Bus.view, Bus.stored, wmask]

theorem ckOutEdge_view (b : Bus) (cfg : Cfg) : ckOutEdge (b.view cfg .user) = b.conf.user.getLsbD 1 := by
  simp [ckOutEdge, Bus.view, Bus.stored, wmask]

/-- WR_BIT_ORDER as a value (R237). -/
theorem view_ctrl_low (b : Bus) (cfg : Cfg) :
    b.view cfg .ctrl &&& 1 = if b.conf.ctrl.getLsbD 0 then 1 else 0 := by
  have low : b.view cfg .ctrl &&& 1 = b.conf.ctrl &&& 1#32 := BitVec.and_assoc b.conf.ctrl 3#32 1#32
  rw [low, BitVec.and_one_eq_setWidth_ofBool_getLsbD]
  cases b.conf.ctrl.getLsbD 0 <;> rfl

/-- A whole word is returned as it is (R10). -/
theorem retValue_whole (cfg : Cfg) (x y : Word) : retValue cfg (.low 0xFFFFFFFF) x y = x := BitVec.and_allOnes

/-- Settles O25: each getter reads stored registers, which is no draw, and answers what `Ret` makes of them. -/
theorem gettersReadTheirFields : Obligations.GettersReadTheirFields := by
  intro h s hr hu conf idle out
  refine ⟨?clock, ?mode, ?order⟩
  case clock =>
    rw [exec_eq, openingOf, handleOpening_eq hu,
      operate_one (hr.mono (by omega)) rfl (perform_rd_x_stored (by simp)), retValue_whole]
    rfl
  case mode =>
    have reads := (RunsIn.one (x := 0) (y := 0) (rest := [.rd .user .y])
      (perform_rd_x_stored (i := h.inst) (r := .pin) (s := s) (by simp))).trans
      (RunsIn.one (rest := []) (perform_rd_y_stored (r := .user) (by simp)))
    rw [exec_eq, openingOf, handleOpening_eq hu, taskOf, operate_runs hr reads, retValue, ckIdleEdge_view,
      ckOutEdge_view, modeOf_eq]
  case order =>
    rw [exec_eq, openingOf, handleOpening_eq hu,
      operate_one (hr.mono (by omega)) rfl (perform_rd_x_stored (by simp)), retValue, view_ctrl_low]

/-! ### The chip-select lines (R238, R239) -/

/-- A locked read-modify-write of one register is one change of the instance (R172). -/
theorem locked_rmw_completes {i : Fin 4} {r : Reg} {clear set : Word} {s : State} (hc : r ≠ .cmd) (hr : Ready 4 s)
    (hg : GuardFree i s) (hq : Quiet i s) :
    operate s (taskOf i (locked [.rmw r clear set]) 0 (.const 0)) = .next ((s.updBus i fun b =>
      b.store r (((b.view s.cfg r &&& ~~~clear) ||| set) &&& wmask s.cfg r)).finish .ok 0) := by
  refine locked_completes (n := 1) (fun b o => ?_) hr hg (fun u hu hq => ?_) hq
  · cases r <;> rfl
  · rw [← hu]
    exact (RunsIn.one (perform_rmw hc hq)).to (State.updBus_congr rfl)

/-- Settles O26: the mask's check, and a locked read-modify-write of PIN. -/
theorem chipSelectLinesFollowTheMask : Obligations.ChipSelectLinesFollowTheMask := by
  intro h mask s hr hu
  refine ⟨fun hm => ?invalid, fun hm hg hq => ?lines⟩
  case invalid =>
    have hbad : (mask &&& 0xFFF8 != 0) = true := bne_iff_ne.mpr fun e => absurd (csMask_le e) (by omega)
    constructor
    all_goals
      rw [exec_eq, openingOf, handleOpening_eq hu, csCheck, argCheck_stop hbad, operate_status (hr.mono (by omega))]
  case lines =>
    intro lines
    obtain ⟨hpass, hbits, hlines⟩ := csMask_small hm
    constructor
    · rw [exec_eq, openingOf, handleOpening_eq hu, csCheck, argCheck_pass hpass, hbits,
        locked_rmw_completes (by simp) (hr.mono (by omega)) hg hq]
      simp only [Bus.view, Bus.stored, Bus.store, wmask, pin_lines_off, lines]
    · rw [exec_eq, openingOf, handleOpening_eq hu, csCheck, argCheck_pass hpass, hbits,
        locked_rmw_completes (by simp) (hr.mono (by omega)) hg hq]
      simp only [Bus.view, Bus.stored, Bus.store, wmask, pin_lines_on _ _ hlines, lines]

/-! ### The transaction bracket (R240, R241) -/

section bracket
variable {i : Fin 4} {mode : Fin 4} {order : BitOrder} {clk x y : Word} {s : State}

/-- Clock, mode and order written one after another (R240). -/
theorem config_run (hq : Quiet i s) : RunsIn i 4 (.wr .clock clk :: (setModeOps mode ++ setOrderOps order)) x y s
    [] x y (s.updBus i fun b => ((b.withClock s.cfg clk).withMode mode).withOrder order) := by
  have hq1 := hq.updBus (f := Bus.withClock s.cfg clk) fun _ => rfl
  have hq2 := hq1.updBus (f := Bus.withMode mode) fun _ => rfl
  refine (((setClock_run hq).append (setModeOps mode ++ setOrderOps order)).trans
    (((setMode_run hq1).append (setOrderOps order)).trans (setOrder_run hq2))).to ?_
  simp only [State.updBus_updBus]

/-- The commit handshake, where the variant has it: ACT copies the configuration (R118, R240). -/
theorem commit_run (hq : Quiet i s) (he : EngineServes i s) :
    RunsIn i 3 (if s.cfg.hasCommit then [.wr .cmd 2, .poll .cmd 2] else []) x y s [] x y
      (s.updBus i fun b => { b with act := if s.cfg.hasCommit then b.conf else b.act }) := by
  cases hcm : s.cfg.hasCommit with
  | false => exact (RunsIn.refl.to (State.updBus_self rfl).symm).mono (by omega)
  | true =>
    have committed := await_commit (x := x) (y := y) (rest := []) (i := i)
      (s := s.updBus i fun b => { b with phase := .commit }) (by simp) he.updBus
    refine ((RunsIn.one (perform_commit hq hcm)).trans committed).to ?_
    rw [commitStep, State.updBus_updBus]
    apply State.updBus_congr
    have hphase : (s.getBus i).phase = .idle := hq
    rw [← hphase]
    rfl

theorem beginOps_blocks (cfg : Cfg) (clk : Word) (mode : Fin 4) (order : BitOrder) : beginOps cfg clk mode order =
    .acquire :: ((.wr .clock clk :: (setModeOps mode ++ setOrderOps order)) ++
      if cfg.hasCommit then [.wr .cmd 2, .poll .cmd 2] else []) := by
  simp only [beginOps, List.append_assoc, List.cons_append, List.nil_append]

theorem begin_run (hg : GuardFree i s) (hq : Quiet i s) (he : EngineServes i s) :
    RunsIn i 8 (beginOps s.cfg clk mode order) x y s [] x y (s.updBus i fun b =>
      let c := ((b.withClock s.cfg clk).withMode mode).withOrder order
      { c with act := if s.cfg.hasCommit then c.conf else c.act, owner := some s.cur }) := by
  rw [beginOps_blocks]
  have acquired := RunsIn.one (x := x) (y := y) (rest := (.wr .clock clk :: (setModeOps mode ++ setOrderOps order)) ++
      if s.cfg.hasCommit then [.wr .cmd 2, .poll .cmd 2] else []) (perform_acquire hg)
  have configured := config_run (mode := mode) (order := order) (clk := clk) (x := x) (y := y)
    (hq.setOwner (o := some s.cur))
  have committed := commit_run (x := x) (y := y) ((hq.setOwner (o := some s.cur)).updBus
    (f := fun b => ((b.withClock s.cfg clk).withMode mode).withOrder order) fun _ => rfl) he.setOwner.updBus
  refine ((acquired.trans (configured.append _)).trans committed).to ?_
  simp only [State.setOwner, State.updBus_updBus]
  rfl

end bracket

/-- Settles O27: the guard taken, then one change of the instance (`begin_run`); a held guard holds the acquire. -/
theorem beginTxnConfiguresUnderTheGuard : Obligations.BeginTxnConfiguresUnderTheGuard := by
  intro h clk mode order s hr hu
  have opens : exec (.beginTxn h clk mode order) s =
      operate s (.task ⟨h.inst, beginOps s.cfg clk mode order, 0, 0, .const 0⟩) := by
    rw [exec_eq, openingOf, handleOpening_eq hu, taskOf]
  rw [opens]
  refine ⟨fun hg hq he => ?completes, fun a hg ho => ?waits⟩
  case completes => exact operate_runs (hr.mono (by omega)) (begin_run hg hq he)
  case waits =>
    rw [beginOps_blocks]
    exact ⟨_, operate_holds (hr.mono (by omega)) rfl (perform_acquire_held hg (by simp [ho])) rfl⟩

/-- Settles O28: the one micro-step is the release. -/
theorem endTxnFreesTheGuard : Obligations.EndTxnFreesTheGuard := by
  intro h s hr hu
  rw [exec_eq, openingOf, handleOpening_eq hu]
  refine ⟨fun hg => ?mine, fun hg => ?notMine⟩
  case mine => exact operate_one hr rfl (perform_release hg)
  case notMine => exact operate_one_traps hr rfl (perform_release_notMine hg)

end Sys2Proof.Machine
end

section
/-! SUPPORT. The statements of the clock change (R249 to R252): what CLK_BEFORE and CLK_AFTER open with for the
notifier, the recomputation of CLOCK (`perform_retune`), and the solver's words as registers hold them
(`solveWord_masked`). -/

namespace Sys2Proof.Machine

theorem notifierOnly_notifier {s : State} (h : s.cur = .notifier) (i : Instr) (k : Opening) : notifierOnly s i k = k :=
  if_pos h

/-! ### CLK_BEFORE (R249) -/

section before
variable {i : Fin 4} {old new : Word} {s : State}

theorem openingOf_clkBefore (hn : s.cur = .notifier) (hi : i.val < s.cfg.nInst) :
    openingOf (.clkBefore i old new) s = taskOf i [.acquire, .poll .cmd 1] 0 (.const 0) := by
  rw [openingOf, notifierOnly_notifier hn, rawOpening_eq hi]

theorem openingOf_clkBefore_unmapped (hn : s.cur = .notifier) (hi : s.cfg.nInst ≤ i.val) :
    openingOf (.clkBefore i old new) s = .trap (.unmapped i none) := by
  rw [openingOf, notifierOnly_notifier hn, rawOpening_unmapped hi]

theorem txnCfg_owner (b : Bus) (o : Option Agent) (cfg : Cfg) :
    ({ b with owner := o } : Bus).txnCfg cfg = b.txnCfg cfg := rfl

/-- A completion step does not depend on the owner of the guard, and leaves it (R117). -/
theorem completeStep_setOwner (i : Fin 4) (o : Option Agent) (s : State) :
    completeStep i (s.setOwner i o) = (completeStep i s).setOwner i o := by
  unfold completeStep
  simp only [State.setOwner, State.updBus_cfg, State.updBus_updBus, State.getBus_updBus_same, txnCfg_owner]
  split
  · simp [State.updBus, State.record, State.getBus]
  · simp [State.updBus, State.addWire, State.addDraws, State.getBus]

/-- CMD.USR reads 0 with no transaction in flight, a commit in flight too (R31). -/
theorem readReg_cmd_usr_clear (hp : (s.getBus i).phase ≠ .busy) : (readReg i .cmd s).1 &&& 1 = 0 := by
  rw [readReg_cmd]
  cases h : (s.getBus i).phase with
  | idle => simp [cmdValue]
  | commit => simp [cmdValue]
  | busy => exact absurd h hp

theorem clkBefore_run_idle {x y : Word} (hg : GuardFree i s) (hp : (s.getBus i).phase ≠ .busy) :
    RunsIn i 3 [.acquire, .poll .cmd 1] x y s [] x y (s.setOwner i (some s.cur)) :=
  ((RunsIn.one (perform_acquire hg)).trans (RunsIn.one (rest := []) (perform_poll_clear
    (readReg_cmd_usr_clear (by simpa [State.setOwner] using hp))))).mono (by omega)

theorem clkBefore_run_busy {x y : Word} (hg : GuardFree i s) (hp : (s.getBus i).phase = .busy) (he : EngineServes i s)
    (hl : ((s.getBus i).txnCfg s.cfg).mosiDlen.toNat < 512) :
    RunsIn i 3 [.acquire, .poll .cmd 1] x y s [] x y ((completeStep i s).setOwner i (some s.cur)) := by
  have waited := await_complete (x := x) (y := y) (rest := []) (i := i) (s := s.setOwner i (some s.cur))
    (by simpa [State.setOwner] using hp) he.setOwner
    (by
      simp only [State.setOwner, State.updBus_cfg, State.getBus_updBus_same, txnCfg_owner]
      exact hl)
  rw [completeStep_setOwner] at waited
  exact (RunsIn.one (perform_acquire hg)).trans waited

end before

/-- Settles O29: the checks, the acquire in each state of the guard, and the poll of CMD.USR, which holds only in
BUSY. -/
theorem clkBeforeTakesTheGuard : Obligations.ClkBeforeTakesTheGuard := by
  intro i old new s hn hr
  refine ⟨?unmapped, ?absent, ?held, ?idle, ?busy⟩
  case unmapped =>
    intro hi
    rw [exec_eq, openingOf_clkBefore_unmapped hn hi, operate_trap (hr.mono (by omega))]
  case absent =>
    intro hi hg
    rw [exec_eq, openingOf_clkBefore hn hi]
    exact ⟨_, operate_traps (hr.mono (by omega)) rfl (perform_acquire_absent hg), .of_save⟩
  case held =>
    intro a hi hg ho
    rw [exec_eq, openingOf_clkBefore hn hi]
    exact ⟨_, operate_holds (hr.mono (by omega)) rfl (perform_acquire_held hg (by simp [ho])) rfl⟩
  case idle =>
    intro hi hg hp
    rw [exec_eq, openingOf_clkBefore hn hi, ← hn]
    exact operate_runs hr (clkBefore_run_idle hg hp)
  case busy =>
    intro hi hg hp he hl
    rw [exec_eq, openingOf_clkBefore hn hi, ← hn]
    exact operate_runs hr (clkBefore_run_busy hg hp he hl)

/-! ### CLK_AFTER (R250, R252) -/

/-- The frequency that the CLOCK of instance i achieves at input clock `fin` (R141). -/
def State.busFreq (i : Fin 4) (fin : Word) (s : State) : Nat :=
  freqOf s.cfg.preW fin.toNat ((s.getBus i).conf.clock &&& wmask s.cfg .clock)

section after
variable {i : Fin 4} {old new : Word} {s : State}

theorem openingOf_clkAfter (hn : s.cur = .notifier) (hi : i.val < s.cfg.nInst) (hg : GuardMine i s) :
    openingOf (.clkAfter i old new) s = taskOf i [.rd .clock .x, .retune old new, .release] 0 (.const 0) := by
  rw [openingOf, notifierOnly_notifier hn, rawOpening_eq hi, ownerCheck, if_pos (show (s.getBus i).owner = _ from hg)]

theorem openingOf_clkAfter_unmapped (hn : s.cur = .notifier) (hi : s.cfg.nInst ≤ i.val) :
    openingOf (.clkAfter i old new) s = .trap (.unmapped i none) := by
  rw [openingOf, notifierOnly_notifier hn, rawOpening_unmapped hi]

theorem openingOf_clkAfter_notMine (hn : s.cur = .notifier) (hi : i.val < s.cfg.nInst) (hg : ¬ GuardMine i s) :
    openingOf (.clkAfter i old new) s = .trap (.notOwner i) := by
  rw [openingOf, notifierOnly_notifier hn, rawOpening_eq hi, ownerCheck, if_neg (show ¬ (s.getBus i).owner = _ from hg)]

/-- CLOCK is read first, in flight too. -/
theorem clkAfter_reads {y : Word} {rest : List UOp} : RunsIn i 1 (.rd .clock .x :: rest) 0 y s rest
    ((s.getBus i).conf.clock &&& wmask s.cfg .clock) y s :=
  RunsIn.one (by rw [perform_rd_x, readReg_eq (.inr (by simp))]; rfl)

/-- The recomputation, with CLOCK read: nothing when it achieved 0 Hz, else the solver's word written. -/
theorem perform_retune {y : Word} :
    perform (.retune old new) i ((s.getBus i).conf.clock &&& wmask s.cfg .clock) y s =
      let x := (s.getBus i).conf.clock &&& wmask s.cfg .clock
      if s.busFreq i old = 0 then .done s x y
      else writeReg i .clock (solveWord s.cfg new.toNat (s.busFreq i old)) x y s := rfl

theorem exec_clkAfter_kept (hn : s.cur = .notifier) (hr : Ready 4 s) (hi : i.val < s.cfg.nInst) (hg : GuardMine i s)
    (hp : s.busFreq i old = 0) :
    exec (.clkAfter i old new) s = .next ((s.setOwner i none).finish .ok 0) := by
  rw [exec_eq, openingOf_clkAfter hn hi hg]
  have kept : perform (.retune old new) i ((s.getBus i).conf.clock &&& wmask s.cfg .clock) 0 s = .done s _ 0 :=
    perform_retune.trans (if_pos hp)
  exact operate_runs hr ((clkAfter_reads.trans (RunsIn.one (rest := [.release]) kept)).trans
    (RunsIn.one (perform_release hg)))

theorem exec_clkAfter_retuned (hn : s.cur = .notifier) (hr : Ready 4 s) (hi : i.val < s.cfg.nInst) (hg : GuardMine i s)
    (hq : Quiet i s) (hp : s.busFreq i old ≠ 0) :
    exec (.clkAfter i old new) s = .next ((s.updBus i fun b => { b with
      conf := { b.conf with clock := solveWord s.cfg new.toNat (s.busFreq i old) &&& wmask s.cfg .clock }
      owner := none }).finish .ok 0) := by
  have written : perform (.retune old new) i ((s.getBus i).conf.clock &&& wmask s.cfg .clock) 0 s =
      .done (s.updBus i (Bus.withClock s.cfg (solveWord s.cfg new.toNat (s.busFreq i old)))) _ 0 :=
    perform_retune.trans ((if_neg hp).trans (writeReg_store (by simp) hq))
  have mine : GuardMine i (s.updBus i (Bus.withClock s.cfg (solveWord s.cfg new.toNat (s.busFreq i old)))) := by
    simpa [GuardMine, Bus.withClock] using hg
  have released := RunsIn.one (x := (s.getBus i).conf.clock &&& wmask s.cfg .clock) (y := 0) (rest := [])
    (perform_release mine)
  rw [State.setOwner, State.updBus_updBus] at released
  rw [exec_eq, openingOf_clkAfter hn hi hg]
  exact operate_runs hr ((clkAfter_reads.trans (RunsIn.one (rest := [.release]) written)).trans released)

theorem exec_clkAfter_inFlight (hn : s.cur = .notifier) (hr : Ready 4 s) (hi : i.val < s.cfg.nInst) (hg : GuardMine i s)
    (hq : ¬ Quiet i s) (hp : s.busFreq i old ≠ 0) :
    ∃ t, exec (.clkAfter i old new) s = .next t ∧ Trapped (.busyWrite i .clock) s t := by
  have faults : perform (.retune old new) i ((s.getBus i).conf.clock &&& wmask s.cfg .clock) 0 s =
      .trap (.busyWrite i .clock) :=
    perform_retune.trans ((if_neg hp).trans (writeReg_inFlight hq))
  obtain ⟨o, e⟩ := (Faults.after clkAfter_reads (.now (n := 0) (rest := [.release]) faults)).operate (ret := .const 0)
    (hr.mono (by omega))
  rw [exec_eq, openingOf_clkAfter hn hi hg]
  exact ⟨_, e, .of_save⟩

end after

/-- Settles O30: the checks, and the recomputation in each of its cases (`perform_retune`). -/
theorem clkAfterRetunesAndReleases : Obligations.ClkAfterRetunesAndReleases := by
  intro i old new s hn hr prev
  refine ⟨?unmapped, ?notMine, exec_clkAfter_kept hn hr, ?retuned, ?inFlight⟩
  case unmapped =>
    intro hi
    rw [exec_eq, openingOf_clkAfter_unmapped hn hi, operate_trap (hr.mono (by omega))]
  case notMine =>
    intro hi hg
    rw [exec_eq, openingOf_clkAfter_notMine hn hi hg, operate_trap (hr.mono (by omega))]
  case retuned => exact fun hi hg hp hq => exec_clkAfter_retuned hn hr hi hg hq hp
  case inFlight => exact fun hi hg hp hq => exec_clkAfter_inFlight hn hr hi hg hq hp

/-- No word of the solver has a reserved bit (R145). -/
theorem solveWord_masked {cfg : Cfg} {fin t : Nat} (hc : cfgOk cfg = true) (ht : 1 ≤ t) :
    solveWord cfg fin t &&& wmask cfg .clock = solveWord cfg fin t := by
  rcases solveWord_cases (cfg := cfg) (fin := fin) ht with ⟨-, hw⟩ | ⟨-, hw⟩ | ⟨-, f, n, pre, h1, h63, hpre, hw, -⟩
  · rw [hw]
    exact (bypassWord_fields cfg).1
  · rw [hw]
    exact (divider_fields (le_refl (preMax cfg.preW)) (n := 63) (by decide) (minCfgL_ok hc)).1
  · rw [hw]
    exact (divider_fields hpre (show n < 64 by omega) (show (n + 1) / 2 < 64 by omega)).1

/-- Settles O36: the CLOCK that CLK_AFTER leaves is the solver's word (`solveWord_masked`), which decodes in each of its
three cases as R252 says. -/
theorem clockChangeKeepsTheFrequency : Obligations.ClockChangeKeepsTheFrequency := by
  intro i old new s hn hr hi hc hg hq p hp
  refine ⟨_, exec_clkAfter_retuned hn hr hi hg hq (Nat.one_le_iff_ne_zero.mp hp), ?_⟩
  have decoded : freqOf s.cfg.preW new.toNat
      (solveWord s.cfg new.toNat p &&& wmask s.cfg .clock &&& wmask s.cfg .clock) =
      freqOf s.cfg.preW new.toNat (solveWord s.cfg new.toNat p) := by
    rw [solveWord_masked hc hp, solveWord_masked hc hp]
  simp only [State.getBus_finish, State.getBus_updBus_same]
  rw [show s.busFreq i old = p from rfl, decoded]
  refine ⟨fun hle => ?bypass, fun hmin hlt => ?searched, fun hmin => ?minimum⟩
  case bypass => rw [solveWord_bypass hle, freqOf_bypassWord]
  case searched =>
    obtain ⟨f, hf, hle, hbest⟩ := solve_search hp hmin hlt
    rw [hf.freq]
    exact ⟨hle, hbest⟩
  case minimum => rw [solveWord_minCfg hmin, minFreq_eq hc]

end Sys2Proof.Machine
end

section
/-! SUPPORT. The notifier's protocol (R251): each move of a turn is a line of it, or leaves the notifier and fin
(`Turned.protocol_line`). -/

namespace Sys2Proof.Machine

/-! ### The order of the visits -/

theorem bringToFront_perm (k : Nat) (l : List (Fin 4)) : l.Perm (bringToFront k l) := by
  unfold bringToFront
  split
  next i hi =>
    obtain ⟨hlt, rfl⟩ := List.getElem?_eq_some_iff.mp hi
    exact (List.getElem_cons_eraseIdx_perm hlt).symm
  next => exact .refl l

/-- Whatever order the notifier visits them in, it visits the instances still to do (R251). -/
theorem visitOrder_perm (u : State) (todo : List (Fin 4)) : todo.Perm (visitOrder u todo) := by
  unfold visitOrder
  split
  · exact .refl todo
  · exact bringToFront_perm _ _

theorem none_to_visit {u : State} {todo : List (Fin 4)} (h : visitOrder u todo = []) : todo = [] :=
  (h ▸ visitOrder_perm u todo).eq_nil

/-! ### The lines of the protocol -/

/-- One line of the protocol leads from the notifier and fin of u to v and fin. -/
def ProtocolLine (u : State) (v : Notifier) (fin : Word) : Prop :=
  ProtocolStep u.cfg.finChanges[u.notifier.applied]? u.regset u.notifier u.fin v fin

theorem Notifier.eq_of_place {v : Notifier} {ph : NotifierPhase} {q : Option Pending} (hph : v.phase = ph)
    (hq : v.pending = q) : v = ⟨v.ctx, ph, q, v.applied⟩ := by
  subst hph hq
  rfl

section lines
variable {u t p : State} {q : Pending} {j : Fin 4} {todo rest : List (Fin 4)}

theorem ProtocolMove.line (h : ProtocolMove u p) (hn : NotifierInv u) : ProtocolLine u p.notifier p.fin := by
  unfold ProtocolLine
  cases h with
  | snap new hph hnew =>
    obtain ⟨-, hq, -⟩ := (notifierInv_idle hph).mp hn
    simp only [State.atPhase]
    rw [Notifier.eq_of_place hph hq]
    exact .snap _ _ _ _ hnew
  | opened old new regset hph =>
    obtain ⟨-, hq, -⟩ := (notifierInv_snapped hph).mp hn
    rw [Notifier.eq_of_place hph hq]
    exact .opened ..
  | changed todo q hph hq hv =>
    rw [none_to_visit hv] at hph
    simp only [State.atPhase, State.setFin]
    rw [Notifier.eq_of_place hph hq]
    exact .changed ..
  | marked i todo q hph hq =>
    rw [Notifier.eq_of_place hph hq]
    exact .marked ..
  | closed todo q hph hq hv =>
    rw [none_to_visit hv] at hph
    rw [Notifier.eq_of_place hph hq]
    exact .closed ..

/-- A turn of the notifier on an operation moves its pc by at most 1, and neither its place in the protocol nor fin. -/
theorem Acted.notifier (h : Acted u t) (ha : u.turn.agent = .notifier) : ∃ d : Ctx,
    (d.pc = u.notifier.ctx.pc ∨ d.pc = u.notifier.ctx.pc + 1) ∧ t.notifier = { u.notifier with ctx := d } ∧
      t.fin = u.fin := by
  have place {m : State} (hk : Kept u m) (f : Ctx → Ctx) :
      (m.updCtx f).notifier = { u.notifier with ctx := f u.notifier.ctx } ∧ (m.updCtx f).fin = u.fin := by
    rw [(updCtx_notifier_of (hk.turn ▸ ha) f).1, State.updCtx_fin, hk.notifier, hk.fin]
    exact ⟨rfl, rfl⟩
  cases h with
  | none => exact ⟨u.notifier.ctx, .inl rfl, rfl, rfl⟩
  | moved f hk _ _ hf => exact ⟨_, (hf u.notifier.ctx).imp And.left And.left, place hk f⟩
  | faulted f c hk _ _ hf => exact ⟨_, .inl (hf u.notifier.ctx).1, place hk f⟩

/-- A turn on a callback, before the protocol moves past it. -/
theorem Acted.callback_place {here : NotifierPhase} (h : Acted (u.atPhase here) t) (ha : u.turn.agent = .notifier)
    (hq : u.notifier.pending = some q) : ∃ d : Ctx,
    (d.pc = u.notifier.ctx.pc ∨ d.pc = u.notifier.ctx.pc + 1) ∧
      t.notifier = ⟨d, here, some q, u.notifier.applied⟩ ∧ t.fin = u.fin := by
  obtain ⟨d, hpc, hnt, hfin⟩ := h.notifier ha
  exact ⟨d, hpc, by rw [hnt, ← hq]; rfl, hfin⟩

/-- A turn on the callback at `here` moves along the protocol if both its going on and its completion, which the
protocol moves to `past`, are lines of it. -/
theorem Acted.callback_line {here past : NotifierPhase} (h : Acted (u.atPhase here) t) (ha : u.turn.agent = .notifier)
    (hq : u.notifier.pending = some q)
    (completes : t.notifier.phase = here → t.notifier.ctx.pc ≠ u.notifier.ctx.pc →
      afterCallback u.notifier.ctx.pc t = t.atPhase past)
    (goesOn : ∀ d : Ctx, d.pc = u.notifier.ctx.pc → ProtocolLine u ⟨d, here, some q, u.notifier.applied⟩ u.fin)
    (ends : ∀ d : Ctx, d.pc = u.notifier.ctx.pc + 1 → ProtocolLine u ⟨d, past, some q, u.notifier.applied⟩ u.fin) :
    ProtocolLine u (afterCallback u.notifier.ctx.pc t).notifier (afterCallback u.notifier.ctx.pc t).fin := by
  obtain ⟨d, hpc, hnt, hfin⟩ := h.callback_place ha hq
  have hd : t.notifier.ctx.pc = d.pc := by rw [hnt]
  rcases hpc with hsame | hnext
  · rw [afterCallback_same (hd.trans hsame), hnt, hfin]
    exact goesOn d hsame
  · rw [completes (by rw [hnt]) (by omega)]
    simp only [State.atPhase, hnt, hfin]
    exact ends d hnext

/-- A turn on CLK_BEFORE: it goes on, holds or faults, or it has completed. -/
theorem Acted.before_line (h : Acted (u.atPhase (.before (j :: rest))) t) (ha : u.turn.agent = .notifier)
    (hph : u.notifier.phase = .before todo) (hq : u.notifier.pending = some q) (hv : visitOrder u todo = j :: rest) :
    ProtocolLine u (afterCallback u.notifier.ctx.pc t).notifier (afterCallback u.notifier.ctx.pc t).fin := by
  have perm : todo.Perm (j :: rest) := hv ▸ visitOrder_perm u todo
  have place := Notifier.eq_of_place hph hq
  refine h.callback_line ha hq (fun hpht hpc => afterCallback_before hpc hpht) (fun d hd => ?_) fun d hd => ?_
  · rw [ProtocolLine, place]
    exact .calling _ _ _ _ _ _ _ perm hd
  · rw [ProtocolLine, place]
    exact .called _ _ _ _ _ _ _ _ perm hd

/-- A turn on CLK_AFTER: it goes on or faults, or it has completed. -/
theorem Acted.after_line (h : Acted (u.atPhase (.after (j :: rest))) t) (ha : u.turn.agent = .notifier)
    (hph : u.notifier.phase = .after todo) (hq : u.notifier.pending = some q) (hv : visitOrder u todo = j :: rest) :
    ProtocolLine u (afterCallback u.notifier.ctx.pc t).notifier (afterCallback u.notifier.ctx.pc t).fin := by
  have perm : todo.Perm (j :: rest) := hv ▸ visitOrder_perm u todo
  have place := Notifier.eq_of_place hph hq
  refine h.callback_line ha hq (fun hpht hpc => afterCallback_after hpc hpht) (fun d hd => ?_) fun d hd => ?_
  · rw [ProtocolLine, place]
    exact .retuning _ _ _ _ _ _ _ perm hd
  · rw [ProtocolLine, place]
    exact .retuned _ _ _ _ _ _ _ _ perm hd

/-- What a turn reaches in a caller's turn has the notifier and fin as before. -/
theorem Reached.notifier_of_caller {c : Nat} (h : Reached u t) (ha : u.turn.agent = .caller c) :
    t.notifier = u.notifier ∧ t.fin = u.fin :=
  h.notifier.resolve_right fun ⟨hn, _⟩ => by rw [ha] at hn; cases hn

/-- Every turn leaves the notifier and fin, or is the notifier's and moves them along one line of the protocol. -/
theorem Turned.protocol_line (h : Turned u t) (hn : NotifierInv u) : t.notifier = u.notifier ∧ t.fin = u.fin ∨
    u.turn.agent = .notifier ∧ u.stopped .notifier = false ∧ ProtocolLine u t.notifier t.fin := by
  cases h with
  | idle => exact .inl ⟨rfl, rfl⟩
  | engine j =>
    have hk := (engineStep_cases j u).kept
    exact .inl ⟨hk.notifier, hk.fin⟩
  | protocol ha hs hp => exact .inr ⟨ha, hs, (fetchNotifier_protocol hp).line hn⟩
  | illegal ha hk hd _ ho => exact .inl (((operate_acted ho).reached ha hk hd).notifier_of_caller ha)
  | caller ha hk hd _ he => exact .inl (((exec_acted he).reached ha hk hd).notifier_of_caller ha)
  | before ha hs _ hph hq hv he => exact .inr ⟨ha, hs, (exec_acted he).before_line ha hph hq hv⟩
  | after ha hs _ hph hq hv he => exact .inr ⟨ha, hs, (exec_acted he).after_line ha hph hq hv⟩

end lines

theorem State.takeTurn_regset (s : State) : s.takeTurn.regset = s.regset := by
  simp only [State.regset, State.takeTurn_cfg, State.getBus_takeTurn]

/-- Settles O58: taking the turn leaves the notifier, fin and REGSET, and every turn goes one of the ways of
`Turned.protocol_line`. -/
theorem notifierFollowsProtocol : Obligations.NotifierFollowsProtocol := by
  intro s t hn h
  have moves := (step_turned h).2.protocol_line (hn.congr s.takeTurn_notifier s.takeTurn_fin s.takeTurn_cfg)
  unfold ProtocolLine at moves
  rwa [State.takeTurn_notifier, State.takeTurn_fin, State.takeTurn_cfg, State.takeTurn_regset,
    State.stopped_takeTurn] at moves

end Sys2Proof.Machine
end

section
/-! SUPPORT. An agent that has faulted (60_exceptions.md, R273): its own turns do nothing, and the turns of the others
leave its place, its instance in flight and its guards (`Turned.rests`). -/

namespace Sys2Proof.Machine

/-- From s to t the faulted agent a has not moved: it is still stopped, its place is unchanged, an engine's instance in
flight is unchanged, and its guards are still its own. -/
structure Rests (a : Agent) (s t : State) : Prop where
  stopped : t.stopped a = true
  caller : ∀ c, a = .caller c → t.callers[c]? = s.callers[c]?
  notifier : a = .notifier → t.notifier = s.notifier ∧ t.fin = s.fin
  engine : ∀ i, a = .engine i → ¬ Quiet i s →
    (t.getBus i).phase = (s.getBus i).phase ∧ ∀ r, (t.getBus i).stored r = (s.getBus i).stored r
  guards : ∀ j, (s.getBus j).guardExists = true → (s.getBus j).owner = some a →
    (t.getBus j).guardExists = true ∧ (t.getBus j).owner = some a

section rests
variable {a : Agent} {s m t : State}

theorem Rests.refl (h : s.stopped a = true) : Rests a s s :=
  ⟨h, fun _ _ => rfl, fun _ => ⟨rfl, rfl⟩, fun _ _ _ => ⟨rfl, fun _ => rfl⟩, fun _ hg ho => ⟨hg, ho⟩⟩

theorem Rests.trans (h : Rests a s m) (g : Rests a m t) : Rests a s t where
  stopped := g.stopped
  caller c hc := (g.caller c hc).trans (h.caller c hc)
  notifier hn := by
    obtain ⟨hplace, hfin⟩ := h.notifier hn
    obtain ⟨gplace, gfin⟩ := g.notifier hn
    exact ⟨gplace.trans hplace, gfin.trans hfin⟩
  engine i hi hq := by
    obtain ⟨hphase, hstored⟩ := h.engine i hi hq
    obtain ⟨gphase, gstored⟩ := g.engine i hi fun hm => hq (hphase.symm.trans hm)
    exact ⟨gphase.trans hphase, fun r => (gstored r).trans (hstored r)⟩
  guards j hg ho := by
    obtain ⟨hg, ho⟩ := h.guards j hg ho
    exact g.guards j hg ho

/-- A turn of another agent: the only place it moves is its own, micro-steps and engine steps leave a faulted engine's
instance in flight, and only its holder frees a guard (`Kept`). -/
theorem Reached.rests (h : Reached s t) (hs : s.stopped a = true) (ha : a ≠ s.cur) : Rests a s t := by
  obtain ⟨m, hm, -, hb, -⟩ := h.machine
  refine ⟨stopped_of_prefix h.grown.faults hs, fun c hc => ?caller, fun hn => ?notifier, fun i hi hq => ?engine,
    fun j hg ho => ?guards⟩
  case caller =>
    rcases h.callers with e | ⟨c', f, hturn, -, -, -, e⟩
    · rw [e]
    · have hne : c' ≠ c := fun hcc => ha (by rw [hc, ← hcc]; exact hturn.symm)
      rw [e, List.getElem?_modify_ne _ _ hne]
  case notifier =>
    exact h.notifier.resolve_right fun ⟨hturn, _⟩ => ha (hn.trans hturn.symm)
  case engine =>
    rw [State.getBus_congr hb]
    exact hm.stuck i (hi ▸ hs) hq
  case guards =>
    rw [State.getBus_congr hb]
    exact ⟨hm.created j hg, hm.held j a hg ho ha⟩

/-- Whosever turn it is, a faulted agent rests: its own turn does nothing (`Turned.halted`). -/
theorem Turned.rests (h : Turned s t) (hs : s.stopped a = true) : Rests a s t := by
  by_cases ha : a = s.cur
  · rw [h.halted (ha ▸ hs)]
    exact .refl hs
  · exact h.reached.rests hs ha

theorem takeTurn_rests (hs : s.stopped a = true) : Rests a s s.takeTurn := by
  refine ⟨by rwa [State.stopped_takeTurn], fun c _ => by rw [State.takeTurn_callers],
    fun _ => ⟨s.takeTurn_notifier, s.takeTurn_fin⟩, fun i _ _ => ?engine, fun j hg ho => ?guards⟩
  case engine =>
    rw [State.getBus_takeTurn]
    exact ⟨rfl, fun _ => rfl⟩
  case guards =>
    rw [State.getBus_takeTurn]
    exact ⟨hg, ho⟩

theorem step_rests (h : step s = .next t) (hs : s.stopped a = true) : Rests a s t :=
  have taken := takeTurn_rests hs
  taken.trans ((step_turned h).2.rests taken.stopped)

theorem Run.rests {n : Nat} (h : Run n s t) (hs : s.stopped a = true) : Rests a s t := by
  induction h with
  | refl => exact .refl hs
  | next _ hstep ih => exact (ih hs).trans (step_rests hstep (ih hs).stopped)

end rests

/-! ### The statement -/

/-- Settles O55: a faulted agent rests over every step (`step_rests`), and resting composes along a run. -/
theorem faultedAgentsStop : Obligations.FaultedAgentsStop := by
  intro n s t a h hs
  have rests := h.rests hs
  exact ⟨rests.stopped, rests.caller, rests.notifier, rests.engine, fun j hg ho => (rests.guards j hg ho).2⟩

end Sys2Proof.Machine
end

section
/-! SUPPORT. Runs in which nothing moves any more (70_reset_and_hazards.md): an acquire by the guard's own holder holds
(R317 (a), `Deadlocked`), and a run that has ended moves its schedule only (R320, `RunEnded.run_eq`). -/

namespace Sys2Proof.Machine

/-! ### An acquire by the guard's own holder (R114, R317) -/

/-- Writing the running agent's place as it is changes nothing. -/
theorem State.updCtx_eq_self {s : State} {x : Ctx} {f : Ctx → Ctx} (hx : s.ctx? = some x) (hf : f x = x) :
    s.updCtx f = s := by
  unfold State.ctx? at hx
  unfold State.updCtx
  split
  next c ha =>
    simp only [ha, Option.map_eq_some_iff] at hx
    obtain ⟨k, hk, rfl⟩ := hx
    have hself : s.callers.modify c (fun l => { l with ctx := f l.ctx }) = s.callers := by
      obtain ⟨hlt, rfl⟩ := List.getElem?_eq_some_iff.mp hk
      rw [List.modify_eq_set_get _ hlt, List.get_eq_getElem, hf]
      exact List.set_getElem_self hlt
    rw [hself]
  next ha =>
    simp only [ha, Option.some.injEq] at hx
    rw [hx, hf, ← hx]
  next => rfl

/-- The running agent keeps the place inside its operation that it already has. -/
theorem State.save_eq_self {s : State} {x : Ctx} {o : Task} (hx : s.ctx? = some x) (ho : x.task = some o) :
    s.save o = s :=
  State.updCtx_eq_self hx (by rw [← ho])

/-- Caller c, whose state is k, is inside operation o at an acquire of the guard that it holds itself. -/
structure Deadlocked (c : Nat) (k : Caller) (o : Task) (s : State) : Prop where
  place : s.callers[c]? = some k
  inside : k.ctx.task = some o
  atAcquire : o.ops.head? = some .acquire
  created : (s.getBus o.inst).guardExists = true
  mine : (s.getBus o.inst).owner = some (.caller c)

section deadlock
variable {c : Nat} {k : Caller} {o : Task} {s u t : State}

theorem Deadlocked.takeTurn (h : Deadlocked c k o s) : Deadlocked c k o s.takeTurn where
  place := by rw [State.takeTurn_callers]; exact h.place
  inside := h.inside
  atAcquire := h.atAcquire
  created := by rw [State.getBus_takeTurn]; exact h.created
  mine := by rw [State.getBus_takeTurn]; exact h.mine

/-- The acquire finds the guard held and keeps its place, so the caller's own turn changes nothing, whatever operation
it would begin. -/
theorem Deadlocked.operate_eq (h : Deadlocked c k o u) (ha : u.turn.agent = .caller c) {p : Opening}
    (hp : operate u p = .next t) : t = u := by
  have hx : u.ctx? = some k.ctx := by simp [State.ctx?, ha, h.place]
  cases hs : u.stopped u.cur with
  | true => exact (operate_acted hp).halted hs
  | false =>
    by_cases hb : u.turn.burst = 0
    · simp only [operate, hx, hs, hb, Bool.false_eq_true, if_false] at hp
      cases hp
      rfl
    · obtain ⟨rest, hops⟩ := List.head?_eq_some_iff.mp h.atAcquire
      have hin : Inside o u := ⟨⟨k.ctx, hx, h.inside⟩, hs, Nat.one_le_iff_ne_zero.mpr hb⟩
      have holds := operate_keeps_place p hin (by rw [hops]; rfl)
        (perform_acquire_held (x := o.x) (y := o.y) h.created (by simp [h.mine])) rfl
      rw [holds, State.save_eq_self hx h.inside] at hp
      cases hp
      rfl

theorem Deadlocked.own_turn (h : Deadlocked c k o u) (ha : u.turn.agent = .caller c) (ht : Turned u t) : t = u := by
  have other {a : Agent} (hne : a ≠ .caller c) (he : u.turn.agent = a) : t = u := absurd (he.symm.trans ha) hne
  cases ht with
  | idle => rfl
  | engine j he => exact other (by simp) he
  | protocol he => exact other (by simp) he
  | illegal _ _ _ _ ho => exact h.operate_eq ha ho
  | caller _ _ _ _ he =>
    rw [exec_eq] at he
    exact h.operate_eq ha he
  | before he => exact other (by simp) he
  | after he => exact other (by simp) he

/-- A turn of another agent leaves the caller's place and the guard it holds (`Reached.caller`, `Kept.held`). -/
theorem Deadlocked.other_turn (h : Deadlocked c k o u) (ha : u.turn.agent ≠ .caller c) (ht : Reached u t) :
    Deadlocked c k o t := by
  obtain ⟨m, hm, -, hbus, -⟩ := ht.machine
  refine ⟨(ht.caller h.place).resolve_right fun ⟨hc, _⟩ => ha hc, h.inside, h.atAcquire, ?created, ?mine⟩
  case created =>
    rw [State.getBus_congr hbus]
    exact hm.created _ h.created
  case mine =>
    rw [State.getBus_congr hbus]
    exact hm.held _ _ h.created h.mine (Ne.symm ha)

theorem Deadlocked.step (h : Deadlocked c k o s) (hs : step s = .next t) : Deadlocked c k o t := by
  obtain ⟨-, ht⟩ := step_turned hs
  by_cases ha : s.takeTurn.turn.agent = .caller c
  · rw [h.takeTurn.own_turn ha ht]
    exact h.takeTurn
  · exact h.takeTurn.other_turn ha ht.reached

theorem Deadlocked.run {n : Nat} (h : Deadlocked c k o s) (hr : Run n s t) : Deadlocked c k o t := by
  induction hr with
  | refl => exact h
  | next _ hs ih => exact (ih h).step hs

end deadlock

/-! ### A run that has ended (R320) -/

section ended
variable {s u t p : State}

/-- Past the last entry of FIN_CHANGES and with no change pending, the notifier is at no line of its protocol. -/
theorem RunEnded.no_protocolMove (h : RunEnded u) (hn : NotifierInv u) : ¬ ProtocolMove u p := by
  obtain ⟨happlied, hpending⟩ := h.notifier
  have noNews : u.cfg.finChanges[u.notifier.applied]? = none := List.getElem?_eq_none happlied.ge
  intro hm
  cases hm with
  | snap new _ hnew => exact nomatch noNews.symm.trans hnew
  | opened old new regset hph =>
    obtain ⟨-, -, -, -, hnew⟩ := (notifierInv_snapped hph).mp hn
    exact nomatch noNews.symm.trans hnew
  | changed _ _ _ hq => exact nomatch hpending.symm.trans hq
  | marked _ _ _ _ hq => exact nomatch hpending.symm.trans hq
  | closed _ _ _ hq => exact nomatch hpending.symm.trans hq

theorem RunEnded.current_none (h : RunEnded u) {c : Nat} {k : Caller} (hk : u.callers[c]? = some k) :
    k.current = none :=
  Caller.current_none (h.callers k (List.mem_of_getElem? hk)).ge

/-- No agent has a step left: every turn leaves the state it was taken in. -/
theorem RunEnded.turned_eq (h : RunEnded u) (hn : NotifierInv u) (ht : Turned u t) : t = u := by
  obtain ⟨-, hpending⟩ := h.notifier
  cases ht with
  | idle => rfl
  | engine j => exact engineStep_quiet (h.engines j)
  | protocol _ _ hp => exact absurd (fetchNotifier_protocol hp) (h.no_protocolMove hn)
  | illegal _ hk hd => exact nomatch (h.current_none hk).symm.trans hd
  | caller _ hk hd => exact nomatch (h.current_none hk).symm.trans hd
  | before _ _ _ _ hq => exact nomatch hpending.symm.trans hq
  | after _ _ _ _ hq => exact nomatch hpending.symm.trans hq

/-- s at another point of its schedule: the turn, what is listed, and the count of the free turns. -/
def State.reschedule (s : State) (turn : Turn) (sched : List Turn) (ticks : Nat) : State :=
  { s with turn := turn, sched := sched, ticks := ticks }

theorem State.takeTurn_eq (s : State) : ∃ τ l n, s.takeTurn = s.reschedule τ l n := by
  unfold State.takeTurn
  split <;> exact ⟨_, _, _, rfl⟩

/-- Whether the run has ended does not depend on the schedule. -/
theorem RunEnded.reschedule (h : RunEnded s) (τ : Turn) (l : List Turn) (n : Nat) : RunEnded (s.reschedule τ l n) :=
  ⟨h.callers, h.notifier, h.engines, h.faults⟩

theorem RunEnded.step_eq (h : RunEnded s) (hn : NotifierInv s) (hs : step s = .next t) :
    ∃ τ l n, t = s.reschedule τ l n := by
  obtain ⟨τ, l, n, htaken⟩ := s.takeTurn_eq
  have ht := (step_turned hs).2
  rw [htaken] at ht
  exact ⟨τ, l, n, (h.reschedule τ l n).turned_eq (hn.congr rfl rfl rfl) ht⟩

theorem RunEnded.run_eq {n : Nat} (h : RunEnded s) (hn : NotifierInv s) (hr : Run n s t) :
    ∃ τ l n, t = s.reschedule τ l n := by
  induction hr with
  | refl s => exact ⟨s.turn, s.sched, s.ticks, rfl⟩
  | next _ hs ih =>
    obtain ⟨τ, l, n, rfl⟩ := ih h hn
    exact (h.reschedule τ l n).step_eq (hn.congr rfl rfl rfl) hs

end ended

/-! ### The statements -/

/-- Settles O54: the caller's own turn changes nothing, every other turn leaves its place and its guard
(`Deadlocked.step`), and so does the run. -/
theorem reentrantAcquireDeadlocks : Obligations.ReentrantAcquireDeadlocks := by
  intro n s t c k o hr hk hin hacq hg ho
  have stuck := Deadlocked.run ⟨hk, hin, hacq, hg, ho⟩ hr
  exact ⟨stuck.place, stuck.mine⟩

/-- Settles O59: with no agent left that has a step, a run moves its schedule only (`RunEnded.run_eq`). -/
theorem endedRunStaysEnded : Obligations.EndedRunStaysEnded := by
  intro n s t hi he hr
  obtain ⟨τ, l, ticks, rfl⟩ := he.run_eq hi.notifier hr
  exact ⟨he.reschedule τ l ticks, rfl, rfl, rfl, rfl, rfl, rfl⟩

end Sys2Proof.Machine
end
